-- ==== Sys2Proof/Word.lean ====
section
/-! DEFINITION. Word.lean: the word types, the shapes of what travels on the register bus, and the
small enumerations the spec gives by name (spec/00_scope.md R10, R13; spec/30_encoding.md R131;
spec/10_state.md R48, R52 to R55, R63). -/

namespace Sys2Proof

/-- A byte of the byte-addressed view of the register space (20_memory.md R102). -/
abbrev Byte := BitVec 8

/-- A register word: all register words are 32 bits (00_scope.md R10). -/
abbrev Word := BitVec 32

/-- An IEEE 754 binary32 number, held as its 32-bit encoding (00_scope.md R13, R24). -/
abbrev F32 := BitVec 32

/-- A voice index 0..15 (10_state.md R60). -/
abbrev VoiceIdx := Fin 16

/-- A unit index 0..2: phasors carrier, sub, PM; smoothers amount 1, amount 2, depth (10_state.md R60). -/
abbrev UnitIdx := Fin 3

/-- A lane 0..3 of the 4-lane units and of the operand banks (00_scope.md R8). -/
abbrev LaneIdx := Fin 4

/-- One bus request: the 13-bit header (WE in bit 12, ADDR in bits 11..0) and the data word, which only a
REG_WR carries (30_encoding.md R131). A read's data word is not looked at. -/
structure BusRequest where
  header : BitVec 13
  data   : Word
deriving DecidableEq, Repr

/-- What the host can do to the core (00_scope.md R7): one bus request, or one hardware reset
(70_reset_and_hazards.md R370). -/
inductive HostEvent where
  | request (r : BusRequest)
  | hardReset
deriving DecidableEq, Repr

/-- The smoother's mode bit: 0 exponential, 1 linear (10_state.md R63). -/
inductive SmoothMode where
  | exponential
  | linear
deriving DecidableEq, Repr

/-- Window shapes, in the numbering of 10_state.md R54: 0 none, 1 triangle, 2 sawtooth. -/
inductive WindowMode where
  | flat
  | triangle
  | sawtooth
deriving DecidableEq, Repr

/-- Distortion algorithms, in the numbering of 10_state.md R52: 0 Bend, 1 Sync, 2 Formant, 3 Fold. -/
inductive Algorithm where
  | bend
  | sync
  | formant
  | fold
deriving DecidableEq, Repr

/-- Routing, in the numbering of 10_state.md R53: 0 PM before the cascade, 1 after. -/
inductive Routing where
  | before
  | after
deriving DecidableEq, Repr

/-- Auxiliary-output modes, in the numbering of 10_state.md R55: 0 quadrature, 1 unison sine,
2 sub-octave sine, 3 raw phasor. -/
inductive AuxMode where
  | quadrature
  | unison
  | subOctave
  | rawPhasor
deriving DecidableEq, Repr

/-- The oversampling factors 1, 2, 4, 8, 16 (00_scope.md R8, 10_state.md R48). -/
inductive OsFactor where
  | x1
  | x2
  | x4
  | x8
  | x16
deriving DecidableEq, Repr

end Sys2Proof
end

