-- ==== Sys2Proof/Syntax.lean ====
section
/-! DEFINITION. Syntax.lean: the instructions, one constructor per row of spec/opcode_table.json
(spec/30_encoding.md R131 to R135). The operand types admit exactly the values the encoding admits:
V is 0..15, U is 0..2 (U = 3 is no instruction, R136), M is a window shape (M = 3 is no instruction). -/

namespace Sys2Proof

inductive Instr where
  /-- NOP, 46_engine.md R313. -/
  | nop
  /-- TICK, 46_engine.md R300. -/
  | tick
  /-- RESET, 46_engine.md R310. -/
  | reset
  /-- CLEAR, 46_engine.md R312. -/
  | clear
  /-- PH_SETFREQ v, u, 40_phasor.md R164. -/
  | phSetfreq (v : VoiceIdx) (u : UnitIdx)
  /-- PH_PROCESS v, u, 40_phasor.md R165. -/
  | phProcess (v : VoiceIdx) (u : UnitIdx)
  /-- PH_SETSR v, u, 40_phasor.md R167. -/
  | phSetsr (v : VoiceIdx) (u : UnitIdx)
  /-- SM_INIT v, u, mode (field F), 41_smoother.md R187. -/
  | smInit (v : VoiceIdx) (u : UnitIdx) (mode : SmoothMode)
  /-- SM_SET v, u [, imm] (field F), 41_smoother.md R188. -/
  | smSet (v : VoiceIdx) (u : UnitIdx) (imm : Bool)
  /-- SM_PROCESS v, u, 41_smoother.md R189. -/
  | smProcess (v : VoiceIdx) (u : UnitIdx)
  /-- PD_BEND, 42_waveshaper.md R207. -/
  | pdBend
  /-- PD_SYNC, 42_waveshaper.md R208. -/
  | pdSync
  /-- PD_FORMANT, 42_waveshaper.md R209. -/
  | pdFormant
  /-- PD_FOLD, 42_waveshaper.md R210. -/
  | pdFold
  /-- PM_INJECT, 43_pdo_block.md R234. -/
  | pmInject
  /-- WIN_EVAL mode (field M), 43_pdo_block.md R235. -/
  | winEval (w : WindowMode)
  /-- FN_SIN2PI, 42_waveshaper.md R211. -/
  | fnSin2pi
  /-- FN_COS2PI, 42_waveshaper.md R212. -/
  | fnCos2pi
  /-- FN_EXP, 42_waveshaper.md R213. -/
  | fnExp
  /-- FN_EXP2, 42_waveshaper.md R214. -/
  | fnExp2
  /-- RB_PUSH v, 44_ring_buffer.md R267. -/
  | rbPush (v : VoiceIdx)
  /-- RB_POP v, 44_ring_buffer.md R268. -/
  | rbPop (v : VoiceIdx)
  /-- REG_WR addr, data, 46_engine.md R314. -/
  | regWr (addr : BitVec 12) (data : Word)
  /-- REG_RD addr, 46_engine.md R315. -/
  | regRd (addr : BitVec 12)
deriving DecidableEq, Repr

end Sys2Proof
end

