-- ==== Sys2Proof/WellFormed.lean ====
section
/-! DEFINITION. WellFormed.lean: which instructions are the canonical reading of their words. The operand
types of Syntax.lean already exclude U = 3 and M = 3; what is left to check is that a REG_WR to CMD does not
carry a command word, because those words ARE the command (spec/30_encoding.md R130, R136; log 8). The test
for "is a command word" is the opcode table itself, written as rows of match, mask and constraints
(spec/opcode_table.json, spec/30_encoding.md R134, R135), independent of the decoder. -/

namespace Sys2Proof

/-- One CMD row of spec/opcode_table.json: the word matches when its bits under `mask` are `pattern`;
`unitField` and `windowField` say that the row carries the constraint U != 3, respectively M != 3. -/
structure CommandRow where
  pattern     : Word
  mask        : Word
  unitField   : Bool
  windowField : Bool
deriving DecidableEq, Repr

/-- The word is one of the row's. -/
def CommandRow.admits (r : CommandRow) (w : Word) : Bool :=
  (w &&& r.mask) == r.pattern
    && !(r.unitField && w.extractLsb' 12 2 == 3#2)
    && !(r.windowField && w.extractLsb' 14 2 == 3#2)

/-- The CMD rows of spec/opcode_table.json, in the table's order. -/
def commandTable : List CommandRow :=
  [ ⟨0x00000000, 0xFFFFFFFF, false, false⟩   -- NOP
  , ⟨0x00000001, 0xFFFFFFFF, false, false⟩   -- TICK
  , ⟨0x00000002, 0xFFFFFFFF, false, false⟩   -- RESET
  , ⟨0x00000003, 0xFFFFFFFF, false, false⟩   -- CLEAR
  , ⟨0x00000010, 0xFFFFC0FF, true, false⟩    -- PH_SETFREQ
  , ⟨0x00000011, 0xFFFFC0FF, true, false⟩    -- PH_PROCESS
  , ⟨0x00000012, 0xFFFFC0FF, true, false⟩    -- PH_SETSR
  , ⟨0x00000018, 0xFFFEC0FF, true, false⟩    -- SM_INIT
  , ⟨0x00000019, 0xFFFEC0FF, true, false⟩    -- SM_SET
  , ⟨0x0000001A, 0xFFFFC0FF, true, false⟩    -- SM_PROCESS
  , ⟨0x00000020, 0xFFFFFFFF, false, false⟩   -- PD_BEND
  , ⟨0x00000021, 0xFFFFFFFF, false, false⟩   -- PD_SYNC
  , ⟨0x00000022, 0xFFFFFFFF, false, false⟩   -- PD_FORMANT
  , ⟨0x00000023, 0xFFFFFFFF, false, false⟩   -- PD_FOLD
  , ⟨0x00000028, 0xFFFFFFFF, false, false⟩   -- PM_INJECT
  , ⟨0x00000029, 0xFFFF3FFF, false, true⟩    -- WIN_EVAL
  , ⟨0x0000002C, 0xFFFFFFFF, false, false⟩   -- FN_SIN2PI
  , ⟨0x0000002D, 0xFFFFFFFF, false, false⟩   -- FN_COS2PI
  , ⟨0x0000002E, 0xFFFFFFFF, false, false⟩   -- FN_EXP
  , ⟨0x0000002F, 0xFFFFFFFF, false, false⟩   -- FN_EXP2
  , ⟨0x00000030, 0xFFFFF0FF, false, false⟩   -- RB_PUSH
  , ⟨0x00000031, 0xFFFFF0FF, false, false⟩   -- RB_POP
  ]

/-- The word is a legal command: some row of the table admits it (30_encoding.md R136, R137). -/
def isCommandWord (w : Word) : Bool :=
  commandTable.any fun r => r.admits w

/-- The address of CMD (20_memory.md R104). -/
def cmdAddr : BitVec 12 := 0x004

/-- The instruction is the canonical reading of its encoding. Only one form is not: a REG_WR to CMD whose data
is a command word, which is read as that command. -/
def Instr.wellFormed : Instr → Bool
  | .nop => true
  | .tick => true
  | .reset => true
  | .clear => true
  | .phSetfreq _ _ => true
  | .phProcess _ _ => true
  | .phSetsr _ _ => true
  | .smInit _ _ _ => true
  | .smSet _ _ _ => true
  | .smProcess _ _ => true
  | .pdBend => true
  | .pdSync => true
  | .pdFormant => true
  | .pdFold => true
  | .pmInject => true
  | .winEval _ => true
  | .fnSin2pi => true
  | .fnCos2pi => true
  | .fnExp => true
  | .fnExp2 => true
  | .rbPush _ => true
  | .rbPop _ => true
  | .regWr addr data => !(addr == cmdAddr && isCommandWord data)
  | .regRd _ => true

end Sys2Proof
end

