-- ==== Sys2Proof/Decode.lean ====
section
/-! DEFINITION. Decode.lean: from bus requests and command words to instructions, and back
(spec/30_encoding.md R130 to R138). Decoding depends on the bits alone (R138). A command word that is not legal
is rejected by name; on the bus such a word is still a defined request, a REG_WR to CMD, whose meaning raises
CMD_ILL (R136, R137). -/

namespace Sys2Proof

/-- Why a CMD word is no command: the checks of 30_encoding.md R136, in its order. -/
inductive CommandReject where
  /-- OPC is not in the opcode column of R135. -/
  | unassignedOpcode
  /-- Bits [31:17] are not 0. -/
  | reservedBits
  /-- A field that R134 marks 0 for this opcode is not 0. -/
  | unusedField
  /-- The opcode uses U and U = 3. -/
  | unitThree
  /-- WIN_EVAL with M = 3. -/
  | windowThree
deriving DecidableEq, Repr

/-! ## Fields (R132, R133) -/

def opcField (w : Word) : BitVec 8 := w.extractLsb' 0 8
def vField (w : Word) : BitVec 4 := w.extractLsb' 8 4
def uField (w : Word) : BitVec 2 := w.extractLsb' 12 2
def mField (w : Word) : BitVec 2 := w.extractLsb' 14 2
def fField (w : Word) : BitVec 1 := w.extractLsb' 16 1
def rsvField (w : Word) : BitVec 15 := w.extractLsb' 17 15

/-- V names voice V (R133). -/
def voiceOfField (f : BitVec 4) : VoiceIdx := f.toFin

/-- U names unit U; 3 is reserved (R132). -/
def unitOfField (f : BitVec 2) : Option UnitIdx :=
  if f = 0 then some 0 else if f = 1 then some 1 else if f = 2 then some 2 else none

/-- M names the window shape; 3 is reserved (R132). -/
def windowOfField (f : BitVec 2) : Option WindowMode :=
  if f = 0 then some .flat else if f = 1 then some .triangle else if f = 2 then some .sawtooth else none

/-- F is the mode of SM_INIT (R132). -/
def modeOfField (f : BitVec 1) : SmoothMode :=
  if f = 1 then .linear else .exponential

/-- F is the immediate flag of SM_SET (R132). -/
def immOfField (f : BitVec 1) : Bool := f == 1#1

/-- Which of the fields V, U, M, F an opcode uses (R134); the others must be 0. -/
structure FieldUse where
  v : Bool
  u : Bool
  m : Bool
  f : Bool
deriving DecidableEq, Repr

/-- The field use of each assigned opcode (R134); none for the 234 unassigned ones (R137). -/
def fieldUse (opc : BitVec 8) : Option FieldUse :=
  match opc.toNat with
  | 0x00 => some ⟨false, false, false, false⟩
  | 0x01 => some ⟨false, false, false, false⟩
  | 0x02 => some ⟨false, false, false, false⟩
  | 0x03 => some ⟨false, false, false, false⟩
  | 0x10 => some ⟨true, true, false, false⟩
  | 0x11 => some ⟨true, true, false, false⟩
  | 0x12 => some ⟨true, true, false, false⟩
  | 0x18 => some ⟨true, true, false, true⟩
  | 0x19 => some ⟨true, true, false, true⟩
  | 0x1A => some ⟨true, true, false, false⟩
  | 0x20 => some ⟨false, false, false, false⟩
  | 0x21 => some ⟨false, false, false, false⟩
  | 0x22 => some ⟨false, false, false, false⟩
  | 0x23 => some ⟨false, false, false, false⟩
  | 0x28 => some ⟨false, false, false, false⟩
  | 0x29 => some ⟨false, false, true, false⟩
  | 0x2C => some ⟨false, false, false, false⟩
  | 0x2D => some ⟨false, false, false, false⟩
  | 0x2E => some ⟨false, false, false, false⟩
  | 0x2F => some ⟨false, false, false, false⟩
  | 0x30 => some ⟨true, false, false, false⟩
  | 0x31 => some ⟨true, false, false, false⟩
  | _ => none

/-- A field the opcode does not use is nonzero (R134, R136). -/
def unusedNonzero (use : FieldUse) (w : Word) : Bool :=
  (!use.v && vField w != 0) || (!use.u && uField w != 0) || (!use.m && mField w != 0) || (!use.f && fField w != 0)

/-- The instruction an assigned opcode names, with its fields (R135); the checks on RSV and on unused fields
have been made. -/
def selectCommand (w : Word) : Except CommandReject Instr :=
  let v := voiceOfField (vField w)
  let withUnit (k : UnitIdx → Instr) : Except CommandReject Instr :=
    match unitOfField (uField w) with
    | some u => .ok (k u)
    | none => .error .unitThree
  match (opcField w).toNat with
  | 0x00 => .ok .nop
  | 0x01 => .ok .tick
  | 0x02 => .ok .reset
  | 0x03 => .ok .clear
  | 0x10 => withUnit fun u => .phSetfreq v u
  | 0x11 => withUnit fun u => .phProcess v u
  | 0x12 => withUnit fun u => .phSetsr v u
  | 0x18 => withUnit fun u => .smInit v u (modeOfField (fField w))
  | 0x19 => withUnit fun u => .smSet v u (immOfField (fField w))
  | 0x1A => withUnit fun u => .smProcess v u
  | 0x20 => .ok .pdBend
  | 0x21 => .ok .pdSync
  | 0x22 => .ok .pdFormant
  | 0x23 => .ok .pdFold
  | 0x28 => .ok .pmInject
  | 0x29 =>
    match windowOfField (mField w) with
    | some m => .ok (.winEval m)
    | none => .error .windowThree
  | 0x2C => .ok .fnSin2pi
  | 0x2D => .ok .fnCos2pi
  | 0x2E => .ok .fnExp
  | 0x2F => .ok .fnExp2
  | 0x30 => .ok (.rbPush v)
  | 0x31 => .ok (.rbPop v)
  | _ => .error .unassignedOpcode

/-- The command a CMD word is, or the first check of R136 it fails. -/
def decodeCommand (w : Word) : Except CommandReject Instr :=
  match fieldUse (opcField w) with
  | none => .error .unassignedOpcode
  | some use =>
    if rsvField w != 0 then .error .reservedBits
    else if unusedNonzero use w then .error .unusedField
    else selectCommand w

/-- The instruction a bus request is (R130, R131): a read; a write; or, for a write to CMD of a legal command
word, that command. Every request is some instruction. -/
def decodeRequest (r : BusRequest) : Instr :=
  let addr : BitVec 12 := r.header.extractLsb' 0 12
  if r.header.msb then
    if addr = cmdAddr then
      match decodeCommand r.data with
      | .ok i => i
      | .error _ => .regWr addr r.data
    else .regWr addr r.data
  else .regRd addr

/-! ## Bytes

A word occupies four bytes, byte k carrying bits 8k+7..8k (20_memory.md R102). The opcode table numbers a CMD row as
the 32-bit command word and a BUS row as the 13-bit header, which is laid out here as a 16-bit little-endian unit
with bits 15..13 zero, followed by the data word of a write (log 10). -/

/-- The word that four bytes carry (R102). -/
def wordOfBytes (b0 b1 b2 b3 : Byte) : Word := b3 ++ b2 ++ b1 ++ b0

/-- Byte k of a word (R102). -/
def byteOfWord (w : Word) (k : Fin 4) : Byte := w.extractLsb' (8 * k.val) 8

/-- The header in two bytes; the three bits above it must be 0. -/
def headerOfBytes (b0 b1 : Byte) : Option (BitVec 13) :=
  let h : BitVec 16 := b1 ++ b0
  if h.extractLsb' 13 3 = 0 then some (h.extractLsb' 0 13) else none

/-- The bus request that a table row's bytes stand for: four bytes are a command word, carried to CMD by a REG_WR
(R132); two or six bytes are a header with a zero or a given data word (R131). -/
def requestOfBytes : List Byte → Option BusRequest
  | [b0, b1, b2, b3] => some ⟨0x1004, wordOfBytes b0 b1 b2 b3⟩
  | [h0, h1] => (headerOfBytes h0 h1).map fun h => ⟨h, 0⟩
  | [h0, h1, b0, b1, b2, b3] => (headerOfBytes h0 h1).map fun h => ⟨h, wordOfBytes b0 b1 b2 b3⟩
  | _ => none

/-- The instruction that a row's bytes are; four bytes must be a legal command word. Total on any bytes. -/
def decodeBytes (bs : List Byte) : Option Instr :=
  match bs with
  | [b0, b1, b2, b3] => (decodeCommand (wordOfBytes b0 b1 b2 b3)).toOption
  | _ => (requestOfBytes bs).map decodeRequest

/-- The lowest `n` bytes of a number, lowest first. -/
def bytesOfNat : Nat → Nat → List Byte
  | 0, _ => []
  | n + 1, w => BitVec.ofNat 8 w :: bytesOfNat n (w / 256)

/-- The instruction the decoder reads from a row of `nbits` bits whose bits are `w`, bit 0 the least significant
of the first word. -/
def decodeTableWord (nbits w : Nat) : Option Instr :=
  decodeBytes (bytesOfNat ((nbits + 7) / 8) w)

/-- The bus request those same bits stand for. -/
def requestOfTableWord (nbits w : Nat) : Option BusRequest :=
  requestOfBytes (bytesOfNat ((nbits + 7) / 8) w)

/-! ## Encoder (R131, R132, R140) -/

def voiceField (v : VoiceIdx) : BitVec 4 := BitVec.ofFin v

def unitField (u : UnitIdx) : BitVec 2 := BitVec.ofNat 2 u.val

def windowField : WindowMode → BitVec 2
  | .flat => 0
  | .triangle => 1
  | .sawtooth => 2

def modeField : SmoothMode → BitVec 1
  | .exponential => 0
  | .linear => 1

def immField (imm : Bool) : BitVec 1 := BitVec.ofBool imm

/-- `word = OPC | (V << 8) | (U << 12) | (M << 14) | (F << 16)`, RSV zero (R132). -/
def commandWord (opc : BitVec 8) (v : BitVec 4) (u m : BitVec 2) (f : BitVec 1) : Word :=
  (0 : BitVec 15) ++ f ++ m ++ u ++ v ++ opc

/-- The request that carries a command word: a REG_WR to CMD (R132). -/
def carryCommand (w : Word) : BusRequest := ⟨1#1 ++ cmdAddr, w⟩

/-- The bus request that is an instruction's encoding (R131, R132, R135, R140). A read's data word is 0. -/
def encode : Instr → BusRequest
  | .nop => carryCommand (commandWord 0x00 0 0 0 0)
  | .tick => carryCommand (commandWord 0x01 0 0 0 0)
  | .reset => carryCommand (commandWord 0x02 0 0 0 0)
  | .clear => carryCommand (commandWord 0x03 0 0 0 0)
  | .phSetfreq v u => carryCommand (commandWord 0x10 (voiceField v) (unitField u) 0 0)
  | .phProcess v u => carryCommand (commandWord 0x11 (voiceField v) (unitField u) 0 0)
  | .phSetsr v u => carryCommand (commandWord 0x12 (voiceField v) (unitField u) 0 0)
  | .smInit v u mode => carryCommand (commandWord 0x18 (voiceField v) (unitField u) 0 (modeField mode))
  | .smSet v u imm => carryCommand (commandWord 0x19 (voiceField v) (unitField u) 0 (immField imm))
  | .smProcess v u => carryCommand (commandWord 0x1A (voiceField v) (unitField u) 0 0)
  | .pdBend => carryCommand (commandWord 0x20 0 0 0 0)
  | .pdSync => carryCommand (commandWord 0x21 0 0 0 0)
  | .pdFormant => carryCommand (commandWord 0x22 0 0 0 0)
  | .pdFold => carryCommand (commandWord 0x23 0 0 0 0)
  | .pmInject => carryCommand (commandWord 0x28 0 0 0 0)
  | .winEval w => carryCommand (commandWord 0x29 0 0 (windowField w) 0)
  | .fnSin2pi => carryCommand (commandWord 0x2C 0 0 0 0)
  | .fnCos2pi => carryCommand (commandWord 0x2D 0 0 0 0)
  | .fnExp => carryCommand (commandWord 0x2E 0 0 0 0)
  | .fnExp2 => carryCommand (commandWord 0x2F 0 0 0 0)
  | .rbPush v => carryCommand (commandWord 0x30 (voiceField v) 0 0 0)
  | .rbPop v => carryCommand (commandWord 0x31 (voiceField v) 0 0 0)
  | .regWr addr data => ⟨1#1 ++ addr, data⟩
  | .regRd addr => ⟨0#1 ++ addr, 0⟩

end Sys2Proof
end

