-- ==== Sys2Proof/Config.lean ====
section
/-! DEFINITION. Config.lean: what an implementation fixes and the spec leaves OPEN (spec/00_scope.md R9, R25 to R28;
spec/45_decimation_src.md R284; spec/92_eei_decisions.md, "Named OPEN parameters").

A value of `Params` is the raw material of a build. Machine/Units.lean makes of it the parameters the core runs with, which
have the fixed points, the ranges and the sums the spec requires whatever the raw material is. Machine/Build.lean holds the
build of this machine, a constant without a body that keeps the accuracy bounds of R25 to R28 as well. -/

namespace Sys2Proof.Config

/-- The parameters a build of the core fixes, before the spec's constraints are imposed on them.
BLOCK_SIZE is `4 * (blockGroups + 1)`: every multiple of 4 that is at least 4, and nothing else (R9).
The taps and the units are imposed on by `Units.taps`, `Units.exp`, `Units.exp2`, `Units.sin2pi`,
`Units.cos2pi` (log 4, log 6). -/
structure Params where
  /-- BLOCK_SIZE, counted in groups of four beyond the first (R9, D29). -/
  blockGroups : Nat
  /-- DECIM_TAPS[2] (R284). -/
  taps2  : List F32
  /-- DECIM_TAPS[4] (R284). -/
  taps4  : List F32
  /-- DECIM_TAPS[8] (R284). -/
  taps8  : List F32
  /-- DECIM_TAPS[16] (R284). -/
  taps16 : List F32
  /-- EXP away from the points R25 fixes. -/
  exp    : F32 → F32
  /-- EXP2 away from the points R26 fixes. -/
  exp2   : F32 → F32
  /-- SIN2PI as a function of the reduced phase, away from the points R27 fixes. -/
  sin2pi : F32 → F32
  /-- COS2PI as a function of the reduced phase, away from the points R28 fixes. -/
  cos2pi : F32 → F32

end Sys2Proof.Config
end

