-- ==== Sys2Proof/Machine/Float.lean ====
section
/-! DEFINITION. Machine/Float.lean: IEEE 754 binary32 arithmetic on bit patterns (spec/00_scope.md R13 to R24).

Every finite binary32 number is an integer multiple of 2^-149, so a finite number is handled as the exact integer
`ord x` in that unit (infinities sit at the integer 2^277, just past the largest finite number), an operation computes
its exact result as an integer or a quotient of integers in that unit, and one function, `roundMag`, rounds it to
nearest, ties to even (R14). -/

namespace Sys2Proof.Fp

/-! ## The encoding (R24; 20_memory.md R102) -/

/-- Exponent field, bits [30:23]. -/
def expField (x : F32) : Nat := x.toNat / 2 ^ 23 % 256

/-- Fraction field, bits [22:0]. -/
def fracField (x : F32) : Nat := x.toNat % 2 ^ 23

/-- Sign bit, bit 31. -/
def signBit (x : F32) : Bool := x.msb

def isNaN (x : F32) : Bool := expField x == 255 && fracField x != 0

def isInf (x : F32) : Bool := expField x == 255 && fracField x == 0

/-- `isfinite(x)`: neither infinite nor NaN (R16). -/
def isFinite (x : F32) : Bool := expField x != 255

/-- The magnitude of `x` in units of 2^-149. For an infinity it is 2^277, above every finite magnitude. -/
def mag (x : F32) : Nat :=
  if expField x = 0 then fracField x else (2 ^ 23 + fracField x) * 2 ^ (expField x - 1)

/-- The value of `x` in units of 2^-149, with the infinities at ±2^277. Meaningless for a NaN. -/
def ord (x : F32) : Int := if signBit x then -(mag x : Int) else (mag x : Int)

/-- One in the unit of `ord`: 2^149. -/
def oneOrd : Nat := 2 ^ 149

/-! ## Constants (R15, R23) -/

/-- The canonical quiet NaN (R15). -/
def qNaN : F32 := 0x7FC00000
/-- The encoding of +inf without its sign. -/
def infMag : Nat := 0x7F800000
def posInf : F32 := 0x7F800000
def negInf : F32 := 0xFF800000
def posZero : F32 := 0x00000000
def negZero : F32 := 0x80000000
def quarter : F32 := 0x3E800000
def half : F32 := 0x3F000000
def threeQuarters : F32 := 0x3F400000
def one : F32 := 0x3F800000
def two : F32 := 0x40000000
def four : F32 := 0x40800000
def negOne : F32 := 0xBF800000

/-! ## Rounding (R14) -/

/-- The encoding, sign bit left out, of the nonnegative number `num / den` (in units of 2^-149) rounded to nearest,
ties to even. `k` binary places below the 24-bit significand are dropped; the significand `m` and `k` then form the
encoding as `k * 2^23 + m`, for subnormal and normal results alike, a carry out of the significand included. A result past
the largest finite number is infinity. -/
def roundMag (num den : Nat) : Nat :=
  let k := Nat.log2 (num / den) - 23
  let d := den * 2 ^ k
  let q := num / d
  let r := num % d
  let m := if d < 2 * r ∨ (2 * r = d ∧ q % 2 = 1) then q + 1 else q
  min (k * 2 ^ 23 + m) infMag

/-- The number with the given sign whose encoding without the sign is `m`. -/
def ofMag (neg : Bool) (m : Nat) : F32 := BitVec.ofNat 32 (if neg then 2 ^ 31 + m else m)

/-- The binary32 number nearest the natural number `n`. -/
def ofNat (n : Nat) : F32 := ofMag false (roundMag (n * oneOrd) 1)

/-! ## Arithmetic (R14, R15) -/

/-- `-x` flips the sign bit (R14). -/
def neg (x : F32) : F32 := x ^^^ 0x80000000

/-- The exact sum `n` (in units of 2^-149) rounded; an exact zero is -0 only when both operands are negative. -/
def roundSum (bothNeg : Bool) (n : Int) : F32 :=
  if n = 0 then ofMag bothNeg 0 else ofMag (decide (n < 0)) (roundMag n.natAbs 1)

/-- `x + y`. -/
def add (x y : F32) : F32 :=
  if isNaN x || isNaN y then qNaN
  else if isInf x then (if isInf y && signBit x != signBit y then qNaN else x)
  else if isInf y then y
  else roundSum (signBit x && signBit y) (ord x + ord y)

/-- `x - y`. -/
def sub (x y : F32) : F32 := add x (neg y)

/-- `x × y`. -/
def mul (x y : F32) : F32 :=
  let s := signBit x != signBit y
  if isNaN x || isNaN y then qNaN
  else if isInf x || isInf y then (if mag x = 0 ∨ mag y = 0 then qNaN else ofMag s infMag)
  else ofMag s (roundMag (mag x * mag y) oneOrd)

/-- `x / y`. -/
def div (x y : F32) : F32 :=
  let s := signBit x != signBit y
  if isNaN x || isNaN y then qNaN
  else if isInf x then (if isInf y then qNaN else ofMag s infMag)
  else if isInf y then ofMag s 0
  else if mag y = 0 then (if mag x = 0 then qNaN else ofMag s infMag)
  else ofMag s (roundMag (mag x * oneOrd) (mag y))

/-! ## Comparisons (R16) -/

def lt (x y : F32) : Bool := !isNaN x && !isNaN y && decide (ord x < ord y)
def le (x y : F32) : Bool := !isNaN x && !isNaN y && decide (ord x ≤ ord y)
def gt (x y : F32) : Bool := lt y x
def ge (x y : F32) : Bool := le y x
def eq (x y : F32) : Bool := !isNaN x && !isNaN y && decide (ord x = ord y)

/-! ## Functions of the notation chapter (R17 to R22) -/

/-- `floorf(x)` (R17): exact; -0, the infinities and NaN map to themselves (NaN to qNaN). The floor of a negative number is
minus the ceiling of its magnitude. -/
def floor (x : F32) : F32 :=
  if isNaN x then qNaN
  else if isInf x || mag x = 0 then x
  else
    let n := if signBit x then (mag x + (oneOrd - 1)) / oneOrd else mag x / oneOrd
    ofMag (signBit x) (roundMag (n * oneOrd) 1)

/-- `frac(x) = x - floorf(x)` (R18). For non-finite `x` it is qNaN, because inf - inf is. -/
def frac (x : F32) : F32 := sub x (floor x)

/-- `WRAP(x)` (R19). -/
def wrap (x : F32) : F32 :=
  let r := frac x
  if ge r one then posZero else r

/-- `clamp01(x)` (R20). -/
def clamp01 (x : F32) : F32 :=
  if lt x posZero then posZero else if gt x one then one else x

/-- `clamp01_reg(x)` (R20): as `clamp01`, but a NaN becomes +0.0. -/
def clamp01Reg (x : F32) : F32 := if isNaN x then posZero else clamp01 x

/-- `int_ceil_sat32(x)` for `x > 0` (R21). -/
def ceilSat32 (x : F32) : Nat := min ((mag x + (oneOrd - 1)) / oneOrd) (2 ^ 32 - 1)

/-- `is_odd(k)` for an integral `k` (R22): false from 2^24 on, for the infinities and for NaN. -/
def isOdd (k : F32) : Bool :=
  !isNaN k && decide (mag k < 2 ^ 24 * oneOrd) && decide (mag k / oneOrd % 2 = 1)

end Sys2Proof.Fp
end

