-- ==== Sys2Proof/Machine/Literals.lean ====
section
/-! DEFINITION. Machine/Literals.lean: the numbers the spec settles, each one named constant, so that an audit that
changes one changes one definition (spec/00_scope.md R8, R9; spec/93_implementation_defined.md I-1). -/

namespace Sys2Proof.Lit

/-- ID_VALUE (R9, 10_state.md R44). -/
def idValue : Word := 0x50440001
/-- Bend scale constant, -10.0 (R8). -/
def bendScale : F32 := 0xC1200000
/-- Bend near-zero threshold, the binary32 value nearest 1e-5 (R8, R23). -/
def bendThreshold : F32 := 0x3727C5AC
/-- Amount-mapping exponent, 5.0 (R8). -/
def amountExponent : F32 := 0x40A00000
/-- PM depth scale, 10.0 (R8). -/
def pmDepthScale : F32 := 0x41200000
/-- The sub-carrier runs at half the carrier frequency, 0.5 (43_pdo_block.md R241). -/
def subRatio : F32 := 0x3F000000
/-- OUT_SCALE = 5.0; the spec marks this value as general knowledge (R9, D28; log 11). -/
def outScale : F32 := 0x40A00000
/-- FS_RESET = 48000.0 (R9, D47). -/
def fsReset : F32 := 0x473B8000
/-- SM_TC_DEFAULT[u] = 0.01 for every u (R9, D11). -/
def tcDefault (_u : UnitIdx) : F32 := 0x3C23D70A
/-- SM_MODE_DEFAULT[u] = exponential for every u (R9, D11). -/
def modeDefault (_u : UnitIdx) : SmoothMode := .exponential
/-- The default frequency of a voice reset, 0.0 (46_engine.md R309, D36). -/
def freqDefault : F32 := 0x00000000

/-- RATIO_TABLE (10_state.md R50): the pairs num, den by index. -/
def ratioTable : List (Nat × Nat) :=
  [(1, 4), (1, 3), (1, 2), (1, 1), (2, 1), (3, 1), (4, 1), (5, 1),
   (6, 1), (7, 1), (8, 1), (3, 2), (5, 2), (7, 2), (4, 3), (5, 3)]

/-- The ratio of an index: the f32 quotient f32(num) / f32(den) (R50). -/
def ratio (i : Fin 16) : F32 :=
  let e := ratioTable.getD i.val (1, 1)
  Fp.div (Fp.ofNat e.1) (Fp.ofNat e.2)

/-- The lane fraction i/4 (R23). -/
def laneFraction (i : LaneIdx) : F32 :=
  match i with
  | 0 => Fp.posZero
  | 1 => Fp.quarter
  | 2 => Fp.half
  | 3 => Fp.threeQuarters

/-! ## Codes of the enumerations (10_state.md R48, R52 to R55) -/

def osNat : OsFactor → Nat
  | .x1 => 1
  | .x2 => 2
  | .x4 => 4
  | .x8 => 8
  | .x16 => 16

def algCode : Algorithm → Word
  | .bend => 0
  | .sync => 1
  | .formant => 2
  | .fold => 3

def routingCode : Routing → Word
  | .before => 0
  | .after => 1

def windowCode : WindowMode → Word
  | .flat => 0
  | .triangle => 1
  | .sawtooth => 2

def auxCode : AuxMode → Word
  | .quadrature => 0
  | .unison => 1
  | .subOctave => 2
  | .rawPhasor => 3

/-- The factor a word names, if it is 1, 2, 4, 8 or 16 (R48). -/
def osOfWord (w : Word) : Option OsFactor :=
  if w = 1 then some .x1 else if w = 2 then some .x2 else if w = 4 then some .x4
  else if w = 8 then some .x8 else if w = 16 then some .x16 else none

/-- The algorithm a word names, if it is 0..3 (R52). -/
def algOfWord (w : Word) : Option Algorithm :=
  if w = 0 then some .bend else if w = 1 then some .sync else if w = 2 then some .formant
  else if w = 3 then some .fold else none

/-- The routing a word names, if it is 0 or 1 (R53). -/
def routingOfWord (w : Word) : Option Routing :=
  if w = 0 then some .before else if w = 1 then some .after else none

/-- The window shape a word names, if it is 0..2 (R54). -/
def windowOfWord (w : Word) : Option WindowMode :=
  if w = 0 then some .flat else if w = 1 then some .triangle else if w = 2 then some .sawtooth else none

/-- The auxiliary mode a word names, if it is 0..3 (R55). -/
def auxOfWord (w : Word) : Option AuxMode :=
  if w = 0 then some .quadrature else if w = 1 then some .unison else if w = 2 then some .subOctave
  else if w = 3 then some .rawPhasor else none

/-- The ratio index a word names, if it is 0..15 (R50). -/
def ratioIdxOfWord (w : Word) : Option (Fin 16) :=
  if h : w.toNat < 16 then some ⟨w.toNat, h⟩ else none

end Sys2Proof.Lit
end

