-- ==== Sys2Proof/Machine/Units.lean ====
section
/-! DEFINITION. Machine/Units.lean: the build parameters with the constraints the spec puts on them
(spec/00_scope.md R9, R25 to R28; spec/45_decimation_src.md R284).

A unit is the free function of the build wherever the spec leaves it free, and has the value or the range the spec
fixes everywhere else; a conforming function is its own unit. The accuracy bounds (EXP-3, the numeric part of EXP2-2,
SIN-2 and COS-2) are a property of the build of the machine (Machine/Build.lean, log 4). -/

namespace Sys2Proof.Units

open Sys2Proof.Config (Params)

/-- BLOCK_SIZE: a multiple of 4, at least 4 (R9). -/
def blockSize (p : Params) : Nat := 4 * (p.blockGroups + 1)

/-- CAP_PM = 16 × BLOCK_SIZE (R9). -/
def capPm (p : Params) : Nat := 16 * blockSize p

/-- CAP_OUT = BLOCK_SIZE (R9). -/
def capOut (p : Params) : Nat := blockSize p

/-! ## Decimator taps (R284) -/

/-- T1 and T2 of R284, with every tap a finite number: at least one tap, and the exact real sum of the taps is 1.0. -/
def tapsConform (h : List F32) : Bool :=
  !h.isEmpty && h.all Fp.isFinite && (h.map Fp.ord).sum == (Fp.oneOrd : Int)

/-- The example instantiation BOX of R284: `m` taps of value 1/m. -/
def boxTaps (m : Nat) : List F32 := List.replicate m (Fp.div Fp.one (Fp.ofNat m))

/-- The taps of a build where they conform; the spec's example taps where they do not (no build has those: R284). -/
def conformingTaps (h : List F32) (m : Nat) : List F32 := if tapsConform h then h else boxTaps m

/-- DECIM_TAPS[M] (R284); there are none for M = 1 (R281). -/
def taps (p : Params) (m : OsFactor) : List F32 :=
  match m with
  | .x1 => []
  | .x2 => conformingTaps p.taps2 2
  | .x4 => conformingTaps p.taps4 4
  | .x8 => conformingTaps p.taps8 8
  | .x16 => conformingTaps p.taps16 16

/-- The length of each channel's history: L_M - 1, and 0 for M = 1 (10_state.md R67, R287). DESIGN CHOICE (log 21), safe: for a
build with L_2, L_4 or L_8 above L_16, which R284 allows, this is more than the L_16 - 1 values of 20_memory.md R111. -/
def histLen (p : Params) (m : OsFactor) : Nat := (taps p m).length - 1

/-! ## Transcendental units -/

/-- `y` where it lies in [0, 1]; the nearer bound, or +0.0 for a NaN, where it does not (no conforming unit). -/
def bound01 (y : F32) : F32 :=
  if Fp.isNaN y then Fp.posZero else if Fp.lt y Fp.posZero then Fp.posZero
  else if Fp.gt y Fp.one then Fp.one else y

/-- `y` where it lies in [-1, 1]; a bound, or +0.0 for a NaN, where it does not (no conforming unit). -/
def bound11 (y : F32) : F32 :=
  if Fp.isNaN y then Fp.posZero else if Fp.lt y Fp.negOne then Fp.negOne
  else if Fp.gt y Fp.one then Fp.one else y

/-- `EXP(x)` with EXP-1, EXP-2 and EXP-4 (R25). -/
def exp (p : Params) (x : F32) : F32 :=
  if Fp.isNaN x then Fp.qNaN
  else if x = Fp.posZero ∨ x = Fp.negZero then Fp.one
  else if x = Fp.negInf then Fp.posZero
  else if Fp.le x Fp.posZero then bound01 (p.exp x)
  else p.exp x

/-- 2^n for the integers n = 0..5 that EXP2-1 fixes (R26). -/
def exp2Point (x : F32) : Option F32 :=
  if x = Fp.posZero ∨ x = Fp.negZero then some Fp.one
  else if x = Fp.one then some Fp.two
  else if x = Fp.two then some Fp.four
  else if x = 0x40400000 then some 0x41000000
  else if x = Fp.four then some 0x41800000
  else if x = 0x40A00000 then some 0x42000000
  else none

/-- `EXP2(x)` with EXP2-1, EXP2-3 and, from EXP2-2, a finite result on [0, 5] (R26; -0.0 as the integer 0: log 5). -/
def exp2 (p : Params) (x : F32) : F32 :=
  if Fp.isNaN x then Fp.qNaN
  else
    match exp2Point x with
    | some y => y
    | none =>
      if Fp.le Fp.posZero x && Fp.le x Lit.amountExponent && !Fp.isFinite (p.exp2 x) then Fp.one
      else p.exp2 x

/-- `SIN2PI(x)` with SIN-1, SIN-3 and the range of SIN-2; it depends on `frac(x)` only (R27). -/
def sin2pi (p : Params) (x : F32) : F32 :=
  if !Fp.isFinite x then Fp.qNaN
  else
    let r := Fp.frac x
    if r = Fp.posZero then Fp.posZero
    else if r = Fp.quarter then Fp.one
    else if r = Fp.half then Fp.posZero
    else if r = Fp.threeQuarters then Fp.negOne
    else bound11 (p.sin2pi r)

/-- `COS2PI(x)` with COS-1, COS-3 and the range of COS-2; it depends on `frac(x)` only (R28). -/
def cos2pi (p : Params) (x : F32) : F32 :=
  if !Fp.isFinite x then Fp.qNaN
  else
    let r := Fp.frac x
    if r = Fp.posZero then Fp.one
    else if r = Fp.quarter then Fp.posZero
    else if r = Fp.half then Fp.negOne
    else if r = Fp.threeQuarters then Fp.posZero
    else bound11 (p.cos2pi r)

/-- The exponential-mode coefficient of a time constant and a sample rate (41_smoother.md R181). The formula is
marked general knowledge by the spec (D9; log 11). -/
def coefOf (p : Params) (tc fs : F32) : F32 :=
  let d := Fp.mul tc fs
  if Fp.gt d Fp.posZero && Fp.isFinite d then
    Fp.sub Fp.one (exp p (Fp.neg (Fp.div Fp.one d)))
  else Fp.one

end Sys2Proof.Units
end

