-- ==== Sys2Proof/Machine/SampleUnits.lean ====
section
/-! DEFINITION. Machine/SampleUnits.lean: the accuracy that spec/00_scope.md R25 to R28 require of the transcendental units, and
one sample of units that have it.

The sample shows that a conforming build exists, which is all it is for: it is what lets the build of the machine be a
constant without a body that is known to conform (Machine/Build.lean). No value of it reaches the machine. -/

namespace Sys2Proof.Machine

open Sys2Proof.Config (Params)

/-- The number a finite `x` encodes (00_scope.md R24). -/
def valueOf (x : F32) : ℚ := (Fp.ord x : ℚ) / 2 ^ 149

/-- The units keep their bounds with FN_EPS = `eps` (00_scope.md R25 EXP-3, R26 EXP2-2, R27 SIN-2, R28 COS-2). -/
structure AccurateUnits (p : Params) (eps : ℝ) : Prop where
  exp : ∀ x : F32, Fp.isFinite x = true → Fp.le 0xC1200000 x = true → Fp.le x Fp.posZero = true →
    |(valueOf (Units.exp p x) : ℝ) - Real.exp (valueOf x)| ≤ eps
  exp2 : ∀ x : F32, Fp.isFinite x = true → Fp.le Fp.posZero x = true → Fp.le x Lit.amountExponent = true →
    |(valueOf (Units.exp2 p x) : ℝ) - (2 : ℝ) ^ (valueOf x : ℝ)| ≤ eps * (2 : ℝ) ^ (valueOf x : ℝ)
  sin2pi : ∀ x : F32, Fp.isFinite x = true →
    |(valueOf (Units.sin2pi p x) : ℝ) - Real.sin (2 * Real.pi * valueOf (Fp.frac x))| ≤ eps
  cos2pi : ∀ x : F32, Fp.isFinite x = true →
    |(valueOf (Units.cos2pi p x) : ℝ) - Real.cos (2 * Real.pi * valueOf (Fp.frac x))| ≤ eps

end Sys2Proof.Machine

namespace Sys2Proof.SampleUnits

open Sys2Proof.Machine

/-! ## Multiples of 2^-14 as binary32 numbers -/

/-- The number `k / 2^14`, for `k` of at most 24 bits. -/
def grid (k : Int) : F32 :=
  if k = 0 then 0
  else
    let e := 23 - Nat.log2 k.natAbs
    Fp.ofMag (decide (k < 0)) ((135 - e) * 2 ^ 23 + k.natAbs * 2 ^ e)

theorem grid_shape {k : Int} (h0 : k ≠ 0) (h : k.natAbs < 2 ^ 24) :
    ∃ e q : Nat, e ≤ 23 ∧ 2 ^ 23 ≤ q ∧ q < 2 ^ 24 ∧ q = k.natAbs * 2 ^ e
      ∧ (grid k).toNat = (if k < 0 then 2 ^ 31 else 0) + ((135 - e) * 2 ^ 23 + q) := by
  have hn : k.natAbs ≠ 0 := by omega
  have hlog : Nat.log2 k.natAbs ≤ 23 := by
    have := (Nat.log2_lt hn).mpr h
    omega
  have h1 : 2 ^ Nat.log2 k.natAbs ≤ k.natAbs := Nat.log2_self_le hn
  have h2 : k.natAbs < 2 ^ (Nat.log2 k.natAbs + 1) := Nat.lt_log2_self
  have hlo : 2 ^ 23 ≤ k.natAbs * 2 ^ (23 - Nat.log2 k.natAbs) := by
    calc 2 ^ 23 = 2 ^ Nat.log2 k.natAbs * 2 ^ (23 - Nat.log2 k.natAbs) := by
          rw [← Nat.pow_add]; congr 1; omega
      _ ≤ _ := Nat.mul_le_mul_right _ h1
  have hhi : k.natAbs * 2 ^ (23 - Nat.log2 k.natAbs) < 2 ^ 24 := by
    calc _ < 2 ^ (Nat.log2 k.natAbs + 1) * 2 ^ (23 - Nat.log2 k.natAbs) :=
          Nat.mul_lt_mul_of_pos_right h2 (Nat.two_pow_pos _)
      _ = 2 ^ 24 := by rw [← Nat.pow_add]; congr 1; omega
  refine ⟨23 - Nat.log2 k.natAbs, _, by omega, hlo, hhi, rfl, ?_⟩
  simp only [grid, if_neg h0, Fp.ofMag, BitVec.toNat_ofNat]
  generalize k.natAbs * 2 ^ (23 - Nat.log2 k.natAbs) = q at hlo hhi
  by_cases hk : k < 0
  · simp only [hk, decide_true, if_true]; omega
  · simp only [hk, decide_false, if_false]; simp; omega

/-- The value of `grid k` in the unit of `ord`. -/
theorem ord_grid {k : Int} (h : k.natAbs < 2 ^ 24) : Fp.ord (grid k) = k * 2 ^ 135 := by
  by_cases h0 : k = 0
  · subst h0; decide
  · obtain ⟨e, q, he, hq1, hq2, hq, ht⟩ := grid_shape h0 h
    have hexp : Fp.expField (grid k) = 136 - e := by
      unfold Fp.expField; rw [ht]; split <;> omega
    have hfrac : Fp.fracField (grid k) = q - 2 ^ 23 := by
      unfold Fp.fracField; rw [ht]; split <;> omega
    have hmag : Fp.mag (grid k) = k.natAbs * 2 ^ 135 := by
      unfold Fp.mag
      rw [hexp, hfrac, if_neg (by omega), show 2 ^ 23 + (q - 2 ^ 23) = q by omega, hq, Nat.mul_assoc, ← Nat.pow_add]
      congr 2; omega
    have hs : Fp.signBit (grid k) = decide (k < 0) := by
      unfold Fp.signBit; rw [BitVec.msb_eq_decide, ht]
      by_cases hk : k < 0 <;> simp only [hk, if_true, if_false, decide_true, decide_false, decide_eq_true_eq,
        decide_eq_false_iff_not] <;> omega
    unfold Fp.ord
    rw [hs, hmag]
    by_cases hk : k < 0
    · rw [if_pos (decide_eq_true hk)]; push_cast; rw [abs_of_neg hk]; ring
    · rw [if_neg (by simpa using hk)]; push_cast; rw [abs_of_nonneg (by omega)]

theorem isFinite_grid {k : Int} (h : k.natAbs < 2 ^ 24) : Fp.isFinite (grid k) = true := by
  by_cases h0 : k = 0
  · subst h0; decide
  · obtain ⟨e, q, he, hq1, hq2, _, ht⟩ := grid_shape h0 h
    have hexp : Fp.expField (grid k) = 136 - e := by
      unfold Fp.expField; rw [ht]; split <;> omega
    unfold Fp.isFinite; rw [hexp]; simp; omega

theorem isNaN_grid {k : Int} (h : k.natAbs < 2 ^ 24) : Fp.isNaN (grid k) = false := by
  have := isFinite_grid h
  simp only [Fp.isFinite, bne_iff_ne, ne_eq] at this
  simp [Fp.isNaN, this]

theorem valueOf_grid {k : Int} (h : k.natAbs < 2 ^ 24) : valueOf (grid k) = k / 2 ^ 14 := by
  unfold valueOf; rw [ord_grid h]; push_cast
  rw [div_eq_div_iff (by positivity) (by positivity)]; ring

/-- `q` cut to a multiple of 2^-14, towards 0. -/
def cut (q : ℚ) : F32 := grid (if 0 ≤ q then ⌊q * 2 ^ 14⌋ else -⌊-q * 2 ^ 14⌋)

theorem cut_spec {q : ℚ} {b : Nat} (h : |q| * 2 ^ 14 < b * 2 ^ 14 + 1) :
    ∃ k : Int, cut q = grid k ∧ k.natAbs ≤ b * 2 ^ 14 ∧ (0 ≤ q → 0 ≤ k) ∧ |((k / 2 ^ 14 : ℚ)) - q| ≤ 1 / 2 ^ 14 := by
  by_cases hq : 0 ≤ q
  · rw [abs_of_nonneg hq] at h
    have h0 : 0 ≤ ⌊q * 2 ^ 14⌋ := Int.floor_nonneg.mpr (by positivity)
    have h1 := Int.floor_le (q * 2 ^ 14)
    have h2 := Int.lt_floor_add_one (q * 2 ^ 14)
    have h3 : ⌊q * 2 ^ 14⌋ < (b * 2 ^ 14 : Int) + 1 := by
      apply Int.floor_lt.mpr; push_cast; exact h
    refine ⟨⌊q * 2 ^ 14⌋, by simp [cut, hq], by omega, fun _ => h0, ?_⟩
    generalize ⌊q * 2 ^ 14⌋ = k at h1 h2
    rw [abs_le]; constructor <;> (norm_num at h1 h2 ⊢; linarith)
  · have hq' : q < 0 := not_le.mp hq
    rw [abs_of_neg hq'] at h
    have h0 : 0 ≤ ⌊-q * 2 ^ 14⌋ := Int.floor_nonneg.mpr (by linarith)
    have h1 := Int.floor_le (-q * 2 ^ 14)
    have h2 := Int.lt_floor_add_one (-q * 2 ^ 14)
    have h3 : ⌊-q * 2 ^ 14⌋ < (b * 2 ^ 14 : Int) + 1 := by
      apply Int.floor_lt.mpr; push_cast; exact h
    refine ⟨-⌊-q * 2 ^ 14⌋, by simp [cut, hq], by omega, fun h => absurd h hq, ?_⟩
    generalize ⌊-q * 2 ^ 14⌋ = k at h1 h2
    push_cast
    rw [abs_le]; constructor <;> (norm_num at h1 h2 ⊢; linarith)

/-! ## The sample -/

/-- The Taylor sum of e^q. -/
def expSum (q : ℚ) : ℚ := ∑ m ∈ Finset.range 60, q ^ m / (m.factorial : ℚ)

/-- The real part of the power `i^m`. -/
def iRe (m : Nat) : ℚ := if m % 4 = 0 then 1 else if m % 4 = 2 then -1 else 0

/-- The imaginary part of the power `i^m`. -/
def iIm (m : Nat) : ℚ := if m % 4 = 1 then 1 else if m % 4 = 3 then -1 else 0

/-- The Taylor sum of cos q. -/
def cosSum (q : ℚ) : ℚ := ∑ m ∈ Finset.range 40, iRe m * (q ^ m / (m.factorial : ℚ))

/-- The Taylor sum of sin q. -/
def sinSum (q : ℚ) : ℚ := ∑ m ∈ Finset.range 40, iIm m * (q ^ m / (m.factorial : ℚ))

/-- An angle near 2π times the fractional part of `x`. -/
def angle (x : F32) : ℚ := Int.fract (valueOf x) * (6283185 / 1000000)

/-- The largest `k / 2^14` of at most `2^5` with `k^n ≤ 2^(14 n + o)`: `2^(o / n)` from below. -/
def rootCut (n o : Nat) : Nat := Nat.findGreatest (fun k => k ^ n ≤ 2 ^ (14 * n + o)) (2 ^ 19)

/-- The sample of units. BLOCK_SIZE and the taps are the least choices. -/
def params : Config.Params where
  blockGroups := 0
  taps2 := Units.boxTaps 2
  taps4 := Units.boxTaps 4
  taps8 := Units.boxTaps 8
  taps16 := Units.boxTaps 16
  exp x := cut |expSum (valueOf x)|
  exp2 x := grid (rootCut Fp.oneOrd (Fp.mag x))
  sin2pi x := cut (sinSum (angle x))
  cos2pi x := cut (cosSum (angle x))

/-- The FN_EPS of the sample. -/
def eps : ℚ := 9 / 100000

/-! ## Its accuracy -/

theorem expSum_spec {q : ℚ} (h1 : -10 ≤ q) (h2 : q ≤ 0) : |((expSum q : ℚ) : ℝ) - Real.exp q| ≤ 1 / 10 ^ 6 := by
  have hq : |((q : ℚ) : ℝ)| ≤ 10 := by
    rw [← Rat.cast_abs, abs_of_nonpos h2]; exact_mod_cast (by linarith : -q ≤ 10)
  have hn : ‖(((q : ℚ) : ℝ) : ℂ)‖ ≤ 10 := by rw [Complex.norm_real]; exact hq
  have hb := Complex.exp_bound' (x := (((q : ℚ) : ℝ) : ℂ)) (n := 60) (by
    rw [div_le_div_iff₀ (by positivity) (by norm_num)]; push_cast at hn ⊢; linarith)
  have e1 : Complex.exp (((q : ℚ) : ℝ) : ℂ) - ∑ m ∈ Finset.range 60, (((q : ℚ) : ℝ) : ℂ) ^ m / (m.factorial : ℂ)
      = ((Real.exp q - ((expSum q : ℚ) : ℝ) : ℝ) : ℂ) := by
    unfold expSum; push_cast; rfl
  rw [e1, Complex.norm_real, Real.norm_eq_abs, abs_sub_comm] at hb
  refine hb.trans ?_
  calc ‖(((q : ℚ) : ℝ) : ℂ)‖ ^ 60 / (Nat.factorial 60 : ℝ) * 2 ≤ 10 ^ 60 / (Nat.factorial 60 : ℝ) * 2 := by gcongr
    _ ≤ 1 / 10 ^ 6 := by norm_num [Nat.factorial]

theorem I_pow_eq (m : Nat) : Complex.I ^ m = ((iRe m : ℚ) : ℂ) + ((iIm m : ℚ) : ℂ) * Complex.I := by
  rw [Complex.I_pow_eq_pow_mod]
  have h : m % 4 < 4 := Nat.mod_lt _ (by decide)
  unfold iRe iIm
  interval_cases hm : m % 4 <;> simp [pow_succ]

theorem im_re_im (a b : ℝ) : ((a : ℂ) + (b : ℂ) * Complex.I).im = b := by simp

theorem im_re_re (a b : ℝ) : ((a : ℂ) + (b : ℂ) * Complex.I).re = a := by simp

theorem trig_spec {q : ℚ} (h1 : 0 ≤ q) (h2 : q ≤ 7) :
    |((sinSum q : ℚ) : ℝ) - Real.sin q| ≤ 1 / 10 ^ 6 ∧ |((cosSum q : ℚ) : ℝ) - Real.cos q| ≤ 1 / 10 ^ 6 := by
  have hn : ‖(((q : ℚ) : ℝ) : ℂ) * Complex.I‖ ≤ 7 := by
    rw [norm_mul, Complex.norm_I, mul_one, Complex.norm_real, Real.norm_eq_abs, abs_of_nonneg (by exact_mod_cast h1)]
    exact_mod_cast h2
  have hb := Complex.exp_bound' (x := (((q : ℚ) : ℝ) : ℂ) * Complex.I) (n := 40) (by
    rw [div_le_div_iff₀ (by positivity) (by norm_num)]; push_cast at hn ⊢; linarith)
  have e1 : Complex.exp ((((q : ℚ) : ℝ) : ℂ) * Complex.I)
        - ∑ m ∈ Finset.range 40, ((((q : ℚ) : ℝ) : ℂ) * Complex.I) ^ m / (m.factorial : ℂ)
      = ((Real.cos q - ((cosSum q : ℚ) : ℝ) : ℝ) : ℂ) + ((Real.sin q - ((sinSum q : ℚ) : ℝ) : ℝ) : ℂ) * Complex.I := by
    have e2 : ∀ m : Nat, ((((q : ℚ) : ℝ) : ℂ) * Complex.I) ^ m / (m.factorial : ℂ)
        = ((iRe m : ℚ) : ℂ) * ((((q : ℚ) : ℝ) : ℂ) ^ m / (m.factorial : ℂ))
          + ((iIm m : ℚ) : ℂ) * ((((q : ℚ) : ℝ) : ℂ) ^ m / (m.factorial : ℂ)) * Complex.I := by
      intro m; rw [mul_pow, I_pow_eq]; ring
    rw [Complex.exp_mul_I, Finset.sum_congr rfl (fun m _ => e2 m), Finset.sum_add_distrib, ← Finset.sum_mul]
    unfold cosSum sinSum; push_cast; ring
  rw [e1] at hb
  have hlim : ‖(((q : ℚ) : ℝ) : ℂ) * Complex.I‖ ^ 40 / (Nat.factorial 40 : ℝ) * 2 ≤ 1 / 10 ^ 6 := by
    calc _ ≤ 7 ^ 40 / (Nat.factorial 40 : ℝ) * 2 := by gcongr
      _ ≤ 1 / 10 ^ 6 := by norm_num [Nat.factorial]
  have hre := (Complex.abs_re_le_norm _).trans (hb.trans hlim)
  have him := (Complex.abs_im_le_norm _).trans (hb.trans hlim)
  constructor
  · rw [abs_sub_comm]; rwa [im_re_im] at him
  · rw [abs_sub_comm]; rwa [im_re_re] at hre

theorem angle_spec (x : F32) :
    0 ≤ angle x ∧ angle x ≤ 7
      ∧ |Real.sin (angle x) - Real.sin (2 * Real.pi * valueOf x)| ≤ 1 / 10 ^ 6
      ∧ |Real.cos (angle x) - Real.cos (2 * Real.pi * valueOf x)| ≤ 1 / 10 ^ 6 := by
  have f0 := Int.fract_nonneg (valueOf x)
  have f1 := (Int.fract_lt_one (valueOf x)).le
  have e0 : 0 ≤ angle x := by unfold angle; positivity
  have e1 : angle x ≤ 7 := by unfold angle; linarith
  have hper : 2 * Real.pi * ((Int.fract (valueOf x) : ℚ) : ℝ)
      = 2 * Real.pi * valueOf x - (⌊valueOf x⌋ : ℤ) * (2 * Real.pi) := by
    rw [Int.fract]; push_cast; ring
  have hclose : |((angle x : ℚ) : ℝ) - 2 * Real.pi * ((Int.fract (valueOf x) : ℚ) : ℝ)| ≤ 1 / 10 ^ 6 := by
    have g0 : (0 : ℝ) ≤ ((Int.fract (valueOf x) : ℚ) : ℝ) := by exact_mod_cast f0
    have g1 : ((Int.fract (valueOf x) : ℚ) : ℝ) ≤ 1 := by exact_mod_cast f1
    have p1 := Real.pi_gt_d6
    have p2 := Real.pi_lt_d6
    have ha : ((angle x : ℚ) : ℝ) = ((Int.fract (valueOf x) : ℚ) : ℝ) * (6283185 / 1000000) := by
      unfold angle; rw [Rat.cast_mul]; norm_num
    rw [ha]
    generalize ((Int.fract (valueOf x) : ℚ) : ℝ) = r at g0 g1
    rw [show r * (6283185 / 1000000) - 2 * Real.pi * r = r * (6283185 / 1000000 - 2 * Real.pi) by ring, abs_mul,
      abs_of_nonneg g0]
    have : |(6283185 / 1000000 : ℝ) - 2 * Real.pi| ≤ 1 / 10 ^ 6 := by rw [abs_le]; constructor <;> linarith
    nlinarith [abs_nonneg ((6283185 / 1000000 : ℝ) - 2 * Real.pi)]
  refine ⟨e0, e1, ?_, ?_⟩
  · have := Real.abs_sin_sub_sin_le ((angle x : ℚ) : ℝ) (2 * Real.pi * ((Int.fract (valueOf x) : ℚ) : ℝ))
    rw [hper, Real.sin_sub_int_mul_two_pi] at this
    rw [hper] at hclose
    exact this.trans hclose
  · have := Real.abs_cos_sub_cos_le ((angle x : ℚ) : ℝ) (2 * Real.pi * ((Int.fract (valueOf x) : ℚ) : ℝ))
    rw [hper, Real.cos_sub_int_mul_two_pi] at this
    rw [hper] at hclose
    exact this.trans hclose

theorem rootCut_spec {n o : Nat} (hn : 0 < n) (ho : o ≤ 5 * n) :
    rootCut n o ≤ 2 ^ 19 ∧ |((rootCut n o : ℕ) : ℝ) / 2 ^ 14 - (2 : ℝ) ^ ((o : ℝ) / n)| ≤ 1 / 2 ^ 14 := by
  have key : ∀ k : Nat, k ^ n ≤ 2 ^ (14 * n + o) ↔ (k : ℝ) ≤ 2 ^ 14 * (2 : ℝ) ^ ((o : ℝ) / n) := by
    intro k
    have hp : ((2 : ℝ) ^ 14 * (2 : ℝ) ^ ((o : ℝ) / n)) ^ n = 2 ^ (14 * n + o) := by
      rw [mul_pow, ← Real.rpow_mul_natCast (by norm_num), div_mul_cancel₀ _ (by positivity), Real.rpow_natCast, ← pow_mul,
        ← pow_add]
    rw [← pow_le_pow_iff_left₀ (a := (k : ℝ)) (Nat.cast_nonneg k) (by positivity) hn.ne', hp]
    exact_mod_cast Iff.rfl
  have hle : rootCut n o ≤ 2 ^ 19 := Nat.findGreatest_le _
  have hspec : (rootCut n o) ^ n ≤ 2 ^ (14 * n + o) :=
    Nat.findGreatest_spec (P := fun k => k ^ n ≤ 2 ^ (14 * n + o)) (Nat.zero_le _) (by simp [hn.ne'])
  have h1 := (key _).mp hspec
  have hexp : (2 : ℝ) ^ ((o : ℝ) / n) ≤ 2 ^ 5 := by
    rw [← Real.rpow_natCast 2 5]
    apply Real.rpow_le_rpow_of_exponent_le (by norm_num)
    rw [div_le_iff₀ (by exact_mod_cast hn)]; exact_mod_cast ho
  have h2 : (2 : ℝ) ^ 14 * (2 : ℝ) ^ ((o : ℝ) / n) ≤ (rootCut n o : ℝ) + 1 := by
    by_cases hk : rootCut n o + 1 ≤ 2 ^ 19
    · have := Nat.findGreatest_is_greatest (P := fun k => k ^ n ≤ 2 ^ (14 * n + o)) (Nat.lt_succ_self (rootCut n o)) hk
      have hlt := not_le.mp (fun h => this ((key _).mpr h))
      push_cast at hlt; exact hlt.le
    · have hk' : rootCut n o = 2 ^ 19 := by omega
      rw [hk']; push_cast; linarith
  refine ⟨hle, ?_⟩
  rw [abs_le]; constructor <;> linarith

/-! ## The sample conforms -/

theorem bound01_grid {k : Int} (h0 : 0 ≤ k) (h1 : k.natAbs ≤ 2 ^ 14) : Units.bound01 (grid k) = grid k := by
  have hf : k.natAbs < 2 ^ 24 := by omega
  have ho := ord_grid hf
  have z : Fp.ord Fp.posZero = 0 := by decide
  have o : Fp.ord Fp.one = 2 ^ 149 := by decide
  have c1 : Fp.lt (grid k) Fp.posZero = false := by simp [Fp.lt, ho, z]; intros; positivity
  have c2 : Fp.gt (grid k) Fp.one = false := by
    simp only [Fp.gt, Fp.lt, ho, o]; simp; intros; omega
  simp [Units.bound01, isNaN_grid hf, c1, c2]

theorem bound11_grid {k : Int} (h1 : k.natAbs ≤ 2 ^ 14) : Units.bound11 (grid k) = grid k := by
  have hf : k.natAbs < 2 ^ 24 := by omega
  have ho := ord_grid hf
  have n : Fp.ord Fp.negOne = -2 ^ 149 := by decide
  have o : Fp.ord Fp.one = 2 ^ 149 := by decide
  have c1 : Fp.lt (grid k) Fp.negOne = false := by
    simp only [Fp.lt, ho, n]; simp; intros; omega
  have c2 : Fp.gt (grid k) Fp.one = false := by
    simp only [Fp.gt, Fp.lt, ho, o]; simp; intros; omega
  simp [Units.bound11, isNaN_grid hf, c1, c2]

theorem valueOf_bounds {x : F32} {a b : F32} (ha : Fp.le a x = true) (hb : Fp.le x b = true) :
    valueOf a ≤ valueOf x ∧ valueOf x ≤ valueOf b := by
  simp only [Fp.le, Bool.and_eq_true, decide_eq_true_eq] at ha hb
  have h1 : (Fp.ord a : ℚ) ≤ Fp.ord x := by exact_mod_cast ha.2
  have h2 : (Fp.ord x : ℚ) ≤ Fp.ord b := by exact_mod_cast hb.2
  unfold valueOf
  constructor <;> gcongr

/-- A cut sum near a real number `r` of size at most `b` has a value near `r`. -/
theorem cut_near {q : ℚ} {r : ℝ} {b : Nat} (hb : b < 2 ^ 9) (hr : |r| ≤ b) (h : |((q : ℚ) : ℝ) - r| ≤ 1 / 10 ^ 5) :
    ∃ k : Int, cut q = grid k ∧ k.natAbs ≤ b * 2 ^ 14 ∧ (0 ≤ q → 0 ≤ k)
      ∧ |((valueOf (grid k) : ℚ) : ℝ) - r| ≤ 8 / 10 ^ 5 := by
  have hq : |((q : ℚ) : ℝ)| * 2 ^ 14 < (b : ℝ) * 2 ^ 14 + 1 := by
    have : |((q : ℚ) : ℝ)| ≤ |r| + |((q : ℚ) : ℝ) - r| := by
      have := abs_add_le r (((q : ℚ) : ℝ) - r); rwa [add_sub_cancel] at this
    norm_num at h ⊢; linarith
  obtain ⟨k, hk, hk1, hk0, hk2⟩ := cut_spec (q := q) (by exact_mod_cast hq)
  refine ⟨k, hk, hk1, hk0, ?_⟩
  rw [valueOf_grid (by omega)]
  have hk3 : |((k / 2 ^ 14 : ℚ) : ℝ) - ((q : ℚ) : ℝ)| ≤ 1 / 2 ^ 14 := by
    rw [← Rat.cast_sub, ← Rat.cast_abs]
    calc _ ≤ ((1 / 2 ^ 14 : ℚ) : ℝ) := Rat.cast_le.mpr hk2
      _ = 1 / 2 ^ 14 := by norm_num
  have := abs_sub_le ((k / 2 ^ 14 : ℚ) : ℝ) ((q : ℚ) : ℝ) r
  norm_num at h hk3 this ⊢; linarith

theorem isNaN_of_isFinite {x : F32} (h : Fp.isFinite x = true) : Fp.isNaN x = false := by
  simp only [Fp.isFinite, bne_iff_ne, ne_eq] at h
  simp [Fp.isNaN, h]

theorem valueOf_of_ord {x : F32} {n : Int} (h : Fp.ord x = n * Fp.oneOrd) : valueOf x = n := by
  unfold valueOf; rw [h, show (Fp.oneOrd : Int) = 2 ^ 149 from rfl]; push_cast
  exact mul_div_cancel_right₀ _ (by positivity)

theorem exp_accurate {x : F32} (hx : Fp.isFinite x = true) (h1 : Fp.le 0xC1200000 x = true)
    (h2 : Fp.le x Fp.posZero = true) : |(valueOf (Units.exp params x) : ℝ) - Real.exp (valueOf x)| ≤ 8 / 10 ^ 5 := by
  unfold Units.exp
  rw [isNaN_of_isFinite hx]
  simp only [Bool.false_eq_true, if_false, h2, if_true]
  split
  · rename_i h0
    have hv : valueOf x = (0 : Int) := valueOf_of_ord (by rcases h0 with rfl | rfl <;> decide)
    have hone : valueOf Fp.one = (1 : Int) := valueOf_of_ord (by decide)
    rw [hv, hone]; norm_num
  · rw [if_neg (by rintro rfl; revert hx; decide)]
    obtain ⟨b1, b2⟩ := valueOf_bounds h1 h2
    have e1 : valueOf 0xC1200000 = (-10 : Int) := valueOf_of_ord (by decide)
    have e2 : valueOf Fp.posZero = (0 : Int) := valueOf_of_ord (by decide)
    rw [e1] at b1; rw [e2] at b2
    push_cast at b1 b2
    have hs := expSum_spec b1 b2
    have hpos := Real.exp_pos ((valueOf x : ℚ) : ℝ)
    have hone : Real.exp ((valueOf x : ℚ) : ℝ) ≤ 1 := Real.exp_le_one_iff.mpr (by exact_mod_cast b2)
    have habs : |((|expSum (valueOf x)| : ℚ) : ℝ) - Real.exp (valueOf x)| ≤ 1 / 10 ^ 5 := by
      have := abs_abs_sub_abs_le ((expSum (valueOf x) : ℚ) : ℝ) (Real.exp (valueOf x))
      rw [abs_of_pos hpos] at this
      rw [Rat.cast_abs]; norm_num at hs this ⊢; linarith
    obtain ⟨k, hk, hk1, hk0, hk2⟩ := cut_near (b := 1) (by decide) (by rw [abs_of_pos hpos]; simpa using hone) habs
    have hb : Units.bound01 (params.exp x) = grid k := by
      show Units.bound01 (cut |expSum (valueOf x)|) = _
      rw [hk]; exact bound01_grid (hk0 (abs_nonneg _)) (by omega)
    rw [hb]; exact hk2

theorem exp2Point_spec {x y : F32} (h : Units.exp2Point x = some y) :
    ∃ n : Nat, valueOf x = (n : Int) ∧ valueOf y = ((2 ^ n : Nat) : Int) := by
  unfold Units.exp2Point at h
  split at h
  · rename_i h0
    cases h
    exact ⟨0, valueOf_of_ord (by rcases h0 with rfl | rfl <;> decide), valueOf_of_ord (by decide)⟩
  split at h
  · subst x; cases h; exact ⟨1, valueOf_of_ord (by decide), valueOf_of_ord (by decide)⟩
  split at h
  · subst x; cases h; exact ⟨2, valueOf_of_ord (by decide), valueOf_of_ord (by decide)⟩
  split at h
  · subst x; cases h; exact ⟨3, valueOf_of_ord (by decide), valueOf_of_ord (by decide)⟩
  split at h
  · subst x; cases h; exact ⟨4, valueOf_of_ord (by decide), valueOf_of_ord (by decide)⟩
  split at h
  · subst x; cases h; exact ⟨5, valueOf_of_ord (by decide), valueOf_of_ord (by decide)⟩
  · cases h

theorem oneOrd_pos : 0 < Fp.oneOrd := by decide

theorem exp2_accurate {x : F32} (hx : Fp.isFinite x = true) (h1 : Fp.le Fp.posZero x = true)
    (h2 : Fp.le x Lit.amountExponent = true) :
    |(valueOf (Units.exp2 params x) : ℝ) - (2 : ℝ) ^ (valueOf x : ℝ)| ≤ 8 / 10 ^ 5 * (2 : ℝ) ^ (valueOf x : ℝ) := by
  obtain ⟨b1, b2⟩ := valueOf_bounds h1 h2
  have e1 : valueOf Fp.posZero = (0 : Int) := valueOf_of_ord (by decide)
  have e2 : valueOf Lit.amountExponent = (5 : Int) := valueOf_of_ord (by decide)
  rw [e1] at b1; rw [e2] at b2
  push_cast at b1 b2
  have hone : (1 : ℝ) ≤ (2 : ℝ) ^ (valueOf x : ℝ) := Real.one_le_rpow (by norm_num) (by exact_mod_cast b1)
  unfold Units.exp2
  rw [isNaN_of_isFinite hx]
  simp only [Bool.false_eq_true, if_false]
  split
  · rename_i y hy
    obtain ⟨n, hn1, hn2⟩ := exp2Point_spec hy
    rw [hn1, hn2]; push_cast
    rw [Real.rpow_natCast, sub_self, abs_zero]; positivity
  · have ho : Fp.ord x = (Fp.mag x : Int) := by
      simp only [Fp.le, Bool.and_eq_true, decide_eq_true_eq] at h1
      have h0 := h1.2
      rw [show Fp.ord Fp.posZero = 0 by decide] at h0
      unfold Fp.ord at h0 ⊢
      split at h0 <;> rename_i hs
      · rw [if_pos hs]; omega
      · rw [if_neg hs]
    have hv : (valueOf x : ℝ) = (Fp.mag x : ℝ) / (Fp.oneOrd : ℝ) := by
      have h1 : (Fp.oneOrd : ℝ) = 2 ^ 149 := by unfold Fp.oneOrd; push_cast; norm_num
      unfold valueOf; rw [ho, h1]; push_cast; rfl
    have hle : Fp.mag x ≤ 5 * Fp.oneOrd := by
      simp only [Fp.le, Bool.and_eq_true, decide_eq_true_eq] at h2
      have h0 := h2.2
      rw [ho, show Fp.ord Lit.amountExponent = ((5 * Fp.oneOrd : Nat) : Int) by decide] at h0
      exact_mod_cast h0
    obtain ⟨hk, hc⟩ := rootCut_spec (n := Fp.oneOrd) (o := Fp.mag x) oneOrd_pos hle
    have hg : params.exp2 x = grid (rootCut Fp.oneOrd (Fp.mag x)) := by simp only [params]
    rw [hg]
    rw [← hv] at hc
    generalize rootCut Fp.oneOrd (Fp.mag x) = k at hk hc
    have hf : ((k : Nat) : Int).natAbs < 2 ^ 24 := by omega
    rw [isFinite_grid hf]
    simp only [Bool.not_true, Bool.and_false, Bool.false_eq_true, if_false]
    rw [valueOf_grid hf]
    push_cast at hc ⊢
    norm_num at hc ⊢
    linarith

theorem sin2pi_accurate {x : F32} (hx : Fp.isFinite x = true) :
    |(valueOf (Units.sin2pi params x) : ℝ) - Real.sin (2 * Real.pi * valueOf (Fp.frac x))| ≤ 8 / 10 ^ 5 := by
  unfold Units.sin2pi
  simp only [hx, Bool.not_true, Bool.false_eq_true, if_false]
  generalize Fp.frac x = r
  have v0 : valueOf Fp.posZero = (0 : Int) := valueOf_of_ord (by decide)
  have v1 : valueOf Fp.one = (1 : Int) := valueOf_of_ord (by decide)
  have vm : valueOf Fp.negOne = (-1 : Int) := valueOf_of_ord (by decide)
  split
  · subst r; rw [v0]; norm_num
  split
  · subst r
    have vq : valueOf Fp.quarter = 1 / 4 := by
      unfold valueOf; rw [show Fp.ord Fp.quarter = 2 ^ 147 by decide]; norm_num
    rw [v1, vq]; push_cast
    rw [show 2 * Real.pi * (1 / 4) = Real.pi / 2 by ring, Real.sin_pi_div_two]; norm_num
  split
  · subst r
    have vh : valueOf Fp.half = 1 / 2 := by
      unfold valueOf; rw [show Fp.ord Fp.half = 2 ^ 148 by decide]; norm_num
    rw [v0, vh]; push_cast
    rw [show 2 * Real.pi * (1 / 2) = Real.pi by ring, Real.sin_pi]; norm_num
  split
  · subst r
    have vt : valueOf Fp.threeQuarters = 3 / 4 := by
      unfold valueOf; rw [show Fp.ord Fp.threeQuarters = 3 * 2 ^ 147 by decide]; norm_num
    rw [vm, vt]; push_cast
    rw [show 2 * Real.pi * (3 / 4) = Real.pi / 2 + Real.pi by ring, Real.sin_add_pi, Real.sin_pi_div_two]; norm_num
  · obtain ⟨a0, a1, a2, _⟩ := angle_spec r
    have ht := (trig_spec a0 a1).1
    have habs : |((sinSum (angle r) : ℚ) : ℝ) - Real.sin (2 * Real.pi * valueOf r)| ≤ 1 / 10 ^ 5 := by
      have := abs_sub_le ((sinSum (angle r) : ℚ) : ℝ) (Real.sin (angle r)) (Real.sin (2 * Real.pi * valueOf r))
      norm_num at ht a2 this ⊢; linarith
    obtain ⟨k, hk, hk1, _, hk2⟩ := cut_near (b := 1) (by decide) (by simpa using Real.abs_sin_le_one _) habs
    have hb : Units.bound11 (params.sin2pi r) = grid k := by
      show Units.bound11 (cut (sinSum (angle r))) = _
      rw [hk]; exact bound11_grid (by omega)
    rw [hb]; exact hk2

theorem cos2pi_accurate {x : F32} (hx : Fp.isFinite x = true) :
    |(valueOf (Units.cos2pi params x) : ℝ) - Real.cos (2 * Real.pi * valueOf (Fp.frac x))| ≤ 8 / 10 ^ 5 := by
  unfold Units.cos2pi
  simp only [hx, Bool.not_true, Bool.false_eq_true, if_false]
  generalize Fp.frac x = r
  have v0 : valueOf Fp.posZero = (0 : Int) := valueOf_of_ord (by decide)
  have v1 : valueOf Fp.one = (1 : Int) := valueOf_of_ord (by decide)
  have vm : valueOf Fp.negOne = (-1 : Int) := valueOf_of_ord (by decide)
  split
  · subst r; rw [v1, v0]; norm_num
  split
  · subst r
    have vq : valueOf Fp.quarter = 1 / 4 := by
      unfold valueOf; rw [show Fp.ord Fp.quarter = 2 ^ 147 by decide]; norm_num
    rw [v0, vq]; push_cast
    rw [show 2 * Real.pi * (1 / 4) = Real.pi / 2 by ring, Real.cos_pi_div_two]; norm_num
  split
  · subst r
    have vh : valueOf Fp.half = 1 / 2 := by
      unfold valueOf; rw [show Fp.ord Fp.half = 2 ^ 148 by decide]; norm_num
    rw [vm, vh]; push_cast
    rw [show 2 * Real.pi * (1 / 2) = Real.pi by ring, Real.cos_pi]; norm_num
  split
  · subst r
    have vt : valueOf Fp.threeQuarters = 3 / 4 := by
      unfold valueOf; rw [show Fp.ord Fp.threeQuarters = 3 * 2 ^ 147 by decide]; norm_num
    rw [v0, vt]; push_cast
    rw [show 2 * Real.pi * (3 / 4) = Real.pi / 2 + Real.pi by ring, Real.cos_add_pi, Real.cos_pi_div_two]; norm_num
  · obtain ⟨a0, a1, _, a2⟩ := angle_spec r
    have ht := (trig_spec a0 a1).2
    have habs : |((cosSum (angle r) : ℚ) : ℝ) - Real.cos (2 * Real.pi * valueOf r)| ≤ 1 / 10 ^ 5 := by
      have := abs_sub_le ((cosSum (angle r) : ℚ) : ℝ) (Real.cos (angle r)) (Real.cos (2 * Real.pi * valueOf r))
      norm_num at ht a2 this ⊢; linarith
    obtain ⟨k, hk, hk1, _, hk2⟩ := cut_near (b := 1) (by decide) (by simpa using Real.abs_cos_le_one _) habs
    have hb : Units.bound11 (params.cos2pi r) = grid k := by
      show Units.bound11 (cut (cosSum (angle r))) = _
      rw [hk]; exact bound11_grid (by omega)
    rw [hb]; exact hk2

/-- The sample is accurate. -/
theorem accurate : AccurateUnits params (eps : ℝ) := by
  have he : (8 / 10 ^ 5 : ℝ) ≤ ((eps : ℚ) : ℝ) := by unfold eps; norm_num
  exact ⟨fun _ h h1 h2 => (exp_accurate h h1 h2).trans he,
    fun _ h h1 h2 => (exp2_accurate h h1 h2).trans (mul_le_mul_of_nonneg_right he (by positivity)),
    fun _ h => (sin2pi_accurate h).trans he, fun _ h => (cos2pi_accurate h).trans he⟩

end Sys2Proof.SampleUnits
end

