-- ==== Sys2Proof/Machine/Build.lean ====
section
/-! DEFINITION. Machine/Build.lean: the build this machine is, a constant without a body (spec/00_scope.md R9, R25 to R28;
spec/92_eei_decisions.md D3, "Named OPEN parameters"; spec/93_implementation_defined.md I-9). -/

namespace Sys2Proof.Config

/-- A conforming build: the parameters, the accuracy bound FN_EPS, and that the units keep it. FN_EPS is below 9.9e-5, so that
EXP is below 1.0 wherever Bend divides by `EXP(s) - 1.0` (42_waveshaper.md R217; log 4). -/
structure Build where
  params : Params
  fnEps : ℚ
  fnEps_lt : fnEps < 99 / 1000000
  accurate : Machine.AccurateUnits params (fnEps : ℝ)

/-- A conforming build exists. -/
def sampleBuild : Build where
  params := SampleUnits.params
  fnEps := SampleUnits.eps
  fnEps_lt := by norm_num [SampleUnits.eps]
  accurate := SampleUnits.accurate

/-- Some conforming build, of which nothing is known but that it conforms (R9: every parameter is OPEN; log 3). -/
opaque anyBuild [Inhabited Build] : Build

/-- The conforming build this machine is. -/
def conforming : Build := @anyBuild ⟨sampleBuild⟩

/-- The parameters of the build this machine is (R9). -/
def build : Params := conforming.params

/-- OPEN accuracy bound FN_EPS of the build (R9, D3). -/
def fnEps : ℚ := conforming.fnEps

end Sys2Proof.Config

namespace Sys2Proof.Machine

/-- The units of the machine keep the bounds of 00_scope.md R25 to R28 with its FN_EPS, and FN_EPS is below 9.9e-5
(42_waveshaper.md R217). -/
structure BuildAccurate : Prop where
  units : AccurateUnits Config.build (Config.fnEps : ℝ)
  eps : Config.fnEps < 99 / 1000000

/-- The build of the machine is accurate: every build is. -/
theorem build_accurate : BuildAccurate := ⟨Config.conforming.accurate, Config.conforming.fnEps_lt⟩

end Sys2Proof.Machine
end

