-- ==== Sys2Proof/Machine/State.lean ====
section
/-! DEFINITION. Machine/State.lean: the state of the PDS core as plain data (spec/10_state.md R40 to R79), the reasons a
step can stop, and the state after hardware reset (R78, spec/70_reset_and_hazards.md R370). -/

namespace Sys2Proof.Machine

open Sys2Proof.Config (Params)

/-- No fault exists: "no condition stops the machine or transfers control" (60_exceptions.md, R340, R347). Every event
is a record in STATUS and the machine goes on. Safe: nothing can stop where the core would go on. -/
inductive Fault where
deriving DecidableEq, Repr

/-- Reasons the model itself has no meaning for an instruction. -/
inductive Refusal where
  /-- Raised by `exec` for an instruction that has no meaning in the model yet; no arm of this model raises it. Safe:
  it stops where the core would go on. -/
  | notModelled (mnemonic : String)
deriving DecidableEq, Repr

/-- One phasor (10_state.md R61): the four held lane phases, frequency, per-call increment, sample rate. -/
structure Phasor where
  lane : Vector F32 4
  freq : F32
  inc  : F32
  fs   : F32
deriving DecidableEq, Repr

/-- One smoother (10_state.md R63). -/
structure Smoother where
  value  : F32
  target : F32
  coef   : F32
  step   : F32
  remain : BitVec 32
  tc     : F32
  mode   : SmoothMode
  fs     : F32
deriving DecidableEq, Repr

/-- A ring buffer (10_state.md R65, R66; 44_ring_buffer.md R260): slots, read index, count of live entries. The slots are
(index, contents) pairs, indices strictly rising, a slot that holds the default contents left out (log 7). -/
structure Ring (α : Type) where
  buf : List (Nat × α)
  rd  : Nat
  n   : Nat
deriving DecidableEq, Repr

/-- A frame: 32 channels, channel 2v the primary and 2v + 1 the auxiliary output of voice v (10_state.md R66). -/
abbrev Frame := Vector F32 32

/-- One voice: three phasors, three smoothers, the external-PM ring (10_state.md R60, R65). -/
structure Voice where
  ph  : Vector Phasor 3
  sm  : Vector Smoother 3
  pmq : Ring F32
deriving DecidableEq, Repr

/-- The state of the core (10_state.md R40), and the model's own two fields `inbox` and `readData` (log 1, log 2). -/
structure State where
  /-- STATUS[7:0], the sticky event bits (R46). -/
  flags : BitVec 8
  /-- STATUS[19:16], LAST_CODE (R71). -/
  lastCode : BitVec 4
  /-- SAMPLE_RATE (R47). -/
  sampleRate : F32
  /-- OS_FACTOR (R48). -/
  osFactor : OsFactor
  /-- CHANNELS (R49). -/
  channels : Word
  /-- ALG1 (R52). -/
  alg1 : Algorithm
  /-- ALG2 (R52). -/
  alg2 : Algorithm
  /-- ROUTING (R53). -/
  routing : Routing
  /-- WINDOW (R54). -/
  window : WindowMode
  /-- AUXMODE (R55). -/
  auxMode : AuxMode
  /-- RATIO_IDX (R50). -/
  ratioIdx : Fin 16
  /-- AMT1 (R51). -/
  amt1 : F32
  /-- AMT2 (R51). -/
  amt2 : F32
  /-- DEPTH (R51). -/
  depth : F32
  /-- FREQ[v] (R57). -/
  freq : Vector F32 16
  /-- EXTPM[v] (R58). -/
  extPm : Vector F32 16
  /-- OUT_PRI[v] (R59). -/
  outPri : Vector F32 16
  /-- OUT_AUX[v] (R59). -/
  outAux : Vector F32 16
  /-- OUT_CHANNELS (R59). -/
  outChannels : Word
  /-- OPA[i] (R73). -/
  opA : Vector F32 4
  /-- OPB[i] (R73). -/
  opB : Vector F32 4
  /-- OPC[i] (R73). -/
  opC : Vector F32 4
  /-- OPD[i] (R73). -/
  opD : Vector F32 4
  /-- RES[i] (R74). -/
  res : Vector F32 4
  /-- fs_active (R69). -/
  fsActive : F32
  /-- os_active (R69). -/
  osActive : OsFactor
  /-- sr_changed (R70), mirrored as STATUS.SR_PENDING. -/
  srChanged : Bool
  /-- ph[v], sm[v] and pmq[v], v = 0..15 (R60, R61, R63, R65). -/
  voices : Vector Voice 16
  /-- outq (R66). -/
  outq : Ring Frame
  /-- hist[c], c = 0..31 (R67). -/
  hist : Vector (List F32) 32
  /-- The model's own: what the host has issued and the core has not yet performed, oldest first (R41, R115; log 1). -/
  inbox : List HostEvent
  /-- The model's own: the word the bus returned for the latest read (R100, R105; log 2). -/
  readData : Word
deriving DecidableEq, Repr

/-- A ring after reset: rd = 0, n = 0, nothing listed (R78). -/
def Ring.empty (α : Type) : Ring α := ⟨[], 0, 0⟩

/-- A phasor after hardware reset (R78, R371). -/
def Phasor.atReset : Phasor :=
  { lane := Vector.replicate 4 Fp.posZero, freq := Lit.freqDefault, inc := Fp.posZero, fs := Lit.fsReset }

/-- Smoother `u` after hardware reset (R78, R371): `coef` by R181 from `tc` and `fs`. -/
def Smoother.atReset (p : Params) (u : UnitIdx) : Smoother :=
  { value := Fp.posZero, target := Fp.posZero, coef := Units.coefOf p (Lit.tcDefault u) Lit.fsReset,
    step := Fp.posZero, remain := 0, tc := Lit.tcDefault u, mode := Lit.modeDefault u, fs := Lit.fsReset }

/-- A voice after hardware reset (R78). -/
def Voice.atReset (p : Params) : Voice :=
  { ph := Vector.replicate 3 Phasor.atReset
    sm := #v[Smoother.atReset p 0, Smoother.atReset p 1, Smoother.atReset p 2]
    pmq := Ring.empty F32 }

/-- The reset table R78 for a build with parameters `p`. -/
def State.resetWith (p : Params) : State where
  flags := 0
  lastCode := 0
  sampleRate := Lit.fsReset
  osFactor := .x1
  channels := 1
  alg1 := .bend
  alg2 := .bend
  routing := .before
  window := .flat
  auxMode := .quadrature
  ratioIdx := 3
  amt1 := Fp.posZero
  amt2 := Fp.posZero
  depth := Fp.posZero
  freq := Vector.replicate 16 Fp.posZero
  extPm := Vector.replicate 16 Fp.posZero
  outPri := Vector.replicate 16 Fp.posZero
  outAux := Vector.replicate 16 Fp.posZero
  outChannels := 1
  opA := Vector.replicate 4 Fp.posZero
  opB := Vector.replicate 4 Fp.posZero
  opC := Vector.replicate 4 Fp.posZero
  opD := Vector.replicate 4 Fp.posZero
  res := Vector.replicate 4 Fp.posZero
  fsActive := Lit.fsReset
  osActive := .x1
  srChanged := false
  voices := Vector.replicate 16 (Voice.atReset p)
  outq := Ring.empty Frame
  hist := Vector.replicate 32 []
  inbox := []
  readData := 0

/-- The machine right after hardware reset (R78, R370). -/
def State.reset : State := State.resetWith Config.build

end Sys2Proof.Machine
end

