-- ==== Sys2Proof/Machine/Flags.lean ====
section
/-! DEFINITION. Machine/Flags.lean: the events and the STATUS register (spec/10_state.md R46, R71, R76;
spec/60_exceptions.md R341, R342, R345). The datapath has no condition codes (R76). -/

namespace Sys2Proof.Machine

/-- The events (60_exceptions.md R342), in the order of their codes 1..8. -/
inductive Event where
  /-- A register write carried an illegal value and was ignored. -/
  | cfgIgn
  /-- A CMD write held an undefined or reserved command word. -/
  | cmdIll
  /-- A bus request hit an unmapped, misaligned or (for a write) read-only address. -/
  | busErr
  /-- A DIAG command's operand was outside its legal range. -/
  | operandIll
  /-- A push found an external-PM ring full. -/
  | pmOvf
  /-- A pop found an external-PM ring empty. -/
  | pmUnf
  /-- A TICK found no frame to output. -/
  | outEmpty
  /-- ALG1 or ALG2 took a new value. -/
  | algChanged
deriving DecidableEq, Repr

/-- `code(C)` (R342). -/
def eventCode : Event → BitVec 4
  | .cfgIgn => 1
  | .cmdIll => 2
  | .busErr => 3
  | .operandIll => 4
  | .pmOvf => 5
  | .pmUnf => 6
  | .outEmpty => 7
  | .algChanged => 8

/-- The sticky bit of an event, STATUS bit `code(C) - 1`, as a mask (R341). -/
def eventBit (e : Event) : BitVec 8 := 1#8 <<< ((eventCode e).toNat - 1)

/-- The STATUS word (R46): LAST_CODE in [19:16], SR_PENDING in bit 8, the sticky bits in [7:0], all else 0. -/
def statusWord (s : State) : Word :=
  (0 : BitVec 12) ++ s.lastCode ++ (0 : BitVec 7) ++ BitVec.ofBool s.srChanged ++ s.flags

/-- A write of `d` to STATUS (R46): ones in [7:0] clear their sticky bits; when no sticky bit is left set, LAST_CODE
becomes 0. Bits [31:8] of `d` are ignored. -/
def clearStatus (d : Word) (s : State) : State :=
  let f := s.flags &&& ~~~(d.extractLsb' 0 8)
  { s with flags := f, lastCode := if f = 0 then 0 else s.lastCode }

end Sys2Proof.Machine
end

