-- ==== Sys2Proof/Machine/Ops.lean ====
section
/-! DEFINITION. Machine/Ops.lean: the shared operations on the state: raising an event, the units and rings of a voice,
ring slots and rings, and the result bank. -/

namespace Sys2Proof.Machine

open Sys2Proof.Config (Params)

/-! ## Events

There is no trap to take and none to return from (60_exceptions.md R347): raising an event records it and does nothing
else (R340). What undoes the record is a STATUS write, `clearStatus` of Flags.lean (R345). -/

/-- `raise C` (60_exceptions.md R341): the sticky bit of C, and LAST_CODE. -/
def raise (e : Event) (s : State) : State :=
  { s with flags := s.flags ||| eventBit e, lastCode := eventCode e }

/-! ## The units and the ring of a voice (10_state.md R60) -/

def getVoice (s : State) (v : VoiceIdx) : Voice := s.voices[v]

def setVoice (s : State) (v : VoiceIdx) (x : Voice) : State := { s with voices := s.voices.set v x }

def getPhasor (s : State) (v : VoiceIdx) (u : UnitIdx) : Phasor := (getVoice s v).ph[u]

def setPhasor (s : State) (v : VoiceIdx) (u : UnitIdx) (x : Phasor) : State :=
  setVoice s v { getVoice s v with ph := (getVoice s v).ph.set u x }

def getSmoother (s : State) (v : VoiceIdx) (u : UnitIdx) : Smoother := (getVoice s v).sm[u]

def setSmoother (s : State) (v : VoiceIdx) (u : UnitIdx) (x : Smoother) : State :=
  setVoice s v { getVoice s v with sm := (getVoice s v).sm.set u x }

def getPmq (s : State) (v : VoiceIdx) : Ring F32 := (getVoice s v).pmq

def setPmq (s : State) (v : VoiceIdx) (q : Ring F32) : State :=
  setVoice s v { getVoice s v with pmq := q }

/-! ## The result bank (10_state.md R74) -/

/-- RES[0..3] all written. -/
def setRes (s : State) (r : Vector F32 4) : State := { s with res := r }

/-- RES[0] written, RES[1..3] kept. -/
def setRes0 (s : State) (x : F32) : State := { s with res := s.res.set 0 x }

/-! ## Ring slots

The slots of a ring are held as (index, contents) pairs with rising indices and no pair whose contents are the default `d`,
which is what an unlisted slot holds. Two slot arrays with equal contents are then equal lists (log 7). -/

/-- The contents of slot `i`. -/
def slotRead {α : Type} (d : α) : List (Nat × α) → Nat → α
  | [], _ => d
  | (j, y) :: t, i => if i = j then y else slotRead d t i

/-- Slot `i` set to `x`, every other slot kept, the form kept. -/
def slotWrite {α : Type} [DecidableEq α] (d : α) : List (Nat × α) → Nat → α → List (Nat × α)
  | [], i, x => if x = d then [] else [(i, x)]
  | (j, y) :: t, i, x =>
    if i < j then (if x = d then (j, y) :: t else (i, x) :: (j, y) :: t)
    else if i = j then (if x = d then t else (i, x) :: t)
    else (j, y) :: slotWrite d t i x

/-- The form: indices strictly rising, no contents equal to the default. -/
def slotsWf {α : Type} [DecidableEq α] (d : α) : List (Nat × α) → Bool
  | [] => true
  | [(_, y)] => decide (y ≠ d)
  | (i, y) :: (j, z) :: t => decide (y ≠ d) && decide (i < j) && slotsWf d ((j, z) :: t)

/-! ## Rings (44_ring_buffer.md R260 to R266) -/

/-- The entry that `x` becomes: slot `(rd + n) mod CAP`, and one more live entry (R261, R264). The caller has checked that
the ring is not full. -/
def ringPush {α : Type} [DecidableEq α] (d : α) (cap : Nat) (q : Ring α) (x : α) : Ring α :=
  { q with buf := slotWrite d q.buf ((q.rd + q.n) % cap) x, n := q.n + 1 }

/-- The oldest live entry, `buf[rd]` (R262, R265). -/
def ringFront {α : Type} (d : α) (q : Ring α) : α := slotRead d q.buf q.rd

/-- The oldest live entry gone (R262, R265). -/
def ringDrop {α : Type} (cap : Nat) (q : Ring α) : Ring α :=
  { q with rd := (q.rd + 1) % cap, n := q.n - 1 }

/-- `ClearRing(Q)` (R266): the slots keep their contents. -/
def ringClear {α : Type} (q : Ring α) : Ring α := { q with rd := 0, n := 0 }

/-- The live entries, oldest first: what the ring holds as a FIFO (R260). -/
def ringContents {α : Type} (d : α) (cap : Nat) (q : Ring α) : List α :=
  (List.range q.n).map fun k => slotRead d q.buf ((q.rd + k) % cap)

/-- The frame of 32 zeros: what an unlisted slot of `outq` holds. -/
def zeroFrame : Frame := Vector.replicate 32 Fp.posZero

/-! ## Applying one change to every voice or unit -/

/-- `f` applied to every element. -/
def mapVec {α β : Type} {n : Nat} (f : α → β) (v : Vector α n) : Vector β n := Vector.ofFn fun i : Fin n => f v[i]

/-- `f` applied to every voice, 0..15. -/
def mapVoices (f : Voice → Voice) (s : State) : State := { s with voices := mapVec f s.voices }

/-- The active voices 0..n-1, in order (46_engine.md R304). -/
def activeVoices (n : Nat) : List VoiceIdx := (List.finRange 16).filter fun v => decide (v.val < n)

end Sys2Proof.Machine
end

