-- ==== Sys2Proof/Machine/Operands.lean ====
section
/-! DEFINITION. Machine/Operands.lean: the operand banks as lanes, and the register space: which register an address
names, and what reading a register gives (spec/20_memory.md R100 to R108; spec/10_state.md R43, R73). -/

namespace Sys2Proof.Machine

/-! ## Lane operands (10_state.md R73; 42_waveshaper.md, section 2) -/

/-- A function of one lane applied to the four lanes of OPA. -/
def lanes1 (f : F32 → F32) (s : State) : Vector F32 4 :=
  Vector.ofFn fun i : LaneIdx => f s.opA[i]

/-- A function of one lane applied to the four lanes of OPA and OPB. -/
def lanes2 (f : F32 → F32 → F32) (s : State) : Vector F32 4 :=
  Vector.ofFn fun i : LaneIdx => f s.opA[i] s.opB[i]

/-- A function of one lane applied to the four lanes of OPA, OPB, OPC and OPD. -/
def lanes4 (f : F32 → F32 → F32 → F32 → F32) (s : State) : Vector F32 4 :=
  Vector.ofFn fun i : LaneIdx => f s.opA[i] s.opB[i] s.opC[i] s.opD[i]

/-! ## The address map (20_memory.md R104) -/

/-- The registers of the address map. -/
inductive Reg where
  | id
  | cmd
  | status
  | sampleRate
  | osFactor
  | channels
  | alg1
  | alg2
  | routing
  | window
  | auxMode
  | ratioIdx
  | amt1
  | amt2
  | depth
  | outChannels
  | outqLevel
  | ratioValue
  | freq (v : VoiceIdx)
  | extPm (v : VoiceIdx)
  | outPri (v : VoiceIdx)
  | outAux (v : VoiceIdx)
  | extqLevel (v : VoiceIdx)
  | opA (i : LaneIdx)
  | opB (i : LaneIdx)
  | opC (i : LaneIdx)
  | opD (i : LaneIdx)
  | res (i : LaneIdx)
deriving DecidableEq, Repr

/-- The byte address of a register (R104). -/
def regAddr : Reg → BitVec 12
  | .id => 0x000
  | .cmd => 0x004
  | .status => 0x008
  | .sampleRate => 0x00C
  | .osFactor => 0x010
  | .channels => 0x014
  | .alg1 => 0x018
  | .alg2 => 0x01C
  | .routing => 0x020
  | .window => 0x024
  | .auxMode => 0x028
  | .ratioIdx => 0x02C
  | .amt1 => 0x030
  | .amt2 => 0x034
  | .depth => 0x038
  | .outChannels => 0x03C
  | .outqLevel => 0x040
  | .ratioValue => 0x044
  | .freq v => BitVec.ofNat 12 (0x080 + 4 * v.val)
  | .extPm v => BitVec.ofNat 12 (0x0C0 + 4 * v.val)
  | .outPri v => BitVec.ofNat 12 (0x100 + 4 * v.val)
  | .outAux v => BitVec.ofNat 12 (0x140 + 4 * v.val)
  | .extqLevel v => BitVec.ofNat 12 (0x180 + 4 * v.val)
  | .opA i => BitVec.ofNat 12 (0x1C0 + 4 * i.val)
  | .opB i => BitVec.ofNat 12 (0x1D0 + 4 * i.val)
  | .opC i => BitVec.ofNat 12 (0x1E0 + 4 * i.val)
  | .opD i => BitVec.ofNat 12 (0x1F0 + 4 * i.val)
  | .res i => BitVec.ofNat 12 (0x200 + 4 * i.val)

/-- The register of the word slot `k` = address / 4, if the slot is mapped (R104). -/
def regOfSlot (k : Nat) : Option Reg :=
  match k with
  | 0 => some .id
  | 1 => some .cmd
  | 2 => some .status
  | 3 => some .sampleRate
  | 4 => some .osFactor
  | 5 => some .channels
  | 6 => some .alg1
  | 7 => some .alg2
  | 8 => some .routing
  | 9 => some .window
  | 10 => some .auxMode
  | 11 => some .ratioIdx
  | 12 => some .amt1
  | 13 => some .amt2
  | 14 => some .depth
  | 15 => some .outChannels
  | 16 => some .outqLevel
  | 17 => some .ratioValue
  | k =>
    let v : VoiceIdx := Fin.ofNat 16 k
    let i : LaneIdx := Fin.ofNat 4 k
    if k < 32 then none
    else if k < 48 then some (.freq v)
    else if k < 64 then some (.extPm v)
    else if k < 80 then some (.outPri v)
    else if k < 96 then some (.outAux v)
    else if k < 112 then some (.extqLevel v)
    else if k < 116 then some (.opA i)
    else if k < 120 then some (.opB i)
    else if k < 124 then some (.opC i)
    else if k < 128 then some (.opD i)
    else if k < 132 then some (.res i)
    else none

/-- The register at a byte address: none where the address is misaligned (R103) or unmapped (R107). -/
def regAt (a : BitVec 12) : Option Reg :=
  if a.toNat % 4 = 0 then regOfSlot (a.toNat / 4) else none

/-- The registers a REG_WR may not write (R108). STATUS is not one of them, and CMD is write-only. -/
def readOnly : Reg → Bool
  | .id | .outChannels | .outqLevel | .ratioValue | .outPri _ | .outAux _ | .extqLevel _ | .res _ => true
  | .cmd | .status | .sampleRate | .osFactor | .channels | .alg1 | .alg2 | .routing | .window | .auxMode
  | .ratioIdx | .amt1 | .amt2 | .depth | .freq _ | .extPm _ | .opA _ | .opB _ | .opC _ | .opD _ => false

/-- What a register reads as (R105; 10_state.md R44 to R59, R72 to R74). Reading changes nothing. -/
def readReg (s : State) : Reg → Word
  | .id => Lit.idValue
  | .cmd => 0
  | .status => statusWord s
  | .sampleRate => s.sampleRate
  | .osFactor => BitVec.ofNat 32 (Lit.osNat s.osFactor)
  | .channels => s.channels
  | .alg1 => Lit.algCode s.alg1
  | .alg2 => Lit.algCode s.alg2
  | .routing => Lit.routingCode s.routing
  | .window => Lit.windowCode s.window
  | .auxMode => Lit.auxCode s.auxMode
  | .ratioIdx => BitVec.ofNat 32 s.ratioIdx.val
  | .amt1 => s.amt1
  | .amt2 => s.amt2
  | .depth => s.depth
  | .outChannels => s.outChannels
  | .outqLevel => BitVec.ofNat 32 s.outq.n
  | .ratioValue => Lit.ratio s.ratioIdx
  | .freq v => s.freq[v]
  | .extPm v => s.extPm[v]
  | .outPri v => s.outPri[v]
  | .outAux v => s.outAux[v]
  | .extqLevel v => BitVec.ofNat 32 (getPmq s v).n
  | .opA i => s.opA[i]
  | .opB i => s.opB[i]
  | .opC i => s.opC[i]
  | .opD i => s.opD[i]
  | .res i => s.res[i]

/-- The word at an address of the register space: none where nothing is mapped there as a word. -/
def readWord (s : State) (a : BitVec 12) : Option Word := (regAt a).map (readReg s)

/-- The byte at a byte address, in the byte-addressed view of R102: byte `a` of the register whose word holds it. None
where no register is mapped. -/
def readByte (s : State) (a : BitVec 12) : Option Byte :=
  (readWord s (a &&& 0xFFC)).map fun w => byteOfWord w (Fin.ofNat 4 a.toNat)

end Sys2Proof.Machine
end

