-- ==== Sys2Proof/Machine/RingBuffer.lean ====
section
/-! DEFINITION. Machine/RingBuffer.lean: the ring buffer controller and its commands (spec/44_ring_buffer.md R260 to R268). -/

namespace Sys2Proof.Machine

open Sys2Proof.Config (Params)

/-- `PushPM(v, x)` (R261): a full ring drops the sample and raises PM_OVF. -/
def pushPm (p : Params) (v : VoiceIdx) (x : F32) (s : State) : State :=
  let q := getPmq s v
  if q.n = Units.capPm p then raise .pmOvf s
  else setPmq s v (ringPush Fp.posZero (Units.capPm p) q x)

/-- `PushPM(v, x)` performed `k` times (46_engine.md R305). -/
def pushPmTimes (p : Params) (v : VoiceIdx) (x : F32) : Nat → State → State
  | 0, s => s
  | k + 1, s => pushPmTimes p v x k (pushPm p v x s)

/-- The value `PopPM(v)` returns (R262): +0.0 from an empty ring. -/
def popPmValue (v : VoiceIdx) (s : State) : F32 :=
  if (getPmq s v).n = 0 then Fp.posZero else ringFront Fp.posZero (getPmq s v)

/-- The state after `PopPM(v)` (R262): an empty ring raises PM_UNF. -/
def popPmState (p : Params) (v : VoiceIdx) (s : State) : State :=
  if (getPmq s v).n = 0 then raise .pmUnf s
  else setPmq s v (ringDrop (Units.capPm p) (getPmq s v))

/-- `PopBlockPM(v, N)` (R263): N pops in order. -/
def popBlockPm (p : Params) (v : VoiceIdx) : Nat → State → List F32 × State
  | 0, s => ([], s)
  | k + 1, s =>
    let rest := popBlockPm p v k (popPmState p v s)
    (popPmValue v s :: rest.1, rest.2)

/-- `PushOut(F)` (R264): a full ring drops the frame. -/
def pushOut (p : Params) (F : Frame) (s : State) : State :=
  if s.outq.n = Units.capOut p then s
  else { s with outq := ringPush zeroFrame (Units.capOut p) s.outq F }

/-- `PushOut` of several frames in order (45_decimation_src.md R286). -/
def pushOutAll (p : Params) : List Frame → State → State
  | [], s => s
  | F :: Fs, s => pushOutAll p Fs (pushOut p F s)

/-- The frame `PopOut()` returns, none from an empty ring (R265). -/
def popOutFrame (s : State) : Option Frame :=
  if s.outq.n = 0 then none else some (ringFront zeroFrame s.outq)

/-- The state after `PopOut()` (R265). -/
def popOutState (p : Params) (s : State) : State :=
  if s.outq.n = 0 then s else { s with outq := ringDrop (Units.capOut p) s.outq }

/-- RB_PUSH (R267). -/
def rbPush (p : Params) (v : VoiceIdx) (s : State) : State := pushPm p v s.opA[0] s

/-- RB_POP (R268): RES[1..3] are kept. -/
def rbPop (p : Params) (v : VoiceIdx) (s : State) : State := setRes0 (popPmState p v s) (popPmValue v s)

/-- Meaning of RB_PUSH v (R267). -/
def execRbPush (v : VoiceIdx) (s : State) : Host.Outcome State Fault Refusal := .next (rbPush Config.build v s)

/-- Meaning of RB_POP v (R268). -/
def execRbPop (v : VoiceIdx) (s : State) : Host.Outcome State Fault Refusal := .next (rbPop Config.build v s)

end Sys2Proof.Machine
end

