-- ==== Sys2Proof/Machine/Decimator.lean ====
section
/-! DEFINITION. Machine/Decimator.lean: the sample-rate converter and its FIR decimator (spec/45_decimation_src.md R280 to
R287). -/

namespace Sys2Proof.Machine

open Sys2Proof.Config (Params)

/-- The accumulation of R285 for one output: from +0.0, add `h[j] × e[at - j]` for j = 0, 1, .. in order, one rounding per
product and per sum. An index outside `e` (no state a run reaches has one) reads +0.0. -/
def firSum (e : List F32) : List F32 → Nat → F32 → F32
  | [], _, acc => acc
  | h :: hs, i, acc => firSum e hs (i - 1) (Fp.add acc (Fp.mul h (e.getD i Fp.posZero)))

/-- Output `q` of R285: aligned with the last sample of group `q` of `m`; the history holds `L - 1` samples. -/
def firOutput (h e : List F32) (m q : Nat) : F32 :=
  firSum e h ((h.length - 1) + q * m + (m - 1)) Fp.posZero

/-- The outputs of `Decimate(c, x)` (R285): `b` of them. -/
def decimateOut (h : List F32) (m b : Nat) (hist x : List F32) : List F32 :=
  (List.range b).map fun q => firOutput h (hist ++ x) m q

/-- The history after `Decimate(c, x)` (R285): the last `L - 1` samples. -/
def decimateHist (h hist x : List F32) : List F32 :=
  (hist ++ x).drop ((hist ++ x).length - (h.length - 1))

/-- Channel `c` of a block of frames. -/
def channelOf (X : List Frame) (c : Fin 32) : List F32 := X.map fun F => F[c]

/-- The frames made of per-channel output lists. -/
def framesOf (Y : Vector (List F32) 32) (b : Nat) : List Frame :=
  (List.range b).map fun q => Vector.ofFn fun c : Fin 32 => Y[c].getD q Fp.posZero

/-- The conversion of one block and the push of its frames (R281, R282, R285, R286; 46_engine.md R306): a copy when M = 1,
else the decimator on all 32 channels. DESIGN CHOICE, unsafe (log 19): the zero block of a voice that is not active is filtered
after whatever its channels' history holds (R282, R285), so where L_M > 2M the channels of a voice dropped before a render and
raised again during that block can carry the filter tail where 70_reset_and_hazards.md R384 says +0.0. -/
def convert (p : Params) (X : List Frame) (s : State) : State :=
  match s.osActive with
  | .x1 => pushOutAll p X s
  | m =>
    let h := Units.taps p m
    let b := Units.blockSize p
    let Y : Vector (List F32) 32 :=
      Vector.ofFn fun c : Fin 32 => decimateOut h (Lit.osNat m) b s.hist[c] (channelOf X c)
    let hist : Vector (List F32) 32 := Vector.ofFn fun c : Fin 32 => decimateHist h s.hist[c] (channelOf X c)
    pushOutAll p (framesOf Y b) { s with hist := hist }

end Sys2Proof.Machine
end

