-- ==== Sys2Proof/Machine/PhasorUnit.lean ====
section
/-! DEFINITION. Machine/PhasorUnit.lean: the 4-lane phase accumulator and its commands (spec/40_phasor.md R160 to R168). -/

namespace Sys2Proof.Machine

/-- The base phase of a frequency set: the held lane 0, wrapped once (R161, D6). -/
def basePhase (b : F32) : F32 := if Fp.ge b Fp.one then Fp.sub b Fp.one else b

/-- `SetFrequency(P, f)` (R161). -/
def setFrequency (P : Phasor) (f : F32) : Phasor :=
  let inc := Fp.div (Fp.mul f Fp.four) P.fs
  let b := basePhase P.lane[0]
  { P with
    freq := f
    inc := inc
    lane := Vector.ofFn fun i : LaneIdx => Fp.add b (Fp.mul inc (Lit.laneFraction i)) }

/-- `SetSampleRate(P, s)` (R162): the rate, then the frequency set again. -/
def phasorSetSampleRate (P : Phasor) (s : F32) : Phasor := setFrequency { P with fs := s } P.freq

/-- The phase a held lane outputs: one wrap, then the floor at 0 (R163). -/
def laneOut (p : F32) : F32 :=
  let w := if Fp.ge p Fp.one then Fp.sub p Fp.one else p
  if Fp.lt w Fp.posZero then Fp.posZero else w

/-- The four phases a call of Process returns (R163). -/
def phasorOut (P : Phasor) : Vector F32 4 := Vector.ofFn fun i : LaneIdx => laneOut P.lane[i]

/-- The phasor after a call of Process: each output phase advanced by the increment (R163). -/
def phasorNext (P : Phasor) : Phasor :=
  { P with lane := Vector.ofFn fun i : LaneIdx => Fp.add (laneOut P.lane[i]) P.inc }

/-- A rate is legal when it is finite and positive (R167; 41_smoother.md R187; 10_state.md R47). -/
def rateLegal (x : F32) : Bool := Fp.isFinite x && Fp.gt x Fp.posZero

/-- PH_SETFREQ (R164). -/
def phSetfreq (v : VoiceIdx) (u : UnitIdx) (s : State) : State :=
  setPhasor s v u (setFrequency (getPhasor s v u) s.opA[0])

/-- PH_PROCESS (R165). -/
def phProcess (v : VoiceIdx) (u : UnitIdx) (s : State) : State :=
  setRes (setPhasor s v u (phasorNext (getPhasor s v u))) (phasorOut (getPhasor s v u))

/-- PH_SETSR (R167). -/
def phSetsr (v : VoiceIdx) (u : UnitIdx) (s : State) : State :=
  if rateLegal s.opA[0] then setPhasor s v u (phasorSetSampleRate (getPhasor s v u) s.opA[0])
  else raise .operandIll s

/-- Meaning of PH_SETFREQ v, u (R164). -/
def execPhSetfreq (v : VoiceIdx) (u : UnitIdx) (s : State) : Host.Outcome State Fault Refusal :=
  .next (phSetfreq v u s)

/-- Meaning of PH_PROCESS v, u (R165). -/
def execPhProcess (v : VoiceIdx) (u : UnitIdx) (s : State) : Host.Outcome State Fault Refusal :=
  .next (phProcess v u s)

/-- Meaning of PH_SETSR v, u (R167). -/
def execPhSetsr (v : VoiceIdx) (u : UnitIdx) (s : State) : Host.Outcome State Fault Refusal :=
  .next (phSetsr v u s)

end Sys2Proof.Machine
end

