-- ==== Sys2Proof/Machine/SmootherUnit.lean ====
section
/-! DEFINITION. Machine/SmootherUnit.lean: the exponential and linear-ramp smoothers and their commands
(spec/41_smoother.md R180 to R189). -/

namespace Sys2Proof.Machine

open Sys2Proof.Config (Params)

/-- `DeriveCoef(S)` (R181). -/
def deriveCoef (p : Params) (S : Smoother) : Smoother := { S with coef := Units.coefOf p S.tc S.fs }

/-- `Init(S, fs, tc, mode)` (R182): value and target are kept. -/
def smootherInit (p : Params) (S : Smoother) (fs tc : F32) (mode : SmoothMode) : Smoother :=
  { deriveCoef p { S with fs := fs, tc := tc, mode := mode } with step := Fp.posZero, remain := 0 }

/-- `SetSampleRate(S, fs)` (R183): step and remain are kept. -/
def smootherSetSampleRate (p : Params) (S : Smoother) (fs : F32) : Smoother :=
  deriveCoef p { S with fs := fs }

/-- `Set(S, t, imm)` (R184). -/
def smootherSet (S : Smoother) (t : F32) (imm : Bool) : Smoother :=
  if imm then { S with target := t, value := t, step := Fp.posZero, remain := 0 }
  else
    match S.mode with
    | .exponential => { S with target := t }
    | .linear =>
      let d := Fp.mul S.tc S.fs
      if Fp.gt d Fp.posZero && Fp.isFinite d then
        { S with
          target := t
          step := Fp.div (Fp.sub t S.value) d
          remain := BitVec.ofNat 32 (Fp.ceilSat32 d) }
      else { S with target := t, step := Fp.posZero, remain := 0 }

/-- `Process(S)` in exponential mode: the three rounded operations of R185. DESIGN CHOICE (log 18), unsafe: where R191 and
R192 (a), (e) say that the first Process returns the target and these operations do not (a rounded difference at
coefficient 1.0; inf - inf after an immediate Set of an infinity), the operations are followed. -/
def smootherNextExp (S : Smoother) : Smoother :=
  { S with value := Fp.add S.value (Fp.mul S.coef (Fp.sub S.target S.value)) }

/-- The ramp ends at this call: the stepped value `x` has reached or passed the target as seen by the sign of the step, or
no call is left (R186). -/
def rampEnds (S : Smoother) (x : F32) : Bool :=
  (Fp.gt S.step Fp.posZero && Fp.ge x S.target) || (Fp.lt S.step Fp.posZero && Fp.le x S.target)
    || S.remain - 1 == 0

/-- `Process(S)` in linear mode (R186). DESIGN CHOICE (log 20), unsafe: from an infinite value, which R190 (c) does not exclude
from its monotone move to the target, these operations give a NaN until the ramp ends, and they are followed. -/
def smootherNextLin (S : Smoother) : Smoother :=
  if S.remain = 0 then { S with value := S.target }
  else
    let x := Fp.add S.value S.step
    if rampEnds S x then { S with value := S.target, remain := 0 }
    else { S with value := x, remain := S.remain - 1 }

/-- `Process(S)` (R185, R186): the smoother after the call; the call returns its value. -/
def smootherNext (S : Smoother) : Smoother :=
  match S.mode with
  | .exponential => smootherNextExp S
  | .linear => smootherNextLin S

/-- A time constant is legal when it is finite and not negative (R187). -/
def tcLegal (x : F32) : Bool := Fp.isFinite x && Fp.ge x Fp.posZero

/-- SM_INIT (R187): OPA[0] the rate, OPA[1] the time constant. -/
def smInit (p : Params) (v : VoiceIdx) (u : UnitIdx) (mode : SmoothMode) (s : State) : State :=
  if !rateLegal s.opA[0] then raise .operandIll s
  else if !tcLegal s.opA[1] then raise .operandIll s
  else setSmoother s v u (smootherInit p (getSmoother s v u) s.opA[0] s.opA[1] mode)

/-- SM_SET (R188). -/
def smSet (v : VoiceIdx) (u : UnitIdx) (imm : Bool) (s : State) : State :=
  setSmoother s v u (smootherSet (getSmoother s v u) s.opA[0] imm)

/-- SM_PROCESS (R189): RES[1..3] are kept. -/
def smProcess (v : VoiceIdx) (u : UnitIdx) (s : State) : State :=
  let S := smootherNext (getSmoother s v u)
  setRes0 (setSmoother s v u S) S.value

/-- Meaning of SM_INIT v, u, mode (R187). -/
def execSmInit (v : VoiceIdx) (u : UnitIdx) (mode : SmoothMode) (s : State) : Host.Outcome State Fault Refusal :=
  .next (smInit Config.build v u mode s)

/-- Meaning of SM_SET v, u [, imm] (R188). -/
def execSmSet (v : VoiceIdx) (u : UnitIdx) (imm : Bool) (s : State) : Host.Outcome State Fault Refusal :=
  .next (smSet v u imm s)

/-- Meaning of SM_PROCESS v, u (R189). -/
def execSmProcess (v : VoiceIdx) (u : UnitIdx) (s : State) : Host.Outcome State Fault Refusal :=
  .next (smProcess v u s)

end Sys2Proof.Machine
end

