-- ==== Sys2Proof/Machine/Waveshaper.lean ====
section
/-! DEFINITION. Machine/Waveshaper.lean: the four distortion laws, their commands, and the commands of the
transcendental units (spec/42_waveshaper.md R200 to R214). -/

namespace Sys2Proof.Machine

open Sys2Proof.Config (Params)

/-- `EA_S(a) = EXP2(a × 5.0) - 1.0` (R202). -/
def amountSync (p : Params) (a : F32) : F32 := Fp.sub (Units.exp2 p (Fp.mul a Lit.amountExponent)) Fp.one

/-- `EA_F(a) = EXP2(a × 5.0)` (R202). -/
def amountFold (p : Params) (a : F32) : F32 := Units.exp2 p (Fp.mul a Lit.amountExponent)

/-- BEND (R203). -/
def bend (p : Params) (x a : F32) : F32 :=
  if Fp.le a Lit.bendThreshold then x
  else
    let s := Fp.mul Lit.bendScale a
    Fp.div (Fp.sub (Units.exp p (Fp.mul x s)) Fp.one) (Fp.sub (Units.exp p s) Fp.one)

/-- SYNC (R204). -/
def sync (p : Params) (x a : F32) : F32 := Fp.wrap (Fp.mul x (Fp.add Fp.one (amountSync p a)))

/-- FORMANT (R205): clamp, then wrap, so that a phase pushed to 1 or past it comes out as 0. -/
def formant (p : Params) (x a : F32) : F32 :=
  Fp.wrap (Fp.clamp01 (Fp.add x (Fp.mul (Fp.sub x Fp.half) (amountSync p a))))

/-- The fold index k of a product x: `floorf((x + 1.0) / 2.0)` (R206). -/
def foldIndex (x : F32) : F32 := Fp.floor (Fp.div (Fp.add x Fp.one) Fp.two)

/-- FOLD (R206): the parity is per lane, this scalar law. DESIGN CHOICE (log 12), unsafe: at amount 0 and phase 1 - 2^-24
R210 and R215 say the phase, these operations round to +0.0, and the operations are followed. -/
def fold (p : Params) (x a : F32) : F32 :=
  let y := Fp.mul x (amountFold p a)
  let k := foldIndex y
  let r := Fp.sub y (Fp.mul Fp.two k)
  Fp.wrap (if Fp.isOdd k then Fp.neg r else r)

/-- `SHAPE(alg, p, a)` (R201). -/
def shape (p : Params) (alg : Algorithm) (x a : F32) : F32 :=
  match alg with
  | .bend => bend p x a
  | .sync => sync p x a
  | .formant => formant p x a
  | .fold => fold p x a

/-! ## Commands -/

/-- PD_BEND (R207). -/
def pdBend (p : Params) (s : State) : State := setRes s (lanes2 (bend p) s)

/-- PD_SYNC (R208). -/
def pdSync (p : Params) (s : State) : State := setRes s (lanes2 (sync p) s)

/-- PD_FORMANT (R209). -/
def pdFormant (p : Params) (s : State) : State := setRes s (lanes2 (formant p) s)

/-- PD_FOLD (R210). -/
def pdFold (p : Params) (s : State) : State := setRes s (lanes2 (fold p) s)

/-- FN_SIN2PI (R211). -/
def fnSin2pi (p : Params) (s : State) : State := setRes s (lanes1 (Units.sin2pi p) s)

/-- FN_COS2PI (R212). -/
def fnCos2pi (p : Params) (s : State) : State := setRes s (lanes1 (Units.cos2pi p) s)

/-- FN_EXP (R213). -/
def fnExp (p : Params) (s : State) : State := setRes s (lanes1 (Units.exp p) s)

/-- FN_EXP2 (R214). -/
def fnExp2 (p : Params) (s : State) : State := setRes s (lanes1 (Units.exp2 p) s)

/-- Meaning of PD_BEND (R207). -/
def execPdBend (s : State) : Host.Outcome State Fault Refusal := .next (pdBend Config.build s)

/-- Meaning of PD_SYNC (R208). -/
def execPdSync (s : State) : Host.Outcome State Fault Refusal := .next (pdSync Config.build s)

/-- Meaning of PD_FORMANT (R209). -/
def execPdFormant (s : State) : Host.Outcome State Fault Refusal := .next (pdFormant Config.build s)

/-- Meaning of PD_FOLD (R210). -/
def execPdFold (s : State) : Host.Outcome State Fault Refusal := .next (pdFold Config.build s)

/-- Meaning of FN_SIN2PI (R211). -/
def execFnSin2pi (s : State) : Host.Outcome State Fault Refusal := .next (fnSin2pi Config.build s)

/-- Meaning of FN_COS2PI (R212). -/
def execFnCos2pi (s : State) : Host.Outcome State Fault Refusal := .next (fnCos2pi Config.build s)

/-- Meaning of FN_EXP (R213). -/
def execFnExp (s : State) : Host.Outcome State Fault Refusal := .next (fnExp Config.build s)

/-- Meaning of FN_EXP2 (R214). -/
def execFnExp2 (s : State) : Host.Outcome State Fault Refusal := .next (fnExp2 Config.build s)

end Sys2Proof.Machine
end

