-- ==== Sys2Proof/Machine/PdoBlock.lean ====
section
/-! DEFINITION. Machine/PdoBlock.lean: phase modulation, windowing, the auxiliary outputs, their commands, and the block of
one voice (spec/43_pdo_block.md R230 to R245). -/

namespace Sys2Proof.Machine

open Sys2Proof.Config (Params)

/-- `PM_FN(x, pp, d, r, ext)` (R231). -/
def pmFn (p : Params) (x pp d r ext : F32) : F32 :=
  let k := Fp.div (Fp.mul d Lit.pmDepthScale) r
  let m := Fp.add (Fp.mul (Units.sin2pi p pp) k) ext
  Fp.wrap (Fp.add x m)

/-- `WINDOW_FN(w, p)` (R232). -/
def windowFn (w : WindowMode) (x : F32) : F32 :=
  match w with
  | .flat => Fp.one
  | .sawtooth => Fp.sub Fp.one x
  | .triangle => if Fp.lt x Fp.half then Fp.mul Fp.two x else Fp.mul Fp.two (Fp.sub Fp.one x)

/-- `AUX_FN(mode, x, wv, pc, ps)` (R233). -/
def auxFn (p : Params) (mode : AuxMode) (x wv pc ps : F32) : F32 :=
  match mode with
  | .quadrature => Fp.mul (Units.cos2pi p x) wv
  | .unison => Units.sin2pi p pc
  | .subOctave => Units.sin2pi p ps
  | .rawPhasor => x

/-! ## Commands -/

/-- PM_INJECT (R234). -/
def pmInject (p : Params) (s : State) : State :=
  setRes s (lanes4 (fun x pp d e => pmFn p x pp d (Lit.ratio s.ratioIdx) e) s)

/-- WIN_EVAL (R235). -/
def winEval (w : WindowMode) (s : State) : State := setRes s (lanes1 (windowFn w) s)

/-- Meaning of PM_INJECT (R234). -/
def execPmInject (s : State) : Host.Outcome State Fault Refusal := .next (pmInject Config.build s)

/-- Meaning of WIN_EVAL mode (R235). -/
def execWinEval (w : WindowMode) (s : State) : Host.Outcome State Fault Refusal := .next (winEval w s)

/-! ## The block of one voice -/

/-- The patch snapshot formed at the start of a render (R240), less the frequencies, which are read per voice. -/
structure Patch where
  alg1    : Algorithm
  alg2    : Algorithm
  routing : Routing
  window  : WindowMode
  aux     : AuxMode
  amt1    : F32
  amt2    : F32
  depth   : F32
  r       : F32
deriving DecidableEq, Repr

/-- The snapshot of the patch registers (R240). -/
def patchOf (s : State) : Patch where
  alg1 := s.alg1
  alg2 := s.alg2
  routing := s.routing
  window := s.window
  aux := s.auxMode
  amt1 := s.amt1
  amt2 := s.amt2
  depth := s.depth
  r := Lit.ratio s.ratioIdx

/-- Block-start frequencies (R241): carrier, sub-carrier at half, PM source at the ratio. -/
def startFrequencies (P : Patch) (f : F32) (vo : Voice) : Voice :=
  { vo with
    ph := #v[setFrequency vo.ph[0] f, setFrequency vo.ph[1] (Fp.mul f Lit.subRatio),
             setFrequency vo.ph[2] (Fp.mul f P.r)] }

/-- Block-start smoother targets (R242), not immediate. -/
def startTargets (P : Patch) (vo : Voice) : Voice :=
  { vo with
    sm := #v[smootherSet vo.sm[0] P.amt1 false, smootherSet vo.sm[1] P.amt2 false,
             smootherSet vo.sm[2] P.depth false] }

/-- Four successive calls of Process on a smoother: the four values, one per lane, and the smoother after them (R243). -/
def smootherFour (S : Smoother) : Vector F32 4 × Smoother :=
  let S1 := smootherNext S
  let S2 := smootherNext S1
  let S3 := smootherNext S2
  let S4 := smootherNext S3
  (#v[S1.value, S2.value, S3.value, S4.value], S4)

/-- The lane pipeline (R244): the primary and the auxiliary sample. -/
def lanePipeline (p : Params) (P : Patch) (pc ps pp a1 a2 d ext : F32) : F32 × F32 :=
  let wv := windowFn P.window pc
  let x0 := if P.routing = .before then pmFn p pc pp d P.r ext else pc
  let x1 := shape p P.alg1 x0 a1
  let x2 := shape p P.alg2 x1 a2
  let x := if P.routing = .after then pmFn p x2 pp d P.r ext else x2
  (Fp.mul (Units.sin2pi p x) wv, auxFn p P.aux x wv pc ps)

/-- One group of four samples (R243): the outputs of the lanes in order, and the voice after the group. `ext` starts at
the group's first sample. -/
def groupStep (p : Params) (P : Patch) (ext : List F32) (vo : Voice) : List (F32 × F32) × Voice :=
  let pc := phasorOut vo.ph[0]
  let ps := phasorOut vo.ph[1]
  let pp := phasorOut vo.ph[2]
  let a1 := smootherFour vo.sm[0]
  let a2 := smootherFour vo.sm[1]
  let d := smootherFour vo.sm[2]
  let lane (i : LaneIdx) : F32 × F32 :=
    lanePipeline p P pc[i] ps[i] pp[i] a1.1[i] a2.1[i] d.1[i] (ext.getD i.val Fp.posZero)
  ([lane 0, lane 1, lane 2, lane 3],
   { vo with
     ph := #v[phasorNext vo.ph[0], phasorNext vo.ph[1], phasorNext vo.ph[2]]
     sm := #v[a1.2, a2.2, d.2] })

/-- `k` groups in order (R239, R243). -/
def groupSteps (p : Params) (P : Patch) : Nat → List F32 → Voice → List (F32 × F32) × Voice
  | 0, _, vo => ([], vo)
  | k + 1, ext, vo =>
    let g := groupStep p P ext vo
    let rest := groupSteps p P k (ext.drop 4) g.2
    (g.1 ++ rest.1, rest.2)

/-- `PDO_BLOCK(v, P, ext, N)` on a voice whose carrier frequency is `f` (R241 to R245): N samples, N a multiple of 4, in N/4
groups. Only the voice's phasors and smoothers change. -/
def pdoBlock (p : Params) (P : Patch) (f : F32) (ext : List F32) (n : Nat) (vo : Voice) : List (F32 × F32) × Voice :=
  groupSteps p P (n / 4) ext (startTargets P (startFrequencies P f vo))

end Sys2Proof.Machine
end

