-- ==== Sys2Proof/Machine/Engine.lean ====
section
/-! DEFINITION. Machine/Engine.lean: the TICK pipeline, RESET, CLEAR, NOP and hardware reset (spec/46_engine.md R300 to R313;
spec/70_reset_and_hazards.md R370, R373). -/

namespace Sys2Proof.Machine

open Sys2Proof.Config (Params)

/-- `f32(os_active)`. -/
def osF32 (m : OsFactor) : F32 := Fp.ofNat (Lit.osNat m)

/-- The rate the units run at, `fs_active × f32(os_active)` (R301, R302, R310; 10_state.md R69). -/
def unitRate (s : State) : F32 := Fp.mul s.fsActive (osF32 s.osActive)

/-! ## Reset and clear -/

/-- A phasor after a voice reset at rate `fo` (R309). -/
def phasorReset (fo : F32) (P : Phasor) : Phasor :=
  phasorSetSampleRate
    { P with lane := Vector.replicate 4 Fp.posZero, freq := Lit.freqDefault, inc := Fp.posZero } fo

/-- A smoother after a voice reset at rate `fo` (R309): time constant and mode are kept. -/
def smootherReset (p : Params) (fo : F32) (S : Smoother) : Smoother :=
  smootherInit p { S with value := Fp.posZero, target := Fp.posZero } fo S.tc S.mode

/-- `VoiceReset(v, fo)` (R309). The ring is cleared by the ClearBuffers of every caller. -/
def voiceReset (p : Params) (fo : F32) (vo : Voice) : Voice :=
  { vo with ph := mapVec (phasorReset fo) vo.ph, sm := mapVec (smootherReset p fo) vo.sm }

/-- `ClearBuffers()` (R311): ClearRing on pmq[0..15] and outq, and every history to `L_M - 1` zeros
(45_decimation_src.md R287). -/
def clearBuffers (p : Params) (s : State) : State :=
  { s with
    voices := mapVec (fun vo => { vo with pmq := ringClear vo.pmq }) s.voices
    outq := ringClear s.outq
    hist := Vector.replicate 32 (List.replicate (Units.histLen p s.osActive) Fp.posZero) }

/-- RESET (R310). -/
def softReset (p : Params) (s : State) : State :=
  clearBuffers p (mapVoices (voiceReset p (unitRate s)) s)

/-- Hardware reset (70_reset_and_hazards.md R370): every state element as the reset table says; what the host issues after
it is still to be performed. -/
def hardwareReset (p : Params) (s : State) : State := { State.resetWith p with inbox := s.inbox }

/-! ## TICK -/

/-- A voice whose units are set to rate `fo` without a reset (R301). -/
def voiceSetSampleRate (p : Params) (fo : F32) (vo : Voice) : Voice :=
  { vo with
    ph := mapVec (fun P => phasorSetSampleRate P fo) vo.ph
    sm := mapVec (fun S => smootherSetSampleRate p S fo) vo.sm }

/-- `OsLatch()` (R301). -/
def osLatch (p : Params) (s : State) : State :=
  if s.osFactor = s.osActive then s
  else
    let s1 := clearBuffers p { s with osActive := s.osFactor }
    mapVoices (voiceSetSampleRate p (unitRate s1)) s1

/-- `SrLatch()` (R302). -/
def srLatch (p : Params) (s : State) : State :=
  if s.srChanged then
    let s1 := clearBuffers p { s with srChanged := false, fsActive := s.sampleRate }
    mapVoices (voiceReset p (unitRate s1)) s1
  else s

/-- The step of `PushExt` for one voice (R305): `os_active` copies of EXTPM[v]. -/
def pushExtVoice (p : Params) (s : State) (v : VoiceIdx) : State :=
  pushPmTimes p v s.extPm[v] (Lit.osNat s.osActive) s

/-- `PushExt(n)` (R305), voices 0..n-1 in order. -/
def pushExt (p : Params) (n : Nat) (s : State) : State := (activeVoices n).foldl (pushExtVoice p) s

/-- The render of one voice (R306): its block of outputs, and the state with its ring popped and its units advanced. -/
def renderVoice (p : Params) (P : Patch) (n : Nat) (v : VoiceIdx) (s : State) : List (F32 × F32) × State :=
  let popped := popBlockPm p v n s
  let blk := pdoBlock p P s.freq[v] popped.1 n (getVoice popped.2 v)
  (blk.1, setVoice popped.2 v blk.2)

/-- The render of several voices in order (R306). -/
def renderVoices (p : Params) (P : Patch) (n : Nat) : List VoiceIdx → State → List (List (F32 × F32)) × State
  | [], s => ([], s)
  | v :: vs, s =>
    let a := renderVoice p P n v s
    let rest := renderVoices p P n vs a.2
    (a.1 :: rest.1, rest.2)

/-- Frame `k` of the block (R306): channel 2v is sample `k` of voice v's primary output and channel 2v + 1 of its auxiliary
output; the channels of a voice that was not rendered are +0.0. -/
def blockFrame (blocks : List (List (F32 × F32))) (k : Nat) : Frame :=
  Vector.ofFn fun c : Fin 32 =>
    let sample := (blocks.getD (c.val / 2) []).getD k (Fp.posZero, Fp.posZero)
    if c.val % 2 = 0 then sample.1 else sample.2

/-- The number of samples of a render, `BLOCK_SIZE × M` (R306). -/
def blockLen (p : Params) (s : State) : Nat := Units.blockSize p * Lit.osNat s.osActive

/-- `Render(n)` (R306). -/
def render (p : Params) (n : Nat) (s : State) : State :=
  let r := renderVoices p (patchOf s) (blockLen p s) (activeVoices n) s
  convert p ((List.range (blockLen p s)).map (blockFrame r.1)) r.2

/-- `Output(n)` (R307). -/
def output (p : Params) (n : Word) (s : State) : State :=
  match popOutFrame s with
  | none => raise .outEmpty s
  | some F =>
    { popOutState p s with
      outPri := Vector.ofFn fun v : VoiceIdx =>
        if v.val < n.toNat then Fp.mul (F[2 * v.val]'(by omega)) Lit.outScale else Fp.posZero
      outAux := Vector.ofFn fun v : VoiceIdx =>
        if v.val < n.toNat then Fp.mul (F[2 * v.val + 1]'(by omega)) Lit.outScale else Fp.posZero
      outChannels := n }

/-- The part of TICK after the latches (R300): push, render if `outq` is empty (R303), output, for `n` channels. DESIGN CHOICE
(log 22), unsafe: PM_UNF follows from what the pushes of R305 left in the ring (R263), also where 70_reset_and_hazards.md R383,
R384 or 44_ring_buffer.md R270 says that a render underflows and the ring holds all it takes. -/
def tickAudio (p : Params) (n : Word) (s : State) : State :=
  let s1 := pushExt p n.toNat s
  output p n (if s1.outq.n = 0 then render p n.toNat s1 else s1)

/-- TICK (R300). -/
def tick (p : Params) (s : State) : State :=
  let s1 := srLatch p (osLatch p s)
  tickAudio p s1.channels s1

/-- Meaning of NOP (R313). -/
def execNop (s : State) : Host.Outcome State Fault Refusal := .next s

/-- Meaning of TICK (R300). -/
def execTick (s : State) : Host.Outcome State Fault Refusal := .next (tick Config.build s)

/-- Meaning of RESET (R310). -/
def execReset (s : State) : Host.Outcome State Fault Refusal := .next (softReset Config.build s)

/-- Meaning of CLEAR (R312). -/
def execClear (s : State) : Host.Outcome State Fault Refusal := .next (clearBuffers Config.build s)

end Sys2Proof.Machine
end

