-- ==== Sys2Proof/Machine/Bus.lean ====
section
/-! DEFINITION. Machine/Bus.lean: the bus instructions REG_WR and REG_RD, the write rule of every register, and the execution
of a command written to CMD (spec/46_engine.md R314, R315; spec/20_memory.md R103 to R108; spec/10_state.md R45 to R58, R73;
spec/30_encoding.md R136). -/

namespace Sys2Proof.Machine

open Sys2Proof.Config (Params)

/-! ## Commands written to CMD -/

/-- The command `i` performed (R135, R136). The two bus instructions are no commands and `decodeCommand` never answers
them; a word is CMD_ILL there as everywhere it is no command. -/
def runCommand (p : Params) (i : Instr) (s : State) : State :=
  match i with
  | .nop => s
  | .tick => tick p s
  | .reset => softReset p s
  | .clear => clearBuffers p s
  | .phSetfreq v u => phSetfreq v u s
  | .phProcess v u => phProcess v u s
  | .phSetsr v u => phSetsr v u s
  | .smInit v u mode => smInit p v u mode s
  | .smSet v u imm => smSet v u imm s
  | .smProcess v u => smProcess v u s
  | .pdBend => pdBend p s
  | .pdSync => pdSync p s
  | .pdFormant => pdFormant p s
  | .pdFold => pdFold p s
  | .pmInject => pmInject p s
  | .winEval w => winEval w s
  | .fnSin2pi => fnSin2pi p s
  | .fnCos2pi => fnCos2pi p s
  | .fnExp => fnExp p s
  | .fnExp2 => fnExp2 p s
  | .rbPush v => rbPush p v s
  | .rbPop v => rbPop p v s
  | .regWr _ _ => raise .cmdIll s
  | .regRd _ => raise .cmdIll s

/-- A write of `w` to CMD (10_state.md R45; R136): the command, or CMD_ILL and nothing else. The word is not stored. -/
def writeCommand (p : Params) (w : Word) (s : State) : State :=
  match decodeCommand w with
  | .ok i => runCommand p i s
  | .error _ => raise .cmdIll s

/-! ## Register writes (10_state.md R46 to R58, R73) -/

/-- SAMPLE_RATE (R47): a legal rate is stored and sets `sr_changed`. -/
def writeSampleRate (w : Word) (s : State) : State :=
  if rateLegal w then { s with sampleRate := w, srChanged := true } else raise .cfgIgn s

/-- OS_FACTOR (R48). -/
def writeOsFactor (w : Word) (s : State) : State :=
  match Lit.osOfWord w with
  | some m => { s with osFactor := m }
  | none => raise .cfgIgn s

/-- CHANNELS (R49): 0 becomes 1 with no event. -/
def writeChannels (w : Word) (s : State) : State :=
  if w = 0 then { s with channels := 1 }
  else if w.toNat ≤ 16 then { s with channels := w }
  else raise .cfgIgn s

/-- ALG1 (R52), with the notification of R56. -/
def writeAlg1 (w : Word) (s : State) : State :=
  match Lit.algOfWord w with
  | some a => if a = s.alg1 then s else raise .algChanged { s with alg1 := a }
  | none => raise .cfgIgn s

/-- ALG2 (R52), with the notification of R56. -/
def writeAlg2 (w : Word) (s : State) : State :=
  match Lit.algOfWord w with
  | some a => if a = s.alg2 then s else raise .algChanged { s with alg2 := a }
  | none => raise .cfgIgn s

/-- ROUTING (R53). -/
def writeRouting (w : Word) (s : State) : State :=
  match Lit.routingOfWord w with
  | some r => { s with routing := r }
  | none => raise .cfgIgn s

/-- WINDOW (R54). -/
def writeWindow (w : Word) (s : State) : State :=
  match Lit.windowOfWord w with
  | some m => { s with window := m }
  | none => raise .cfgIgn s

/-- AUXMODE (R55). -/
def writeAuxMode (w : Word) (s : State) : State :=
  match Lit.auxOfWord w with
  | some m => { s with auxMode := m }
  | none => raise .cfgIgn s

/-- RATIO_IDX (R50; 90_conflicts.md C6). -/
def writeRatioIdx (w : Word) (s : State) : State :=
  match Lit.ratioIdxOfWord w with
  | some i => { s with ratioIdx := i }
  | none => raise .cfgIgn s

/-- The write rule of each register (R106). A write to a read-only register is BUS_ERR (20_memory.md R108). -/
def writeReg (p : Params) (r : Reg) (w : Word) (s : State) : State :=
  match r with
  | .cmd => writeCommand p w s
  | .status => clearStatus w s
  | .sampleRate => writeSampleRate w s
  | .osFactor => writeOsFactor w s
  | .channels => writeChannels w s
  | .alg1 => writeAlg1 w s
  | .alg2 => writeAlg2 w s
  | .routing => writeRouting w s
  | .window => writeWindow w s
  | .auxMode => writeAuxMode w s
  | .ratioIdx => writeRatioIdx w s
  | .amt1 => { s with amt1 := Fp.clamp01Reg w }
  | .amt2 => { s with amt2 := Fp.clamp01Reg w }
  | .depth => { s with depth := Fp.clamp01Reg w }
  | .freq v => { s with freq := s.freq.set v w }
  | .extPm v => { s with extPm := s.extPm.set v w }
  | .opA i => { s with opA := s.opA.set i w }
  | .opB i => { s with opB := s.opB.set i w }
  | .opC i => { s with opC := s.opC.set i w }
  | .opD i => { s with opD := s.opD.set i w }
  | .id | .outChannels | .outqLevel | .ratioValue | .outPri _ | .outAux _ | .extqLevel _ | .res _ => raise .busErr s

/-- REG_WR (R314): alignment and mapping, then read-only, then the register's write rule. -/
def busWrite (p : Params) (a : BitVec 12) (w : Word) (s : State) : State :=
  match regAt a with
  | none => raise .busErr s
  | some r => if readOnly r then raise .busErr s else writeReg p r w s

/-- REG_RD (R315): the bus returns the register's value, or 0 with BUS_ERR where no register is. -/
def busRead (a : BitVec 12) (s : State) : State :=
  match regAt a with
  | none => { raise .busErr s with readData := 0 }
  | some r => { s with readData := readReg s r }

/-- Meaning of REG_WR addr, data (R314). -/
def execRegWr (addr : BitVec 12) (data : Word) (s : State) : Host.Outcome State Fault Refusal :=
  .next (busWrite Config.build addr data s)

/-- Meaning of REG_RD addr (R315). -/
def execRegRd (addr : BitVec 12) (s : State) : Host.Outcome State Fault Refusal :=
  .next (busRead addr s)

end Sys2Proof.Machine
end

