-- ==== Sys2Proof/Machine/Dispatch.lean ====
section
/-! DEFINITION. Machine/Dispatch.lean: the meaning of each instruction. -/

namespace Sys2Proof.Machine

def exec (i : Instr) (s : State) : Host.Outcome State Fault Refusal :=
  match i with
  | .nop => Sys2Proof.Machine.execNop s
  | .tick => Sys2Proof.Machine.execTick s
  | .reset => Sys2Proof.Machine.execReset s
  | .clear => Sys2Proof.Machine.execClear s
  | .phSetfreq v u => Sys2Proof.Machine.execPhSetfreq v u s
  | .phProcess v u => Sys2Proof.Machine.execPhProcess v u s
  | .phSetsr v u => Sys2Proof.Machine.execPhSetsr v u s
  | .smInit v u mode => Sys2Proof.Machine.execSmInit v u mode s
  | .smSet v u imm => Sys2Proof.Machine.execSmSet v u imm s
  | .smProcess v u => Sys2Proof.Machine.execSmProcess v u s
  | .pdBend => Sys2Proof.Machine.execPdBend s
  | .pdSync => Sys2Proof.Machine.execPdSync s
  | .pdFormant => Sys2Proof.Machine.execPdFormant s
  | .pdFold => Sys2Proof.Machine.execPdFold s
  | .pmInject => Sys2Proof.Machine.execPmInject s
  | .winEval w => Sys2Proof.Machine.execWinEval w s
  | .fnSin2pi => Sys2Proof.Machine.execFnSin2pi s
  | .fnCos2pi => Sys2Proof.Machine.execFnCos2pi s
  | .fnExp => Sys2Proof.Machine.execFnExp s
  | .fnExp2 => Sys2Proof.Machine.execFnExp2 s
  | .rbPush v => Sys2Proof.Machine.execRbPush v s
  | .rbPop v => Sys2Proof.Machine.execRbPop v s
  | .regWr addr data => Sys2Proof.Machine.execRegWr addr data s
  | .regRd addr => Sys2Proof.Machine.execRegRd addr s

end Sys2Proof.Machine
end

