-- ==== Sys2Proof/Machine/Fetch.lean ====
section
/-! DEFINITION. Machine/Fetch.lean: what the core performs next. The core fetches no instructions (spec/10_state.md R42,
spec/20_memory.md R118): it performs what the host issues, in the order issued (R115). -/

namespace Sys2Proof.Machine

/-- The oldest host event not yet performed, and the state with it taken from the queue; none when the host has issued
nothing (log 1). -/
def nextEvent (s : State) : Option (HostEvent × State) :=
  match s.inbox with
  | [] => none
  | e :: rest => some (e, { s with inbox := rest })

/-- The host issues `e` as the very next event. -/
def issueNext (e : HostEvent) (s : State) : State := { s with inbox := e :: s.inbox }

/-- The host issues, as the very next event, the bus request that a row of the opcode table stands for; bits that are no
request issue nothing (log 10). -/
def issueTableWord (nbits w : Nat) (s : State) : State :=
  match requestOfTableWord nbits w with
  | some r => issueNext (.request r) s
  | none => s

end Sys2Proof.Machine
end

