-- ==== Sys2Proof/Machine/Step.lean ====
section
/-! DEFINITION. Machine/Step.lean: one step: the oldest host event performed to completion (spec/00_scope.md R7,
spec/20_memory.md R109, R115); with none issued, nothing changes (spec/60_exceptions.md R353). -/

namespace Sys2Proof.Machine

/-- One step of the core. -/
def step (s : State) : Host.Outcome State Fault Refusal :=
  match nextEvent s with
  | none => .next s
  | some (.hardReset, s1) => .next (hardwareReset Config.build s1)
  | some (.request r, s1) => exec (decodeRequest r) s1

/-- `s` with the instruction of an opcode-table row issued by the host as its next request. -/
def State.withFetchWord (s : State) (nbits w : Nat) : State := issueTableWord nbits w s

end Sys2Proof.Machine
end

