-- ==== Sys2Proof/Safety.lean ====
section
/-! DEFINITION. Safety.lean: what counts as a sound state of the core, in the terms the claims use.

No condition stops the machine (spec/60_exceptions.md R340), so safety is not the absence of faults: it is that the registers
stay legal, the status word stays consistent, the rings stay rings, the filter history keeps the length the filter reads, and
the units keep the rates and time constants their callers guarantee. -/

namespace Sys2Proof.Machine

open Sys2Proof.Config (Params)

/-- `0.0 ≤ x ≤ 1.0`; a NaN is not. -/
def inUnit (x : F32) : Bool := Fp.le Fp.posZero x && Fp.le x Fp.one

/-- `0.0 ≤ x < 1.0`; a NaN is not. -/
def inPhase (x : F32) : Bool := Fp.le Fp.posZero x && Fp.lt x Fp.one

/-- `0.0 ≤ x < 2.0`; a NaN is not (40_phasor.md R166). -/
def inHeld (x : F32) : Bool := Fp.le Fp.posZero x && Fp.lt x Fp.two

/-- The registers hold only values their write rules let in (10_state.md R47, R49, R51, R59, R69; 70_reset_and_hazards.md
R387). The registers held as enumerations are legal by their types (log 9). -/
structure RegsLegal (s : State) : Prop where
  sampleRate : rateLegal s.sampleRate = true
  fsActive : rateLegal s.fsActive = true
  channels : 1 ≤ s.channels.toNat ∧ s.channels.toNat ≤ 16
  outChannels : 1 ≤ s.outChannels.toNat ∧ s.outChannels.toNat ≤ 16
  amt1 : inUnit s.amt1 = true
  amt2 : inUnit s.amt2 = true
  depth : inUnit s.depth = true

/-- LAST_CODE is a code of the table or 0, and it is 0 exactly when no sticky bit is set (10_state.md R46; 60_exceptions.md
R341, R342). -/
structure StatusWf (s : State) : Prop where
  code : s.lastCode.toNat ≤ 8
  clear : s.lastCode = 0 ↔ s.flags = 0

/-- A ring of capacity `cap` in its one form: canonical slots, all of them in the ring, and `rd` and `n` in range
(10_state.md R65). -/
structure RingWf {α : Type} [DecidableEq α] (d : α) (cap : Nat) (q : Ring α) : Prop where
  slots : slotsWf d q.buf = true
  keys : ∀ e ∈ q.buf, e.1 < cap
  rd : q.rd < cap
  n : q.n ≤ cap

/-- Every ring of the core is one (10_state.md R65, R66). -/
structure RingsWf (p : Params) (s : State) : Prop where
  pmq : ∀ v : VoiceIdx, RingWf Fp.posZero (Units.capPm p) (getPmq s v)
  outq : RingWf zeroFrame (Units.capOut p) s.outq

/-- Every channel's history has the length the active factor's filter reads (10_state.md R67). -/
def HistWf (p : Params) (s : State) : Prop :=
  ∀ c : Fin 32, s.hist[c].length = Units.histLen p s.osActive

/-- A smoother as its callers keep it (41_smoother.md R192): a legal time constant, a positive rate, a coefficient in [0, 1],
and no ramp in exponential mode. -/
structure SmootherWf (S : Smoother) : Prop where
  tc : tcLegal S.tc = true
  fs : Fp.gt S.fs Fp.posZero = true
  coef : inUnit S.coef = true
  noRamp : S.mode = .exponential → S.step = Fp.posZero ∧ S.remain = 0

/-- Every unit of every voice runs at a positive rate (10_state.md R69; +inf at a rate overflow, 70_reset_and_hazards.md R388),
and every smoother is sound. -/
structure UnitsWf (s : State) : Prop where
  phasors : ∀ (v : VoiceIdx) (u : UnitIdx), Fp.gt (getPhasor s v u).fs Fp.posZero = true
  smoothers : ∀ (v : VoiceIdx) (u : UnitIdx), SmootherWf (getSmoother s v u)

/-- The state is sound. -/
structure Inv (p : Params) (s : State) : Prop where
  regs : RegsLegal s
  status : StatusWf s
  rings : RingsWf p s
  hist : HistWf p s
  units : UnitsWf s

/-! ## What a claim says of a latch -/

/-- A voice after the latches of a TICK, written out (46_engine.md R301, R302, R309; 40_phasor.md R161, R162; 41_smoother.md
R182, R183), where `fo` is the new rate: a rate change resets its units; a factor change alone keeps frequencies, values, targets
and ramps and derives the lanes again from lane 0. -/
def latchedVoice (p : Params) (rateChanged : Bool) (fo : F32) (vo : Voice) : Voice :=
  let phasor (P : Phasor) : Phasor :=
    if rateChanged then { lane := #v[0, 0, 0, 0], freq := 0, inc := 0, fs := fo }
    else
      let inc := Fp.div (Fp.mul P.freq 0x40800000) fo
      let b := if Fp.ge P.lane[0] 0x3F800000 then Fp.sub P.lane[0] 0x3F800000 else P.lane[0]
      { lane := #v[Fp.add b (Fp.mul inc 0), Fp.add b (Fp.mul inc 0x3E800000), Fp.add b (Fp.mul inc 0x3F000000),
                   Fp.add b (Fp.mul inc 0x3F400000)]
        freq := P.freq, inc := inc, fs := fo }
  let smoother (S : Smoother) : Smoother :=
    let coef := Units.coefOf p S.tc fo
    if rateChanged then { S with value := 0, target := 0, coef := coef, step := 0, remain := 0, fs := fo }
    else { S with coef := coef, fs := fo }
  { vo with
    ph := #v[phasor vo.ph[0], phasor vo.ph[1], phasor vo.ph[2]]
    sm := #v[smoother vo.sm[0], smoother vo.sm[1], smoother vo.sm[2]] }

/-! ## What a claim says is left alone -/

/-- The registers a host write alone changes (10_state.md R47 to R58, R73). -/
def hostRegs (s : State) :=
  (s.sampleRate, s.osFactor, s.channels, s.alg1, s.alg2, s.routing, s.window, s.auxMode, s.ratioIdx, s.amt1, s.amt2,
    s.depth, s.freq, s.extPm, s.opA, s.opB, s.opC, s.opD)

end Sys2Proof.Machine
end

