-- ==== Sys2Proof/Certificates/Slice0/Obligations.lean ====
section
/-! DEFINITION. Certificates/Slice0/Obligations.lean: the statements for the provers. Each is a property of the machine the
spec describes; the docstring of each names the rules it rests on. -/

open Sys2Proof
open Sys2Proof.Machine

/-- For every well-formed instruction, with every operand at every value its encoding admits, the bus request that encodes
it decodes to that instruction. Well-formed leaves out one reading only: a REG_WR to CMD whose data is a legal command
word, which is that command. (30_encoding.md R130 to R136, R140) -/
def Obligations.DecodeOfEncode : Prop :=
  ∀ i : Instr, i.wellFormed = true → decodeRequest (encode i) = i

/-- A 32-bit word decodes to some command if and only if a CMD row of the opcode table admits it (its pattern under its
mask, U not 3 and M not 3 where the row says so); and the encoding of the command a word decodes to is a write of that
very word to CMD. (30_encoding.md R132, R134, R135, R136, R137, spec/opcode_table.json) -/
def Obligations.CommandWordsAreTheTable : Prop :=
  (∀ w : Word, (∃ i, decodeCommand w = .ok i) ↔ isCommandWord w = true)
  ∧ ∀ (w : Word) (i : Instr), decodeCommand w = .ok i → encode i = ⟨0x1004, w⟩

/-- A REG_WR of w to 0x004 does exactly what the command w decodes to does; where w is no command of the table it sets
STATUS bit 1, makes LAST_CODE 2 and changes nothing else. (30_encoding.md R136, R137, 10_state.md R45,
60_exceptions.md R341, R342) -/
def Obligations.CommandWrites : Prop :=
  ∀ (w : Word) (s : State),
    (∀ i, decodeCommand w = .ok i → exec (.regWr 0x004 w) s = exec i s)
    ∧ (isCommandWord w = false →
        exec (.regWr 0x004 w) s = .next { s with flags := s.flags ||| 0x02#8, lastCode := 2#4 })

/-- An address decodes to register r if and only if it is the address the map gives r; so no misaligned or unmapped
address decodes to a register, and no two registers share an address. (20_memory.md R103, R104) -/
def Obligations.AddressMapIsExact : Prop :=
  ∀ (a : BitVec 12) (r : Reg), regAt a = some r ↔ a = regAddr r

/-- A sanity statement on a few words of the spec's encoding vectors: commands of each format, four illegal words and
three bus headers. (95_test_vectors.md ENC-1 to ENC-38, 30_encoding.md R131, R132) -/
def Obligations.SpecWordsDecode : Prop :=
  decodeCommand 0x00000000 = .ok .nop
  ∧ decodeCommand 0x00000001 = .ok .tick
  ∧ decodeCommand 0x00001510 = .ok (.phSetfreq 5 1)
  ∧ decodeCommand 0x00002F11 = .ok (.phProcess 15 2)
  ∧ decodeCommand 0x00011318 = .ok (.smInit 3 1 .linear)
  ∧ decodeCommand 0x00012019 = .ok (.smSet 0 2 true)
  ∧ decodeCommand 0x00000023 = .ok .pdFold
  ∧ decodeCommand 0x00008029 = .ok (.winEval .sawtooth)
  ∧ decodeCommand 0x0000002F = .ok .fnExp2
  ∧ decodeCommand 0x00000F31 = .ok (.rbPop 15)
  ∧ decodeCommand 0x00000004 = .error .unassignedOpcode
  ∧ decodeCommand 0x80000001 = .error .reservedBits
  ∧ decodeCommand 0x00000100 = .error .unusedField
  ∧ decodeCommand 0x00003010 = .error .unitThree
  ∧ decodeCommand 0x0000C029 = .error .windowThree
  ∧ decodeRequest ⟨0x108C, 0x3F800000⟩ = .regWr 0x08C 0x3F800000
  ∧ decodeRequest ⟨0x017C, 0⟩ = .regRd 0x17C
  ∧ decodeRequest ⟨0x1004, 0x00000230⟩ = .rbPush 2

/-- When the oldest request the host has issued is the encoding of a well-formed instruction i, a step takes it from the
queue of issued requests and is exec of i on the state so left; more generally it is exec of what the request decodes
to. Nothing else happens around exec. (R40 lists no queue of requests: that queue, and that a step takes its oldest
entry, is the model's choice, log 1.) (10_state.md R41, R42, 20_memory.md R109, R115, 30_encoding.md R138) -/
def Obligations.StepRunsInstruction : Prop :=
  ∀ (s : State) (rest : List HostEvent),
    (∀ i : Instr, i.wellFormed = true → s.inbox = .request (encode i) :: rest →
      step s = exec i { s with inbox := rest })
    ∧ (∀ r : BusRequest, s.inbox = .request r :: rest → step s = exec (decodeRequest r) { s with inbox := rest })

/-- If the decoder reads instruction i from the bits of an opcode-table row, then a step of any state with those bits
placed as the next instruction is exec of i on that state. (Where the bits are placed is the model's choice, log 1,
and so is their layout as bytes, with data 0 where the row gives the data word no bits, log 10; the rules cited give
the words only.) (30_encoding.md R131, R132, R138, 20_memory.md R115) -/
def Obligations.TableWordsRun : Prop :=
  ∀ (s : State) (nbits w : Nat) (i : Instr),
    decodeTableWord nbits w = some i → step (s.withFetchWord nbits w) = exec i s

/-- With nothing issued a step changes nothing. A hardware reset gives State.reset, with whatever the host issued after it
still to be performed. (A step with nothing issued is the model's choice, log 1; that requests issued after the reset
are still performed is its inference, log 13. The rules give the state after a reset.) (60_exceptions.md R353,
70_reset_and_hazards.md R370) -/
def Obligations.StepWithoutRequest : Prop :=
  ∀ s : State,
    (s.inbox = [] → step s = .next s)
    ∧ ∀ rest : List HostEvent, s.inbox = .hardReset :: rest → step s = .next { State.reset with inbox := rest }

/-- Every row of the reset table R78, the coefficient by R181 from tc and fs. (Empty inbox is the model's choice, log 1;
the slots of an empty ring are not observable, log 7.) (10_state.md R78, 70_reset_and_hazards.md R370, R371) -/
def Obligations.ResetTable : Prop :=
  let s := State.reset
  s.flags = 0 ∧ s.lastCode = 0 ∧ s.sampleRate = 0x473B8000 ∧ s.osFactor = .x1 ∧ s.channels = 1 ∧ s.ratioIdx = 3
  ∧ s.amt1 = 0 ∧ s.amt2 = 0 ∧ s.depth = 0 ∧ s.alg1 = .bend ∧ s.alg2 = .bend ∧ s.routing = .before
  ∧ s.window = .flat ∧ s.auxMode = .quadrature
  ∧ (∀ v : VoiceIdx, s.freq[v] = 0 ∧ s.extPm[v] = 0 ∧ s.outPri[v] = 0 ∧ s.outAux[v] = 0)
  ∧ s.outChannels = 1
  ∧ (∀ i : LaneIdx, s.opA[i] = 0 ∧ s.opB[i] = 0 ∧ s.opC[i] = 0 ∧ s.opD[i] = 0 ∧ s.res[i] = 0)
  ∧ s.fsActive = 0x473B8000 ∧ s.osActive = .x1 ∧ s.srChanged = false
  ∧ (∀ (v : VoiceIdx) (u : UnitIdx),
      getPhasor s v u = { lane := #v[0, 0, 0, 0], freq := 0, inc := 0, fs := 0x473B8000 }
      ∧ getSmoother s v u = { value := 0, target := 0, coef := Units.coefOf Config.build 0x3C23D70A 0x473B8000, step := 0,
                              remain := 0, tc := 0x3C23D70A, mode := .exponential, fs := 0x473B8000 })
  ∧ (∀ v : VoiceIdx, (getPmq s v).rd = 0 ∧ (getPmq s v).n = 0)
  ∧ s.outq.rd = 0 ∧ s.outq.n = 0
  ∧ ∀ c : Fin 32, s.hist[c] = []

/-- A REG_WR to an address whose low two bits are not 00 sets STATUS bit 2, makes LAST_CODE 3 and changes nothing else; a
REG_RD of one does the same and returns 0 (held in the field readData, the model's choice, log 2). (20_memory.md R103) -/
def Obligations.MisalignedRequests : Prop :=
  ∀ (s : State) (a : BitVec 12) (w : Word), a.extractLsb' 0 2 ≠ 0 →
    exec (.regWr a w) s = .next { s with flags := s.flags ||| 0x04#8, lastCode := 3#4 }
    ∧ exec (.regRd a) s = .next { s with flags := s.flags ||| 0x04#8, lastCode := 3#4, readData := 0 }

/-- At the aligned addresses 0x048 to 0x07C and 0x210 to 0xFFC, a REG_WR sets STATUS bit 2, makes LAST_CODE 3 and changes
nothing else; a REG_RD does the same and returns 0 (held in the field readData, the model's choice, log 2).
(20_memory.md R107) -/
def Obligations.UnmappedRequests : Prop :=
  ∀ (s : State) (a : BitVec 12) (w : Word), a.extractLsb' 0 2 = 0 → (0x048 ≤ a ∧ a ≤ 0x07C ∨ 0x210 ≤ a) →
    exec (.regWr a w) s = .next { s with flags := s.flags ||| 0x04#8, lastCode := 3#4 }
    ∧ exec (.regRd a) s = .next { s with flags := s.flags ||| 0x04#8, lastCode := 3#4, readData := 0 }

/-- At ID, OUT_CHANNELS, OUTQ_LEVEL, RATIO_VALUE, OUT_PRI, OUT_AUX, EXTQ_LEVEL and RES (by address) a REG_WR sets STATUS
bit 2, makes LAST_CODE 3 and changes nothing else. A REG_WR to STATUS sets no bit of STATUS. (R108) -/
def Obligations.ReadOnlyWrites : Prop :=
  ∀ (s : State) (w : Word),
    (∀ a : BitVec 12, a.extractLsb' 0 2 = 0 →
      (a = 0x000 ∨ a = 0x03C ∨ a = 0x040 ∨ a = 0x044 ∨ 0x100 ≤ a ∧ a ≤ 0x1BC ∨ 0x200 ≤ a ∧ a ≤ 0x20C) →
      exec (.regWr a w) s = .next { s with flags := s.flags ||| 0x04#8, lastCode := 3#4 })
    ∧ ∃ t, exec (.regWr 0x008 w) s = .next t ∧ t.flags &&& ~~~s.flags = 0

/-- A REG_RD of each mapped address completes, returns that register's value and changes nothing else: STATUS as its
fields, the levels as the ring counts, CMD as 0, ID as its constant, RATIO_VALUE as the quotient of the selected table
entry. The returned word is the model's field readData (log 2); a level of 2^32 or more reads modulo 2^32 (log 16),
both the model's choice. (20_memory.md R104, R105, 46_engine.md R315, R319, 10_state.md R44 to R59, R72 to R74) -/
def Obligations.MappedReads : Prop :=
  ∀ s : State,
    let status : Word := s.flags.setWidth 32 ||| (if s.srChanged then 0x100 else 0) ||| (s.lastCode.setWidth 32 <<< 16)
    let ratios : Vector Word 16 := #v[0x3E800000, 0x3EAAAAAB, 0x3F000000, 0x3F800000, 0x40000000, 0x40400000, 0x40800000,
      0x40A00000, 0x40C00000, 0x40E00000, 0x41000000, 0x3FC00000, 0x40200000, 0x40600000, 0x3FAAAAAB, 0x3FD55555]
    exec (.regRd 0x000) s = .next { s with readData := 0x50440001 }
    ∧ exec (.regRd 0x004) s = .next { s with readData := 0 }
    ∧ exec (.regRd 0x008) s = .next { s with readData := status }
    ∧ exec (.regRd 0x00C) s = .next { s with readData := s.sampleRate }
    ∧ exec (.regRd 0x010) s = .next { s with readData := BitVec.ofNat 32 (Lit.osNat s.osFactor) }
    ∧ exec (.regRd 0x014) s = .next { s with readData := s.channels }
    ∧ exec (.regRd 0x018) s = .next { s with readData := Lit.algCode s.alg1 }
    ∧ exec (.regRd 0x01C) s = .next { s with readData := Lit.algCode s.alg2 }
    ∧ exec (.regRd 0x020) s = .next { s with readData := Lit.routingCode s.routing }
    ∧ exec (.regRd 0x024) s = .next { s with readData := Lit.windowCode s.window }
    ∧ exec (.regRd 0x028) s = .next { s with readData := Lit.auxCode s.auxMode }
    ∧ exec (.regRd 0x02C) s = .next { s with readData := BitVec.ofNat 32 s.ratioIdx.val }
    ∧ exec (.regRd 0x030) s = .next { s with readData := s.amt1 }
    ∧ exec (.regRd 0x034) s = .next { s with readData := s.amt2 }
    ∧ exec (.regRd 0x038) s = .next { s with readData := s.depth }
    ∧ exec (.regRd 0x03C) s = .next { s with readData := s.outChannels }
    ∧ exec (.regRd 0x040) s = .next { s with readData := BitVec.ofNat 32 s.outq.n }
    ∧ exec (.regRd 0x044) s = .next { s with readData := ratios[s.ratioIdx] }
    ∧ (∀ v : VoiceIdx,
        exec (.regRd (BitVec.ofNat 12 (0x080 + 4 * v.val))) s = .next { s with readData := s.freq[v] }
        ∧ exec (.regRd (BitVec.ofNat 12 (0x0C0 + 4 * v.val))) s = .next { s with readData := s.extPm[v] }
        ∧ exec (.regRd (BitVec.ofNat 12 (0x100 + 4 * v.val))) s = .next { s with readData := s.outPri[v] }
        ∧ exec (.regRd (BitVec.ofNat 12 (0x140 + 4 * v.val))) s = .next { s with readData := s.outAux[v] }
        ∧ exec (.regRd (BitVec.ofNat 12 (0x180 + 4 * v.val))) s
            = .next { s with readData := BitVec.ofNat 32 (getPmq s v).n })
    ∧ ∀ i : LaneIdx,
        exec (.regRd (BitVec.ofNat 12 (0x1C0 + 4 * i.val))) s = .next { s with readData := s.opA[i] }
        ∧ exec (.regRd (BitVec.ofNat 12 (0x1D0 + 4 * i.val))) s = .next { s with readData := s.opB[i] }
        ∧ exec (.regRd (BitVec.ofNat 12 (0x1E0 + 4 * i.val))) s = .next { s with readData := s.opC[i] }
        ∧ exec (.regRd (BitVec.ofNat 12 (0x1F0 + 4 * i.val))) s = .next { s with readData := s.opD[i] }
        ∧ exec (.regRd (BitVec.ofNat 12 (0x200 + 4 * i.val))) s = .next { s with readData := s.res[i] }

/-- A REG_WR to FREQ[v], EXTPM[v], OPA[i], OPB[i], OPC[i] or OPD[i] completes, stores the word in that one register,
whatever its bits, and changes nothing else. (10_state.md R57, R58, R73, 46_engine.md R314) -/
def Obligations.StoredWrites : Prop :=
  ∀ (s : State) (w : Word),
    (∀ v : VoiceIdx,
      exec (.regWr (BitVec.ofNat 12 (0x080 + 4 * v.val)) w) s = .next { s with freq := s.freq.set v w }
      ∧ exec (.regWr (BitVec.ofNat 12 (0x0C0 + 4 * v.val)) w) s = .next { s with extPm := s.extPm.set v w })
    ∧ ∀ i : LaneIdx,
      exec (.regWr (BitVec.ofNat 12 (0x1C0 + 4 * i.val)) w) s = .next { s with opA := s.opA.set i w }
      ∧ exec (.regWr (BitVec.ofNat 12 (0x1D0 + 4 * i.val)) w) s = .next { s with opB := s.opB.set i w }
      ∧ exec (.regWr (BitVec.ofNat 12 (0x1E0 + 4 * i.val)) w) s = .next { s with opC := s.opC.set i w }
      ∧ exec (.regWr (BitVec.ofNat 12 (0x1F0 + 4 * i.val)) w) s = .next { s with opD := s.opD.set i w }

/-- A REG_WR of w to SAMPLE_RATE stores w and sets sr_changed when w encodes a finite number above 0 (0 < w < 0x7F800000
as an unsigned word), also when it is the value stored already; any other word changes nothing but STATUS bit 0 and
LAST_CODE 1. (10_state.md R47, R70, 60_exceptions.md R342) -/
def Obligations.SampleRateWrites : Prop :=
  ∀ (s : State) (w : Word),
    exec (.regWr 0x00C w) s = .next
      (if 0 < w.toNat ∧ w.toNat < 0x7F800000 then { s with sampleRate := w, srChanged := true }
       else { s with flags := s.flags ||| 0x01#8, lastCode := 1#4 })

/-- Each legal word is stored and nothing else changes (CHANNELS stores 1 for 0); every other word changes nothing but
STATUS bit 0 and LAST_CODE 1. (10_state.md R48, R49, R50, R53, R54, R55, 60_exceptions.md R342, R346) -/
def Obligations.ModeWrites : Prop :=
  ∀ s : State,
    let ignored : Host.Outcome State Fault Refusal := .next { s with flags := s.flags ||| 0x01#8, lastCode := 1#4 }
    (exec (.regWr 0x010 1) s = .next { s with osFactor := .x1 } ∧ exec (.regWr 0x010 2) s = .next { s with osFactor := .x2 }
      ∧ exec (.regWr 0x010 4) s = .next { s with osFactor := .x4 } ∧ exec (.regWr 0x010 8) s = .next { s with osFactor := .x8 }
      ∧ exec (.regWr 0x010 16) s = .next { s with osFactor := .x16 }
      ∧ ∀ w : Word, w ∉ [1#32, 2#32, 4#32, 8#32, 16#32] → exec (.regWr 0x010 w) s = ignored)
    ∧ (exec (.regWr 0x014 0) s = .next { s with channels := 1 }
      ∧ (∀ w : Word, 1 ≤ w.toNat → w.toNat ≤ 16 → exec (.regWr 0x014 w) s = .next { s with channels := w })
      ∧ ∀ w : Word, 16 < w.toNat → exec (.regWr 0x014 w) s = ignored)
    ∧ (exec (.regWr 0x020 0) s = .next { s with routing := .before } ∧ exec (.regWr 0x020 1) s = .next { s with routing := .after }
      ∧ ∀ w : Word, 1 < w.toNat → exec (.regWr 0x020 w) s = ignored)
    ∧ (exec (.regWr 0x024 0) s = .next { s with window := .flat } ∧ exec (.regWr 0x024 1) s = .next { s with window := .triangle }
      ∧ exec (.regWr 0x024 2) s = .next { s with window := .sawtooth }
      ∧ ∀ w : Word, 2 < w.toNat → exec (.regWr 0x024 w) s = ignored)
    ∧ (exec (.regWr 0x028 0) s = .next { s with auxMode := .quadrature }
      ∧ exec (.regWr 0x028 1) s = .next { s with auxMode := .unison }
      ∧ exec (.regWr 0x028 2) s = .next { s with auxMode := .subOctave }
      ∧ exec (.regWr 0x028 3) s = .next { s with auxMode := .rawPhasor }
      ∧ ∀ w : Word, 3 < w.toNat → exec (.regWr 0x028 w) s = ignored)
    ∧ (∀ i : Fin 16, exec (.regWr 0x02C (BitVec.ofNat 32 i.val)) s = .next { s with ratioIdx := i })
    ∧ ∀ w : Word, 15 < w.toNat → exec (.regWr 0x02C w) s = ignored

/-- Said on the bits: a NaN is stored as 0; -0.0 stays; a negative number becomes 0; a number above 1.0 becomes
0x3F800000; anything else is stored as written. Nothing else changes and no event is raised. (10_state.md R51,
00_scope.md R20, 60_exceptions.md R346) -/
def Obligations.AmountWrites : Prop :=
  ∀ (s : State) (w : Word),
    let kept : Word :=
      if 0x7F800000 < w.toNat % 2 ^ 31 then 0
      else if w = 0x80000000 then w
      else if w.msb then 0
      else if 0x3F800000 < w.toNat then 0x3F800000
      else w
    exec (.regWr 0x030 w) s = .next { s with amt1 := kept }
    ∧ exec (.regWr 0x034 w) s = .next { s with amt2 := kept }
    ∧ exec (.regWr 0x038 w) s = .next { s with depth := kept }

/-- A write of the code of algorithm a stores a; where a differs from the value held it also sets STATUS bit 7 and makes
LAST_CODE 8, and where it does not, nothing changes. A word above 3 changes nothing but STATUS bit 0 and LAST_CODE 1.
(10_state.md R52, R56, 60_exceptions.md R342) -/
def Obligations.AlgorithmWrites : Prop :=
  ∀ s : State,
    (∀ c : Word × Algorithm, c ∈ [(0#32, .bend), (1#32, .sync), (2#32, .formant), (3#32, .fold)] →
      exec (.regWr 0x018 c.1) s = .next
        (if c.2 = s.alg1 then s else { s with alg1 := c.2, flags := s.flags ||| 0x80#8, lastCode := 8#4 })
      ∧ exec (.regWr 0x01C c.1) s = .next
        (if c.2 = s.alg2 then s else { s with alg2 := c.2, flags := s.flags ||| 0x80#8, lastCode := 8#4 }))
    ∧ ∀ w : Word, 3 < w.toNat →
      exec (.regWr 0x018 w) s = .next { s with flags := s.flags ||| 0x01#8, lastCode := 1#4 }
      ∧ exec (.regWr 0x01C w) s = .next { s with flags := s.flags ||| 0x01#8, lastCode := 1#4 }

/-- STATUS[7:0] becomes itself AND NOT d[7:0]; if that is 0, LAST_CODE becomes 0; bits 31 to 8 of d are ignored; nothing
else changes. (10_state.md R46) -/
def Obligations.StatusWrites : Prop :=
  ∀ (s : State) (d : Word),
    exec (.regWr 0x008 d) s = .next
      { s with
        flags := s.flags &&& ~~~(d.setWidth 8)
        lastCode := if s.flags &&& ~~~(d.setWidth 8) = 0 then 0 else s.lastCode }

/-- For every address but CMD, STATUS and SAMPLE_RATE, performing the same REG_WR again changes nothing, whether the write
was stored, clamped, ignored or rejected. (20_memory.md R110) -/
def Obligations.RepeatedWrites : Prop :=
  ∀ (s t : State) (a : BitVec 12) (w : Word), a ≠ 0x004 → a ≠ 0x008 → a ≠ 0x00C →
    exec (.regWr a w) s = .next t → exec (.regWr a w) t = .next t

/-- If a step clears bit k of STATUS[7:0], it performed a hardware reset or a REG_WR to STATUS with bit k of its data set;
if a step clears the last set bit, LAST_CODE is 0 after it; RESET leaves STATUS[7:0] and LAST_CODE as they were.
(R345) -/
def Obligations.StickyBitsStay : Prop :=
  (∀ (s t : State) (k : Fin 8), step s = .next t → s.flags[k] = true → t.flags[k] = false →
    ∃ rest, s.inbox = .hardReset :: rest
      ∨ ∃ d : Word, s.inbox = .request ⟨0x1008, d⟩ :: rest ∧ d.getLsbD k.val = true)
  ∧ (∀ s t : State, step s = .next t → s.flags ≠ 0 → t.flags = 0 → t.lastCode = 0)
  ∧ ∀ s t : State, exec .reset s = .next t → t.flags = s.flags ∧ t.lastCode = s.lastCode

/-- If a step changes fs_active or os_active, it performed a hardware reset or a TICK. (10_state.md R69,
70_reset_and_hazards.md R381) -/
def Obligations.LatchedRatesChangeAtTick : Prop :=
  ∀ s t : State, step s = .next t → (t.fsActive ≠ s.fsActive ∨ t.osActive ≠ s.osActive) →
    ∃ rest, s.inbox = .hardReset :: rest ∨ ∃ r : BusRequest, s.inbox = .request r :: rest ∧ decodeRequest r = .tick

/-- An instruction other than REG_WR leaves every configuration, patch, FREQ, EXTPM and operand register as it was. (The
commands travel as REG_WR to CMD, which decodes to the command itself.) (46_engine.md R300, R310, R312,
70_reset_and_hazards.md R373, 60_exceptions.md R362) -/
def Obligations.CommandsKeepHostRegisters : Prop :=
  ∀ (i : Instr) (s t : State), (∀ (a : BitVec 12) (w : Word), i ≠ .regWr a w) →
    exec i s = .next t → hostRegs t = hostRegs s

/-- Each of PD_BEND, PD_SYNC, PD_FORMANT, PD_FOLD, FN_SIN2PI, FN_COS2PI, FN_EXP, FN_EXP2, PM_INJECT and WIN_EVAL
completes, changes nothing but RES, and gives the same RES in any two states with equal operand banks and RATIO_IDX.
(60_exceptions.md R362) -/
def Obligations.PureCommandsWriteOnlyRes : Prop :=
  ∀ i : Instr,
    (i ∈ [.pdBend, .pdSync, .pdFormant, .pdFold, .fnSin2pi, .fnCos2pi, .fnExp, .fnExp2, .pmInject]
      ∨ ∃ w, i = .winEval w) →
    ∀ s t : State, s.opA = t.opA → s.opB = t.opB → s.opC = t.opC → s.opD = t.opD → s.ratioIdx = t.ratioIdx →
      ∃ r : Vector F32 4, exec i s = .next { s with res := r } ∧ exec i t = .next { t with res := r }

/-- exec answers a next state for every instruction and every state: no condition stops the machine; and the order of the
requests still to be performed is unchanged. (60_exceptions.md R340, R347) -/
def Obligations.NothingStops : Prop :=
  ∀ (i : Instr) (s : State), ∃ t, exec i s = .next t ∧ t.inbox = s.inbox

/-- For every voice, unit and state each of the three completes. PH_SETFREQ sets frequency, increment and the four lanes
from the wrapped base phase; PH_PROCESS writes the four wrapped and floored phases to RES and advances the lanes;
PH_SETSR with a finite rate above 0 sets the rate and then the frequency again, and with any other operand only raises
OPERAND_ILL (bit 3, code 4). Nothing else changes. (40_phasor.md R161 to R165, R167, 60_exceptions.md R342) -/
def Obligations.PhasorCommands : Prop :=
  ∀ (v : VoiceIdx) (u : UnitIdx) (s : State),
    let P := getPhasor s v u
    let base (x : F32) : F32 := if Fp.ge x 0x3F800000 then Fp.sub x 0x3F800000 else x
    let out (x : F32) : F32 := if Fp.lt (base x) 0 then 0 else base x
    let withFreq (f fs : F32) : Phasor :=
      let inc := Fp.div (Fp.mul f 0x40800000) fs
      { lane := #v[Fp.add (base P.lane[0]) (Fp.mul inc 0), Fp.add (base P.lane[0]) (Fp.mul inc 0x3E800000),
                   Fp.add (base P.lane[0]) (Fp.mul inc 0x3F000000), Fp.add (base P.lane[0]) (Fp.mul inc 0x3F400000)]
        freq := f, inc := inc, fs := fs }
    exec (.phSetfreq v u) s = .next (setPhasor s v u (withFreq s.opA[0] P.fs))
    ∧ exec (.phProcess v u) s = .next
        { setPhasor s v u { P with lane := #v[Fp.add (out P.lane[0]) P.inc, Fp.add (out P.lane[1]) P.inc,
                                              Fp.add (out P.lane[2]) P.inc, Fp.add (out P.lane[3]) P.inc] } with
          res := #v[out P.lane[0], out P.lane[1], out P.lane[2], out P.lane[3]] }
    ∧ exec (.phSetsr v u) s = .next
        (if Fp.isFinite s.opA[0] && Fp.gt s.opA[0] 0 then setPhasor s v u (withFreq P.freq s.opA[0])
         else { s with flags := s.flags ||| 0x08#8, lastCode := 4#4 })

/-- If 0 <= inc < 1 and every held lane is in [0, 2), PH_PROCESS writes four phases in [0, 1) to RES and leaves every lane
in [0, 2) and the increment as it was. If PH_SETFREQ gives such an increment and lane 0 was in [0, 2), it leaves every
held lane in [0, 2). Number the samples of a phasor, four a call. After a frequency set with 0 <= inc < 1 and lane 0
in [0, 2), and if every sum of the rules is exact, each sample is in [0, 1) and the next is inc/4 above it, or inc/4 -
1 where it wraps; if moreover inc is 4f/fs exactly and fs/f is a whole number T, the sequence has period T. (Values
are exact integers in the unit 2^-149.) (40_phasor.md R160, R161, R163, R166, R169, 10_state.md R62) -/
def Obligations.PhasorRange : Prop :=
  ∀ (v : VoiceIdx) (u : UnitIdx) (s : State),
    (inPhase (getPhasor s v u).inc = true → (∀ i : LaneIdx, inHeld (getPhasor s v u).lane[i] = true) →
      ∃ t, exec (.phProcess v u) s = .next t ∧ (getPhasor t v u).inc = (getPhasor s v u).inc
        ∧ ∀ i : LaneIdx, inPhase t.res[i] = true ∧ inHeld (getPhasor t v u).lane[i] = true)
    ∧ (inPhase (Fp.div (Fp.mul s.opA[0] 0x40800000) (getPhasor s v u).fs) = true →
      inHeld (getPhasor s v u).lane[0] = true →
      ∃ t, exec (.phSetfreq v u) s = .next t ∧ inPhase (getPhasor t v u).inc = true
        ∧ ∀ i : LaneIdx, inHeld (getPhasor t v u).lane[i] = true)
    ∧ ∀ (P0 : Phasor) (f : F32) (T : Nat),
      let P := setFrequency P0 f
      let call (c : Nat) : Phasor := phasorNext^[c] P
      let sample (n : Nat) : Int := Fp.ord (phasorOut (call (n / 4)))[(⟨n % 4, Nat.mod_lt n (by decide)⟩ : LaneIdx)]
      inPhase P.inc = true → inHeld P0.lane[0] = true →
      (∀ i : LaneIdx, 4 * Fp.ord P.lane[i] = 4 * Fp.ord (basePhase P0.lane[0]) + i.val * Fp.ord P.inc) →
      (∀ (c : Nat) (i : LaneIdx), Fp.ord (call (c + 1)).lane[i] = Fp.ord (phasorOut (call c))[i] + Fp.ord P.inc) →
      (∀ n : Nat, 0 ≤ sample n ∧ sample n < 2 ^ 149
        ∧ (4 * sample (n + 1) = 4 * sample n + Fp.ord P.inc
          ∨ 4 * sample (n + 1) = 4 * sample n + Fp.ord P.inc - 4 * 2 ^ 149))
      ∧ (Fp.ord P.inc * Fp.ord P.fs = 4 * Fp.ord f * 2 ^ 149 → T * Fp.ord f = Fp.ord P.fs →
          ∀ n : Nat, sample (n + T) = sample n)

/-- In one PH_PROCESS: with increment +0.0 a lane in [0, 1) with sign bit 0 is output and held unchanged; with a negative
increment a negative lane outputs +0.0 and is negative again; a NaN lane outputs a NaN and is qNaN after it, and a
qNaN lane outputs qNaN; a finite lane of 2.0 or more outputs that lane less 1.0, a value of at least 1.0, and holds it
advanced; +inf outputs +inf and -inf outputs +0.0. In one PH_SETFREQ at a rate above 0: frequency +0.0 gives increment
+0.0; a NaN gives increment and lanes qNaN; +inf or -inf at a finite rate and lane 0 gives that increment, lane 0 qNaN
and the other lanes that infinity. (40_phasor.md R163 to R165, R168) -/
def Obligations.PhasorCornerCases : Prop :=
  (∀ (v : VoiceIdx) (u : UnitIdx) (s t : State) (i : LaneIdx), exec (.phProcess v u) s = .next t →
    let P := getPhasor s v u
    let Q := getPhasor t v u
    (P.inc = 0 → inPhase P.lane[i] = true → P.lane[i].msb = false → t.res[i] = P.lane[i] ∧ Q.lane[i] = P.lane[i])
    ∧ (Fp.lt P.inc 0 = true → Fp.lt P.lane[i] 0 = true → t.res[i] = 0 ∧ Fp.lt Q.lane[i] 0 = true)
    ∧ (Fp.isNaN P.lane[i] = true → Fp.isNaN t.res[i] = true ∧ Q.lane[i] = 0x7FC00000)
    ∧ (P.lane[i] = 0x7FC00000 → t.res[i] = 0x7FC00000)
    ∧ (Fp.isFinite P.lane[i] = true → Fp.ge P.lane[i] 0x40000000 = true →
        t.res[i] = Fp.sub P.lane[i] 0x3F800000 ∧ Fp.ge t.res[i] 0x3F800000 = true ∧ Q.lane[i] = Fp.add t.res[i] P.inc)
    ∧ (P.lane[i] = 0x7F800000 → t.res[i] = 0x7F800000)
    ∧ (P.lane[i] = 0xFF800000 → t.res[i] = 0))
  ∧ ∀ (v : VoiceIdx) (u : UnitIdx) (s t : State), exec (.phSetfreq v u) s = .next t →
    let P := getPhasor s v u
    let Q := getPhasor t v u
    Fp.gt P.fs 0 = true →
    (s.opA[0] = 0 → Q.inc = 0)
    ∧ (Fp.isNaN s.opA[0] = true → Q.inc = 0x7FC00000 ∧ ∀ i : LaneIdx, Q.lane[i] = 0x7FC00000)
    ∧ (s.opA[0] = 0x7F800000 ∨ s.opA[0] = 0xFF800000 → Fp.isFinite P.fs = true → Fp.isFinite P.lane[0] = true →
        Q.inc = s.opA[0] ∧ Q.lane[0] = 0x7FC00000 ∧ ∀ i : LaneIdx, i ≠ 0 → Q.lane[i] = s.opA[0])

/-- If lane 0 of a phasor is in [0, 2) with sign bit 0 and PH_SETFREQ gives a finite increment, then PH_PROCESS after the
PH_SETFREQ writes to RES[0] the same phase as PH_PROCESS without it. (40_phasor.md R161, R163) -/
def Obligations.FrequencyChangeKeepsPhase : Prop :=
  ∀ (v : VoiceIdx) (u : UnitIdx) (s t t1 t2 : State),
    inHeld (getPhasor s v u).lane[0] = true → (getPhasor s v u).lane[0].msb = false →
    exec (.phSetfreq v u) s = .next t → Fp.isFinite (getPhasor t v u).inc = true →
    exec (.phProcess v u) s = .next t1 → exec (.phProcess v u) t = .next t2 → t2.res[0] = t1.res[0]

/-- For every voice, unit and state each of the three completes. SM_INIT with a finite rate above 0 and a finite time
constant of at least 0 sets rate, time constant, mode and coefficient and ends any ramp, and otherwise only raises
OPERAND_ILL; SM_SET sets the target, and the value or the ramp by immediacy and mode; SM_PROCESS advances one sample
by the mode and writes it to RES[0]. Nothing else changes. The coefficient formula is marked general knowledge by the
spec (log 11). (SM_PROCESS is the pseudocode of R185 and R186. With coefficient 1.0, and after an immediate Set of an
infinity, R185 can miss the target that R191 and R192 (a), (e) say is returned, and R191 says no value leaves the
interval: following R185 there is the model's DESIGN CHOICE, log 18. From an infinite value R186 gives a NaN where
R190 (c) says a monotone move: following R186 there is the model's DESIGN CHOICE, log 20.) (41_smoother.md R181, R182,
R184 to R189, 60_exceptions.md R342) -/
def Obligations.SmootherCommands : Prop :=
  ∀ (v : VoiceIdx) (u : UnitIdx) (s : State),
    let S := getSmoother s v u
    let illegal : State := { s with flags := s.flags ||| 0x08#8, lastCode := 4#4 }
    (∀ m : SmoothMode, exec (.smInit v u m) s = .next
      (if Fp.isFinite s.opA[0] && Fp.gt s.opA[0] 0 && Fp.isFinite s.opA[1] && Fp.ge s.opA[1] 0 then
        let d := Fp.mul s.opA[1] s.opA[0]
        let coef := if Fp.gt d 0 && Fp.isFinite d
          then Fp.sub 0x3F800000 (Units.exp Config.build (Fp.neg (Fp.div 0x3F800000 d))) else 0x3F800000
        setSmoother s v u { S with fs := s.opA[0], tc := s.opA[1], mode := m, coef := coef, step := 0, remain := 0 }
       else illegal))
    ∧ exec (.smSet v u true) s = .next
        (setSmoother s v u { S with target := s.opA[0], value := s.opA[0], step := 0, remain := 0 })
    ∧ (S.mode = .exponential → exec (.smSet v u false) s = .next (setSmoother s v u { S with target := s.opA[0] }))
    ∧ (S.mode = .linear → exec (.smSet v u false) s = .next
        (let d := Fp.mul S.tc S.fs
         if Fp.gt d 0 && Fp.isFinite d then
           setSmoother s v u
            { S with target := s.opA[0], step := Fp.div (Fp.sub s.opA[0] S.value) d, remain := .ofNat 32 (Fp.ceilSat32 d) }
         else setSmoother s v u { S with target := s.opA[0], step := 0, remain := 0 }))
    ∧ (S.mode = .exponential → exec (.smProcess v u) s = .next
        (let y := Fp.add S.value (Fp.mul S.coef (Fp.sub S.target S.value))
         { setSmoother s v u { S with value := y } with res := s.res.set 0 y }))
    ∧ (S.mode = .linear → exec (.smProcess v u) s = .next
        (if S.remain = 0 then { setSmoother s v u { S with value := S.target } with res := s.res.set 0 S.target }
         else
           let y := Fp.add S.value S.step
           if (Fp.gt S.step 0 && Fp.ge y S.target) || (Fp.lt S.step 0 && Fp.le y S.target) || S.remain == 1#32 then
             { setSmoother s v u { S with value := S.target, remain := 0 } with res := s.res.set 0 S.target }
           else { setSmoother s v u { S with value := y, remain := S.remain - 1 } with res := s.res.set 0 y }))

/-- After a Set, not immediate, in linear mode with D = tc x fs above 0 and finite, the value after any number n of
Process calls with n at least int_ceil_sat32(D) is the target, bit for bit, whatever the target is. (41_smoother.md
R190 (a)) -/
def Obligations.LinearRampReachesTarget : Prop :=
  ∀ (S : Smoother) (x : F32) (n : Nat), S.mode = .linear →
    Fp.gt (Fp.mul S.tc S.fs) 0 = true → Fp.isFinite (Fp.mul S.tc S.fs) = true → Fp.ceilSat32 (Fp.mul S.tc S.fs) ≤ n →
    (smootherNext^[n] (smootherSet S x false)).value = x

/-- After a Set, not immediate, in linear mode with D = tc x fs above 0 and finite, from a finite value to a finite
target: the values of successive Process calls move only towards the target and none lies beyond it. (R190 does not
say that the start and the target are finite; from an infinite start R186 does not give this, and the model follows
R186, log 20.) (41_smoother.md R190 (b), (c)) -/
def Obligations.LinearRampMonotone : Prop :=
  ∀ (S : Smoother) (x : F32) (n : Nat), S.mode = .linear →
    Fp.gt (Fp.mul S.tc S.fs) 0 = true → Fp.isFinite (Fp.mul S.tc S.fs) = true →
    Fp.isFinite S.value = true → Fp.isFinite x = true →
    let y (k : Nat) : F32 := (smootherNext^[k] (smootherSet S x false)).value
    (Fp.le S.value x = true → Fp.le (y n) (y (n + 1)) = true ∧ Fp.le (y n) x = true)
    ∧ (Fp.le x S.value = true → Fp.le (y (n + 1)) (y n) = true ∧ Fp.le x (y n) = true)

/-- If a smoother is in exponential mode with value, target and coefficient in [0, 1], then SM_PROCESS completes, writes a
value in [0, 1] to RES[0] and holds it. (43_pdo_block.md R246 (b), 41_smoother.md R185) -/
def Obligations.ExponentialStaysInUnit : Prop :=
  ∀ (v : VoiceIdx) (u : UnitIdx) (s : State),
    (getSmoother s v u).mode = .exponential → inUnit (getSmoother s v u).value = true →
    inUnit (getSmoother s v u).target = true → inUnit (getSmoother s v u).coef = true →
    ∃ t, exec (.smProcess v u) s = .next t ∧ inUnit t.res[0] = true ∧ (getSmoother t v u).value = t.res[0]

/-- For every state each completes, RES[i] is the law of phase OPA[i] and amount OPB[i] computed step by step, and nothing
else changes. (Each law is its pseudocode, R203 to R206. At the phase 0x3F7FFFFF and amount +0.0 the pseudocode of
Fold gives +0.0, where R210 and R215 say the phase itself: following R206 there is the model's DESIGN CHOICE, log 12.)
(42_waveshaper.md R202 to R210) -/
def Obligations.WaveshaperCommands : Prop :=
  ∀ s : State,
    let exp := Units.exp Config.build
    let ea (a : F32) : F32 := Units.exp2 Config.build (Fp.mul a 0x40A00000)
    let bendLane (x a : F32) : F32 :=
      if Fp.le a 0x3727C5AC then x
      else Fp.div (Fp.sub (exp (Fp.mul x (Fp.mul 0xC1200000 a))) 0x3F800000) (Fp.sub (exp (Fp.mul 0xC1200000 a)) 0x3F800000)
    let syncLane (x a : F32) : F32 := Fp.wrap (Fp.mul x (Fp.add 0x3F800000 (Fp.sub (ea a) 0x3F800000)))
    let formantLane (x a : F32) : F32 :=
      let y := Fp.add x (Fp.mul (Fp.sub x 0x3F000000) (Fp.sub (ea a) 0x3F800000))
      Fp.wrap (if Fp.lt y 0 then 0 else if Fp.gt y 0x3F800000 then 0x3F800000 else y)
    let foldLane (x a : F32) : F32 :=
      let y := Fp.mul x (ea a)
      let k := Fp.floor (Fp.div (Fp.add y 0x3F800000) 0x40000000)
      let r := Fp.sub y (Fp.mul 0x40000000 k)
      Fp.wrap (if Fp.isOdd k then Fp.neg r else r)
    exec .pdBend s = .next { s with res := Vector.ofFn fun i : LaneIdx => bendLane s.opA[i] s.opB[i] }
    ∧ exec .pdSync s = .next { s with res := Vector.ofFn fun i : LaneIdx => syncLane s.opA[i] s.opB[i] }
    ∧ exec .pdFormant s = .next { s with res := Vector.ofFn fun i : LaneIdx => formantLane s.opA[i] s.opB[i] }
    ∧ exec .pdFold s = .next { s with res := Vector.ofFn fun i : LaneIdx => foldLane s.opA[i] s.opB[i] }

/-- For every state each completes, RES[i] is the unit's value at OPA[i], the phase-modulation sum of lane i at the
selected ratio, or the window of OPA[i], and nothing else changes. (42_waveshaper.md R211 to R214, 43_pdo_block.md
R231, R232, R234, R235) -/
def Obligations.UnitCommands : Prop :=
  ∀ s : State,
    let b := Config.build
    let pmLane (x pp d e : F32) : F32 :=
      Fp.wrap (Fp.add x (Fp.add (Fp.mul (Units.sin2pi b pp) (Fp.div (Fp.mul d 0x41200000) (Lit.ratio s.ratioIdx))) e))
    let triLane (x : F32) : F32 :=
      if Fp.lt x 0x3F000000 then Fp.mul 0x40000000 x else Fp.mul 0x40000000 (Fp.sub 0x3F800000 x)
    exec .fnSin2pi s = .next { s with res := Vector.ofFn fun i : LaneIdx => Units.sin2pi b s.opA[i] }
    ∧ exec .fnCos2pi s = .next { s with res := Vector.ofFn fun i : LaneIdx => Units.cos2pi b s.opA[i] }
    ∧ exec .fnExp s = .next { s with res := Vector.ofFn fun i : LaneIdx => Units.exp b s.opA[i] }
    ∧ exec .fnExp2 s = .next { s with res := Vector.ofFn fun i : LaneIdx => Units.exp2 b s.opA[i] }
    ∧ exec .pmInject s = .next
        { s with res := Vector.ofFn fun i : LaneIdx => pmLane s.opA[i] s.opB[i] s.opC[i] s.opD[i] }
    ∧ exec (.winEval .flat) s = .next { s with res := #v[0x3F800000, 0x3F800000, 0x3F800000, 0x3F800000] }
    ∧ exec (.winEval .triangle) s = .next { s with res := Vector.ofFn fun i : LaneIdx => triLane s.opA[i] }
    ∧ exec (.winEval .sawtooth) s = .next { s with res := Vector.ofFn fun i : LaneIdx => Fp.sub 0x3F800000 s.opA[i] }

/-- With every amount +0.0: PD_BEND copies any OPA to RES bit for bit; PD_SYNC and PD_FORMANT copy phases with encodings
below 0x3F800000 (sign bit 0, below 1.0); PD_FOLD copies those below 0x3F7FFFFF and gives +0.0 at 0x3F7FFFFF, the one
phase where the pseudocode rounds (p + 1)/2 up to 1 (the model follows the pseudocode, log 12). (42_waveshaper.md R203
to R206, R215) -/
def Obligations.IdentityAtZeroAmount : Prop :=
  ∀ s : State, (∀ i : LaneIdx, s.opB[i] = 0) →
    exec .pdBend s = .next { s with res := s.opA }
    ∧ ((∀ i : LaneIdx, s.opA[i].toNat < 0x3F800000) →
      exec .pdSync s = .next { s with res := s.opA }
      ∧ exec .pdFormant s = .next { s with res := s.opA }
      ∧ exec .pdFold s = .next
          { s with res := Vector.ofFn fun i : LaneIdx => if s.opA[i] = 0x3F7FFFFF then 0 else s.opA[i] })

/-- For every build: whenever the phase and amount make the product (Sync, Fold) or the stretched phase (Formant) finite,
the result is in [0, 1). On the machine: with every phase in [0, 1) and every amount in [0, 1], PD_SYNC, PD_FORMANT
and PD_FOLD complete and write four phases in [0, 1) to RES; for every amount above 1e-5 and at most 1.0 the
denominator of Bend, EXP(-10 a) - 1.0, is below 0, and Bend of every phase in [0, 1] is a finite number (the bound
9.9e-5 on FN_EPS is log 4). (42_waveshaper.md R203, R216, R217, 93_implementation_defined.md I-9, 00_scope.md R18,
R19, R26) -/
def Obligations.ShapeRange : Prop :=
  (∀ (p : Config.Params) (x a : F32),
    (Fp.isFinite (Fp.mul x (Fp.add 0x3F800000 (amountSync p a))) = true → inPhase (sync p x a) = true)
    ∧ (Fp.isFinite (Fp.add x (Fp.mul (Fp.sub x 0x3F000000) (amountSync p a))) = true → inPhase (formant p x a) = true)
    ∧ (Fp.isFinite (Fp.mul x (amountFold p a)) = true → inPhase (fold p x a) = true))
  ∧ (∀ s : State, (∀ i : LaneIdx, inPhase s.opA[i] = true ∧ inUnit s.opB[i] = true) →
    ∀ i ∈ [Instr.pdSync, Instr.pdFormant, Instr.pdFold],
      ∃ r : Vector F32 4, exec i s = .next { s with res := r } ∧ ∀ k : LaneIdx, inPhase r[k] = true)
  ∧ ∀ a : F32, Fp.gt a 0x3727C5AC = true → Fp.le a 0x3F800000 = true →
    Fp.lt (Fp.sub (Units.exp Config.build (Fp.mul 0xC1200000 a)) 0x3F800000) 0 = true
    ∧ ∀ x : F32, inUnit x = true → Fp.isFinite (bend Config.build x a) = true

/-- For every build: SIN2PI and COS2PI are exact at reduced phases 0, 1/4, 1/2 and 3/4, in [-1, 1] at every finite
argument, equal at arguments with equal reduced phase, and qNaN at every non-finite one; EXP is 1 at both zeros, 0 at
-inf, qNaN at a NaN and in [0, 1] at every argument of at most 0; EXP2 is 2^n at n = 0 to 5, qNaN at a NaN and finite
on [0, 5]. For the build of the machine: FN_EPS is below 9.9e-5 (log 4), EXP on [-10, 0] is within FN_EPS of e^x, EXP2
on [0, 5] within FN_EPS x 2^x of 2^x, and SIN2PI and COS2PI at every finite argument within FN_EPS of the sine and
cosine of 2 pi times the reduced phase. (00_scope.md R25 to R28, 42_waveshaper.md R211 to R214) -/
def Obligations.UnitFixedPoints : Prop :=
  (∀ p : Config.Params,
    (Units.sin2pi p 0 = 0 ∧ Units.sin2pi p 0x3E800000 = 0x3F800000 ∧ Units.sin2pi p 0x3F000000 = 0
      ∧ Units.sin2pi p 0x3F400000 = 0xBF800000)
    ∧ (Units.cos2pi p 0 = 0x3F800000 ∧ Units.cos2pi p 0x3E800000 = 0 ∧ Units.cos2pi p 0x3F000000 = 0xBF800000
      ∧ Units.cos2pi p 0x3F400000 = 0)
    ∧ (∀ x : F32, Fp.isFinite x = true →
        (Fp.le 0xBF800000 (Units.sin2pi p x) = true ∧ Fp.le (Units.sin2pi p x) 0x3F800000 = true)
        ∧ (Fp.le 0xBF800000 (Units.cos2pi p x) = true ∧ Fp.le (Units.cos2pi p x) 0x3F800000 = true)
        ∧ ∀ y : F32, Fp.isFinite y = true → Fp.frac x = Fp.frac y →
            Units.sin2pi p x = Units.sin2pi p y ∧ Units.cos2pi p x = Units.cos2pi p y)
    ∧ (∀ x : F32, Fp.isFinite x = false → Units.sin2pi p x = 0x7FC00000 ∧ Units.cos2pi p x = 0x7FC00000)
    ∧ (Units.exp p 0 = 0x3F800000 ∧ Units.exp p 0x80000000 = 0x3F800000 ∧ Units.exp p 0xFF800000 = 0)
    ∧ (∀ x : F32, Fp.isNaN x = true → Units.exp p x = 0x7FC00000 ∧ Units.exp2 p x = 0x7FC00000)
    ∧ (∀ x : F32, Fp.le x 0 = true → inUnit (Units.exp p x) = true)
    ∧ (Units.exp2 p 0 = 0x3F800000 ∧ Units.exp2 p 0x3F800000 = 0x40000000 ∧ Units.exp2 p 0x40000000 = 0x40800000
      ∧ Units.exp2 p 0x40400000 = 0x41000000 ∧ Units.exp2 p 0x40800000 = 0x41800000 ∧ Units.exp2 p 0x40A00000 = 0x42000000)
    ∧ ∀ x : F32, Fp.le 0 x = true → Fp.le x 0x40A00000 = true → Fp.isFinite (Units.exp2 p x) = true)
  ∧ Config.fnEps < 99 / 1000000
  ∧ (∀ x : F32, Fp.isFinite x = true → Fp.le 0xC1200000 x = true → Fp.le x 0 = true →
      |(valueOf (Units.exp Config.build x) : ℝ) - Real.exp (valueOf x)| ≤ Config.fnEps)
  ∧ (∀ x : F32, Fp.isFinite x = true → Fp.le 0 x = true → Fp.le x 0x40A00000 = true →
      |(valueOf (Units.exp2 Config.build x) : ℝ) - (2 : ℝ) ^ (valueOf x : ℝ)| ≤ Config.fnEps * (2 : ℝ) ^ (valueOf x : ℝ))
  ∧ ∀ x : F32, Fp.isFinite x = true →
      |(valueOf (Units.sin2pi Config.build x) : ℝ) - Real.sin (2 * Real.pi * valueOf (Fp.frac x))| ≤ Config.fnEps
      ∧ |(valueOf (Units.cos2pi Config.build x) : ℝ) - Real.cos (2 * Real.pi * valueOf (Fp.frac x))| ≤ Config.fnEps

/-- With every depth and every external input +0.0, every PM phase finite and every phase encoded below 0x3F800000,
PM_INJECT copies OPA to RES, at every ratio, and changes nothing else. (43_pdo_block.md R236) -/
def Obligations.PmIdentity : Prop :=
  ∀ s : State,
    (∀ i : LaneIdx, s.opC[i] = 0 ∧ s.opD[i] = 0 ∧ Fp.isFinite s.opB[i] = true ∧ s.opA[i].toNat < 0x3F800000) →
    exec .pmInject s = .next { s with res := s.opA }

/-- With every phase of OPA in [0, 1): WIN_EVAL none gives 1.0; sawtooth gives values in (0, 1]; triangle gives values in
[0, 1], exactly 2p below 0.5 and exactly 2(1 - p) from 0.5 on. (Values are compared as exact integers in the unit
2^-149.) (43_pdo_block.md R237) -/
def Obligations.WindowValues : Prop :=
  ∀ s : State, (∀ i : LaneIdx, inPhase s.opA[i] = true) →
    (∃ r : Vector F32 4, exec (.winEval .flat) s = .next { s with res := r } ∧ ∀ i : LaneIdx, r[i] = 0x3F800000)
    ∧ (∃ r : Vector F32 4, exec (.winEval .sawtooth) s = .next { s with res := r }
        ∧ ∀ i : LaneIdx, Fp.gt r[i] 0 = true ∧ Fp.le r[i] 0x3F800000 = true)
    ∧ ∃ r : Vector F32 4, exec (.winEval .triangle) s = .next { s with res := r }
        ∧ ∀ i : LaneIdx, inUnit r[i] = true
          ∧ Fp.ord r[i] = if Fp.ord s.opA[i] < 2 ^ 148 then 2 * Fp.ord s.opA[i] else 2 * (2 ^ 149 - Fp.ord s.opA[i])

/-- For every build, every pair of algorithms, either routing and every ratio, with window none and the quadrature output:
at amounts, depth and input +0.0, a carrier phase in [0, 1) with sign bit 0 and a finite PM phase, the primary sample
is SIN2PI(pc) and the auxiliary sample COS2PI(pc). The phase 0x3F7FFFFF is left out when Fold is selected, where the
pseudocode does not keep it (log 12). (43_pdo_block.md R244, R247, 42_waveshaper.md R215) -/
def Obligations.PureSineLane : Prop :=
  ∀ (p : Config.Params) (P : Patch) (i : Fin 16) (pc ps pp : F32),
    P.window = .flat → P.aux = .quadrature → P.r = Lit.ratio i → pc.toNat < 0x3F800000 → Fp.isFinite pp = true →
    (P.alg1 = .fold ∨ P.alg2 = .fold → pc ≠ 0x3F7FFFFF) →
    lanePipeline p P pc ps pp 0 0 0 0 = (Units.sin2pi p pc, Units.cos2pi p pc)

/-- Into a ring that is not full, RB_PUSH appends OPA[0] at the young end of what the ring holds and changes nothing else;
into a full one it sets STATUS bit 4, makes LAST_CODE 5 and changes nothing else. (44_ring_buffer.md R260, R261, R267,
60_exceptions.md R342) -/
def Obligations.RbPushResult : Prop :=
  ∀ (v : VoiceIdx) (s : State),
    let cap := Units.capPm Config.build
    ((getPmq s v).n = cap → exec (.rbPush v) s = .next { s with flags := s.flags ||| 0x10#8, lastCode := 5#4 })
    ∧ (RingWf 0 cap (getPmq s v) → (getPmq s v).n < cap →
      ∃ q : Machine.Ring F32, exec (.rbPush v) s = .next (setPmq s v q) ∧ RingWf 0 cap q ∧ q.n = (getPmq s v).n + 1
        ∧ ringContents 0 cap q = ringContents 0 cap (getPmq s v) ++ [s.opA[0]])

/-- From a ring that holds something, RB_POP writes the oldest sample to RES[0], removes it and changes nothing else; from
an empty one it writes +0.0 to RES[0], sets STATUS bit 5, makes LAST_CODE 6 and changes nothing else.
(44_ring_buffer.md R260, R262, R268, 60_exceptions.md R342) -/
def Obligations.RbPopResult : Prop :=
  ∀ (v : VoiceIdx) (s : State),
    let cap := Units.capPm Config.build
    ((getPmq s v).n = 0 →
      exec (.rbPop v) s = .next { s with flags := s.flags ||| 0x20#8, lastCode := 6#4, res := s.res.set 0 0 })
    ∧ (RingWf 0 cap (getPmq s v) → (getPmq s v).n ≠ 0 →
      ∃ (x : F32) (rest : List F32) (q : Machine.Ring F32), ringContents 0 cap (getPmq s v) = x :: rest
        ∧ exec (.rbPop v) s = .next { setPmq s v q with res := s.res.set 0 x }
        ∧ RingWf 0 cap q ∧ q.n + 1 = (getPmq s v).n ∧ ringContents 0 cap q = rest)

/-- NOP completes with no effect; its word is 0x00000000, and a word with opcode 0x00 and any other bit set is CMD_ILL
(bit 1, code 2) and nothing else. (R313) -/
def Obligations.NopResult : Prop :=
  ∀ s : State,
    exec .nop s = .next s
    ∧ decodeCommand 0x00000000 = .ok .nop ∧ encode .nop = ⟨0x1004, 0x00000000⟩
    ∧ ∀ w : Word, w.extractLsb' 0 8 = 0 → w ≠ 0 →
        exec (.regWr 0x004 w) s = .next { s with flags := s.flags ||| 0x02#8, lastCode := 2#4 }

/-- RESET completes in every state whose unit rate fs_active x os_active is above 0: every phasor gets lanes, frequency
and increment +0.0 and that rate; every smoother value, target and step +0.0, remain 0, that rate and its coefficient,
keeping time constant and mode; the rings are empty and the history is L_M - 1 zeros; no register, flag, latched rate
or pending rate change changes. CLEAR completes in every state, empties the rings and zeroes the history and changes
nothing else. (46_engine.md R309 to R312, 44_ring_buffer.md R266, 45_decimation_src.md R287, 70_reset_and_hazards.md
R373) -/
def Obligations.ResetAndClearResult : Prop :=
  ∀ s : State,
    let fo := Fp.mul s.fsActive (Fp.ofNat (Lit.osNat s.osActive))
    let zeros : Vector (List F32) 32 := Vector.replicate 32 (List.replicate (Units.histLen Config.build s.osActive) 0)
    (Fp.gt fo 0 = true → ∃ t, exec .reset s = .next t
      ∧ t = { s with voices := t.voices, outq := t.outq, hist := zeros }
      ∧ (∀ (v : VoiceIdx) (u : UnitIdx),
          getPhasor t v u = { lane := #v[0, 0, 0, 0], freq := 0, inc := 0, fs := fo }
          ∧ getSmoother t v u = { value := 0, target := 0, coef := Units.coefOf Config.build (getSmoother s v u).tc fo,
                                  step := 0, remain := 0, tc := (getSmoother s v u).tc, mode := (getSmoother s v u).mode,
                                  fs := fo })
      ∧ (∀ v : VoiceIdx, (getPmq t v).rd = 0 ∧ (getPmq t v).n = 0) ∧ t.outq.rd = 0 ∧ t.outq.n = 0)
    ∧ exec .clear s = .next { s with
        voices := s.voices.map fun vo => { vo with pmq := { vo.pmq with rd := 0, n := 0 } }
        outq := { s.outq with rd := 0, n := 0 }
        hist := zeros }

/-- TICK completes in every state. It makes os_active the OS_FACTOR, fs_active the SAMPLE_RATE if sr_changed was set,
clears sr_changed, and makes OUT_CHANNELS the CHANNELS. It clears no event bit, raises no event but PM_OVF and PM_UNF
(so never OUT_EMPTY), and LAST_CODE is 5, 6 or as it was. If no ring holds more than CAP_PM samples, PM_OVF is raised
exactly when the TICK latches nothing and the ring of some active voice has no room for os_active more; PM_UNF exactly
when it renders and some active voice then has fewer samples than the render takes; LAST_CODE is 6 after PM_UNF, else
5 after PM_OVF. (PM_UNF follows R305 and R263, also where R270, R383 and R384 say that a render underflows and the
ring holds all it takes: the model's DESIGN CHOICE, log 22.) Beyond these it changes only the voices, the output ring,
the filter history and OUT_PRI and OUT_AUX. (46_engine.md R300 to R307, 44_ring_buffer.md R261 to R263, R269 (e),
60_exceptions.md R343) -/
def Obligations.TickResult : Prop :=
  ∀ s : State, ∃ t, exec .tick s = .next t
    ∧ t = { s with
        flags := t.flags, lastCode := t.lastCode
        fsActive := if s.srChanged then s.sampleRate else s.fsActive
        osActive := s.osFactor, srChanged := false
        voices := t.voices, outq := t.outq, hist := t.hist, outPri := t.outPri, outAux := t.outAux
        outChannels := s.channels }
    ∧ t.flags ||| 0x30#8 = s.flags ||| 0x30#8 ∧ s.flags &&& t.flags = s.flags
    ∧ (t.lastCode = s.lastCode ∨ t.lastCode = 5#4 ∨ t.lastCode = 6#4)
    ∧ ((∀ v : VoiceIdx, (getPmq s v).n ≤ Units.capPm Config.build) →
      let cap := Units.capPm Config.build
      let m := Lit.osNat s.osFactor
      let latches : Bool := decide (s.osFactor ≠ s.osActive) || s.srChanged
      let held (v : VoiceIdx) : Nat := if latches then 0 else (getPmq s v).n
      let ovf : Bool := decide (∃ v : VoiceIdx, v.val < s.channels.toNat ∧ cap < held v + m)
      let unf : Bool := (latches || s.outq.n == 0)
        && decide (∃ v : VoiceIdx, v.val < s.channels.toNat ∧ min (held v + m) cap < Units.blockSize Config.build * m)
      t.flags = s.flags ||| (if ovf then 0x10#8 else 0) ||| (if unf then 0x20#8 else 0)
      ∧ t.lastCode = if unf then 6#4 else if ovf then 5#4 else s.lastCode)

/-- If OS_FACTOR differs from os_active or sr_changed is set, then after the TICK every phasor and smoother of all 16
voices, active or not, has the rate fs_active x os_active, and every smoother the coefficient of its time constant at
that rate. Where that rate is above 0, let the latched voice be: at a pending rate change, every lane, frequency,
increment, value, target, step and remain zero; at a factor change alone, frequencies, values, targets, steps and
remains as they were and the lanes derived again from lane 0 (latchedVoice). A voice at or above CHANNELS has exactly
its units after the TICK; an active voice with a proper ring has what PDO_BLOCK leaves of them, its input os_active
copies of EXTPM[v] and then zeros. (46_engine.md R301, R302, R305, R306, R309, 40_phasor.md R161, R162, 41_smoother.md
R183, 10_state.md R69, 70_reset_and_hazards.md R373) -/
def Obligations.TickLatchSetsUnitRates : Prop :=
  ∀ s t : State, exec .tick s = .next t → (s.osFactor ≠ s.osActive ∨ s.srChanged = true) →
    let fo := Fp.mul t.fsActive (Fp.ofNat (Lit.osNat t.osActive))
    (∀ (v : VoiceIdx) (u : UnitIdx),
      (getPhasor t v u).fs = fo ∧ (getSmoother t v u).fs = fo
      ∧ (getSmoother t v u).tc = (getSmoother s v u).tc ∧ (getSmoother t v u).mode = (getSmoother s v u).mode
      ∧ (getSmoother t v u).coef = Units.coefOf Config.build (getSmoother s v u).tc fo)
    ∧ (Fp.gt fo 0 = true → ∀ v : VoiceIdx,
      let V := latchedVoice Config.build s.srChanged fo (getVoice s v)
      (s.channels.toNat ≤ v.val → (getVoice t v).ph = V.ph ∧ (getVoice t v).sm = V.sm)
      ∧ (v.val < s.channels.toNat → RingWf 0 (Units.capPm Config.build) (getPmq s v) →
          let m := Lit.osNat t.osActive
          let n := Units.blockSize Config.build * m
          let ext := List.replicate m s.extPm[v] ++ List.replicate (n - m) 0
          let blk := pdoBlock Config.build (patchOf s) s.freq[v] ext n V
          (getVoice t v).ph = blk.2.ph ∧ (getVoice t v).sm = blk.2.sm))

/-- If the TICK latches a rate or a factor, or found the output ring empty, it renders and the ring holds BLOCK_SIZE - 1
frames after it; otherwise it holds one frame less than before. (46_engine.md R303, R306, R307, 44_ring_buffer.md R269
(b)) -/
def Obligations.TickLevel : Prop :=
  ∀ s t : State, exec .tick s = .next t →
    t.outq.n = if s.osFactor ≠ s.osActive ∨ s.srChanged = true ∨ s.outq.n = 0 then Units.blockSize Config.build - 1
      else s.outq.n - 1

/-- Every TICK makes OUT_PRI[v] and OUT_AUX[v] +0.0 for v at or above CHANNELS. A TICK that latches nothing and finds a
frame makes OUT_PRI[v] and OUT_AUX[v] channels 2v and 2v + 1 of the oldest frame times 5.0 for v below CHANNELS (of a
voice raised since that frame was rendered too, log 19), and removes that frame. A TICK that latches a rate or a
factor, at a rate above 0 and with proper rings: let sample q of an active voice be sample q of the block run from the
latched voice, or with os_active above 1 output q of the FIR over that block after a history of L_M - 1 zeros, and let
it for the channels of a voice at or above CHANNELS be that of a block of zeros. OUT_PRI[v] and OUT_AUX[v] are sample
0 times 5.0 for v below CHANNELS; the output ring holds, oldest first, samples 1 to BLOCK_SIZE - 1 of every channel;
and the filter history is the last L_M - 1 samples of zeros and block, empty with os_active = 1. (What a TICK that
latches nothing and finds no frame outputs is RenderTick. The value 5.0 is marked general knowledge by the spec, log
11.) (46_engine.md R301 to R307, R309, R311, 44_ring_buffer.md R265, 45_decimation_src.md R281, R282, R285, R286,
R287) -/
def Obligations.TickOutput : Prop :=
  ∀ s t : State, exec .tick s = .next t → ∀ v : VoiceIdx,
    (s.channels.toNat ≤ v.val → t.outPri[v] = 0 ∧ t.outAux[v] = 0)
    ∧ (s.osFactor = s.osActive → s.srChanged = false → s.outq.n ≠ 0 →
      let F := ringFront zeroFrame s.outq
      t.outq = ringDrop (Units.capOut Config.build) s.outq
      ∧ (v.val < s.channels.toNat →
          t.outPri[v] = Fp.mul (F[2 * v.val]'(by omega)) 0x40A00000
          ∧ t.outAux[v] = Fp.mul (F[2 * v.val + 1]'(by omega)) 0x40A00000))
    ∧ (s.osFactor ≠ s.osActive ∨ s.srChanged = true →
      let p := Config.build
      let fo := Fp.mul t.fsActive (Fp.ofNat (Lit.osNat t.osActive))
      Fp.gt fo 0 = true → v.val < s.channels.toNat → RingWf 0 (Units.capPm p) (getPmq s v) →
      RingWf zeroFrame (Units.capOut p) s.outq →
      let m := Lit.osNat t.osActive
      let n := Units.blockSize p * m
      let ext := List.replicate m s.extPm[v] ++ List.replicate (n - m) 0
      let blk := pdoBlock p (patchOf s) s.freq[v] ext n (latchedVoice p s.srChanged fo (getVoice s v))
      let pri := blk.1.map Prod.fst
      let aux := blk.1.map Prod.snd
      let h := Units.taps p t.osActive
      let zeros : List F32 := List.replicate (h.length - 1) 0
      let sample (x : List F32) (q : Nat) : F32 :=
        if t.osActive = .x1 then x.getD q 0 else firOutput h (zeros ++ x) m q
      let queued (x : List F32) : List F32 := (List.range (Units.blockSize p - 1)).map fun q => sample x (q + 1)
      let kept (x : List F32) : List F32 := if t.osActive = .x1 then [] else decimateHist h zeros x
      let frames := ringContents zeroFrame (Units.capOut p) t.outq
      t.outPri[v] = Fp.mul (sample pri 0) 0x40A00000 ∧ t.outAux[v] = Fp.mul (sample aux 0) 0x40A00000
      ∧ channelOf frames ⟨2 * v.val, by omega⟩ = queued pri ∧ channelOf frames ⟨2 * v.val + 1, by omega⟩ = queued aux
      ∧ (t.hist[2 * v.val]'(by omega)) = kept pri ∧ (t.hist[2 * v.val + 1]'(by omega)) = kept aux
      ∧ ∀ c : Fin 32, s.channels.toNat ≤ c.val / 2 →
          channelOf frames c = queued (List.replicate n 0) ∧ t.hist[c] = kept (List.replicate n 0))

/-- For a TICK that latches nothing and finds the output ring empty, and an active voice v: its phasors and smoothers
after it are those PDO_BLOCK leaves, run on that voice alone with its own FREQ, the patch registers and the samples
its own ring gives after the push of os_active copies of EXTPM[v] (for a proper ring: what it then holds, oldest
first, then zeros). Let sample q of a channel be sample q of its block, or with os_active above 1 output q of the FIR
over its history and its block, the block of channels 2v and 2v + 1 being that of voice v and the block of a channel
of no active voice all zeros (after what its history holds, log 19). With a proper output ring OUT_PRI[v] and
OUT_AUX[v] are sample 0 times 5.0 (a value the spec marks general knowledge, log 11), and the ring holds, oldest
first, samples 1 to BLOCK_SIZE - 1 of every channel. With os_active above 1 the new histories are the last L_M - 1
samples of history and block; with os_active = 1 no history changes. (46_engine.md R303, R305 to R308, 43_pdo_block.md
R240 to R245, 44_ring_buffer.md R263, 45_decimation_src.md R281, R282, R285, R286) -/
def Obligations.RenderTick : Prop :=
  ∀ (s t : State) (v : VoiceIdx), exec .tick s = .next t →
    s.osFactor = s.osActive → s.srChanged = false → s.outq.n = 0 → v.val < s.channels.toNat →
    let p := Config.build
    let m := Lit.osNat s.osActive
    let n := Units.blockSize p * m
    let cap := Units.capPm p
    let ext := (popBlockPm p v n (pushPmTimes p v s.extPm[v] m s)).1
    let blk := pdoBlock p (patchOf s) s.freq[v] ext n (getVoice s v)
    let pri := blk.1.map Prod.fst
    let aux := blk.1.map Prod.snd
    let h := Units.taps p s.osActive
    let sample (hist x : List F32) (q : Nat) : F32 := if s.osActive = .x1 then x.getD q 0 else firOutput h (hist ++ x) m q
    let queued (hist x : List F32) : List F32 := (List.range (Units.blockSize p - 1)).map fun q => sample hist x (q + 1)
    let kept (hist x : List F32) : List F32 := if s.osActive = .x1 then hist else decimateHist h hist x
    let frames := ringContents zeroFrame (Units.capOut p) t.outq
    let hist1 := s.hist[2 * v.val]'(by omega)
    let hist2 := s.hist[2 * v.val + 1]'(by omega)
    (getVoice t v).ph = blk.2.ph ∧ (getVoice t v).sm = blk.2.sm
    ∧ (RingWf 0 cap (getPmq s v) →
        let held := (ringContents 0 cap (getPmq s v) ++ List.replicate m s.extPm[v]).take cap
        ext = held.take n ++ List.replicate (n - held.length) 0)
    ∧ (RingWf zeroFrame (Units.capOut p) s.outq →
        t.outPri[v] = Fp.mul (sample hist1 pri 0) 0x40A00000
        ∧ t.outAux[v] = Fp.mul (sample hist2 aux 0) 0x40A00000
        ∧ channelOf frames ⟨2 * v.val, by omega⟩ = queued hist1 pri
        ∧ channelOf frames ⟨2 * v.val + 1, by omega⟩ = queued hist2 aux
        ∧ ∀ c : Fin 32, s.channels.toNat ≤ c.val / 2 → channelOf frames c = queued s.hist[c] (List.replicate n 0))
    ∧ (t.hist[2 * v.val]'(by omega)) = kept hist1 pri
    ∧ (t.hist[2 * v.val + 1]'(by omega)) = kept hist2 aux
    ∧ ∀ c : Fin 32, s.channels.toNat ≤ c.val / 2 → t.hist[c] = kept s.hist[c] (List.replicate n 0)

/-- A TICK that latches nothing leaves every voice at or above CHANNELS as it was: phasors, smoothers and ring. If it
finds a frame in the output ring, so that it does not render, it leaves the phasors and smoothers of every voice,
active or not, and the filter history as they were. (46_engine.md R303, R305, R306, 44_ring_buffer.md R270,
20_memory.md R112) -/
def Obligations.InactiveVoicesKept : Prop :=
  ∀ (s t : State) (v : VoiceIdx), exec .tick s = .next t → s.osFactor = s.osActive → s.srChanged = false →
    (s.channels.toNat ≤ v.val → getVoice t v = getVoice s v)
    ∧ (s.outq.n ≠ 0 → (getVoice t v).ph = (getVoice s v).ph ∧ (getVoice t v).sm = (getVoice s v).sm ∧ t.hist = s.hist)

/-- A TICK that latches a rate or a factor leaves the ring of every voice, active or not, empty. For a TICK that latches
nothing, and an active voice with a proper ring: os_active copies of EXTPM[v] join the young end, those beyond CAP_PM
dropped; if the TICK does not render that is all, and if it renders the oldest BLOCK_SIZE x os_active samples leave,
or all of them if there are fewer. (46_engine.md R301, R302, R305, R306, R311, R318, 44_ring_buffer.md R261 to R263,
R269 (c), R270) -/
def Obligations.TickExternalRing : Prop :=
  ∀ (s t : State) (v : VoiceIdx), exec .tick s = .next t →
    let cap := Units.capPm Config.build
    (s.osFactor ≠ s.osActive ∨ s.srChanged = true → (getPmq t v).n = 0 ∧ ringContents 0 cap (getPmq t v) = [])
    ∧ (s.osFactor = s.osActive → s.srChanged = false → v.val < s.channels.toNat → RingWf 0 cap (getPmq s v) →
      let m := Lit.osNat s.osActive
      let pushed := (ringContents 0 cap (getPmq s v) ++ List.replicate m s.extPm[v]).take cap
      ringContents 0 cap (getPmq t v)
        = if s.outq.n = 0 then pushed.drop (Units.blockSize Config.build * m) else pushed)

/-- Take two states that differ only in what is buffered: the output ring, the filter history and the external-PM rings,
all of them proper rings. If OS_FACTOR differs from os_active or sr_changed is set, a TICK of each gives equal OUT_PRI
and OUT_AUX, STATUS, filter history, phasors and smoothers, and equal contents of every ring. (45_decimation_src.md
R287, R289, 46_engine.md R301, R302, R311, 44_ring_buffer.md R266) -/
def Obligations.FreshAfterLatch : Prop :=
  ∀ s s' t t' : State,
    s' = { s with outq := s'.outq, hist := s'.hist, voices := s'.voices } →
    (∀ v : VoiceIdx, (getVoice s' v).ph = (getVoice s v).ph ∧ (getVoice s' v).sm = (getVoice s v).sm) →
    RingsWf Config.build s → RingsWf Config.build s' →
    (s.osFactor ≠ s.osActive ∨ s.srChanged = true) →
    exec .tick s = .next t → exec .tick s' = .next t' →
    t'.outPri = t.outPri ∧ t'.outAux = t.outAux ∧ t'.flags = t.flags ∧ t'.lastCode = t.lastCode ∧ t'.hist = t.hist
    ∧ (∀ v : VoiceIdx, (getVoice t' v).ph = (getVoice t v).ph ∧ (getVoice t' v).sm = (getVoice t v).sm
        ∧ ringContents 0 (Units.capPm Config.build) (getPmq t' v) = ringContents 0 (Units.capPm Config.build) (getPmq t v))
    ∧ ringContents zeroFrame (Units.capOut Config.build) t'.outq = ringContents zeroFrame (Units.capOut Config.build) t.outq

/-- For any taps h, L of them, factor m, input and history: the outputs are those at q = 0 .. b - 1, and output q starts
from +0.0 and adds h[j] x e[(L - 1) + q m + (m - 1) - j] in increasing j, one rounding per product and per sum, e the
history followed by the input; the new history is e without all but its last L - 1 samples. With at least one tap, m
above 0 and a history of L - 1 samples: decimating b groups and then c groups, the history carried between, gives the
same outputs and the same final history as decimating the b + c groups in one block. (45_decimation_src.md R283, R285,
00_scope.md R14) -/
def Obligations.DecimatorStreams : Prop :=
  (∀ (h e : List F32) (m q : Nat), firOutput h e m q
    = (List.range h.length).foldl
        (fun acc j => Fp.add acc (Fp.mul (h.getD j 0) (e.getD ((h.length - 1) + q * m + (m - 1) - j) 0))) 0)
  ∧ (∀ (h hist x : List F32) (m b : Nat),
    decimateOut h m b hist x = (List.range b).map (fun q => firOutput h (hist ++ x) m q)
    ∧ decimateHist h hist x = (hist ++ x).drop ((hist ++ x).length - (h.length - 1)))
  ∧ ∀ (h hist x y : List F32) (m b c : Nat), h ≠ [] → 0 < m → hist.length = h.length - 1 →
    x.length = b * m → y.length = c * m →
    decimateOut h m (b + c) hist (x ++ y) = decimateOut h m b hist x ++ decimateOut h m c (decimateHist h hist x) y
    ∧ decimateHist h hist (x ++ y) = decimateHist h (decimateHist h hist x) y
    ∧ (decimateHist h hist x).length = h.length - 1

/-- For every build: with os_active = 1, an empty output ring and a block of at most CAP_OUT frames, the conversion leaves
exactly those frames in the output ring, bit for bit and in order, and changes nothing else; the filter history is not
used. (45_decimation_src.md R281, R286, R288) -/
def Obligations.PassThrough : Prop :=
  ∀ (p : Config.Params) (X : List Frame) (s : State), s.osActive = .x1 → s.outq.n = 0 →
    RingWf zeroFrame (Units.capOut p) s.outq → X.length ≤ Units.capOut p →
    ∃ q : Machine.Ring Frame, convert p X s = { s with outq := q } ∧ RingWf zeroFrame (Units.capOut p) q
      ∧ ringContents zeroFrame (Units.capOut p) q = X

/-- If the rate registers hold finite positive rates, the channel counts are 1 to 16, amounts and depth lie in [0, 1], and
LAST_CODE is 0 exactly when no event bit is set and at most 8, then so it is after every step. (10_state.md R46, R47,
R49, R51, R69, 60_exceptions.md R341, R345, 70_reset_and_hazards.md R387) -/
def Obligations.RegistersKept : Prop :=
  ∀ s t : State, RegsLegal s → StatusWf s → step s = .next t → RegsLegal t ∧ StatusWf t

/-- If every ring is in canonical form with its read index and count in range, and every channel's history has L_M - 1
samples for the factor in force, then so it is after every step. (The canonical form of a ring's slot list is the
model's choice, log 7.) (10_state.md R65, R66, R67, 20_memory.md R111, R112, 45_decimation_src.md R285, R287) -/
def Obligations.BuffersKept : Prop :=
  ∀ s t : State, RingsWf Config.build s → HistWf Config.build s → step s = .next t →
    RingsWf Config.build t ∧ HistWf Config.build t

/-- If the rate registers are legal, every unit's rate is above 0, and every smoother has a legal time constant, a
coefficient in [0, 1] and no ramp in exponential mode, then so it is after every step. (41_smoother.md R181, R182,
R192, 46_engine.md R301, R302, R309, 10_state.md R63, R64) -/
def Obligations.UnitsKept : Prop :=
  ∀ s t : State, RegsLegal s → UnitsWf s → step s = .next t → UnitsWf t

/-- Every part of the invariant holds at State.reset: legal registers, consistent status, proper rings, history of the
right length, sound units, for every EXP the spec allows. (10_state.md R78, 70_reset_and_hazards.md R370, R371) -/
def Obligations.SoundAtReset : Prop :=
  Inv Config.build State.reset

/-- For every build, patch, frequency, input and voice, PDO_BLOCK of 4k samples sets the carrier to f, the sub-carrier to
f x 0.5, the PM source to f x ratio and the three smoother targets, then gives for each n below 4k the pair written
out: phases from lane n mod 4 of call n / 4, smoother values after n + 1 calls, the window from the raw carrier phase,
phase modulation before or after the two stages by ROUTING, stage one before stage two, SIN2PI times the window, and
the auxiliary value of its mode. After it the phasors have made k calls and the smoothers 4k, and nothing else of the
voice changes. (Stages and smoothers are the pseudocode of their rules, log 12, log 18, log 20.) (43_pdo_block.md R231
to R233, R239, R241 to R245, 42_waveshaper.md R201) -/
def Obligations.PdoBlockSamples : Prop :=
  ∀ (p : Config.Params) (P : Patch) (f : F32) (ext : List F32) (k : Nat) (vo : Voice),
    let ph0 := setFrequency vo.ph[0] f
    let ph1 := setFrequency vo.ph[1] (Fp.mul f 0x3F000000)
    let ph2 := setFrequency vo.ph[2] (Fp.mul f P.r)
    let sm0 := smootherSet vo.sm[0] P.amt1 false
    let sm1 := smootherSet vo.sm[1] P.amt2 false
    let sm2 := smootherSet vo.sm[2] P.depth false
    let phase (Q : Phasor) (n : Nat) : F32 := (phasorOut (phasorNext^[n / 4] Q))[(⟨n % 4, Nat.mod_lt n (by decide)⟩ : LaneIdx)]
    let smooth (S : Smoother) (n : Nat) : F32 := (smootherNext^[n + 1] S).value
    let stage (alg : Algorithm) (x a : F32) : F32 :=
      match alg with
      | .bend => bend p x a
      | .sync => sync p x a
      | .formant => formant p x a
      | .fold => fold p x a
    let sample (n : Nat) : F32 × F32 :=
      let pc := phase ph0 n
      let modulated (x : F32) : F32 :=
        Fp.wrap (Fp.add x (Fp.add
          (Fp.mul (Units.sin2pi p (phase ph2 n)) (Fp.div (Fp.mul (smooth sm2 n) 0x41200000) P.r)) (ext.getD n 0)))
      let wv : F32 :=
        match P.window with
        | .flat => 0x3F800000
        | .triangle => if Fp.lt pc 0x3F000000 then Fp.mul 0x40000000 pc else Fp.mul 0x40000000 (Fp.sub 0x3F800000 pc)
        | .sawtooth => Fp.sub 0x3F800000 pc
      let x0 := if P.routing = .before then modulated pc else pc
      let x2 := stage P.alg2 (stage P.alg1 x0 (smooth sm0 n)) (smooth sm1 n)
      let x := if P.routing = .after then modulated x2 else x2
      (Fp.mul (Units.sin2pi p x) wv,
        match P.aux with
        | .quadrature => Fp.mul (Units.cos2pi p x) wv
        | .unison => Units.sin2pi p pc
        | .subOctave => Units.sin2pi p (phase ph1 n)
        | .rawPhasor => x)
    pdoBlock p P f ext (4 * k) vo
      = ((List.range (4 * k)).map sample,
         { vo with
           ph := #v[phasorNext^[k] ph0, phasorNext^[k] ph1, phasorNext^[k] ph2]
           sm := #v[smootherNext^[4 * k] sm0, smootherNext^[4 * k] sm1, smootherNext^[4 * k] sm2] })
end

