-- ==== Sys2Proof/Laws/State.lean ====
section
/-! SUPPORT. Laws/State.lean: what each update of the state leaves in each field, one lemma per field and update, so that no
proof unfolds a record update. The lemmas that read a unit of a voice are in Laws/Access.lean. -/

namespace Sys2Proof.Machine

open Sys2Proof.Config (Params)

/-! ## raise -/

@[simp] theorem raise_flags (e : Event) (s : State) : (raise e s).flags = s.flags ||| eventBit e := rfl
@[simp] theorem raise_lastCode (e : Event) (s : State) : (raise e s).lastCode = eventCode e := rfl
@[simp] theorem raise_sampleRate (e : Event) (s : State) : (raise e s).sampleRate = s.sampleRate := rfl
@[simp] theorem raise_osFactor (e : Event) (s : State) : (raise e s).osFactor = s.osFactor := rfl
@[simp] theorem raise_channels (e : Event) (s : State) : (raise e s).channels = s.channels := rfl
@[simp] theorem raise_alg1 (e : Event) (s : State) : (raise e s).alg1 = s.alg1 := rfl
@[simp] theorem raise_alg2 (e : Event) (s : State) : (raise e s).alg2 = s.alg2 := rfl
@[simp] theorem raise_routing (e : Event) (s : State) : (raise e s).routing = s.routing := rfl
@[simp] theorem raise_window (e : Event) (s : State) : (raise e s).window = s.window := rfl
@[simp] theorem raise_auxMode (e : Event) (s : State) : (raise e s).auxMode = s.auxMode := rfl
@[simp] theorem raise_ratioIdx (e : Event) (s : State) : (raise e s).ratioIdx = s.ratioIdx := rfl
@[simp] theorem raise_amt1 (e : Event) (s : State) : (raise e s).amt1 = s.amt1 := rfl
@[simp] theorem raise_amt2 (e : Event) (s : State) : (raise e s).amt2 = s.amt2 := rfl
@[simp] theorem raise_depth (e : Event) (s : State) : (raise e s).depth = s.depth := rfl
@[simp] theorem raise_freq (e : Event) (s : State) : (raise e s).freq = s.freq := rfl
@[simp] theorem raise_extPm (e : Event) (s : State) : (raise e s).extPm = s.extPm := rfl
@[simp] theorem raise_outPri (e : Event) (s : State) : (raise e s).outPri = s.outPri := rfl
@[simp] theorem raise_outAux (e : Event) (s : State) : (raise e s).outAux = s.outAux := rfl
@[simp] theorem raise_outChannels (e : Event) (s : State) : (raise e s).outChannels = s.outChannels := rfl
@[simp] theorem raise_opA (e : Event) (s : State) : (raise e s).opA = s.opA := rfl
@[simp] theorem raise_opB (e : Event) (s : State) : (raise e s).opB = s.opB := rfl
@[simp] theorem raise_opC (e : Event) (s : State) : (raise e s).opC = s.opC := rfl
@[simp] theorem raise_opD (e : Event) (s : State) : (raise e s).opD = s.opD := rfl
@[simp] theorem raise_res (e : Event) (s : State) : (raise e s).res = s.res := rfl
@[simp] theorem raise_fsActive (e : Event) (s : State) : (raise e s).fsActive = s.fsActive := rfl
@[simp] theorem raise_osActive (e : Event) (s : State) : (raise e s).osActive = s.osActive := rfl
@[simp] theorem raise_srChanged (e : Event) (s : State) : (raise e s).srChanged = s.srChanged := rfl
@[simp] theorem raise_voices (e : Event) (s : State) : (raise e s).voices = s.voices := rfl
@[simp] theorem raise_outq (e : Event) (s : State) : (raise e s).outq = s.outq := rfl
@[simp] theorem raise_hist (e : Event) (s : State) : (raise e s).hist = s.hist := rfl
@[simp] theorem raise_inbox (e : Event) (s : State) : (raise e s).inbox = s.inbox := rfl
@[simp] theorem raise_readData (e : Event) (s : State) : (raise e s).readData = s.readData := rfl

/-! ## clearStatus -/

@[simp] theorem clearStatus_flags (d : Word) (s : State) : (clearStatus d s).flags = s.flags &&& ~~~(d.extractLsb' 0 8) := rfl
@[simp] theorem clearStatus_lastCode (d : Word) (s : State) : (clearStatus d s).lastCode = if s.flags &&& ~~~(d.extractLsb' 0 8) = 0 then 0 else s.lastCode := rfl
@[simp] theorem clearStatus_sampleRate (d : Word) (s : State) : (clearStatus d s).sampleRate = s.sampleRate := rfl
@[simp] theorem clearStatus_osFactor (d : Word) (s : State) : (clearStatus d s).osFactor = s.osFactor := rfl
@[simp] theorem clearStatus_channels (d : Word) (s : State) : (clearStatus d s).channels = s.channels := rfl
@[simp] theorem clearStatus_alg1 (d : Word) (s : State) : (clearStatus d s).alg1 = s.alg1 := rfl
@[simp] theorem clearStatus_alg2 (d : Word) (s : State) : (clearStatus d s).alg2 = s.alg2 := rfl
@[simp] theorem clearStatus_routing (d : Word) (s : State) : (clearStatus d s).routing = s.routing := rfl
@[simp] theorem clearStatus_window (d : Word) (s : State) : (clearStatus d s).window = s.window := rfl
@[simp] theorem clearStatus_auxMode (d : Word) (s : State) : (clearStatus d s).auxMode = s.auxMode := rfl
@[simp] theorem clearStatus_ratioIdx (d : Word) (s : State) : (clearStatus d s).ratioIdx = s.ratioIdx := rfl
@[simp] theorem clearStatus_amt1 (d : Word) (s : State) : (clearStatus d s).amt1 = s.amt1 := rfl
@[simp] theorem clearStatus_amt2 (d : Word) (s : State) : (clearStatus d s).amt2 = s.amt2 := rfl
@[simp] theorem clearStatus_depth (d : Word) (s : State) : (clearStatus d s).depth = s.depth := rfl
@[simp] theorem clearStatus_freq (d : Word) (s : State) : (clearStatus d s).freq = s.freq := rfl
@[simp] theorem clearStatus_extPm (d : Word) (s : State) : (clearStatus d s).extPm = s.extPm := rfl
@[simp] theorem clearStatus_outPri (d : Word) (s : State) : (clearStatus d s).outPri = s.outPri := rfl
@[simp] theorem clearStatus_outAux (d : Word) (s : State) : (clearStatus d s).outAux = s.outAux := rfl
@[simp] theorem clearStatus_outChannels (d : Word) (s : State) : (clearStatus d s).outChannels = s.outChannels := rfl
@[simp] theorem clearStatus_opA (d : Word) (s : State) : (clearStatus d s).opA = s.opA := rfl
@[simp] theorem clearStatus_opB (d : Word) (s : State) : (clearStatus d s).opB = s.opB := rfl
@[simp] theorem clearStatus_opC (d : Word) (s : State) : (clearStatus d s).opC = s.opC := rfl
@[simp] theorem clearStatus_opD (d : Word) (s : State) : (clearStatus d s).opD = s.opD := rfl
@[simp] theorem clearStatus_res (d : Word) (s : State) : (clearStatus d s).res = s.res := rfl
@[simp] theorem clearStatus_fsActive (d : Word) (s : State) : (clearStatus d s).fsActive = s.fsActive := rfl
@[simp] theorem clearStatus_osActive (d : Word) (s : State) : (clearStatus d s).osActive = s.osActive := rfl
@[simp] theorem clearStatus_srChanged (d : Word) (s : State) : (clearStatus d s).srChanged = s.srChanged := rfl
@[simp] theorem clearStatus_voices (d : Word) (s : State) : (clearStatus d s).voices = s.voices := rfl
@[simp] theorem clearStatus_outq (d : Word) (s : State) : (clearStatus d s).outq = s.outq := rfl
@[simp] theorem clearStatus_hist (d : Word) (s : State) : (clearStatus d s).hist = s.hist := rfl
@[simp] theorem clearStatus_inbox (d : Word) (s : State) : (clearStatus d s).inbox = s.inbox := rfl
@[simp] theorem clearStatus_readData (d : Word) (s : State) : (clearStatus d s).readData = s.readData := rfl

/-! ## setVoice -/

@[simp] theorem setVoice_flags (s : State) (v : VoiceIdx) (x : Voice) : (setVoice s v x).flags = s.flags := rfl
@[simp] theorem setVoice_lastCode (s : State) (v : VoiceIdx) (x : Voice) : (setVoice s v x).lastCode = s.lastCode := rfl
@[simp] theorem setVoice_sampleRate (s : State) (v : VoiceIdx) (x : Voice) : (setVoice s v x).sampleRate = s.sampleRate := rfl
@[simp] theorem setVoice_osFactor (s : State) (v : VoiceIdx) (x : Voice) : (setVoice s v x).osFactor = s.osFactor := rfl
@[simp] theorem setVoice_channels (s : State) (v : VoiceIdx) (x : Voice) : (setVoice s v x).channels = s.channels := rfl
@[simp] theorem setVoice_alg1 (s : State) (v : VoiceIdx) (x : Voice) : (setVoice s v x).alg1 = s.alg1 := rfl
@[simp] theorem setVoice_alg2 (s : State) (v : VoiceIdx) (x : Voice) : (setVoice s v x).alg2 = s.alg2 := rfl
@[simp] theorem setVoice_routing (s : State) (v : VoiceIdx) (x : Voice) : (setVoice s v x).routing = s.routing := rfl
@[simp] theorem setVoice_window (s : State) (v : VoiceIdx) (x : Voice) : (setVoice s v x).window = s.window := rfl
@[simp] theorem setVoice_auxMode (s : State) (v : VoiceIdx) (x : Voice) : (setVoice s v x).auxMode = s.auxMode := rfl
@[simp] theorem setVoice_ratioIdx (s : State) (v : VoiceIdx) (x : Voice) : (setVoice s v x).ratioIdx = s.ratioIdx := rfl
@[simp] theorem setVoice_amt1 (s : State) (v : VoiceIdx) (x : Voice) : (setVoice s v x).amt1 = s.amt1 := rfl
@[simp] theorem setVoice_amt2 (s : State) (v : VoiceIdx) (x : Voice) : (setVoice s v x).amt2 = s.amt2 := rfl
@[simp] theorem setVoice_depth (s : State) (v : VoiceIdx) (x : Voice) : (setVoice s v x).depth = s.depth := rfl
@[simp] theorem setVoice_freq (s : State) (v : VoiceIdx) (x : Voice) : (setVoice s v x).freq = s.freq := rfl
@[simp] theorem setVoice_extPm (s : State) (v : VoiceIdx) (x : Voice) : (setVoice s v x).extPm = s.extPm := rfl
@[simp] theorem setVoice_outPri (s : State) (v : VoiceIdx) (x : Voice) : (setVoice s v x).outPri = s.outPri := rfl
@[simp] theorem setVoice_outAux (s : State) (v : VoiceIdx) (x : Voice) : (setVoice s v x).outAux = s.outAux := rfl
@[simp] theorem setVoice_outChannels (s : State) (v : VoiceIdx) (x : Voice) : (setVoice s v x).outChannels = s.outChannels := rfl
@[simp] theorem setVoice_opA (s : State) (v : VoiceIdx) (x : Voice) : (setVoice s v x).opA = s.opA := rfl
@[simp] theorem setVoice_opB (s : State) (v : VoiceIdx) (x : Voice) : (setVoice s v x).opB = s.opB := rfl
@[simp] theorem setVoice_opC (s : State) (v : VoiceIdx) (x : Voice) : (setVoice s v x).opC = s.opC := rfl
@[simp] theorem setVoice_opD (s : State) (v : VoiceIdx) (x : Voice) : (setVoice s v x).opD = s.opD := rfl
@[simp] theorem setVoice_res (s : State) (v : VoiceIdx) (x : Voice) : (setVoice s v x).res = s.res := rfl
@[simp] theorem setVoice_fsActive (s : State) (v : VoiceIdx) (x : Voice) : (setVoice s v x).fsActive = s.fsActive := rfl
@[simp] theorem setVoice_osActive (s : State) (v : VoiceIdx) (x : Voice) : (setVoice s v x).osActive = s.osActive := rfl
@[simp] theorem setVoice_srChanged (s : State) (v : VoiceIdx) (x : Voice) : (setVoice s v x).srChanged = s.srChanged := rfl
@[simp] theorem setVoice_voices (s : State) (v : VoiceIdx) (x : Voice) : (setVoice s v x).voices = s.voices.set v x := rfl
@[simp] theorem setVoice_outq (s : State) (v : VoiceIdx) (x : Voice) : (setVoice s v x).outq = s.outq := rfl
@[simp] theorem setVoice_hist (s : State) (v : VoiceIdx) (x : Voice) : (setVoice s v x).hist = s.hist := rfl
@[simp] theorem setVoice_inbox (s : State) (v : VoiceIdx) (x : Voice) : (setVoice s v x).inbox = s.inbox := rfl
@[simp] theorem setVoice_readData (s : State) (v : VoiceIdx) (x : Voice) : (setVoice s v x).readData = s.readData := rfl

/-! ## setPhasor -/

@[simp] theorem setPhasor_flags (s : State) (v : VoiceIdx) (u : UnitIdx) (x : Phasor) : (setPhasor s v u x).flags = s.flags := rfl
@[simp] theorem setPhasor_lastCode (s : State) (v : VoiceIdx) (u : UnitIdx) (x : Phasor) : (setPhasor s v u x).lastCode = s.lastCode := rfl
@[simp] theorem setPhasor_sampleRate (s : State) (v : VoiceIdx) (u : UnitIdx) (x : Phasor) : (setPhasor s v u x).sampleRate = s.sampleRate := rfl
@[simp] theorem setPhasor_osFactor (s : State) (v : VoiceIdx) (u : UnitIdx) (x : Phasor) : (setPhasor s v u x).osFactor = s.osFactor := rfl
@[simp] theorem setPhasor_channels (s : State) (v : VoiceIdx) (u : UnitIdx) (x : Phasor) : (setPhasor s v u x).channels = s.channels := rfl
@[simp] theorem setPhasor_alg1 (s : State) (v : VoiceIdx) (u : UnitIdx) (x : Phasor) : (setPhasor s v u x).alg1 = s.alg1 := rfl
@[simp] theorem setPhasor_alg2 (s : State) (v : VoiceIdx) (u : UnitIdx) (x : Phasor) : (setPhasor s v u x).alg2 = s.alg2 := rfl
@[simp] theorem setPhasor_routing (s : State) (v : VoiceIdx) (u : UnitIdx) (x : Phasor) : (setPhasor s v u x).routing = s.routing := rfl
@[simp] theorem setPhasor_window (s : State) (v : VoiceIdx) (u : UnitIdx) (x : Phasor) : (setPhasor s v u x).window = s.window := rfl
@[simp] theorem setPhasor_auxMode (s : State) (v : VoiceIdx) (u : UnitIdx) (x : Phasor) : (setPhasor s v u x).auxMode = s.auxMode := rfl
@[simp] theorem setPhasor_ratioIdx (s : State) (v : VoiceIdx) (u : UnitIdx) (x : Phasor) : (setPhasor s v u x).ratioIdx = s.ratioIdx := rfl
@[simp] theorem setPhasor_amt1 (s : State) (v : VoiceIdx) (u : UnitIdx) (x : Phasor) : (setPhasor s v u x).amt1 = s.amt1 := rfl
@[simp] theorem setPhasor_amt2 (s : State) (v : VoiceIdx) (u : UnitIdx) (x : Phasor) : (setPhasor s v u x).amt2 = s.amt2 := rfl
@[simp] theorem setPhasor_depth (s : State) (v : VoiceIdx) (u : UnitIdx) (x : Phasor) : (setPhasor s v u x).depth = s.depth := rfl
@[simp] theorem setPhasor_freq (s : State) (v : VoiceIdx) (u : UnitIdx) (x : Phasor) : (setPhasor s v u x).freq = s.freq := rfl
@[simp] theorem setPhasor_extPm (s : State) (v : VoiceIdx) (u : UnitIdx) (x : Phasor) : (setPhasor s v u x).extPm = s.extPm := rfl
@[simp] theorem setPhasor_outPri (s : State) (v : VoiceIdx) (u : UnitIdx) (x : Phasor) : (setPhasor s v u x).outPri = s.outPri := rfl
@[simp] theorem setPhasor_outAux (s : State) (v : VoiceIdx) (u : UnitIdx) (x : Phasor) : (setPhasor s v u x).outAux = s.outAux := rfl
@[simp] theorem setPhasor_outChannels (s : State) (v : VoiceIdx) (u : UnitIdx) (x : Phasor) : (setPhasor s v u x).outChannels = s.outChannels := rfl
@[simp] theorem setPhasor_opA (s : State) (v : VoiceIdx) (u : UnitIdx) (x : Phasor) : (setPhasor s v u x).opA = s.opA := rfl
@[simp] theorem setPhasor_opB (s : State) (v : VoiceIdx) (u : UnitIdx) (x : Phasor) : (setPhasor s v u x).opB = s.opB := rfl
@[simp] theorem setPhasor_opC (s : State) (v : VoiceIdx) (u : UnitIdx) (x : Phasor) : (setPhasor s v u x).opC = s.opC := rfl
@[simp] theorem setPhasor_opD (s : State) (v : VoiceIdx) (u : UnitIdx) (x : Phasor) : (setPhasor s v u x).opD = s.opD := rfl
@[simp] theorem setPhasor_res (s : State) (v : VoiceIdx) (u : UnitIdx) (x : Phasor) : (setPhasor s v u x).res = s.res := rfl
@[simp] theorem setPhasor_fsActive (s : State) (v : VoiceIdx) (u : UnitIdx) (x : Phasor) : (setPhasor s v u x).fsActive = s.fsActive := rfl
@[simp] theorem setPhasor_osActive (s : State) (v : VoiceIdx) (u : UnitIdx) (x : Phasor) : (setPhasor s v u x).osActive = s.osActive := rfl
@[simp] theorem setPhasor_srChanged (s : State) (v : VoiceIdx) (u : UnitIdx) (x : Phasor) : (setPhasor s v u x).srChanged = s.srChanged := rfl
@[simp] theorem setPhasor_voices (s : State) (v : VoiceIdx) (u : UnitIdx) (x : Phasor) : (setPhasor s v u x).voices = s.voices.set v { getVoice s v with ph := (getVoice s v).ph.set u x } := rfl
@[simp] theorem setPhasor_outq (s : State) (v : VoiceIdx) (u : UnitIdx) (x : Phasor) : (setPhasor s v u x).outq = s.outq := rfl
@[simp] theorem setPhasor_hist (s : State) (v : VoiceIdx) (u : UnitIdx) (x : Phasor) : (setPhasor s v u x).hist = s.hist := rfl
@[simp] theorem setPhasor_inbox (s : State) (v : VoiceIdx) (u : UnitIdx) (x : Phasor) : (setPhasor s v u x).inbox = s.inbox := rfl
@[simp] theorem setPhasor_readData (s : State) (v : VoiceIdx) (u : UnitIdx) (x : Phasor) : (setPhasor s v u x).readData = s.readData := rfl

/-! ## setSmoother -/

@[simp] theorem setSmoother_flags (s : State) (v : VoiceIdx) (u : UnitIdx) (x : Smoother) : (setSmoother s v u x).flags = s.flags := rfl
@[simp] theorem setSmoother_lastCode (s : State) (v : VoiceIdx) (u : UnitIdx) (x : Smoother) : (setSmoother s v u x).lastCode = s.lastCode := rfl
@[simp] theorem setSmoother_sampleRate (s : State) (v : VoiceIdx) (u : UnitIdx) (x : Smoother) : (setSmoother s v u x).sampleRate = s.sampleRate := rfl
@[simp] theorem setSmoother_osFactor (s : State) (v : VoiceIdx) (u : UnitIdx) (x : Smoother) : (setSmoother s v u x).osFactor = s.osFactor := rfl
@[simp] theorem setSmoother_channels (s : State) (v : VoiceIdx) (u : UnitIdx) (x : Smoother) : (setSmoother s v u x).channels = s.channels := rfl
@[simp] theorem setSmoother_alg1 (s : State) (v : VoiceIdx) (u : UnitIdx) (x : Smoother) : (setSmoother s v u x).alg1 = s.alg1 := rfl
@[simp] theorem setSmoother_alg2 (s : State) (v : VoiceIdx) (u : UnitIdx) (x : Smoother) : (setSmoother s v u x).alg2 = s.alg2 := rfl
@[simp] theorem setSmoother_routing (s : State) (v : VoiceIdx) (u : UnitIdx) (x : Smoother) : (setSmoother s v u x).routing = s.routing := rfl
@[simp] theorem setSmoother_window (s : State) (v : VoiceIdx) (u : UnitIdx) (x : Smoother) : (setSmoother s v u x).window = s.window := rfl
@[simp] theorem setSmoother_auxMode (s : State) (v : VoiceIdx) (u : UnitIdx) (x : Smoother) : (setSmoother s v u x).auxMode = s.auxMode := rfl
@[simp] theorem setSmoother_ratioIdx (s : State) (v : VoiceIdx) (u : UnitIdx) (x : Smoother) : (setSmoother s v u x).ratioIdx = s.ratioIdx := rfl
@[simp] theorem setSmoother_amt1 (s : State) (v : VoiceIdx) (u : UnitIdx) (x : Smoother) : (setSmoother s v u x).amt1 = s.amt1 := rfl
@[simp] theorem setSmoother_amt2 (s : State) (v : VoiceIdx) (u : UnitIdx) (x : Smoother) : (setSmoother s v u x).amt2 = s.amt2 := rfl
@[simp] theorem setSmoother_depth (s : State) (v : VoiceIdx) (u : UnitIdx) (x : Smoother) : (setSmoother s v u x).depth = s.depth := rfl
@[simp] theorem setSmoother_freq (s : State) (v : VoiceIdx) (u : UnitIdx) (x : Smoother) : (setSmoother s v u x).freq = s.freq := rfl
@[simp] theorem setSmoother_extPm (s : State) (v : VoiceIdx) (u : UnitIdx) (x : Smoother) : (setSmoother s v u x).extPm = s.extPm := rfl
@[simp] theorem setSmoother_outPri (s : State) (v : VoiceIdx) (u : UnitIdx) (x : Smoother) : (setSmoother s v u x).outPri = s.outPri := rfl
@[simp] theorem setSmoother_outAux (s : State) (v : VoiceIdx) (u : UnitIdx) (x : Smoother) : (setSmoother s v u x).outAux = s.outAux := rfl
@[simp] theorem setSmoother_outChannels (s : State) (v : VoiceIdx) (u : UnitIdx) (x : Smoother) : (setSmoother s v u x).outChannels = s.outChannels := rfl
@[simp] theorem setSmoother_opA (s : State) (v : VoiceIdx) (u : UnitIdx) (x : Smoother) : (setSmoother s v u x).opA = s.opA := rfl
@[simp] theorem setSmoother_opB (s : State) (v : VoiceIdx) (u : UnitIdx) (x : Smoother) : (setSmoother s v u x).opB = s.opB := rfl
@[simp] theorem setSmoother_opC (s : State) (v : VoiceIdx) (u : UnitIdx) (x : Smoother) : (setSmoother s v u x).opC = s.opC := rfl
@[simp] theorem setSmoother_opD (s : State) (v : VoiceIdx) (u : UnitIdx) (x : Smoother) : (setSmoother s v u x).opD = s.opD := rfl
@[simp] theorem setSmoother_res (s : State) (v : VoiceIdx) (u : UnitIdx) (x : Smoother) : (setSmoother s v u x).res = s.res := rfl
@[simp] theorem setSmoother_fsActive (s : State) (v : VoiceIdx) (u : UnitIdx) (x : Smoother) : (setSmoother s v u x).fsActive = s.fsActive := rfl
@[simp] theorem setSmoother_osActive (s : State) (v : VoiceIdx) (u : UnitIdx) (x : Smoother) : (setSmoother s v u x).osActive = s.osActive := rfl
@[simp] theorem setSmoother_srChanged (s : State) (v : VoiceIdx) (u : UnitIdx) (x : Smoother) : (setSmoother s v u x).srChanged = s.srChanged := rfl
@[simp] theorem setSmoother_voices (s : State) (v : VoiceIdx) (u : UnitIdx) (x : Smoother) : (setSmoother s v u x).voices = s.voices.set v { getVoice s v with sm := (getVoice s v).sm.set u x } := rfl
@[simp] theorem setSmoother_outq (s : State) (v : VoiceIdx) (u : UnitIdx) (x : Smoother) : (setSmoother s v u x).outq = s.outq := rfl
@[simp] theorem setSmoother_hist (s : State) (v : VoiceIdx) (u : UnitIdx) (x : Smoother) : (setSmoother s v u x).hist = s.hist := rfl
@[simp] theorem setSmoother_inbox (s : State) (v : VoiceIdx) (u : UnitIdx) (x : Smoother) : (setSmoother s v u x).inbox = s.inbox := rfl
@[simp] theorem setSmoother_readData (s : State) (v : VoiceIdx) (u : UnitIdx) (x : Smoother) : (setSmoother s v u x).readData = s.readData := rfl

/-! ## setPmq -/

@[simp] theorem setPmq_flags (s : State) (v : VoiceIdx) (q : Ring F32) : (setPmq s v q).flags = s.flags := rfl
@[simp] theorem setPmq_lastCode (s : State) (v : VoiceIdx) (q : Ring F32) : (setPmq s v q).lastCode = s.lastCode := rfl
@[simp] theorem setPmq_sampleRate (s : State) (v : VoiceIdx) (q : Ring F32) : (setPmq s v q).sampleRate = s.sampleRate := rfl
@[simp] theorem setPmq_osFactor (s : State) (v : VoiceIdx) (q : Ring F32) : (setPmq s v q).osFactor = s.osFactor := rfl
@[simp] theorem setPmq_channels (s : State) (v : VoiceIdx) (q : Ring F32) : (setPmq s v q).channels = s.channels := rfl
@[simp] theorem setPmq_alg1 (s : State) (v : VoiceIdx) (q : Ring F32) : (setPmq s v q).alg1 = s.alg1 := rfl
@[simp] theorem setPmq_alg2 (s : State) (v : VoiceIdx) (q : Ring F32) : (setPmq s v q).alg2 = s.alg2 := rfl
@[simp] theorem setPmq_routing (s : State) (v : VoiceIdx) (q : Ring F32) : (setPmq s v q).routing = s.routing := rfl
@[simp] theorem setPmq_window (s : State) (v : VoiceIdx) (q : Ring F32) : (setPmq s v q).window = s.window := rfl
@[simp] theorem setPmq_auxMode (s : State) (v : VoiceIdx) (q : Ring F32) : (setPmq s v q).auxMode = s.auxMode := rfl
@[simp] theorem setPmq_ratioIdx (s : State) (v : VoiceIdx) (q : Ring F32) : (setPmq s v q).ratioIdx = s.ratioIdx := rfl
@[simp] theorem setPmq_amt1 (s : State) (v : VoiceIdx) (q : Ring F32) : (setPmq s v q).amt1 = s.amt1 := rfl
@[simp] theorem setPmq_amt2 (s : State) (v : VoiceIdx) (q : Ring F32) : (setPmq s v q).amt2 = s.amt2 := rfl
@[simp] theorem setPmq_depth (s : State) (v : VoiceIdx) (q : Ring F32) : (setPmq s v q).depth = s.depth := rfl
@[simp] theorem setPmq_freq (s : State) (v : VoiceIdx) (q : Ring F32) : (setPmq s v q).freq = s.freq := rfl
@[simp] theorem setPmq_extPm (s : State) (v : VoiceIdx) (q : Ring F32) : (setPmq s v q).extPm = s.extPm := rfl
@[simp] theorem setPmq_outPri (s : State) (v : VoiceIdx) (q : Ring F32) : (setPmq s v q).outPri = s.outPri := rfl
@[simp] theorem setPmq_outAux (s : State) (v : VoiceIdx) (q : Ring F32) : (setPmq s v q).outAux = s.outAux := rfl
@[simp] theorem setPmq_outChannels (s : State) (v : VoiceIdx) (q : Ring F32) : (setPmq s v q).outChannels = s.outChannels := rfl
@[simp] theorem setPmq_opA (s : State) (v : VoiceIdx) (q : Ring F32) : (setPmq s v q).opA = s.opA := rfl
@[simp] theorem setPmq_opB (s : State) (v : VoiceIdx) (q : Ring F32) : (setPmq s v q).opB = s.opB := rfl
@[simp] theorem setPmq_opC (s : State) (v : VoiceIdx) (q : Ring F32) : (setPmq s v q).opC = s.opC := rfl
@[simp] theorem setPmq_opD (s : State) (v : VoiceIdx) (q : Ring F32) : (setPmq s v q).opD = s.opD := rfl
@[simp] theorem setPmq_res (s : State) (v : VoiceIdx) (q : Ring F32) : (setPmq s v q).res = s.res := rfl
@[simp] theorem setPmq_fsActive (s : State) (v : VoiceIdx) (q : Ring F32) : (setPmq s v q).fsActive = s.fsActive := rfl
@[simp] theorem setPmq_osActive (s : State) (v : VoiceIdx) (q : Ring F32) : (setPmq s v q).osActive = s.osActive := rfl
@[simp] theorem setPmq_srChanged (s : State) (v : VoiceIdx) (q : Ring F32) : (setPmq s v q).srChanged = s.srChanged := rfl
@[simp] theorem setPmq_voices (s : State) (v : VoiceIdx) (q : Ring F32) : (setPmq s v q).voices = s.voices.set v { getVoice s v with pmq := q } := rfl
@[simp] theorem setPmq_outq (s : State) (v : VoiceIdx) (q : Ring F32) : (setPmq s v q).outq = s.outq := rfl
@[simp] theorem setPmq_hist (s : State) (v : VoiceIdx) (q : Ring F32) : (setPmq s v q).hist = s.hist := rfl
@[simp] theorem setPmq_inbox (s : State) (v : VoiceIdx) (q : Ring F32) : (setPmq s v q).inbox = s.inbox := rfl
@[simp] theorem setPmq_readData (s : State) (v : VoiceIdx) (q : Ring F32) : (setPmq s v q).readData = s.readData := rfl

/-! ## setRes -/

@[simp] theorem setRes_flags (s : State) (r : Vector F32 4) : (setRes s r).flags = s.flags := rfl
@[simp] theorem setRes_lastCode (s : State) (r : Vector F32 4) : (setRes s r).lastCode = s.lastCode := rfl
@[simp] theorem setRes_sampleRate (s : State) (r : Vector F32 4) : (setRes s r).sampleRate = s.sampleRate := rfl
@[simp] theorem setRes_osFactor (s : State) (r : Vector F32 4) : (setRes s r).osFactor = s.osFactor := rfl
@[simp] theorem setRes_channels (s : State) (r : Vector F32 4) : (setRes s r).channels = s.channels := rfl
@[simp] theorem setRes_alg1 (s : State) (r : Vector F32 4) : (setRes s r).alg1 = s.alg1 := rfl
@[simp] theorem setRes_alg2 (s : State) (r : Vector F32 4) : (setRes s r).alg2 = s.alg2 := rfl
@[simp] theorem setRes_routing (s : State) (r : Vector F32 4) : (setRes s r).routing = s.routing := rfl
@[simp] theorem setRes_window (s : State) (r : Vector F32 4) : (setRes s r).window = s.window := rfl
@[simp] theorem setRes_auxMode (s : State) (r : Vector F32 4) : (setRes s r).auxMode = s.auxMode := rfl
@[simp] theorem setRes_ratioIdx (s : State) (r : Vector F32 4) : (setRes s r).ratioIdx = s.ratioIdx := rfl
@[simp] theorem setRes_amt1 (s : State) (r : Vector F32 4) : (setRes s r).amt1 = s.amt1 := rfl
@[simp] theorem setRes_amt2 (s : State) (r : Vector F32 4) : (setRes s r).amt2 = s.amt2 := rfl
@[simp] theorem setRes_depth (s : State) (r : Vector F32 4) : (setRes s r).depth = s.depth := rfl
@[simp] theorem setRes_freq (s : State) (r : Vector F32 4) : (setRes s r).freq = s.freq := rfl
@[simp] theorem setRes_extPm (s : State) (r : Vector F32 4) : (setRes s r).extPm = s.extPm := rfl
@[simp] theorem setRes_outPri (s : State) (r : Vector F32 4) : (setRes s r).outPri = s.outPri := rfl
@[simp] theorem setRes_outAux (s : State) (r : Vector F32 4) : (setRes s r).outAux = s.outAux := rfl
@[simp] theorem setRes_outChannels (s : State) (r : Vector F32 4) : (setRes s r).outChannels = s.outChannels := rfl
@[simp] theorem setRes_opA (s : State) (r : Vector F32 4) : (setRes s r).opA = s.opA := rfl
@[simp] theorem setRes_opB (s : State) (r : Vector F32 4) : (setRes s r).opB = s.opB := rfl
@[simp] theorem setRes_opC (s : State) (r : Vector F32 4) : (setRes s r).opC = s.opC := rfl
@[simp] theorem setRes_opD (s : State) (r : Vector F32 4) : (setRes s r).opD = s.opD := rfl
@[simp] theorem setRes_res (s : State) (r : Vector F32 4) : (setRes s r).res = r := rfl
@[simp] theorem setRes_fsActive (s : State) (r : Vector F32 4) : (setRes s r).fsActive = s.fsActive := rfl
@[simp] theorem setRes_osActive (s : State) (r : Vector F32 4) : (setRes s r).osActive = s.osActive := rfl
@[simp] theorem setRes_srChanged (s : State) (r : Vector F32 4) : (setRes s r).srChanged = s.srChanged := rfl
@[simp] theorem setRes_voices (s : State) (r : Vector F32 4) : (setRes s r).voices = s.voices := rfl
@[simp] theorem setRes_outq (s : State) (r : Vector F32 4) : (setRes s r).outq = s.outq := rfl
@[simp] theorem setRes_hist (s : State) (r : Vector F32 4) : (setRes s r).hist = s.hist := rfl
@[simp] theorem setRes_inbox (s : State) (r : Vector F32 4) : (setRes s r).inbox = s.inbox := rfl
@[simp] theorem setRes_readData (s : State) (r : Vector F32 4) : (setRes s r).readData = s.readData := rfl

/-! ## setRes0 -/

@[simp] theorem setRes0_flags (s : State) (x : F32) : (setRes0 s x).flags = s.flags := rfl
@[simp] theorem setRes0_lastCode (s : State) (x : F32) : (setRes0 s x).lastCode = s.lastCode := rfl
@[simp] theorem setRes0_sampleRate (s : State) (x : F32) : (setRes0 s x).sampleRate = s.sampleRate := rfl
@[simp] theorem setRes0_osFactor (s : State) (x : F32) : (setRes0 s x).osFactor = s.osFactor := rfl
@[simp] theorem setRes0_channels (s : State) (x : F32) : (setRes0 s x).channels = s.channels := rfl
@[simp] theorem setRes0_alg1 (s : State) (x : F32) : (setRes0 s x).alg1 = s.alg1 := rfl
@[simp] theorem setRes0_alg2 (s : State) (x : F32) : (setRes0 s x).alg2 = s.alg2 := rfl
@[simp] theorem setRes0_routing (s : State) (x : F32) : (setRes0 s x).routing = s.routing := rfl
@[simp] theorem setRes0_window (s : State) (x : F32) : (setRes0 s x).window = s.window := rfl
@[simp] theorem setRes0_auxMode (s : State) (x : F32) : (setRes0 s x).auxMode = s.auxMode := rfl
@[simp] theorem setRes0_ratioIdx (s : State) (x : F32) : (setRes0 s x).ratioIdx = s.ratioIdx := rfl
@[simp] theorem setRes0_amt1 (s : State) (x : F32) : (setRes0 s x).amt1 = s.amt1 := rfl
@[simp] theorem setRes0_amt2 (s : State) (x : F32) : (setRes0 s x).amt2 = s.amt2 := rfl
@[simp] theorem setRes0_depth (s : State) (x : F32) : (setRes0 s x).depth = s.depth := rfl
@[simp] theorem setRes0_freq (s : State) (x : F32) : (setRes0 s x).freq = s.freq := rfl
@[simp] theorem setRes0_extPm (s : State) (x : F32) : (setRes0 s x).extPm = s.extPm := rfl
@[simp] theorem setRes0_outPri (s : State) (x : F32) : (setRes0 s x).outPri = s.outPri := rfl
@[simp] theorem setRes0_outAux (s : State) (x : F32) : (setRes0 s x).outAux = s.outAux := rfl
@[simp] theorem setRes0_outChannels (s : State) (x : F32) : (setRes0 s x).outChannels = s.outChannels := rfl
@[simp] theorem setRes0_opA (s : State) (x : F32) : (setRes0 s x).opA = s.opA := rfl
@[simp] theorem setRes0_opB (s : State) (x : F32) : (setRes0 s x).opB = s.opB := rfl
@[simp] theorem setRes0_opC (s : State) (x : F32) : (setRes0 s x).opC = s.opC := rfl
@[simp] theorem setRes0_opD (s : State) (x : F32) : (setRes0 s x).opD = s.opD := rfl
@[simp] theorem setRes0_res (s : State) (x : F32) : (setRes0 s x).res = s.res.set 0 x := rfl
@[simp] theorem setRes0_fsActive (s : State) (x : F32) : (setRes0 s x).fsActive = s.fsActive := rfl
@[simp] theorem setRes0_osActive (s : State) (x : F32) : (setRes0 s x).osActive = s.osActive := rfl
@[simp] theorem setRes0_srChanged (s : State) (x : F32) : (setRes0 s x).srChanged = s.srChanged := rfl
@[simp] theorem setRes0_voices (s : State) (x : F32) : (setRes0 s x).voices = s.voices := rfl
@[simp] theorem setRes0_outq (s : State) (x : F32) : (setRes0 s x).outq = s.outq := rfl
@[simp] theorem setRes0_hist (s : State) (x : F32) : (setRes0 s x).hist = s.hist := rfl
@[simp] theorem setRes0_inbox (s : State) (x : F32) : (setRes0 s x).inbox = s.inbox := rfl
@[simp] theorem setRes0_readData (s : State) (x : F32) : (setRes0 s x).readData = s.readData := rfl

/-! ## mapVoices -/

@[simp] theorem mapVoices_flags (f : Voice → Voice) (s : State) : (mapVoices f s).flags = s.flags := by unfold mapVoices; rfl
@[simp] theorem mapVoices_lastCode (f : Voice → Voice) (s : State) : (mapVoices f s).lastCode = s.lastCode := by unfold mapVoices; rfl
@[simp] theorem mapVoices_sampleRate (f : Voice → Voice) (s : State) : (mapVoices f s).sampleRate = s.sampleRate := by unfold mapVoices; rfl
@[simp] theorem mapVoices_osFactor (f : Voice → Voice) (s : State) : (mapVoices f s).osFactor = s.osFactor := by unfold mapVoices; rfl
@[simp] theorem mapVoices_channels (f : Voice → Voice) (s : State) : (mapVoices f s).channels = s.channels := by unfold mapVoices; rfl
@[simp] theorem mapVoices_alg1 (f : Voice → Voice) (s : State) : (mapVoices f s).alg1 = s.alg1 := by unfold mapVoices; rfl
@[simp] theorem mapVoices_alg2 (f : Voice → Voice) (s : State) : (mapVoices f s).alg2 = s.alg2 := by unfold mapVoices; rfl
@[simp] theorem mapVoices_routing (f : Voice → Voice) (s : State) : (mapVoices f s).routing = s.routing := by unfold mapVoices; rfl
@[simp] theorem mapVoices_window (f : Voice → Voice) (s : State) : (mapVoices f s).window = s.window := by unfold mapVoices; rfl
@[simp] theorem mapVoices_auxMode (f : Voice → Voice) (s : State) : (mapVoices f s).auxMode = s.auxMode := by unfold mapVoices; rfl
@[simp] theorem mapVoices_ratioIdx (f : Voice → Voice) (s : State) : (mapVoices f s).ratioIdx = s.ratioIdx := by unfold mapVoices; rfl
@[simp] theorem mapVoices_amt1 (f : Voice → Voice) (s : State) : (mapVoices f s).amt1 = s.amt1 := by unfold mapVoices; rfl
@[simp] theorem mapVoices_amt2 (f : Voice → Voice) (s : State) : (mapVoices f s).amt2 = s.amt2 := by unfold mapVoices; rfl
@[simp] theorem mapVoices_depth (f : Voice → Voice) (s : State) : (mapVoices f s).depth = s.depth := by unfold mapVoices; rfl
@[simp] theorem mapVoices_freq (f : Voice → Voice) (s : State) : (mapVoices f s).freq = s.freq := by unfold mapVoices; rfl
@[simp] theorem mapVoices_extPm (f : Voice → Voice) (s : State) : (mapVoices f s).extPm = s.extPm := by unfold mapVoices; rfl
@[simp] theorem mapVoices_outPri (f : Voice → Voice) (s : State) : (mapVoices f s).outPri = s.outPri := by unfold mapVoices; rfl
@[simp] theorem mapVoices_outAux (f : Voice → Voice) (s : State) : (mapVoices f s).outAux = s.outAux := by unfold mapVoices; rfl
@[simp] theorem mapVoices_outChannels (f : Voice → Voice) (s : State) : (mapVoices f s).outChannels = s.outChannels := by unfold mapVoices; rfl
@[simp] theorem mapVoices_opA (f : Voice → Voice) (s : State) : (mapVoices f s).opA = s.opA := by unfold mapVoices; rfl
@[simp] theorem mapVoices_opB (f : Voice → Voice) (s : State) : (mapVoices f s).opB = s.opB := by unfold mapVoices; rfl
@[simp] theorem mapVoices_opC (f : Voice → Voice) (s : State) : (mapVoices f s).opC = s.opC := by unfold mapVoices; rfl
@[simp] theorem mapVoices_opD (f : Voice → Voice) (s : State) : (mapVoices f s).opD = s.opD := by unfold mapVoices; rfl
@[simp] theorem mapVoices_res (f : Voice → Voice) (s : State) : (mapVoices f s).res = s.res := by unfold mapVoices; rfl
@[simp] theorem mapVoices_fsActive (f : Voice → Voice) (s : State) : (mapVoices f s).fsActive = s.fsActive := by unfold mapVoices; rfl
@[simp] theorem mapVoices_osActive (f : Voice → Voice) (s : State) : (mapVoices f s).osActive = s.osActive := by unfold mapVoices; rfl
@[simp] theorem mapVoices_srChanged (f : Voice → Voice) (s : State) : (mapVoices f s).srChanged = s.srChanged := by unfold mapVoices; rfl
@[simp] theorem mapVoices_voices (f : Voice → Voice) (s : State) : (mapVoices f s).voices = mapVec f s.voices := by unfold mapVoices; rfl
@[simp] theorem mapVoices_outq (f : Voice → Voice) (s : State) : (mapVoices f s).outq = s.outq := by unfold mapVoices; rfl
@[simp] theorem mapVoices_hist (f : Voice → Voice) (s : State) : (mapVoices f s).hist = s.hist := by unfold mapVoices; rfl
@[simp] theorem mapVoices_inbox (f : Voice → Voice) (s : State) : (mapVoices f s).inbox = s.inbox := by unfold mapVoices; rfl
@[simp] theorem mapVoices_readData (f : Voice → Voice) (s : State) : (mapVoices f s).readData = s.readData := by unfold mapVoices; rfl

/-! ## clearBuffers -/

@[simp] theorem clearBuffers_flags (p : Params) (s : State) : (clearBuffers p s).flags = s.flags := by unfold clearBuffers; rfl
@[simp] theorem clearBuffers_lastCode (p : Params) (s : State) : (clearBuffers p s).lastCode = s.lastCode := by unfold clearBuffers; rfl
@[simp] theorem clearBuffers_sampleRate (p : Params) (s : State) : (clearBuffers p s).sampleRate = s.sampleRate := by unfold clearBuffers; rfl
@[simp] theorem clearBuffers_osFactor (p : Params) (s : State) : (clearBuffers p s).osFactor = s.osFactor := by unfold clearBuffers; rfl
@[simp] theorem clearBuffers_channels (p : Params) (s : State) : (clearBuffers p s).channels = s.channels := by unfold clearBuffers; rfl
@[simp] theorem clearBuffers_alg1 (p : Params) (s : State) : (clearBuffers p s).alg1 = s.alg1 := by unfold clearBuffers; rfl
@[simp] theorem clearBuffers_alg2 (p : Params) (s : State) : (clearBuffers p s).alg2 = s.alg2 := by unfold clearBuffers; rfl
@[simp] theorem clearBuffers_routing (p : Params) (s : State) : (clearBuffers p s).routing = s.routing := by unfold clearBuffers; rfl
@[simp] theorem clearBuffers_window (p : Params) (s : State) : (clearBuffers p s).window = s.window := by unfold clearBuffers; rfl
@[simp] theorem clearBuffers_auxMode (p : Params) (s : State) : (clearBuffers p s).auxMode = s.auxMode := by unfold clearBuffers; rfl
@[simp] theorem clearBuffers_ratioIdx (p : Params) (s : State) : (clearBuffers p s).ratioIdx = s.ratioIdx := by unfold clearBuffers; rfl
@[simp] theorem clearBuffers_amt1 (p : Params) (s : State) : (clearBuffers p s).amt1 = s.amt1 := by unfold clearBuffers; rfl
@[simp] theorem clearBuffers_amt2 (p : Params) (s : State) : (clearBuffers p s).amt2 = s.amt2 := by unfold clearBuffers; rfl
@[simp] theorem clearBuffers_depth (p : Params) (s : State) : (clearBuffers p s).depth = s.depth := by unfold clearBuffers; rfl
@[simp] theorem clearBuffers_freq (p : Params) (s : State) : (clearBuffers p s).freq = s.freq := by unfold clearBuffers; rfl
@[simp] theorem clearBuffers_extPm (p : Params) (s : State) : (clearBuffers p s).extPm = s.extPm := by unfold clearBuffers; rfl
@[simp] theorem clearBuffers_outPri (p : Params) (s : State) : (clearBuffers p s).outPri = s.outPri := by unfold clearBuffers; rfl
@[simp] theorem clearBuffers_outAux (p : Params) (s : State) : (clearBuffers p s).outAux = s.outAux := by unfold clearBuffers; rfl
@[simp] theorem clearBuffers_outChannels (p : Params) (s : State) : (clearBuffers p s).outChannels = s.outChannels := by unfold clearBuffers; rfl
@[simp] theorem clearBuffers_opA (p : Params) (s : State) : (clearBuffers p s).opA = s.opA := by unfold clearBuffers; rfl
@[simp] theorem clearBuffers_opB (p : Params) (s : State) : (clearBuffers p s).opB = s.opB := by unfold clearBuffers; rfl
@[simp] theorem clearBuffers_opC (p : Params) (s : State) : (clearBuffers p s).opC = s.opC := by unfold clearBuffers; rfl
@[simp] theorem clearBuffers_opD (p : Params) (s : State) : (clearBuffers p s).opD = s.opD := by unfold clearBuffers; rfl
@[simp] theorem clearBuffers_res (p : Params) (s : State) : (clearBuffers p s).res = s.res := by unfold clearBuffers; rfl
@[simp] theorem clearBuffers_fsActive (p : Params) (s : State) : (clearBuffers p s).fsActive = s.fsActive := by unfold clearBuffers; rfl
@[simp] theorem clearBuffers_osActive (p : Params) (s : State) : (clearBuffers p s).osActive = s.osActive := by unfold clearBuffers; rfl
@[simp] theorem clearBuffers_srChanged (p : Params) (s : State) : (clearBuffers p s).srChanged = s.srChanged := by unfold clearBuffers; rfl
@[simp] theorem clearBuffers_voices (p : Params) (s : State) : (clearBuffers p s).voices = mapVec (fun vo => { vo with pmq := ringClear vo.pmq }) s.voices := by unfold clearBuffers; rfl
@[simp] theorem clearBuffers_outq (p : Params) (s : State) : (clearBuffers p s).outq = ringClear s.outq := by unfold clearBuffers; rfl
@[simp] theorem clearBuffers_hist (p : Params) (s : State) : (clearBuffers p s).hist = Vector.replicate 32 (List.replicate (Units.histLen p s.osActive) Fp.posZero) := by unfold clearBuffers; rfl
@[simp] theorem clearBuffers_inbox (p : Params) (s : State) : (clearBuffers p s).inbox = s.inbox := by unfold clearBuffers; rfl
@[simp] theorem clearBuffers_readData (p : Params) (s : State) : (clearBuffers p s).readData = s.readData := by unfold clearBuffers; rfl

/-! ## issueNext -/

@[simp] theorem issueNext_flags (e : HostEvent) (s : State) : (issueNext e s).flags = s.flags := rfl
@[simp] theorem issueNext_lastCode (e : HostEvent) (s : State) : (issueNext e s).lastCode = s.lastCode := rfl
@[simp] theorem issueNext_sampleRate (e : HostEvent) (s : State) : (issueNext e s).sampleRate = s.sampleRate := rfl
@[simp] theorem issueNext_osFactor (e : HostEvent) (s : State) : (issueNext e s).osFactor = s.osFactor := rfl
@[simp] theorem issueNext_channels (e : HostEvent) (s : State) : (issueNext e s).channels = s.channels := rfl
@[simp] theorem issueNext_alg1 (e : HostEvent) (s : State) : (issueNext e s).alg1 = s.alg1 := rfl
@[simp] theorem issueNext_alg2 (e : HostEvent) (s : State) : (issueNext e s).alg2 = s.alg2 := rfl
@[simp] theorem issueNext_routing (e : HostEvent) (s : State) : (issueNext e s).routing = s.routing := rfl
@[simp] theorem issueNext_window (e : HostEvent) (s : State) : (issueNext e s).window = s.window := rfl
@[simp] theorem issueNext_auxMode (e : HostEvent) (s : State) : (issueNext e s).auxMode = s.auxMode := rfl
@[simp] theorem issueNext_ratioIdx (e : HostEvent) (s : State) : (issueNext e s).ratioIdx = s.ratioIdx := rfl
@[simp] theorem issueNext_amt1 (e : HostEvent) (s : State) : (issueNext e s).amt1 = s.amt1 := rfl
@[simp] theorem issueNext_amt2 (e : HostEvent) (s : State) : (issueNext e s).amt2 = s.amt2 := rfl
@[simp] theorem issueNext_depth (e : HostEvent) (s : State) : (issueNext e s).depth = s.depth := rfl
@[simp] theorem issueNext_freq (e : HostEvent) (s : State) : (issueNext e s).freq = s.freq := rfl
@[simp] theorem issueNext_extPm (e : HostEvent) (s : State) : (issueNext e s).extPm = s.extPm := rfl
@[simp] theorem issueNext_outPri (e : HostEvent) (s : State) : (issueNext e s).outPri = s.outPri := rfl
@[simp] theorem issueNext_outAux (e : HostEvent) (s : State) : (issueNext e s).outAux = s.outAux := rfl
@[simp] theorem issueNext_outChannels (e : HostEvent) (s : State) : (issueNext e s).outChannels = s.outChannels := rfl
@[simp] theorem issueNext_opA (e : HostEvent) (s : State) : (issueNext e s).opA = s.opA := rfl
@[simp] theorem issueNext_opB (e : HostEvent) (s : State) : (issueNext e s).opB = s.opB := rfl
@[simp] theorem issueNext_opC (e : HostEvent) (s : State) : (issueNext e s).opC = s.opC := rfl
@[simp] theorem issueNext_opD (e : HostEvent) (s : State) : (issueNext e s).opD = s.opD := rfl
@[simp] theorem issueNext_res (e : HostEvent) (s : State) : (issueNext e s).res = s.res := rfl
@[simp] theorem issueNext_fsActive (e : HostEvent) (s : State) : (issueNext e s).fsActive = s.fsActive := rfl
@[simp] theorem issueNext_osActive (e : HostEvent) (s : State) : (issueNext e s).osActive = s.osActive := rfl
@[simp] theorem issueNext_srChanged (e : HostEvent) (s : State) : (issueNext e s).srChanged = s.srChanged := rfl
@[simp] theorem issueNext_voices (e : HostEvent) (s : State) : (issueNext e s).voices = s.voices := rfl
@[simp] theorem issueNext_outq (e : HostEvent) (s : State) : (issueNext e s).outq = s.outq := rfl
@[simp] theorem issueNext_hist (e : HostEvent) (s : State) : (issueNext e s).hist = s.hist := rfl
@[simp] theorem issueNext_inbox (e : HostEvent) (s : State) : (issueNext e s).inbox = e :: s.inbox := rfl
@[simp] theorem issueNext_readData (e : HostEvent) (s : State) : (issueNext e s).readData = s.readData := rfl

end Sys2Proof.Machine
end

