-- ==== Sys2Proof/Laws/Access.lean ====
section
/-! SUPPORT. Laws/Access.lean: read after write for the units and rings of the voices: a write to one unit is read back from that
unit and leaves every other unit, ring and voice alone. -/

namespace Sys2Proof.Machine

open Sys2Proof.Config (Params)

/-! ## Vectors -/

theorem vec_get_set {α : Type} {n : Nat} (x : Vector α n) (i j : Fin n) (a : α) :
    (x.set i a)[j] = if j = i then a else x[j] := by
  by_cases h : j = i
  · subst h; simp
  · have : i.val ≠ j.val := fun e => h (Fin.ext e.symm)
    simp [h, this]

@[simp] theorem mapVec_get {α β : Type} {n : Nat} (f : α → β) (x : Vector α n) (i : Fin n) :
    (mapVec f x)[i] = f x[i] := by
  simp [mapVec]

/-! ## Voices -/

theorem getVoice_setVoice (s : State) (v w : VoiceIdx) (x : Voice) :
    getVoice (setVoice s v x) w = if w = v then x else getVoice s w :=
  vec_get_set s.voices v w x

@[simp] theorem getVoice_setVoice_same (s : State) (v : VoiceIdx) (x : Voice) : getVoice (setVoice s v x) v = x := by
  simp [getVoice_setVoice]

theorem getVoice_setVoice_other {s : State} {v w : VoiceIdx} {x : Voice} (h : w ≠ v) :
    getVoice (setVoice s v x) w = getVoice s w := by
  simp [getVoice_setVoice, h]

@[simp] theorem getVoice_mapVoices (f : Voice → Voice) (s : State) (v : VoiceIdx) :
    getVoice (mapVoices f s) v = f (getVoice s v) :=
  mapVec_get f s.voices v

theorem getVoice_congr {s t : State} (h : s.voices = t.voices) (v : VoiceIdx) : getVoice s v = getVoice t v := by
  simp only [getVoice, h]

theorem getPhasor_congr {s t : State} (h : s.voices = t.voices) (v : VoiceIdx) (u : UnitIdx) :
    getPhasor s v u = getPhasor t v u := by
  simp only [getPhasor, getVoice_congr h]

theorem getSmoother_congr {s t : State} (h : s.voices = t.voices) (v : VoiceIdx) (u : UnitIdx) :
    getSmoother s v u = getSmoother t v u := by
  simp only [getSmoother, getVoice_congr h]

theorem getPmq_congr {s t : State} (h : s.voices = t.voices) (v : VoiceIdx) : getPmq s v = getPmq t v := by
  simp only [getPmq, getVoice_congr h]

@[simp] theorem getVoice_raise (e : Event) (s : State) (v : VoiceIdx) : getVoice (raise e s) v = getVoice s v := rfl
@[simp] theorem getVoice_clearStatus (d : Word) (s : State) (v : VoiceIdx) :
    getVoice (clearStatus d s) v = getVoice s v := rfl
@[simp] theorem getVoice_setRes (s : State) (r : Vector F32 4) (v : VoiceIdx) : getVoice (setRes s r) v = getVoice s v := rfl
@[simp] theorem getVoice_setRes0 (s : State) (x : F32) (v : VoiceIdx) : getVoice (setRes0 s x) v = getVoice s v := rfl

/-! ## Phasors -/

theorem getPhasor_setPhasor (s : State) (v w : VoiceIdx) (u t : UnitIdx) (x : Phasor) :
    getPhasor (setPhasor s v u x) w t = if w = v ∧ t = u then x else getPhasor s w t := by
  unfold getPhasor setPhasor
  rw [getVoice_setVoice]
  by_cases h : w = v
  · subst h; simp only [if_pos, true_and]; exact vec_get_set _ u t x
  · simp [h]

@[simp] theorem getPhasor_setPhasor_same (s : State) (v : VoiceIdx) (u : UnitIdx) (x : Phasor) :
    getPhasor (setPhasor s v u x) v u = x := by
  simp [getPhasor_setPhasor]

@[simp] theorem getPhasor_setSmoother (s : State) (v w : VoiceIdx) (u t : UnitIdx) (x : Smoother) :
    getPhasor (setSmoother s v u x) w t = getPhasor s w t := by
  unfold getPhasor setSmoother
  rw [getVoice_setVoice]
  by_cases h : w = v
  · subst h; simp
  · simp [h]

@[simp] theorem getPhasor_setPmq (s : State) (v w : VoiceIdx) (t : UnitIdx) (q : Ring F32) :
    getPhasor (setPmq s v q) w t = getPhasor s w t := by
  unfold getPhasor setPmq
  rw [getVoice_setVoice]
  by_cases h : w = v
  · subst h; simp
  · simp [h]

@[simp] theorem getPhasor_mapVoices (f : Voice → Voice) (s : State) (v : VoiceIdx) (u : UnitIdx) :
    getPhasor (mapVoices f s) v u = (f (getVoice s v)).ph[u] := by
  simp only [getPhasor, getVoice_mapVoices]

@[simp] theorem getPhasor_raise (e : Event) (s : State) (v : VoiceIdx) (u : UnitIdx) :
    getPhasor (raise e s) v u = getPhasor s v u := rfl
@[simp] theorem getPhasor_clearStatus (d : Word) (s : State) (v : VoiceIdx) (u : UnitIdx) :
    getPhasor (clearStatus d s) v u = getPhasor s v u := rfl
@[simp] theorem getPhasor_setRes (s : State) (r : Vector F32 4) (v : VoiceIdx) (u : UnitIdx) :
    getPhasor (setRes s r) v u = getPhasor s v u := rfl
@[simp] theorem getPhasor_setRes0 (s : State) (x : F32) (v : VoiceIdx) (u : UnitIdx) :
    getPhasor (setRes0 s x) v u = getPhasor s v u := rfl

/-! ## Smoothers -/

theorem getSmoother_setSmoother (s : State) (v w : VoiceIdx) (u t : UnitIdx) (x : Smoother) :
    getSmoother (setSmoother s v u x) w t = if w = v ∧ t = u then x else getSmoother s w t := by
  unfold getSmoother setSmoother
  rw [getVoice_setVoice]
  by_cases h : w = v
  · subst h; simp only [if_pos, true_and]; exact vec_get_set _ u t x
  · simp [h]

@[simp] theorem getSmoother_setSmoother_same (s : State) (v : VoiceIdx) (u : UnitIdx) (x : Smoother) :
    getSmoother (setSmoother s v u x) v u = x := by
  simp [getSmoother_setSmoother]

@[simp] theorem getSmoother_setPhasor (s : State) (v w : VoiceIdx) (u t : UnitIdx) (x : Phasor) :
    getSmoother (setPhasor s v u x) w t = getSmoother s w t := by
  unfold getSmoother setPhasor
  rw [getVoice_setVoice]
  by_cases h : w = v
  · subst h; simp
  · simp [h]

@[simp] theorem getSmoother_setPmq (s : State) (v w : VoiceIdx) (t : UnitIdx) (q : Ring F32) :
    getSmoother (setPmq s v q) w t = getSmoother s w t := by
  unfold getSmoother setPmq
  rw [getVoice_setVoice]
  by_cases h : w = v
  · subst h; simp
  · simp [h]

@[simp] theorem getSmoother_mapVoices (f : Voice → Voice) (s : State) (v : VoiceIdx) (u : UnitIdx) :
    getSmoother (mapVoices f s) v u = (f (getVoice s v)).sm[u] := by
  simp only [getSmoother, getVoice_mapVoices]

@[simp] theorem getSmoother_raise (e : Event) (s : State) (v : VoiceIdx) (u : UnitIdx) :
    getSmoother (raise e s) v u = getSmoother s v u := rfl
@[simp] theorem getSmoother_clearStatus (d : Word) (s : State) (v : VoiceIdx) (u : UnitIdx) :
    getSmoother (clearStatus d s) v u = getSmoother s v u := rfl
@[simp] theorem getSmoother_setRes (s : State) (r : Vector F32 4) (v : VoiceIdx) (u : UnitIdx) :
    getSmoother (setRes s r) v u = getSmoother s v u := rfl
@[simp] theorem getSmoother_setRes0 (s : State) (x : F32) (v : VoiceIdx) (u : UnitIdx) :
    getSmoother (setRes0 s x) v u = getSmoother s v u := rfl

/-! ## External-PM rings -/

theorem getPmq_setPmq (s : State) (v w : VoiceIdx) (q : Ring F32) :
    getPmq (setPmq s v q) w = if w = v then q else getPmq s w := by
  unfold getPmq setPmq
  rw [getVoice_setVoice]
  by_cases h : w = v
  · simp [h]
  · simp [h]

@[simp] theorem getPmq_setPmq_same (s : State) (v : VoiceIdx) (q : Ring F32) : getPmq (setPmq s v q) v = q := by
  simp [getPmq_setPmq]

theorem getPmq_setPmq_other {s : State} {v w : VoiceIdx} {q : Ring F32} (h : w ≠ v) :
    getPmq (setPmq s v q) w = getPmq s w := by
  simp [getPmq_setPmq, h]

@[simp] theorem getPmq_setPhasor (s : State) (v w : VoiceIdx) (u : UnitIdx) (x : Phasor) :
    getPmq (setPhasor s v u x) w = getPmq s w := by
  unfold getPmq setPhasor
  rw [getVoice_setVoice]
  by_cases h : w = v
  · subst h; simp
  · simp [h]

@[simp] theorem getPmq_setSmoother (s : State) (v w : VoiceIdx) (u : UnitIdx) (x : Smoother) :
    getPmq (setSmoother s v u x) w = getPmq s w := by
  unfold getPmq setSmoother
  rw [getVoice_setVoice]
  by_cases h : w = v
  · subst h; simp
  · simp [h]

@[simp] theorem getPmq_mapVoices (f : Voice → Voice) (s : State) (v : VoiceIdx) :
    getPmq (mapVoices f s) v = (f (getVoice s v)).pmq := by
  simp only [getPmq, getVoice_mapVoices]

@[simp] theorem getPmq_raise (e : Event) (s : State) (v : VoiceIdx) : getPmq (raise e s) v = getPmq s v := rfl
@[simp] theorem getPmq_clearStatus (d : Word) (s : State) (v : VoiceIdx) : getPmq (clearStatus d s) v = getPmq s v := rfl
@[simp] theorem getPmq_setRes (s : State) (r : Vector F32 4) (v : VoiceIdx) : getPmq (setRes s r) v = getPmq s v := rfl
@[simp] theorem getPmq_setRes0 (s : State) (x : F32) (v : VoiceIdx) : getPmq (setRes0 s x) v = getPmq s v := rfl

/-- A clear empties the ring of a voice and keeps its units (44_ring_buffer.md R266; 46_engine.md R311). -/
theorem getVoice_clearBuffers (p : Params) (s : State) (v : VoiceIdx) :
    getVoice (clearBuffers p s) v = { getVoice s v with pmq := ringClear (getVoice s v).pmq } := by
  have h := clearBuffers_voices p s
  unfold getVoice
  rw [h]
  exact mapVec_get _ s.voices v

@[simp] theorem getPhasor_clearBuffers (p : Params) (s : State) (v : VoiceIdx) (u : UnitIdx) :
    getPhasor (clearBuffers p s) v u = getPhasor s v u := by
  simp only [getPhasor, getVoice_clearBuffers]

@[simp] theorem getSmoother_clearBuffers (p : Params) (s : State) (v : VoiceIdx) (u : UnitIdx) :
    getSmoother (clearBuffers p s) v u = getSmoother s v u := by
  simp only [getSmoother, getVoice_clearBuffers]

@[simp] theorem getPmq_clearBuffers (p : Params) (s : State) (v : VoiceIdx) :
    getPmq (clearBuffers p s) v = ringClear (getPmq s v) := by
  simp only [getPmq, getVoice_clearBuffers]

end Sys2Proof.Machine
end

