-- ==== Sys2Proof/Laws/Bus.lean ====
section
/-! SUPPORT. Laws/Bus.lean: the cases of a bus write, a bus read and a register write, and what a register write leaves alone. -/

namespace Sys2Proof.Machine

open Sys2Proof.Config (Params)

/-- A bus write is rejected with BUS_ERR, or is the write rule of a writable register (46_engine.md R314). -/
theorem busWrite_cases (p : Params) (a : BitVec 12) (w : Word) (s : State) :
    ((∀ r, regAt a = some r → readOnly r = true) ∧ busWrite p a w s = raise .busErr s)
    ∨ ∃ r, regAt a = some r ∧ readOnly r = false ∧ busWrite p a w s = writeReg p r w s := by
  unfold busWrite
  cases h : regAt a with
  | none => exact .inl ⟨fun r hr => by simp at hr, rfl⟩
  | some r =>
    by_cases hr : readOnly r = true
    · refine .inl ⟨fun r' h' => ?_, by simp [hr]⟩
      rw [← Option.some.inj h']; exact hr
    · have hr' : readOnly r = false := by simpa using hr
      exact .inr ⟨r, rfl, hr', by simp [hr']⟩

/-- A bus read is rejected with BUS_ERR and returns 0, or returns the value of a register (46_engine.md R315). -/
theorem busRead_cases (a : BitVec 12) (s : State) :
    (regAt a = none ∧ busRead a s = { raise .busErr s with readData := 0 })
    ∨ ∃ r, regAt a = some r ∧ busRead a s = { s with readData := readReg s r } := by
  unfold busRead
  cases regAt a with
  | none => exact .inl ⟨rfl, rfl⟩
  | some r => exact .inr ⟨r, rfl, rfl⟩

/-- A write to CMD is the command its word decodes to, or CMD_ILL (30_encoding.md R136). -/
theorem writeCommand_cases (p : Params) (w : Word) (s : State) :
    (∃ i, decodeCommand w = .ok i ∧ writeCommand p w s = runCommand p i s)
    ∨ (∃ e, decodeCommand w = .error e) ∧ writeCommand p w s = raise .cmdIll s := by
  unfold writeCommand
  cases decodeCommand w with
  | ok i => exact .inl ⟨i, rfl, rfl⟩
  | error e => exact .inr ⟨⟨e, rfl⟩, rfl⟩

/-- All that no register write but a command changes: everything but the registers, the change flag and STATUS. -/
def keptByWrite (s : State) :=
  (s.res, s.fsActive, s.osActive, s.voices, s.outq, s.hist, s.inbox, s.readData, s.outPri, s.outAux, s.outChannels)

theorem writeSampleRate_kept (w : Word) (s : State) : keptByWrite (writeSampleRate w s) = keptByWrite s := by
  unfold writeSampleRate; split <;> rfl

theorem writeOsFactor_kept (w : Word) (s : State) : keptByWrite (writeOsFactor w s) = keptByWrite s := by
  unfold writeOsFactor; split <;> rfl

theorem writeChannels_kept (w : Word) (s : State) : keptByWrite (writeChannels w s) = keptByWrite s := by
  unfold writeChannels; split
  · rfl
  · split <;> rfl

theorem writeAlg1_kept (w : Word) (s : State) : keptByWrite (writeAlg1 w s) = keptByWrite s := by
  unfold writeAlg1; split
  · split <;> rfl
  · rfl

theorem writeAlg2_kept (w : Word) (s : State) : keptByWrite (writeAlg2 w s) = keptByWrite s := by
  unfold writeAlg2; split
  · split <;> rfl
  · rfl

theorem writeRouting_kept (w : Word) (s : State) : keptByWrite (writeRouting w s) = keptByWrite s := by
  unfold writeRouting; split <;> rfl

theorem writeWindow_kept (w : Word) (s : State) : keptByWrite (writeWindow w s) = keptByWrite s := by
  unfold writeWindow; split <;> rfl

theorem writeAuxMode_kept (w : Word) (s : State) : keptByWrite (writeAuxMode w s) = keptByWrite s := by
  unfold writeAuxMode; split <;> rfl

theorem writeRatioIdx_kept (w : Word) (s : State) : keptByWrite (writeRatioIdx w s) = keptByWrite s := by
  unfold writeRatioIdx; split <;> rfl

/-- A register write that is no command leaves the units, the buffers, the results and the outputs alone. -/
theorem writeReg_kept (p : Params) (r : Reg) (w : Word) (s : State) (h : r ≠ .cmd) :
    keptByWrite (writeReg p r w s) = keptByWrite s := by
  cases r with
  | cmd => exact absurd rfl h
  | sampleRate => exact writeSampleRate_kept w s
  | osFactor => exact writeOsFactor_kept w s
  | channels => exact writeChannels_kept w s
  | alg1 => exact writeAlg1_kept w s
  | alg2 => exact writeAlg2_kept w s
  | routing => exact writeRouting_kept w s
  | window => exact writeWindow_kept w s
  | auxMode => exact writeAuxMode_kept w s
  | ratioIdx => exact writeRatioIdx_kept w s
  | _ => rfl

end Sys2Proof.Machine
end

