-- ==== Sys2Proof/Laws/Slots.lean ====
section
/-! SUPPORT. Laws/Slots.lean: the slots of a ring. Reading a slot after writing one, and that a write keeps the one canonical form,
so that slot arrays with equal contents are equal data (log 7). -/

namespace Sys2Proof.Machine

variable {α : Type} [DecidableEq α]

/-- The canonical form, read off the head: the head is not the default, everything after it has a larger index and is in
canonical form. -/
theorem slotsWf_cons (d : α) (i : Nat) (y : α) (t : List (Nat × α)) :
    slotsWf d ((i, y) :: t) = true ↔ y ≠ d ∧ (∀ e ∈ t, i < e.1) ∧ slotsWf d t = true := by
  induction t generalizing i y with
  | nil => simp [slotsWf]
  | cons e t ih =>
    obtain ⟨j, z⟩ := e
    simp only [slotsWf, Bool.and_eq_true, decide_eq_true_eq, and_assoc]
    constructor
    · rintro ⟨hy, hij, hw⟩
      refine ⟨hy, ?_, hw⟩
      intro e he
      rcases List.mem_cons.mp he with rfl | he
      · exact hij
      · exact Nat.lt_trans hij (((ih j z).mp hw).2.1 e he)
    · rintro ⟨hy, hall, hw⟩
      exact ⟨hy, hall (j, z) (by simp), hw⟩

@[simp] theorem slotsWf_nil (d : α) : slotsWf d ([] : List (Nat × α)) = true := rfl

omit [DecidableEq α] in
/-- A slot below every listed index holds the default. -/
theorem slotRead_of_lt {d : α} {l : List (Nat × α)} {i : Nat} (h : ∀ e ∈ l, i < e.1) : slotRead d l i = d := by
  induction l with
  | nil => rfl
  | cons e t ih =>
    obtain ⟨j, y⟩ := e
    have hj : i < j := h (j, y) (by simp)
    rw [slotRead, if_neg (by omega)]
    exact ih fun e he => h e (by simp [he])

/-- A write lists no index but the old ones and its own. -/
theorem mem_slotWrite {d : α} {l : List (Nat × α)} {i : Nat} {x : α} {e : Nat × α} (h : e ∈ slotWrite d l i x) :
    e = (i, x) ∨ e ∈ l := by
  induction l with
  | nil =>
    simp only [slotWrite] at h
    split at h
    · cases h
    · simpa using h
  | cons a t ih =>
    obtain ⟨j, y⟩ := a
    simp only [slotWrite] at h
    split at h
    · split at h
      · exact .inr h
      · simpa using h
    · split at h
      · split at h
        · exact .inr (by simp [h])
        · rcases List.mem_cons.mp h with rfl | h
          · exact .inl rfl
          · exact .inr (by simp [h])
      · rcases List.mem_cons.mp h with rfl | h
        · exact .inr (by simp)
        · rcases ih h with rfl | h
          · exact .inl rfl
          · exact .inr (by simp [h])

/-- A write keeps every index below a bound that its own index is below. -/
theorem slotWrite_keys {d : α} {l : List (Nat × α)} {i cap : Nat} {x : α} (hl : ∀ e ∈ l, e.1 < cap) (hi : i < cap) :
    ∀ e ∈ slotWrite d l i x, e.1 < cap := by
  intro e he
  rcases mem_slotWrite he with rfl | he
  · exact hi
  · exact hl e he

/-- A write keeps the canonical form. -/
theorem slotsWf_slotWrite {d : α} {l : List (Nat × α)} (h : slotsWf d l = true) (i : Nat) (x : α) :
    slotsWf d (slotWrite d l i x) = true := by
  induction l with
  | nil =>
    simp only [slotWrite]
    split
    · rfl
    · simpa [slotsWf]
  | cons a t ih =>
    obtain ⟨j, y⟩ := a
    obtain ⟨hy, hall, ht⟩ := (slotsWf_cons d j y t).mp h
    simp only [slotWrite]
    split
    · rename_i hij
      split
      · exact h
      · rename_i hx
        refine (slotsWf_cons d i x _).mpr ⟨hx, ?_, h⟩
        intro e he
        rcases List.mem_cons.mp he with rfl | he
        · exact hij
        · exact Nat.lt_trans hij (hall e he)
    · split
      · rename_i hij
        subst hij
        split
        · exact ht
        · rename_i hx
          exact (slotsWf_cons d i x t).mpr ⟨hx, hall, ht⟩
      · refine (slotsWf_cons d j y _).mpr ⟨hy, ?_, ih ht⟩
        intro e he
        rcases mem_slotWrite he with rfl | he
        · show j < i
          omega
        · exact hall e he

/-- Read after write. -/
theorem slotRead_slotWrite {d : α} {l : List (Nat × α)} (h : slotsWf d l = true) (i k : Nat) (x : α) :
    slotRead d (slotWrite d l i x) k = if k = i then x else slotRead d l k := by
  induction l with
  | nil =>
    simp only [slotWrite]
    split
    · rename_i hx; subst hx; simp [slotRead]
    · simp [slotRead]
  | cons a t ih =>
    obtain ⟨j, y⟩ := a
    obtain ⟨hy, hall, ht⟩ := (slotsWf_cons d j y t).mp h
    simp only [slotWrite]
    split
    · rename_i hij
      split
      · rename_i hx
        by_cases hk : k = i
        · rw [if_pos hk, hk, hx]
          exact slotRead_of_lt fun e he => by
            rcases List.mem_cons.mp he with rfl | he
            · exact hij
            · exact Nat.lt_trans hij (hall e he)
        · rw [if_neg hk]
      · rw [slotRead]
    · split
      · rename_i hij
        subst hij
        split
        · rename_i hx
          by_cases hk : k = i
          · rw [if_pos hk, hk, hx]
            exact slotRead_of_lt hall
          · rw [if_neg hk, slotRead, if_neg hk]
        · by_cases hk : k = i
          · simp [slotRead, hk]
          · simp [slotRead, hk]
      · rename_i h1 h2
        rw [slotRead, ih ht, slotRead]
        by_cases hkj : k = j
        · have : k ≠ i := by omega
          simp [hkj]; omega
        · simp [hkj]

/-- Slot arrays in canonical form that read alike are equal. -/
theorem slots_ext {d : α} {l m : List (Nat × α)} (hl : slotsWf d l = true) (hm : slotsWf d m = true)
    (h : ∀ k, slotRead d l k = slotRead d m k) : l = m := by
  induction l generalizing m with
  | nil =>
    cases m with
    | nil => rfl
    | cons b u =>
      obtain ⟨j, z⟩ := b
      obtain ⟨hz, _, _⟩ := (slotsWf_cons d j z u).mp hm
      exact absurd (by simpa [slotRead] using (h j).symm) hz
  | cons a t ih =>
    obtain ⟨i, y⟩ := a
    obtain ⟨hy, hti, ht⟩ := (slotsWf_cons d i y t).mp hl
    cases m with
    | nil => exact absurd (by simpa [slotRead] using h i) hy
    | cons b u =>
      obtain ⟨j, z⟩ := b
      obtain ⟨hz, huj, hu⟩ := (slotsWf_cons d j z u).mp hm
      have hij : i = j := by
        rcases Nat.lt_trichotomy i j with hlt | heq | hgt
        · have h1 := h i
          rw [slotRead_of_lt (l := (j, z) :: u) (by
            intro e he
            rcases List.mem_cons.mp he with rfl | he
            · exact hlt
            · exact Nat.lt_trans hlt (huj e he))] at h1
          exact absurd (by simpa [slotRead] using h1) hy
        · exact heq
        · have h1 := h j
          rw [slotRead_of_lt (l := (i, y) :: t) (by
            intro e he
            rcases List.mem_cons.mp he with rfl | he
            · exact hgt
            · exact Nat.lt_trans hgt (hti e he))] at h1
          exact absurd (by simpa [slotRead] using h1.symm) hz
      subst hij
      have hyz : y = z := by simpa [slotRead] using h i
      subst hyz
      congr 1
      refine ih ht hu fun k => ?_
      by_cases hk : k = i
      · rw [hk, slotRead_of_lt hti, slotRead_of_lt huj]
      · simpa [slotRead, hk] using h k

end Sys2Proof.Machine
end

