-- ==== Sys2Proof/Laws/Rings.lean ====
section
/-! SUPPORT. Laws/Rings.lean: every ring operation keeps a ring a ring (44_ring_buffer.md R260 to R266), and the capacities. -/

namespace Sys2Proof.Machine

open Sys2Proof.Config (Params)

variable {α : Type} [DecidableEq α]

theorem ringWf_empty (d : α) {cap : Nat} (h : 0 < cap) : RingWf d cap (Ring.empty α) :=
  ⟨rfl, by simp [Ring.empty], h, Nat.zero_le _⟩

/-- A push into a ring that is not full keeps it a ring. -/
theorem ringWf_push {d : α} {cap : Nat} {q : Ring α} (h : RingWf d cap q) (hn : q.n < cap) (x : α) :
    RingWf d cap (ringPush d cap q x) where
  slots := slotsWf_slotWrite h.slots _ x
  keys := slotWrite_keys h.keys (Nat.mod_lt _ (by omega))
  rd := h.rd
  n := hn

/-- A drop keeps a ring a ring. -/
theorem ringWf_drop {d : α} {cap : Nat} {q : Ring α} (h : RingWf d cap q) : RingWf d cap (ringDrop cap q) where
  slots := h.slots
  keys := h.keys
  rd := Nat.mod_lt _ (Nat.lt_of_le_of_lt (Nat.zero_le _) h.rd)
  n := Nat.le_trans (Nat.sub_le _ _) h.n

/-- A clear keeps a ring a ring. -/
theorem ringWf_clear {d : α} {cap : Nat} {q : Ring α} (h : RingWf d cap q) : RingWf d cap (ringClear q) where
  slots := h.slots
  keys := h.keys
  rd := Nat.lt_of_le_of_lt (Nat.zero_le _) h.rd
  n := Nat.zero_le _

@[simp] theorem ringPush_n (d : α) (cap : Nat) (q : Ring α) (x : α) : (ringPush d cap q x).n = q.n + 1 := rfl
@[simp] theorem ringPush_rd (d : α) (cap : Nat) (q : Ring α) (x : α) : (ringPush d cap q x).rd = q.rd := rfl
@[simp] theorem ringPush_buf (d : α) (cap : Nat) (q : Ring α) (x : α) :
    (ringPush d cap q x).buf = slotWrite d q.buf ((q.rd + q.n) % cap) x := rfl
omit [DecidableEq α] in
@[simp] theorem ringDrop_n (cap : Nat) (q : Ring α) : (ringDrop cap q).n = q.n - 1 := rfl
omit [DecidableEq α] in
@[simp] theorem ringDrop_rd (cap : Nat) (q : Ring α) : (ringDrop cap q).rd = (q.rd + 1) % cap := rfl
omit [DecidableEq α] in
@[simp] theorem ringDrop_buf (cap : Nat) (q : Ring α) : (ringDrop cap q).buf = q.buf := rfl
omit [DecidableEq α] in
@[simp] theorem ringClear_n (q : Ring α) : (ringClear q).n = 0 := rfl
omit [DecidableEq α] in
@[simp] theorem ringClear_rd (q : Ring α) : (ringClear q).rd = 0 := rfl
omit [DecidableEq α] in
@[simp] theorem ringClear_buf (q : Ring α) : (ringClear q).buf = q.buf := rfl

theorem blockSize_pos (p : Params) : 4 ≤ Units.blockSize p := by unfold Units.blockSize; omega

theorem capPm_pos (p : Params) : 0 < Units.capPm p := by
  have := blockSize_pos p
  unfold Units.capPm; omega

theorem capOut_pos (p : Params) : 0 < Units.capOut p := by
  have := blockSize_pos p
  unfold Units.capOut; omega

end Sys2Proof.Machine
end

