-- ==== Sys2Proof/Laws/Engine.lean ====
section
/-! SUPPORT. Laws/Engine.lean: what each step of the TICK pipeline and each shared operation under it can do, said once: the
cases of a push, a pop and a latch, and what they leave alone. -/

namespace Sys2Proof.Machine

open Sys2Proof.Config (Params)

/-! ## The external-PM rings -/

/-- A push either finds the ring full and only raises PM_OVF, or changes that one ring (44_ring_buffer.md R261). -/
theorem pushPm_cases (p : Params) (v : VoiceIdx) (x : F32) (s : State) :
    ((getPmq s v).n = Units.capPm p ∧ pushPm p v x s = raise .pmOvf s)
    ∨ ((getPmq s v).n ≠ Units.capPm p
        ∧ pushPm p v x s = setPmq s v (ringPush Fp.posZero (Units.capPm p) (getPmq s v) x)) := by
  by_cases h : (getPmq s v).n = Units.capPm p
  · exact .inl ⟨h, by simp [pushPm, h]⟩
  · exact .inr ⟨h, by simp [pushPm, h]⟩

/-- A pop either finds the ring empty, answers +0.0 and only raises PM_UNF, or answers the oldest entry and drops it
(44_ring_buffer.md R262). -/
theorem popPm_cases (p : Params) (v : VoiceIdx) (s : State) :
    ((getPmq s v).n = 0 ∧ popPmValue v s = Fp.posZero ∧ popPmState p v s = raise .pmUnf s)
    ∨ ((getPmq s v).n ≠ 0 ∧ popPmValue v s = ringFront Fp.posZero (getPmq s v)
        ∧ popPmState p v s = setPmq s v (ringDrop (Units.capPm p) (getPmq s v))) := by
  by_cases h : (getPmq s v).n = 0
  · exact .inl ⟨h, by simp [popPmValue, h], by simp [popPmState, h]⟩
  · exact .inr ⟨h, by simp [popPmValue, h], by simp [popPmState, h]⟩

@[simp] theorem popBlockPm_zero (p : Params) (v : VoiceIdx) (s : State) : popBlockPm p v 0 s = ([], s) := rfl

@[simp] theorem popBlockPm_succ (p : Params) (v : VoiceIdx) (k : Nat) (s : State) :
    popBlockPm p v (k + 1) s
      = (popPmValue v s :: (popBlockPm p v k (popPmState p v s)).1, (popBlockPm p v k (popPmState p v s)).2) := rfl

/-! ## The output ring -/

/-- A frame is dropped by a full ring and enqueued otherwise (44_ring_buffer.md R264). -/
theorem pushOut_cases (p : Params) (F : Frame) (s : State) :
    (s.outq.n = Units.capOut p ∧ pushOut p F s = s)
    ∨ (s.outq.n ≠ Units.capOut p
        ∧ pushOut p F s = { s with outq := ringPush zeroFrame (Units.capOut p) s.outq F }) := by
  by_cases h : s.outq.n = Units.capOut p
  · exact .inl ⟨h, by simp [pushOut, h]⟩
  · exact .inr ⟨h, by simp [pushOut, h]⟩

/-! ## What the render path leaves alone -/

/-- All that no part of a render changes: everything but the flags, the voices, the output ring and the filter history. -/
def keptByRender (s : State) :=
  (hostRegs s, s.res, s.inbox, s.readData, s.fsActive, s.osActive, s.srChanged, s.outPri, s.outAux, s.outChannels)

theorem pushPm_kept (p : Params) (v : VoiceIdx) (x : F32) (s : State) : keptByRender (pushPm p v x s) = keptByRender s := by
  rcases pushPm_cases p v x s with ⟨_, h⟩ | ⟨_, h⟩ <;> rw [h] <;> rfl

theorem pushPmTimes_kept (p : Params) (v : VoiceIdx) (x : F32) (k : Nat) (s : State) :
    keptByRender (pushPmTimes p v x k s) = keptByRender s := by
  induction k generalizing s with
  | zero => rfl
  | succ k ih => rw [pushPmTimes, ih, pushPm_kept]

theorem popPmState_kept (p : Params) (v : VoiceIdx) (s : State) : keptByRender (popPmState p v s) = keptByRender s := by
  rcases popPm_cases p v s with ⟨_, _, h⟩ | ⟨_, _, h⟩ <;> rw [h] <;> rfl

theorem popBlockPm_kept (p : Params) (v : VoiceIdx) (k : Nat) (s : State) :
    keptByRender (popBlockPm p v k s).2 = keptByRender s := by
  induction k generalizing s with
  | zero => rfl
  | succ k ih => rw [popBlockPm_succ, ih, popPmState_kept]

theorem setVoice_kept (s : State) (v : VoiceIdx) (x : Voice) : keptByRender (setVoice s v x) = keptByRender s := rfl

theorem pushExt_fold_kept (p : Params) (vs : List VoiceIdx) (s : State) :
    keptByRender (vs.foldl (pushExtVoice p) s) = keptByRender s := by
  induction vs generalizing s with
  | nil => rfl
  | cons v vs ih => rw [List.foldl_cons, ih]; exact pushPmTimes_kept _ _ _ _ _

theorem pushExt_kept (p : Params) (n : Nat) (s : State) : keptByRender (pushExt p n s) = keptByRender s :=
  pushExt_fold_kept p _ s

theorem renderVoice_kept (p : Params) (P : Patch) (n : Nat) (v : VoiceIdx) (s : State) :
    keptByRender (renderVoice p P n v s).2 = keptByRender s := by
  show keptByRender (setVoice (popBlockPm p v n s).2 v _) = _
  rw [setVoice_kept, popBlockPm_kept]

theorem renderVoices_kept (p : Params) (P : Patch) (n : Nat) (vs : List VoiceIdx) (s : State) :
    keptByRender (renderVoices p P n vs s).2 = keptByRender s := by
  induction vs generalizing s with
  | nil => rfl
  | cons v vs ih =>
    show keptByRender (renderVoices p P n vs (renderVoice p P n v s).2).2 = _
    rw [ih, renderVoice_kept]

theorem pushOut_kept (p : Params) (F : Frame) (s : State) : keptByRender (pushOut p F s) = keptByRender s := by
  rcases pushOut_cases p F s with ⟨_, h⟩ | ⟨_, h⟩
  · rw [h]
  · rw [h]; rfl

theorem pushOutAll_kept (p : Params) (Fs : List Frame) (s : State) :
    keptByRender (pushOutAll p Fs s) = keptByRender s := by
  induction Fs generalizing s with
  | nil => rfl
  | cons F Fs ih => rw [pushOutAll, ih, pushOut_kept]

/-- A conversion pushes frames, after setting the history when the factor is above 1 (45_decimation_src.md R281, R285, R286). -/
theorem convert_cases (p : Params) (X : List Frame) (s : State) :
    (s.osActive = .x1 ∧ convert p X s = pushOutAll p X s)
    ∨ (s.osActive ≠ .x1 ∧
        convert p X s = pushOutAll p
          (framesOf (Vector.ofFn fun c : Fin 32 => decimateOut (Units.taps p s.osActive) (Lit.osNat s.osActive)
            (Units.blockSize p) s.hist[c] (channelOf X c)) (Units.blockSize p))
          { s with hist := Vector.ofFn fun c : Fin 32 =>
              decimateHist (Units.taps p s.osActive) s.hist[c] (channelOf X c) }) := by
  unfold convert
  split
  · exact .inl ⟨by assumption, rfl⟩
  · rename_i h; exact .inr ⟨h, rfl⟩

theorem setHist_kept (s : State) (h : Vector (List F32) 32) : keptByRender { s with hist := h } = keptByRender s := rfl

theorem convert_kept (p : Params) (X : List Frame) (s : State) : keptByRender (convert p X s) = keptByRender s := by
  rcases convert_cases p X s with ⟨_, h⟩ | ⟨_, h⟩
  · rw [h, pushOutAll_kept]
  · rw [h, pushOutAll_kept, setHist_kept]

theorem render_kept (p : Params) (n : Nat) (s : State) : keptByRender (render p n s) = keptByRender s := by
  show keptByRender (convert p _ _) = _
  rw [convert_kept, renderVoices_kept]

/-! ## The latches -/

/-- The oversampling latch does nothing when the factor is in force; otherwise it latches the factor, clears the buffers and
sets every unit's rate (46_engine.md R301). -/
theorem osLatch_cases (p : Params) (s : State) :
    (s.osFactor = s.osActive ∧ osLatch p s = s)
    ∨ (s.osFactor ≠ s.osActive ∧ osLatch p s
        = mapVoices (voiceSetSampleRate p (Fp.mul s.fsActive (osF32 s.osFactor)))
            (clearBuffers p { s with osActive := s.osFactor })) := by
  unfold osLatch
  split
  · exact .inl ⟨by assumption, rfl⟩
  · rename_i h; exact .inr ⟨h, by simp only [unitRate, clearBuffers_fsActive, clearBuffers_osActive]⟩

/-- The rate latch does nothing when no rate was written; otherwise it takes the rate, clears the buffers and resets every
voice (46_engine.md R302). -/
theorem srLatch_cases (p : Params) (s : State) :
    (s.srChanged = false ∧ srLatch p s = s)
    ∨ (s.srChanged = true ∧ srLatch p s
        = mapVoices (voiceReset p (Fp.mul s.sampleRate (osF32 s.osActive)))
            (clearBuffers p { s with srChanged := false, fsActive := s.sampleRate })) := by
  unfold srLatch
  split
  · exact .inr ⟨by assumption, by simp only [unitRate, clearBuffers_fsActive, clearBuffers_osActive]⟩
  · rename_i h; exact .inl ⟨by simpa using h, rfl⟩

/-- All that no latch changes: everything but the latched rates, the voices, the output ring and the filter history. -/
def keptByLatch (s : State) :=
  (hostRegs s, s.res, s.inbox, s.readData, s.flags, s.lastCode, s.outPri, s.outAux, s.outChannels)

theorem osLatch_kept (p : Params) (s : State) : keptByLatch (osLatch p s) = keptByLatch s := by
  rcases osLatch_cases p s with ⟨_, h⟩ | ⟨_, h⟩ <;> rw [h]
  simp [keptByLatch, hostRegs]

theorem srLatch_kept (p : Params) (s : State) : keptByLatch (srLatch p s) = keptByLatch s := by
  rcases srLatch_cases p s with ⟨_, h⟩ | ⟨_, h⟩ <;> rw [h]
  simp [keptByLatch, hostRegs]

/-! ## The output -/

/-- The output either finds no frame and only raises OUT_EMPTY, or pops one, scales the channels of the active voices and zeroes
the others (46_engine.md R307). -/
theorem output_cases (p : Params) (n : Word) (s : State) :
    (s.outq.n = 0 ∧ output p n s = raise .outEmpty s)
    ∨ (s.outq.n ≠ 0 ∧ output p n s =
        { s with
          outq := ringDrop (Units.capOut p) s.outq
          outPri := Vector.ofFn fun v : VoiceIdx =>
            if v.val < n.toNat then Fp.mul ((ringFront zeroFrame s.outq)[2 * v.val]'(by omega)) Lit.outScale else Fp.posZero
          outAux := Vector.ofFn fun v : VoiceIdx =>
            if v.val < n.toNat then Fp.mul ((ringFront zeroFrame s.outq)[2 * v.val + 1]'(by omega)) Lit.outScale
            else Fp.posZero
          outChannels := n }) := by
  by_cases h : s.outq.n = 0
  · exact .inl ⟨h, by simp [output, popOutFrame, h]⟩
  · refine .inr ⟨h, ?_⟩
    simp only [output, popOutFrame, popOutState, if_neg h]

/-- After the latches a TICK keeps the rates in force (46_engine.md R303 to R307). -/
theorem tickAudio_rates (p : Params) (n : Word) (s : State) :
    (tickAudio p n s).fsActive = s.fsActive ∧ (tickAudio p n s).osActive = s.osActive := by
  have hout : ∀ u : State, (output p n u).fsActive = u.fsActive ∧ (output p n u).osActive = u.osActive := by
    intro u; rcases output_cases p n u with ⟨_, h⟩ | ⟨_, h⟩ <;> rw [h] <;> exact ⟨rfl, rfl⟩
  have hkept : ∀ u : State, keptByRender u = keptByRender s → u.fsActive = s.fsActive ∧ u.osActive = s.osActive := by
    intro u h; simp only [keptByRender, Prod.mk.injEq] at h; exact ⟨h.2.2.2.2.1, h.2.2.2.2.2.1⟩
  unfold tickAudio
  rw [(hout _).1, (hout _).2]
  apply hkept
  split
  · rw [render_kept, pushExt_kept]
  · rw [pushExt_kept]

end Sys2Proof.Machine
end

