-- ==== Sys2Proof/Laws/Float.lean ====
section
/-! SUPPORT. Laws/Float.lean: what rounding does, said once. The encodings without a sign, read as magnitudes by `encMag`, are
strictly increasing, and `roundMag` answers the encoding nearest to its operand: it never passes a representable bound
(`le_roundMag`, `roundMag_le`), and it does not go past a midpoint (`roundMag_le_of_mid`). -/

namespace Sys2Proof.Fp

/-- The magnitude, in units of 2^-149, of the number whose encoding without the sign is `m`. -/
def encMag (m : Nat) : Nat :=
  if m / 2 ^ 23 = 0 then m else (2 ^ 23 + m % 2 ^ 23) * 2 ^ (m / 2 ^ 23 - 1)

/-- An encoding of `k` dropped places and significand `q` has magnitude `q * 2^k`. -/
theorem encMag_pack {k q : Nat} (hq : q ≤ 2 ^ 24) (hk : k = 0 ∨ 2 ^ 23 ≤ q) :
    encMag (k * 2 ^ 23 + q) = q * 2 ^ k := by
  unfold encMag
  rcases Nat.lt_or_ge q (2 ^ 23) with h | h
  · have hk0 : k = 0 := by omega
    subst hk0
    have : (0 * 2 ^ 23 + q) / 2 ^ 23 = 0 := by omega
    rw [if_pos this]; simp
  · rcases Nat.lt_or_ge q (2 ^ 24) with h2 | h2
    · have h1 : (k * 2 ^ 23 + q) / 2 ^ 23 = k + 1 := by omega
      have h3 : (k * 2 ^ 23 + q) % 2 ^ 23 = q - 2 ^ 23 := by omega
      rw [h1, h3, if_neg (by omega)]
      have : 2 ^ 23 + (q - 2 ^ 23) = q := by omega
      rw [this]; rfl
    · have hq : q = 2 ^ 24 := by omega
      subst hq
      have h1 : (k * 2 ^ 23 + 2 ^ 24) / 2 ^ 23 = k + 2 := by omega
      have h3 : (k * 2 ^ 23 + 2 ^ 24) % 2 ^ 23 = 0 := by omega
      rw [h1, h3, if_neg (by omega)]
      have : k + 2 - 1 = k + 1 := by omega
      rw [this, Nat.pow_succ]; omega

/-- The next encoding is a larger magnitude. -/
theorem encMag_lt_succ (m : Nat) : encMag m < encMag (m + 1) := by
  obtain ⟨k, q, hq, hk, rfl⟩ : ∃ k q, q < 2 ^ 24 ∧ (k = 0 ∨ 2 ^ 23 ≤ q) ∧ m = k * 2 ^ 23 + q := by
    rcases Nat.lt_or_ge m (2 ^ 23) with h | h
    · exact ⟨0, m, by omega, .inl rfl, by omega⟩
    · exact ⟨m / 2 ^ 23 - 1, 2 ^ 23 + m % 2 ^ 23, by omega, .inr (by omega), by omega⟩
  rw [encMag_pack (by omega) hk, Nat.add_assoc, encMag_pack (q := q + 1) (by omega) (by omega)]
  exact Nat.mul_lt_mul_of_pos_right (by omega) (Nat.two_pow_pos k)

theorem encMag_strictMono : StrictMono encMag := strictMono_nat_of_lt_succ encMag_lt_succ

@[simp] theorem encMag_zero : encMag 0 = 0 := rfl

theorem encMag_le_iff {m n : Nat} : encMag m ≤ encMag n ↔ m ≤ n := encMag_strictMono.le_iff_le

theorem encMag_lt_iff {m n : Nat} : encMag m < encMag n ↔ m < n := encMag_strictMono.lt_iff_lt

/-- The shape of a rounding: `k` places dropped, significand `q` with remainder, one up or not. -/
theorem roundMag_shape (num den : Nat) (hden : 0 < den) :
    ∃ k q m, q < 2 ^ 24 ∧ (k = 0 ∨ 2 ^ 23 ≤ q) ∧ roundMag num den = min (k * 2 ^ 23 + m) infMag
      ∧ q * 2 ^ k * den ≤ num ∧ num < (q + 1) * 2 ^ k * den
      ∧ ((m = q ∧ 2 * num ≤ (2 * q + 1) * 2 ^ k * den ∧ (2 * num = (2 * q + 1) * 2 ^ k * den → q % 2 = 0))
        ∨ (m = q + 1 ∧ (2 * q + 1) * 2 ^ k * den ≤ 2 * num
          ∧ (2 * num = (2 * q + 1) * 2 ^ k * den → q % 2 = 1))) := by
  obtain ⟨k, hk⟩ : ∃ k, k = Nat.log2 (num / den) - 23 := ⟨_, rfl⟩
  have hd : 0 < den * 2 ^ k := Nat.mul_pos hden (Nat.two_pow_pos k)
  have hlt : num / (den * 2 ^ k) < 2 ^ 24 := by
    rw [← Nat.div_div_eq_div_mul]
    apply Nat.div_lt_of_lt_mul
    rw [← Nat.pow_add]
    rcases Nat.eq_zero_or_pos (num / den) with h0 | h0
    · rw [h0]; exact Nat.two_pow_pos _
    · have h1 := Nat.lt_log2_self (n := num / den)
      exact Nat.lt_of_lt_of_le h1 (Nat.pow_le_pow_right (by omega) (by omega))
  have hge : k = 0 ∨ 2 ^ 23 ≤ num / (den * 2 ^ k) := by
    rcases Nat.eq_zero_or_pos k with h0 | h0
    · exact .inl h0
    · refine .inr ?_
      rw [← Nat.div_div_eq_div_mul, Nat.le_div_iff_mul_le (Nat.two_pow_pos k), ← Nat.pow_add]
      have hne : num / den ≠ 0 := by
        intro h; rw [h] at hk; simp at hk; omega
      exact Nat.le_trans (Nat.pow_le_pow_right (by omega) (by omega)) (Nat.log2_self_le hne)
  have hmod : den * 2 ^ k * (num / (den * 2 ^ k)) + num % (den * 2 ^ k) = num := Nat.div_add_mod _ _
  have hr := Nat.mod_lt num hd
  obtain ⟨q, hqd⟩ : ∃ q, q = num / (den * 2 ^ k) := ⟨_, rfl⟩
  obtain ⟨r, hrd⟩ : ∃ r, r = num % (den * 2 ^ k) := ⟨_, rfl⟩
  obtain ⟨d, hdd⟩ : ∃ d, d = den * 2 ^ k := ⟨_, rfl⟩
  have hround : roundMag num den
      = min (k * 2 ^ 23 + (if d < 2 * r ∨ (2 * r = d ∧ q % 2 = 1) then q + 1 else q)) infMag := by
    simp only [roundMag, ← hk, ← hdd, hqd, hrd]
  rw [← hqd] at hlt hge hmod
  rw [← hrd] at hmod hr
  rw [← hdd] at hmod hr
  have e1 : ∀ a, a * 2 ^ k * den = a * d := by intro a; rw [hdd]; ring
  refine ⟨k, q, _, hlt, hge, hround, ?_, ?_, ?_⟩
  · rw [e1]; rw [Nat.mul_comm d q] at hmod; omega
  · rw [e1, Nat.add_mul]; rw [Nat.mul_comm d q] at hmod; omega
  · rw [e1, Nat.add_mul, Nat.mul_assoc]
    rw [Nat.mul_comm d q] at hmod
    split
    · rename_i h
      refine .inr ⟨rfl, by omega, ?_⟩
      intro he
      rcases h with h | h
      · omega
      · exact h.2
    · rename_i h
      exact .inl ⟨rfl, by omega, by omega⟩

/-- A representable lower bound is kept. -/
theorem le_roundMag {m num den : Nat} (hden : 0 < den) (h : encMag m * den ≤ num) (hm : m ≤ infMag) :
    m ≤ roundMag num den := by
  obtain ⟨k, q, m', hq, hk, he, _, hhi, hm'⟩ := roundMag_shape num den hden
  rw [he]
  refine Nat.le_min.mpr ⟨?_, hm⟩
  have h1 : encMag m < encMag (k * 2 ^ 23 + (q + 1)) := by
    rw [encMag_pack (by omega) (by omega)]
    exact Nat.lt_of_mul_lt_mul_right (Nat.lt_of_le_of_lt h hhi)
  have := encMag_lt_iff.mp h1
  omega

/-- A result is not past `m` when the operand is not past the midpoint of `m` and the next encoding, nor on it with `m` odd. -/
theorem roundMag_le_of_mid {m num den : Nat} (hden : 0 < den)
    (h : 2 * num ≤ (encMag m + encMag (m + 1)) * den)
    (he : 2 * num = (encMag m + encMag (m + 1)) * den → m % 2 = 0) : roundMag num den ≤ m := by
  obtain ⟨k, q, m', hq, hk, hround, hlo, _, hm'⟩ := roundMag_shape num den hden
  rw [hround]
  refine Nat.le_trans (Nat.min_le_left _ _) ?_
  by_contra hcon
  have hstep := encMag_lt_succ m
  have base : ¬ m + 1 ≤ k * 2 ^ 23 + q := by
    intro hge
    have h1 : encMag (m + 1) ≤ q * 2 ^ k := by
      rw [← encMag_pack (by omega) hk]; exact encMag_le_iff.mpr hge
    have h2 : encMag (m + 1) * den ≤ num := Nat.le_trans (Nat.mul_le_mul_right den h1) hlo
    have h3 : encMag m * den < encMag (m + 1) * den := Nat.mul_lt_mul_of_pos_right hstep hden
    rw [Nat.add_mul] at h
    omega
  rcases hm' with ⟨hm', _, _⟩ | ⟨hm', hup, hodd⟩
  · omega
  · have hmq : m = k * 2 ^ 23 + q := by omega
    have h1 : encMag m = q * 2 ^ k := by rw [hmq]; exact encMag_pack (by omega) hk
    have h2 : encMag (m + 1) = (q + 1) * 2 ^ k := by
      rw [hmq, Nat.add_assoc]; exact encMag_pack (by omega) (by omega)
    have h3 : (encMag m + encMag (m + 1)) * den = (2 * q + 1) * 2 ^ k * den := by
      rw [h1, h2]; ring
    rw [h3] at h he
    have heq : 2 * num = (2 * q + 1) * 2 ^ k * den := Nat.le_antisymm h hup
    have := hodd heq
    have := he heq
    omega

/-- A representable upper bound is kept. -/
theorem roundMag_le {m num den : Nat} (hden : 0 < den) (h : num ≤ encMag m * den) : roundMag num den ≤ m := by
  have hstep : encMag m * den < encMag (m + 1) * den := Nat.mul_lt_mul_of_pos_right (encMag_lt_succ m) hden
  refine roundMag_le_of_mid hden ?_ ?_
  · rw [Nat.add_mul]; omega
  · rw [Nat.add_mul]; omega

/-- A representable number rounds to itself. -/
theorem roundMag_exact {m den : Nat} (hden : 0 < den) (hm : m ≤ infMag) : roundMag (encMag m * den) den = m :=
  Nat.le_antisymm (roundMag_le hden (Nat.le_refl _)) (le_roundMag hden (Nat.le_refl _) hm)

theorem roundMag_le_infMag (num den : Nat) : roundMag num den ≤ infMag := Nat.min_le_right _ _

theorem roundMag_zero (den : Nat) (hden : 0 < den) : roundMag 0 den = 0 := by
  simpa using roundMag_exact (m := 0) hden (by decide)

/-- Rounding is monotone. -/
theorem roundMag_mono {a b den : Nat} (hden : 0 < den) (h : a ≤ b) : roundMag a den ≤ roundMag b den := by
  obtain ⟨k, q, m, hq, hk, hround, _, hhi, hm⟩ := roundMag_shape b den hden
  rw [hround]
  refine Nat.le_min.mpr ⟨?_, roundMag_le_infMag a den⟩
  have e1 : encMag (k * 2 ^ 23 + q) = q * 2 ^ k := encMag_pack (by omega) hk
  have e2 : encMag (k * 2 ^ 23 + q + 1) = (q + 1) * 2 ^ k := by
    rw [Nat.add_assoc]; exact encMag_pack (by omega) (by omega)
  rcases hm with ⟨rfl, hmid, heven⟩ | ⟨rfl, _, _⟩
  · have e3 : (encMag (k * 2 ^ 23 + m) + encMag (k * 2 ^ 23 + m + 1)) * den = (2 * m + 1) * 2 ^ k * den := by
      rw [e1, e2]; ring
    refine roundMag_le_of_mid hden ?_ ?_
    · rw [e3]; omega
    · rw [e3]; intro he
      have : 2 * b = (2 * m + 1) * 2 ^ k * den := by omega
      have := heven this
      omega
  · refine roundMag_le hden ?_
    rw [← Nat.add_assoc, e2]; omega

/-! ## Encodings and values -/

theorem mag_eq_encMag (x : F32) : mag x = encMag (x.toNat % 2 ^ 31) := by
  have h1 : expField x = x.toNat % 2 ^ 31 / 2 ^ 23 := by unfold expField; omega
  have h2 : fracField x = x.toNat % 2 ^ 31 % 2 ^ 23 := by unfold fracField; omega
  unfold mag encMag
  rw [h1, h2]
  split
  · rename_i h; omega
  · rfl

theorem signBit_eq (x : F32) : signBit x = decide (2 ^ 31 ≤ x.toNat) := by
  simp [signBit, BitVec.msb_eq_decide]

theorem isNaN_eq (x : F32) : isNaN x = decide (infMag < x.toNat % 2 ^ 31) := by
  have hx := x.isLt
  unfold isNaN expField fracField infMag
  rw [Bool.eq_iff_iff]
  simp only [Bool.and_eq_true, beq_iff_eq, bne_iff_ne, decide_eq_true_eq]
  omega

theorem isInf_eq (x : F32) : isInf x = decide (x.toNat % 2 ^ 31 = infMag) := by
  have hx := x.isLt
  unfold isInf expField fracField infMag
  rw [Bool.eq_iff_iff]
  simp only [Bool.and_eq_true, beq_iff_eq, decide_eq_true_eq]
  omega

theorem isFinite_eq (x : F32) : isFinite x = decide (x.toNat % 2 ^ 31 < infMag) := by
  have hx := x.isLt
  unfold isFinite expField infMag
  rw [Bool.eq_iff_iff]
  simp only [bne_iff_ne, decide_eq_true_eq]
  omega

theorem not_isNaN_of_isFinite {x : F32} (h : isFinite x = true) : isNaN x = false := by
  rw [isFinite_eq, decide_eq_true_eq] at h
  rw [isNaN_eq, decide_eq_false_iff_not]; omega

theorem not_isInf_of_isFinite {x : F32} (h : isFinite x = true) : isInf x = false := by
  rw [isFinite_eq, decide_eq_true_eq] at h
  rw [isInf_eq, decide_eq_false_iff_not]; omega

theorem toNat_ofMag {m : Nat} (neg : Bool) (hm : m < 2 ^ 31) : (ofMag neg m).toNat = if neg then 2 ^ 31 + m else m := by
  unfold ofMag
  rw [BitVec.toNat_ofNat]
  split <;> omega

theorem toNat_ofMag_mod {m : Nat} (neg : Bool) (hm : m < 2 ^ 31) : (ofMag neg m).toNat % 2 ^ 31 = m := by
  rw [toNat_ofMag neg hm]
  split <;> omega

theorem mag_ofMag {m : Nat} (neg : Bool) (hm : m < 2 ^ 31) : mag (ofMag neg m) = encMag m := by
  rw [mag_eq_encMag, toNat_ofMag_mod neg hm]

theorem signBit_ofMag {m : Nat} (neg : Bool) (hm : m < 2 ^ 31) : signBit (ofMag neg m) = neg := by
  rw [signBit_eq, toNat_ofMag neg hm]
  cases neg
  · simp; omega
  · simp

theorem infMag_lt : infMag < 2 ^ 31 := by decide

theorem ord_ofMag {m : Nat} (neg : Bool) (hm : m < 2 ^ 31) :
    ord (ofMag neg m) = if neg then -(encMag m : Int) else (encMag m : Int) := by
  unfold ord
  rw [signBit_ofMag neg hm, mag_ofMag neg hm]

/-- No rounding is a NaN. -/
theorem isNaN_ofMag {m : Nat} (neg : Bool) (hm : m ≤ infMag) : isNaN (ofMag neg m) = false := by
  have h := infMag_lt
  rw [isNaN_eq, toNat_ofMag_mod neg (by omega), decide_eq_false_iff_not]; omega

/-- A number is its encoding. -/
theorem ofMag_signBit (x : F32) : ofMag (signBit x) (x.toNat % 2 ^ 31) = x := by
  have hx := x.isLt
  apply BitVec.eq_of_toNat_eq
  rw [toNat_ofMag _ (Nat.mod_lt _ (by decide)), signBit_eq]
  by_cases h : 2 ^ 31 ≤ x.toNat
  · rw [decide_eq_true h, if_pos rfl]; omega
  · rw [decide_eq_false h, if_neg (by decide)]; omega

/-- Unary minus changes the sign bit only. -/
theorem toNat_neg_mod (x : F32) : (neg x).toNat % 2 ^ 31 = x.toNat % 2 ^ 31 := by
  have : (neg x) &&& 0x7FFFFFFF#32 = x &&& 0x7FFFFFFF#32 := by
    unfold neg; ext i hi; interval_cases i <;> simp
  have h2 := congrArg BitVec.toNat this
  rw [BitVec.toNat_and, BitVec.toNat_and] at h2
  have e : (0x7FFFFFFF#32).toNat = 2 ^ 31 - 1 := by decide
  rw [e, Nat.and_two_pow_sub_one_eq_mod, Nat.and_two_pow_sub_one_eq_mod] at h2
  exact h2

theorem isFinite_neg (x : F32) : isFinite (neg x) = isFinite x := by
  rw [isFinite_eq, isFinite_eq, toNat_neg_mod]

theorem ord_neg (x : F32) : ord (neg x) = -ord x := by
  have h2 : signBit (neg x) = !signBit x := by
    unfold signBit neg;
    rw [BitVec.msb_xor, show (0x80000000 : F32).msb = true from by decide]; simp
  unfold ord
  rw [h2, mag_eq_encMag, toNat_neg_mod, ← mag_eq_encMag]
  cases signBit x <;> simp

/-! ## Sums -/

/-- Two finite numbers add to the rounding of their exact sum. -/
theorem add_finite {x y : F32} (hx : isFinite x = true) (hy : isFinite y = true) :
    add x y = roundSum (signBit x && signBit y) (ord x + ord y) := by
  unfold add
  simp [not_isNaN_of_isFinite hx, not_isNaN_of_isFinite hy, not_isInf_of_isFinite hx, not_isInf_of_isFinite hy]

theorem isNaN_roundSum (b : Bool) (n : Int) : isNaN (roundSum b n) = false := by
  unfold roundSum
  split
  · exact isNaN_ofMag b (by decide)
  · exact isNaN_ofMag _ (roundMag_le_infMag _ _)

/-- A rounded sum has the sign of the exact sum and the magnitude of its rounding. -/
theorem ord_roundSum (b : Bool) (n : Int) :
    ord (roundSum b n) = if n < 0 then -(encMag (roundMag n.natAbs 1) : Int) else (encMag (roundMag n.natAbs 1) : Int) := by
  unfold roundSum
  split
  · rename_i h
    subst h
    rw [ord_ofMag b (by decide)]
    simp [roundMag_zero 1 (by decide)]
  · have h := infMag_lt
    have h2 := roundMag_le_infMag n.natAbs 1
    rw [ord_ofMag _ (by omega)]
    by_cases hn : n < 0 <;> simp [hn]

/-- A rounded sum does not pass a number the exact sum does not pass. -/
theorem ord_roundSum_le {b : Bool} {n : Int} {z : F32} (hz : isNaN z = false) (h : n ≤ ord z) :
    ord (roundSum b n) ≤ ord z := by
  rw [isNaN_eq, decide_eq_false_iff_not] at hz
  rw [ord_roundSum]
  unfold ord at h ⊢
  rw [mag_eq_encMag] at h ⊢
  by_cases hs : signBit z = true
  · rw [if_pos hs] at h ⊢
    have hle := le_roundMag (num := n.natAbs) (den := 1) (m := z.toNat % 2 ^ 31) (by decide) (by omega) (by omega)
    have := encMag_le_iff.mpr hle
    by_cases hn : n < 0
    · rw [if_pos hn]; omega
    · have h0 : n = 0 := by omega
      subst h0
      have e : roundMag (Int.natAbs 0) 1 = 0 := roundMag_zero 1 (by decide)
      rw [if_neg hn, e, encMag_zero]
      omega
  · rw [if_neg hs] at h ⊢
    by_cases hn : n < 0
    · rw [if_pos hn]; omega
    · rw [if_neg hn]
      have hle := roundMag_le (num := n.natAbs) (den := 1) (m := z.toNat % 2 ^ 31) (by decide) (by omega)
      have := encMag_le_iff.mpr hle
      omega

/-- The same bound from below. -/
theorem le_ord_roundSum {b : Bool} {n : Int} {z : F32} (hz : isNaN z = false) (h : ord z ≤ n) :
    ord z ≤ ord (roundSum b n) := by
  rw [isNaN_eq, decide_eq_false_iff_not] at hz
  rw [ord_roundSum]
  unfold ord at h ⊢
  rw [mag_eq_encMag] at h ⊢
  by_cases hs : signBit z = true
  · rw [if_pos hs] at h ⊢
    by_cases hn : n < 0
    · rw [if_pos hn]
      have hle := roundMag_le (num := n.natAbs) (den := 1) (m := z.toNat % 2 ^ 31) (by decide) (by omega)
      have := encMag_le_iff.mpr hle
      omega
    · rw [if_neg hn]; omega
  · rw [if_neg hs] at h ⊢
    have hle := le_roundMag (num := n.natAbs) (den := 1) (m := z.toNat % 2 ^ 31) (by decide) (by omega) (by omega)
    have := encMag_le_iff.mpr hle
    split <;> omega

/-- A sum that is a binary32 number is exact. -/
theorem ord_roundSum_exact {b : Bool} {n : Int} {z : F32} (hz : isNaN z = false) (h : n = ord z) :
    ord (roundSum b n) = ord z :=
  Int.le_antisymm (ord_roundSum_le hz (Int.le_of_eq h)) (le_ord_roundSum hz (Int.le_of_eq h.symm))

theorem sub_finite {x y : F32} (hx : isFinite x = true) (hy : isFinite y = true) :
    sub x y = roundSum (signBit x && signBit (neg y)) (ord x - ord y) := by
  have hy' : isFinite (neg y) = true := by rw [isFinite_neg]; exact hy
  rw [sub, add_finite hx hy', ord_neg, Int.sub_eq_add_neg]

/-! ## Products and quotients -/

theorem mul_finite {x y : F32} (hx : isFinite x = true) (hy : isFinite y = true) :
    mul x y = ofMag (signBit x != signBit y) (roundMag (mag x * mag y) oneOrd) := by
  unfold mul
  simp [not_isNaN_of_isFinite hx, not_isNaN_of_isFinite hy, not_isInf_of_isFinite hx, not_isInf_of_isFinite hy]

theorem div_finite {x y : F32} (hx : isFinite x = true) (hy : isFinite y = true) (h : mag y ≠ 0) :
    div x y = ofMag (signBit x != signBit y) (roundMag (mag x * oneOrd) (mag y)) := by
  unfold div
  simp [not_isNaN_of_isFinite hx, not_isNaN_of_isFinite hy, not_isInf_of_isFinite hx, not_isInf_of_isFinite hy, h]

end Sys2Proof.Fp
end

