-- ==== Sys2Proof/Laws/PerInstr.lean ====
section
/-! SUPPORT. Laws/PerInstr.lean: the encoding of each instruction, one lemma per constructor: a command travels as a write to CMD
of a word the opcode table admits; a bus instruction travels as its own header (spec/30_encoding.md R131, R132, R134). -/

namespace Sys2Proof.Laws.EncodedByTable

/-- The encoding of `i` is a write to CMD of a word of the opcode table, or `i` is the bus instruction it encodes. -/
def Statement (i : Instr) : Prop :=
  ((encode i).header = 0x1004 ∧ isCommandWord (encode i).data = true)
  ∨ (∃ a w, i = .regWr a w ∧ encode i = ⟨1#1 ++ a, w⟩) ∨ ∃ a, i = .regRd a ∧ encode i = ⟨0#1 ++ a, 0⟩

end Sys2Proof.Laws.EncodedByTable

namespace Sys2Proof.Laws

/-- Every voice and unit: the three constraints R134 puts on the fields of a row hold of the word. -/
theorem encodedByTable_withUnit (opc : BitVec 8) (f : BitVec 1)
    (h : ∀ (v : VoiceIdx) (u : UnitIdx), isCommandWord (commandWord opc (voiceField v) (unitField u) 0 f) = true)
    (v : VoiceIdx) (u : UnitIdx) {i : Instr} (e : encode i = carryCommand (commandWord opc (voiceField v) (unitField u) 0 f)) :
    EncodedByTable.Statement i := by
  refine .inl ⟨?_, ?_⟩
  · rw [e]; rfl
  · rw [e]; exact h v u

end Sys2Proof.Laws

namespace Sys2Proof.Laws.EncodedByTable

theorem nop : Statement (.nop) :=
  .inl ⟨rfl, by decide⟩

theorem tick : Statement (.tick) :=
  .inl ⟨rfl, by decide⟩

theorem reset : Statement (.reset) :=
  .inl ⟨rfl, by decide⟩

theorem clear : Statement (.clear) :=
  .inl ⟨rfl, by decide⟩

theorem phSetfreq (v : VoiceIdx) (u : UnitIdx) : Statement (.phSetfreq v u) :=
  encodedByTable_withUnit 0x10 0 (by decide) v u rfl

theorem phProcess (v : VoiceIdx) (u : UnitIdx) : Statement (.phProcess v u) :=
  encodedByTable_withUnit 0x11 0 (by decide) v u rfl

theorem phSetsr (v : VoiceIdx) (u : UnitIdx) : Statement (.phSetsr v u) :=
  encodedByTable_withUnit 0x12 0 (by decide) v u rfl

theorem smInit (v : VoiceIdx) (u : UnitIdx) (mode : SmoothMode) : Statement (.smInit v u mode) :=
  encodedByTable_withUnit 0x18 (modeField mode) (by cases mode <;> decide) v u rfl

theorem smSet (v : VoiceIdx) (u : UnitIdx) (imm : Bool) : Statement (.smSet v u imm) :=
  encodedByTable_withUnit 0x19 (immField imm) (by cases imm <;> decide) v u rfl

theorem smProcess (v : VoiceIdx) (u : UnitIdx) : Statement (.smProcess v u) :=
  encodedByTable_withUnit 0x1A 0 (by decide) v u rfl

theorem pdBend : Statement (.pdBend) :=
  .inl ⟨rfl, by decide⟩

theorem pdSync : Statement (.pdSync) :=
  .inl ⟨rfl, by decide⟩

theorem pdFormant : Statement (.pdFormant) :=
  .inl ⟨rfl, by decide⟩

theorem pdFold : Statement (.pdFold) :=
  .inl ⟨rfl, by decide⟩

theorem pmInject : Statement (.pmInject) :=
  .inl ⟨rfl, by decide⟩

theorem winEval (w : WindowMode) : Statement (.winEval w) :=
  .inl ⟨rfl, by cases w <;> decide⟩

theorem fnSin2pi : Statement (.fnSin2pi) :=
  .inl ⟨rfl, by decide⟩

theorem fnCos2pi : Statement (.fnCos2pi) :=
  .inl ⟨rfl, by decide⟩

theorem fnExp : Statement (.fnExp) :=
  .inl ⟨rfl, by decide⟩

theorem fnExp2 : Statement (.fnExp2) :=
  .inl ⟨rfl, by decide⟩

theorem rbPush (v : VoiceIdx) : Statement (.rbPush v) :=
  .inl ⟨rfl, by revert v; decide⟩

theorem rbPop (v : VoiceIdx) : Statement (.rbPop v) :=
  .inl ⟨rfl, by revert v; decide⟩

theorem regWr (addr : BitVec 12) (data : Word) : Statement (.regWr addr data) :=
  .inr (.inl ⟨addr, data, rfl, rfl⟩)

theorem regRd (addr : BitVec 12) : Statement (.regRd addr) :=
  .inr (.inr ⟨addr, rfl, rfl⟩)

end Sys2Proof.Laws.EncodedByTable
end

