-- ==== Sys2Proof/Tests/Slice0.lean ====
section
/-! SUPPORT. Tests/Slice0.lean: the well-formedness smoke tests, the decoding of words written out from the spec's encodings
(spec/95_test_vectors.md ENC-1 to ENC-39, spec/30_encoding.md R131, R132, R140), one-step tests whose expected values are the
spec's worked examples, and for every statement with hypotheses a concrete case that meets them. -/

set_option maxRecDepth 20000

namespace Sys2Proof.Tests

open Sys2Proof.Machine

/-! ## Well-formedness -/

theorem test_wf_command_word_is_no_register_write : (Instr.regWr 0x004 0x00000001).wellFormed = false := by decide
theorem test_wf_command_word_with_fields : (Instr.regWr 0x004 0x00012F19).wellFormed = false := by decide
theorem test_wf_window_word : (Instr.regWr 0x004 0x00008029).wellFormed = false := by decide
theorem test_wf_illegal_word_is_a_register_write : (Instr.regWr 0x004 0x0000C029).wellFormed = true := by decide
theorem test_wf_unit_three_is_a_register_write : (Instr.regWr 0x004 0x00003010).wellFormed = true := by decide
theorem test_wf_other_address : (Instr.regWr 0x00C 0x00000001).wellFormed = true := by decide

/-! ## Decoding of the spec's words -/

theorem test_decode_nop : decodeTableWord 32 0x00000000 = some .nop := by decide
theorem test_decode_tick : decodeTableWord 32 0x00000001 = some .tick := by decide
theorem test_decode_reset : decodeTableWord 32 0x00000002 = some .reset := by decide
theorem test_decode_clear : decodeTableWord 32 0x00000003 = some .clear := by decide
theorem test_decode_ph_setfreq : decodeTableWord 32 0x00001510 = some (.phSetfreq 5 1) := by decide
theorem test_decode_ph_process : decodeTableWord 32 0x00002F11 = some (.phProcess 15 2) := by decide
theorem test_decode_ph_setsr : decodeTableWord 32 0x00000012 = some (.phSetsr 0 0) := by decide
theorem test_decode_sm_init_lin : decodeTableWord 32 0x00011318 = some (.smInit 3 1 .linear) := by decide
theorem test_decode_sm_init_exp : decodeTableWord 32 0x00002218 = some (.smInit 2 2 .exponential) := by decide
theorem test_decode_sm_set : decodeTableWord 32 0x00001319 = some (.smSet 3 1 false) := by decide
theorem test_decode_sm_set_imm : decodeTableWord 32 0x00012019 = some (.smSet 0 2 true) := by decide
theorem test_decode_sm_process : decodeTableWord 32 0x0000131A = some (.smProcess 3 1) := by decide
theorem test_decode_pd_bend : decodeTableWord 32 0x00000020 = some .pdBend := by decide
theorem test_decode_pd_sync : decodeTableWord 32 0x00000021 = some .pdSync := by decide
theorem test_decode_pd_formant : decodeTableWord 32 0x00000022 = some .pdFormant := by decide
theorem test_decode_pd_fold : decodeTableWord 32 0x00000023 = some .pdFold := by decide
theorem test_decode_pm_inject : decodeTableWord 32 0x00000028 = some .pmInject := by decide
theorem test_decode_win_eval_none : decodeTableWord 32 0x00000029 = some (.winEval .flat) := by decide
theorem test_decode_win_eval_tri : decodeTableWord 32 0x00004029 = some (.winEval .triangle) := by decide
theorem test_decode_fn_sin2pi : decodeTableWord 32 0x0000002C = some .fnSin2pi := by decide
theorem test_decode_fn_cos2pi : decodeTableWord 32 0x0000002D = some .fnCos2pi := by decide
theorem test_decode_fn_exp : decodeTableWord 32 0x0000002E = some .fnExp := by decide
theorem test_decode_fn_exp2 : decodeTableWord 32 0x0000002F = some .fnExp2 := by decide
theorem test_decode_rb_push : decodeTableWord 32 0x00000230 = some (.rbPush 2) := by decide
theorem test_decode_rb_pop : decodeTableWord 32 0x00000F31 = some (.rbPop 15) := by decide
/-- ENC-37 `wr FREQ3`, the data word zero. -/
theorem test_decode_reg_wr : decodeTableWord 13 0x108C = some (.regWr 0x08C 0) := by decide
/-- ENC-38 `rd OUT_AUX15`. -/
theorem test_decode_reg_rd : decodeTableWord 13 0x017C = some (.regRd 0x17C) := by decide
/-- ENC-35: the request that carries a command is the command. -/
theorem test_decode_carried : decodeRequest ⟨0x1004, 0x00000230⟩ = .rbPush 2 := by decide
/-- ENC-21, 23: unassigned opcodes. -/
theorem test_decode_unassigned : decodeTableWord 32 0x00000004 = none ∧ decodeTableWord 32 0x0000002A = none := by decide
/-- ENC-24, 25: reserved bits. -/
theorem test_decode_reserved :
    decodeCommand 0x00020000 = .error .reservedBits ∧ decodeCommand 0x80000001 = .error .reservedBits := by decide
/-- ENC-26, 28, 31, 33: unused fields. -/
theorem test_decode_unused :
    decodeCommand 0x00000100 = .error .unusedField ∧ decodeCommand 0x00004010 = .error .unusedField
    ∧ decodeCommand 0x0001001A = .error .unusedField ∧ decodeCommand 0x00001130 = .error .unusedField := by decide
/-- ENC-27, 29: U = 3 and M = 3. -/
theorem test_decode_three :
    decodeCommand 0x00003010 = .error .unitThree ∧ decodeCommand 0x0000C029 = .error .windowThree := by decide

/-! ## Arithmetic (00_scope.md R14 to R23) -/

/-- 1/3, 4/3 and 5/3 as the ratio table gives them (10_state.md R50). -/
theorem test_div : Fp.div 0x3F800000 0x40400000 = 0x3EAAAAAB ∧ Fp.div 0x40800000 0x40400000 = 0x3FAAAAAB
    ∧ Fp.div 0x40A00000 0x40400000 = 0x3FD55555 := by decide
/-- The frac of -2^-30 rounds up to 1.0, and WRAP corrects it (R18, R19). -/
theorem test_wrap_correction : Fp.frac 0xB0800000 = 0x3F800000 ∧ Fp.wrap 0xB0800000 = 0 := by decide
/-- 0.1 x 10.0 rounds to 1.0 (43_pdo_block.md R234). -/
theorem test_mul_rounds : Fp.mul 0x3DCCCCCD 0x41200000 = 0x3F800000 := by decide
/-- inf - inf is the canonical NaN (R15). -/
theorem test_inf_sub : Fp.sub 0x7F800000 0x7F800000 = 0x7FC00000 := by decide

/-! ## One step -/

/-- A build with BLOCK_SIZE 4 and constant units behind the fixed points. -/
def build : Config.Params where
  blockGroups := 0
  taps2 := [0x3F000000, 0x3F000000]
  taps4 := []
  taps8 := []
  taps16 := []
  exp := fun _ => 0
  exp2 := fun _ => 0
  sin2pi := fun _ => 0
  cos2pi := fun _ => 0

def s0 : State := State.resetWith build

/-- The four lanes of a bank, each compared. -/
def lanesAre (x : Vector F32 4) (a b c d : F32) : Bool := x[0] == a && x[1] == b && x[2] == c && x[3] == d

/-- The operand banks set, OPD left at +0.0. -/
def withOps (a b c : Vector F32 4) : State := { s0 with opA := a, opB := b, opC := c }

/-- 40_phasor.md R165: the example lanes, one call. -/
theorem test_ph_process :
    let t := phProcess 0 0 (setPhasor s0 0 0 ⟨#v[0x3F000000, 0x3F200000, 0x3F400000, 0x3F600000], 0, 0x3F000000, 0x41000000⟩)
    lanesAre t.res 0x3F000000 0x3F200000 0x3F400000 0x3F600000
    ∧ lanesAre (getPhasor t 0 0).lane 0x3F800000 0x3F900000 0x3FA00000 0x3FB00000 := by decide
/-- 40_phasor.md R164: the example with fs 8.0 and frequency 1.0. -/
theorem test_ph_setfreq :
    let t := phSetfreq 0 0 { setPhasor s0 0 0 ⟨#v[0, 0, 0, 0], 0, 0, 0x41000000⟩ with opA := #v[0x3F800000, 0, 0, 0] }
    (getPhasor t 0 0).inc = 0x3F000000 ∧ lanesAre (getPhasor t 0 0).lane 0 0x3E000000 0x3E800000 0x3EC00000 := by decide
/-- 40_phasor.md R167: a rate of zero is refused. -/
theorem test_ph_setsr_illegal : phSetsr 0 0 s0 = { s0 with flags := 0x08, lastCode := 4 } := by decide
/-- 41_smoother.md R188: the example ramp is set. -/
theorem test_sm_set :
    let t := smSet 0 0 false
      { setSmoother s0 0 0 ⟨0, 0, 0, 0, 0, 0x3F000000, .linear, 0x41000000⟩ with opA := #v[0x3F800000, 0, 0, 0] }
    (getSmoother t 0 0).step = 0x3E800000 ∧ (getSmoother t 0 0).remain = 4 := by decide
/-- 41_smoother.md R189: the last call of that ramp. -/
theorem test_sm_process_last :
    let t := smProcess 0 0 (setSmoother s0 0 0 ⟨0x3F400000, 0x3F800000, 0, 0x3E800000, 1, 0x3F000000, .linear, 0x41000000⟩)
    t.res[0] = 0x3F800000 ∧ (getSmoother t 0 0).remain = 0 := by decide
/-- 41_smoother.md R187: a negative time constant is refused. -/
theorem test_sm_init_illegal :
    let s := { s0 with opA := #v[0x41000000, 0xBF000000, 0, 0] }
    smInit build 0 0 .linear s = { s with flags := 0x08, lastCode := 4 } := by decide
/-- 42_waveshaper.md R207: amount 0 keeps the phase, and a zero phase above the threshold gives -0.0 (here with EXP(s) = 0). -/
theorem test_pd_bend :
    lanesAre (pdBend build { s0 with opA := #v[0x3E800000, 0, 0, 0], opB := #v[0, 0x3F000000, 0, 0] }).res
      0x3E800000 0x80000000 0 0 := by decide
/-- 42_waveshaper.md R208: 0.25 and f32(0.1) at amount 1. -/
theorem test_pd_sync :
    lanesAre (pdSync build { s0 with opA := #v[0x3E800000, 0x3DCCCCCD, 0, 0], opB := #v[0x3F800000, 0x3F800000, 0, 0] }).res
      0 0x3E4CCCD0 0 0 := by decide
/-- 42_waveshaper.md R209: 0.5, 0.75 and 0.25 at amount 1. -/
theorem test_pd_formant :
    let s := withOps #v[0x3F000000, 0x3F400000, 0x3E800000, 0] (Vector.replicate 4 0x3F800000) #v[0, 0, 0, 0]
    lanesAre (pdFormant build s).res 0x3F000000 0 0 0 := by decide
/-- 42_waveshaper.md R210: f32(0.1) at amount 1. -/
theorem test_pd_fold :
    lanesAre (pdFold build { s0 with opA := #v[0x3DCCCCCD, 0, 0, 0], opB := #v[0x3F800000, 0, 0, 0] }).res
      0x3E4CCCD0 0 0 0 := by decide
/-- Log 12: at amount 0 the pseudocode of Fold takes 1 - 2^-24 to +0.0. -/
theorem test_pd_fold_last_phase : fold build 0x3F7FFFFF 0 = 0 ∧ fold build 0x3F7FFFFE 0 = 0x3F7FFFFE := by decide
/-- 43_pdo_block.md R234: both examples, one ratio each. -/
theorem test_pm_inject :
    let s := withOps #v[0x3F000000, 0, 0, 0] #v[0x3E800000, 0, 0, 0] #v[0x3DCCCCCD, 0, 0, 0]
    let t := withOps #v[0x3E000000, 0, 0, 0] #v[0x3F400000, 0, 0, 0] #v[0x3E4CCCCD, 0, 0, 0]
    (pmInject build s).res[0] = 0x3F000000 ∧ (pmInject build { t with ratioIdx := 0 }).res[0] = 0x3E000000 := by decide
/-- 43_pdo_block.md R235: the triangle and sawtooth examples. -/
theorem test_win_eval :
    let s := { s0 with opA := #v[0, 0x3E800000, 0x3F000000, 0x3F400000] }
    lanesAre (winEval .triangle s).res 0 0x3F000000 0x3F800000 0x3F000000
    ∧ lanesAre (winEval .sawtooth s).res 0x3F800000 0x3F400000 0x3F000000 0x3E800000 := by decide
/-- 42_waveshaper.md R211, R212: the quarter points. -/
theorem test_fn_trig :
    let s := { s0 with opA := #v[0, 0x3E800000, 0x3F000000, 0x3F400000] }
    lanesAre (fnSin2pi build s).res 0 0x3F800000 0 0xBF800000
    ∧ lanesAre (fnCos2pi build s).res 0x3F800000 0 0xBF800000 0 := by decide
/-- 42_waveshaper.md R213, R214: fixed points. -/
theorem test_fn_exp :
    let s := { s0 with opA := #v[0, 0x80000000, 0xFF800000, 0x7F800001] }
    let t := { s0 with opA := #v[0, 0x3F800000, 0x40A00000, 0xFFC00000] }
    lanesAre (fnExp build s).res 0x3F800000 0x3F800000 0 0x7FC00000
    ∧ lanesAre (fnExp2 build t).res 0x3F800000 0x40000000 0x42000000 0x7FC00000 := by decide
/-- 44_ring_buffer.md R267, R268: push one, pop it, pop again. -/
theorem test_rings :
    let a := rbPush build 2 { s0 with opA := #v[0x3F000000, 0, 0, 0] }
    let b := rbPop build 2 a
    let c := rbPop build 2 b
    (getPmq a 2).n = 1 ∧ b.res[0] = 0x3F000000 ∧ (getPmq b 2).n = 0 ∧ c.res[0] = 0 ∧ statusWord c = 0x00060020 := by decide
/-- 46_engine.md R300: the first TICK after reset at 3000 Hz. -/
theorem test_tick :
    let t := tick build { s0 with freq := s0.freq.set 0 0x453B8000, srChanged := true }
    t.outPri[0] = 0 ∧ t.outAux[0] = 0x40A00000 ∧ t.outq.n = 3 ∧ statusWord t = 0x00060020 := by decide
/-- 46_engine.md R312: a CLEAR empties what a ring held. -/
theorem test_clear : (getPmq (clearBuffers build (setPmq s0 3 ⟨[(0, 0x3F800000)], 0, 1⟩)) 3).n = 0 := by decide
/-- 46_engine.md R310: a RESET keeps the time constant and zeroes the value. -/
theorem test_reset :
    let t := softReset build (setSmoother s0 1 2 ⟨0x3F000000, 0x3F000000, 0, 0, 0, 0x3F000000, .linear, 0x41000000⟩)
    (getSmoother t 1 2).value = 0 ∧ (getSmoother t 1 2).tc = 0x3F000000 ∧ (getSmoother t 1 2).fs = 0x473B8000 := by decide
/-- 46_engine.md R314: `wr OS_FACTOR, 3` gives STATUS = 0x00010001. -/
theorem test_reg_wr_illegal : statusWord (busWrite build 0x010 3 s0) = 0x00010001 := by decide
/-- 30_encoding.md ENC-21: an unassigned opcode gives STATUS = 0x00020002. -/
theorem test_cmd_ill : statusWord (busWrite build 0x004 4 s0) = 0x00020002 := by decide
/-- 46_engine.md R315: `rd 0x048` returns 0 and raises BUS_ERR. -/
theorem test_reg_rd_unmapped :
    busRead 0x048 { s0 with readData := 7 } = { s0 with readData := 0, flags := 0x04, lastCode := 3 } := by decide
/-- 45_decimation_src.md R290: the worked example. -/
theorem test_decimate :
    decimateOut [0x3F000000, 0x3F000000] 2 4 [0]
      [0, 0x3F800000, 0x40000000, 0x40400000, 0x40800000, 0x40A00000, 0x40C00000, 0x40E00000]
      = [0x3F000000, 0x40200000, 0x40900000, 0x40D00000]
    ∧ decimateHist [0x3F000000, 0x3F000000] [0] [0x40C00000, 0x40E00000] = [0x40E00000] := by decide

/-! ## The hypotheses of the statements are met

One theorem for each statement of Certificates/Slice0/Obligations.lean with hypotheses, named after it: a concrete case that
meets all the hypotheses of a clause, for each clause and at the ends of its ranges. -/

/-- The reset state with phasor 0 of voice 0 replaced. -/
def withPhasor (P : Phasor) : State := setPhasor State.reset 0 0 P

/-- The reset state with smoother 0 of voice 0 replaced. -/
def withSmoother (S : Smoother) : State := setSmoother State.reset 0 0 S

/-- The reset state with the ring of voice 0 replaced. -/
def withRing (q : Machine.Ring F32) : State := setPmq State.reset 0 q

/-- A state that has something to lose: one event, 16 channels, every smoother at coefficient 1. -/
def busy : State :=
  { State.reset with
    flags := 0x04, lastCode := 3, channels := 16
    voices := Vector.replicate 16
      ⟨Vector.replicate 3 ⟨Vector.replicate 4 0, 0, 0, 0x473B8000⟩,
       Vector.replicate 3 ⟨0, 0, 0x3F800000, 0, 0, 0x3C23D70A, .exponential, 0x473B8000⟩, Ring.empty F32⟩ }

/-- One slot in use, the ring proper. -/
theorem one_slot_wf {cap : Nat} (h : 0 < cap) : RingWf (0 : F32) cap ⟨[(0, 0x3F800000)], 0, 1⟩ :=
  ⟨by decide, by simpa using h, h, h⟩

theorem witness_DecodeOfEncode :
    (Instr.regWr 0x004 0xFFFFFFFF).wellFormed = true ∧ (Instr.winEval .sawtooth).wellFormed = true := by decide
theorem witness_CommandWordsAreTheTable :
    (decodeCommand 0x00012F19).toOption = some (.smSet 15 2 true) ∧ isCommandWord 0x00012F19 = true := by decide
theorem witness_CommandWrites :
    (decodeCommand 0x00000F31).toOption = some (.rbPop 15) ∧ isCommandWord 0x00000032 = false := by decide
theorem witness_StepRunsInstruction :
    (issueNext (.request (encode .tick)) State.reset).inbox = .request (encode .tick) :: [] ∧ Instr.tick.wellFormed = true :=
  ⟨rfl, rfl⟩
theorem witness_TableWordsRun :
    decodeTableWord 32 0x00000020 = some .pdBend ∧ decodeTableWord 13 0x1FFF = some (.regWr 0xFFF 0) := by decide
theorem witness_StepWithoutRequest : State.reset.inbox = [] ∧ (issueNext .hardReset State.reset).inbox = .hardReset :: [] :=
  ⟨rfl, rfl⟩
theorem witness_MisalignedRequests :
    (0x001 : BitVec 12).extractLsb' 0 2 ≠ 0 ∧ (0xFFF : BitVec 12).extractLsb' 0 2 ≠ 0 := by decide
theorem witness_UnmappedRequests :
    ∀ a ∈ [(0x048 : BitVec 12), 0x07C, 0x210, 0xFFC],
      a.extractLsb' 0 2 = 0 ∧ (0x048 ≤ a ∧ a ≤ 0x07C ∨ 0x210 ≤ a) := by decide
theorem witness_ReadOnlyWrites :
    ∀ a ∈ [(0x000 : BitVec 12), 0x03C, 0x040, 0x044, 0x100, 0x1BC, 0x200, 0x20C],
      a.extractLsb' 0 2 = 0 ∧
      (a = 0x000 ∨ a = 0x03C ∨ a = 0x040 ∨ a = 0x044 ∨ 0x100 ≤ a ∧ a ≤ 0x1BC ∨ 0x200 ≤ a ∧ a ≤ 0x20C) := by decide
theorem witness_ModeWrites :
    (3 : Word) ∉ [1#32, 2#32, 4#32, 8#32, 16#32] ∧ 1 ≤ (1 : Word).toNat ∧ (16 : Word).toNat ≤ 16 ∧ 16 < (17 : Word).toNat
    ∧ 1 < (2 : Word).toNat ∧ 2 < (3 : Word).toNat ∧ 3 < (4 : Word).toNat ∧ 15 < (16 : Word).toNat := by decide
theorem witness_AlgorithmWrites : 3 < (4 : Word).toNat ∧ 3 < (0xFFFFFFFF : Word).toNat := by decide
theorem witness_RepeatedWrites :
    (0x018 : BitVec 12) ≠ 0x004 ∧ (0x018 : BitVec 12) ≠ 0x008 ∧ (0x018 : BitVec 12) ≠ 0x00C
    ∧ exec (.regWr 0x018 2) State.reset = .next (busWrite Config.build 0x018 2 State.reset) := ⟨by decide, by decide, by decide, rfl⟩
/-- A STATUS write that clears the one bit set, and a RESET. -/
theorem witness_StickyBitsStay :
    (∃ t, step (issueNext (.request ⟨0x1008, 0x04⟩) busy) = .next t ∧ t.flags[(2 : Fin 8)] = false ∧ t.flags = 0)
    ∧ busy.flags[(2 : Fin 8)] = true ∧ busy.flags ≠ 0 ∧ exec .reset busy = .next (softReset Config.build busy) :=
  ⟨⟨_, rfl, by decide, by decide⟩, by decide, by decide, rfl⟩
theorem witness_LatchedRatesChangeAtTick :
    ∃ t, step (issueNext .hardReset { State.reset with fsActive := 0x3F800000 }) = .next t ∧ t.fsActive ≠ 0x3F800000 :=
  ⟨_, rfl, by decide⟩
theorem witness_CommandsKeepHostRegisters :
    (∀ (a : BitVec 12) (w : Word), Instr.tick ≠ .regWr a w) ∧ exec .tick busy = .next (tick Config.build busy) :=
  ⟨fun _ _ h => (by cases h), rfl⟩
theorem witness_PureCommandsWriteOnlyRes :
    Instr.pmInject ∈ [.pdBend, .pdSync, .pdFormant, .pdFold, .fnSin2pi, .fnCos2pi, .fnExp, .fnExp2, .pmInject]
    ∧ State.reset.opA = busy.opA ∧ State.reset.opB = busy.opB ∧ State.reset.opC = busy.opC ∧ State.reset.opD = busy.opD
    ∧ State.reset.ratioIdx = busy.ratioIdx := ⟨by simp, rfl, rfl, rfl, rfl, rfl⟩
/-- The phasor of 40_phasor.md R164, fs 8.0 and increment 0.5, one cycle in eight samples: after its frequency set (0), and then
at odd (1) and even calls (2). -/
def eighths (k : Fin 3) : Phasor :=
  { lane := #v[#v[0, 0x3E000000, 0x3E800000, 0x3EC00000], #v[0x3F000000, 0x3F200000, 0x3F400000, 0x3F600000],
      #v[0x3F800000, 0x3F900000, 0x3FA00000, 0x3FB00000]][k]
    freq := 0x3F800000, inc := 0x3F000000, fs := 0x41000000 }

theorem eighths_set : setFrequency ⟨#v[0, 0, 0, 0], 0, 0, 0x41000000⟩ 0x3F800000 = eighths 0 := by decide +kernel

theorem eighths_next : ∀ k : Fin 3, phasorNext (eighths k) = eighths (if k = 1 then 2 else 1) := by decide +kernel

theorem eighths_calls (c : Nat) : ∃ k, phasorNext^[c] (eighths 0) = eighths k := by
  induction c with
  | zero => exact ⟨0, rfl⟩
  | succ c ih => obtain ⟨k, h⟩ := ih; exact ⟨_, by rw [Function.iterate_succ_apply', h, eighths_next]⟩

theorem eighths_exact : ∀ (k : Fin 3) (i : LaneIdx), Fp.ord (eighths (if k = 1 then 2 else 1)).lane[i]
    = Fp.ord (phasorOut (eighths k))[i] + Fp.ord (eighths 0).inc := by decide

/-- The largest increment and lane below the bounds, a frequency that gives an increment below 1, and a phasor all of whose
sums are exact, of period 8. -/
theorem witness_PhasorRange :
    (let s := withPhasor ⟨#v[0, 0x3F800000, 0x3FFFFFFF, 0x3FFFFFFF], 0, 0x3F7FFFFF, 0x41000000⟩
     inPhase (getPhasor s 0 0).inc = true ∧ (∀ i : LaneIdx, inHeld (getPhasor s 0 0).lane[i] = true)
     ∧ inPhase (Fp.div (Fp.mul ({ s with opA := #v[0x3F800000, 0, 0, 0] }).opA[0] 0x40800000) (getPhasor s 0 0).fs) = true
     ∧ inHeld (getPhasor s 0 0).lane[0] = true)
    ∧ (let P := eighths 0
       setFrequency ⟨#v[0, 0, 0, 0], 0, 0, 0x41000000⟩ 0x3F800000 = P ∧ inPhase P.inc = true ∧ inHeld 0 = true
       ∧ (∀ i : LaneIdx, 4 * Fp.ord P.lane[i] = 4 * Fp.ord (basePhase 0) + i.val * Fp.ord P.inc)
       ∧ (∀ (c : Nat) (i : LaneIdx), Fp.ord (phasorNext^[c + 1] P).lane[i]
           = Fp.ord (phasorOut (phasorNext^[c] P))[i] + Fp.ord P.inc)
       ∧ Fp.ord P.inc * Fp.ord P.fs = 4 * Fp.ord 0x3F800000 * 2 ^ 149 ∧ 8 * Fp.ord 0x3F800000 = Fp.ord P.fs) := by
  refine ⟨by decide, eighths_set, by decide, by decide, by decide, fun c i => ?_, by decide, by decide⟩
  obtain ⟨k, h⟩ := eighths_calls c
  rw [Function.iterate_succ_apply', h, eighths_next]
  exact eighths_exact k i
/-- A static lane, a negative lane, NaN lanes, a lane of exactly 2.0, infinite lanes. -/
theorem witness_PhasorCornerCases :
    (exec (.phProcess 0 0) State.reset = .next (phProcess 0 0 State.reset))
    ∧ (let P := getPhasor (withPhasor ⟨#v[0x3F7FFFFF, 0x7F800000, 0xFF800000, 0], 0, 0, 0x41000000⟩) 0 0
       P.inc = 0 ∧ inPhase P.lane[(0 : LaneIdx)] = true ∧ P.lane[(0 : LaneIdx)].msb = false
       ∧ P.lane[(1 : LaneIdx)] = 0x7F800000 ∧ P.lane[(2 : LaneIdx)] = 0xFF800000)
    ∧ (let P := getPhasor (withPhasor ⟨#v[0x80000001, 0x7F800001, 0x7FC00000, 0x40000000], 0, 0xBF000000, 0x41000000⟩) 0 0
       Fp.lt P.inc 0 = true ∧ Fp.lt P.lane[(0 : LaneIdx)] 0 = true ∧ Fp.isNaN P.lane[(1 : LaneIdx)] = true
       ∧ P.lane[(2 : LaneIdx)] = 0x7FC00000 ∧ Fp.isFinite P.lane[(3 : LaneIdx)] = true
       ∧ Fp.ge P.lane[(3 : LaneIdx)] 0x40000000 = true) :=
  ⟨rfl, by decide, by decide⟩
/-- The frequencies +0.0 and NaN, and both infinities, at a finite rate above 0. -/
theorem witness_PhasorCornerCases_frequency :
    exec (.phSetfreq 0 0) State.reset = .next (phSetfreq 0 0 State.reset)
    ∧ (let P := getPhasor State.reset 0 0
       Fp.gt P.fs 0 = true ∧ Fp.isFinite P.fs = true ∧ Fp.isFinite P.lane[0] = true)
    ∧ State.reset.opA[0] = 0 ∧ Fp.isNaN ({ State.reset with opA := #v[0x7FC00000, 0, 0, 0] }).opA[0] = true
    ∧ ({ State.reset with opA := #v[0x7F800000, 0, 0, 0] }).opA[0] = 0x7F800000
    ∧ ({ State.reset with opA := #v[0xFF800000, 0, 0, 0] }).opA[0] = 0xFF800000 :=
  ⟨rfl, by decide, by decide, by decide, by decide, by decide⟩
theorem witness_FrequencyChangeKeepsPhase :
    let s := withPhasor ⟨#v[0x3FFFFFFF, 0, 0, 0], 0, 0, 0x41000000⟩
    inHeld (getPhasor s 0 0).lane[0] = true ∧ (getPhasor s 0 0).lane[0].msb = false
    ∧ exec (.phSetfreq 0 0) s = .next (phSetfreq 0 0 s) ∧ Fp.isFinite (getPhasor (phSetfreq 0 0 s) 0 0).inc = true
    ∧ exec (.phProcess 0 0) s = .next (phProcess 0 0 s)
    ∧ exec (.phProcess 0 0) (phSetfreq 0 0 s) = .next (phProcess 0 0 (phSetfreq 0 0 s)) :=
  ⟨by decide, by decide, rfl, by decide, rfl, rfl⟩
theorem witness_SmootherCommands :
    (getSmoother State.reset 0 0).mode = .exponential
    ∧ (getSmoother (withSmoother ⟨0, 0, 0, 0, 0, 0x3F000000, .linear, 0x41000000⟩) 0 0).mode = .linear := by decide
/-- The example ramp of 41_smoother.md R188, D = 4.0, at its fourth call. -/
theorem witness_LinearRampReachesTarget :
    let S : Smoother := ⟨0, 0, 0, 0, 0, 0x3F000000, .linear, 0x41000000⟩
    S.mode = .linear ∧ Fp.gt (Fp.mul S.tc S.fs) 0 = true ∧ Fp.isFinite (Fp.mul S.tc S.fs) = true
    ∧ Fp.ceilSat32 (Fp.mul S.tc S.fs) ≤ 4 := by decide
/-- A ramp up and a ramp down over the same smoother, and one that is at its target. -/
theorem witness_LinearRampMonotone :
    let S : Smoother := ⟨0x3F000000, 0, 0, 0, 0, 0x3F000000, .linear, 0x41000000⟩
    S.mode = .linear ∧ Fp.gt (Fp.mul S.tc S.fs) 0 = true ∧ Fp.isFinite (Fp.mul S.tc S.fs) = true
    ∧ Fp.isFinite S.value = true ∧ Fp.isFinite 0x3F800000 = true ∧ Fp.isFinite 0xFF7FFFFF = true
    ∧ Fp.le S.value 0x3F800000 = true ∧ Fp.le 0xFF7FFFFF S.value = true ∧ Fp.le S.value S.value = true := by decide
theorem witness_ExponentialStaysInUnit :
    let S := getSmoother (withSmoother ⟨0, 0x3F800000, 0x3F800000, 0, 0, 0, .exponential, 0x473B8000⟩) 0 0
    S.mode = .exponential ∧ inUnit S.value = true ∧ inUnit S.target = true ∧ inUnit S.coef = true := by decide
theorem witness_IdentityAtZeroAmount :
    let s := { State.reset with opA := #v[0, 0x3F7FFFFE, 0x3F7FFFFF, 1] }
    (∀ i : LaneIdx, s.opB[i] = 0) ∧ ∀ i : LaneIdx, s.opA[i].toNat < 0x3F800000 := by decide
theorem witness_ShapeRange :
    (Fp.isFinite (Fp.mul 0x3F000000 (Fp.add 0x3F800000 (amountSync build 0))) = true
      ∧ Fp.isFinite (Fp.add 0x40A00000 (Fp.mul (Fp.sub 0x40A00000 0x3F000000) (amountSync build 0))) = true
      ∧ Fp.isFinite (Fp.mul 0x7F7FFFFF (amountFold build 0)) = true)
    ∧ (let s := { State.reset with opA := #v[0, 0x3F7FFFFF, 0x80000000, 1], opB := #v[0, 0x3F800000, 0x80000000, 0x3F000000] }
       ∀ i : LaneIdx, inPhase s.opA[i] = true ∧ inUnit s.opB[i] = true) := ⟨by decide, by decide⟩
/-- Bend at the least amount above 1e-5 and at 1.0. -/
theorem witness_ShapeRange_bend :
    Fp.gt 0x3727C5AD 0x3727C5AC = true ∧ Fp.le 0x3727C5AD 0x3F800000 = true ∧ Fp.gt 0x3F800000 0x3727C5AC = true
    ∧ Fp.le 0x3F800000 0x3F800000 = true ∧ inUnit 0 = true ∧ inUnit 0x3F800000 = true := by decide
theorem witness_UnitFixedPoints :
    Fp.isFinite 0 = true ∧ Fp.isFinite 0x3F800000 = true ∧ Fp.frac 0 = Fp.frac 0x3F800000 ∧ Fp.isFinite 0x7F800000 = false
    ∧ Fp.isNaN 0x7F800001 = true ∧ Fp.le 0xFF800000 0 = true ∧ Fp.le 0 0x80000000 = true ∧ Fp.le 0x40A00000 0x40A00000 = true
    ∧ Fp.isFinite 0xC1200000 = true ∧ Fp.le 0xC1200000 0xC1200000 = true ∧ Fp.le 0xC1200000 0 = true
    ∧ Fp.isFinite 0x40A00000 = true ∧ Fp.le 0 0x40A00000 = true := by decide
theorem witness_PmIdentity :
    let s := { State.reset with opA := #v[0, 0x3F7FFFFF, 1, 0x3F000000], opB := #v[0x3E800000, 0xFF7FFFFF, 0, 0] }
    ∀ i : LaneIdx, s.opC[i] = 0 ∧ s.opD[i] = 0 ∧ Fp.isFinite s.opB[i] = true ∧ s.opA[i].toNat < 0x3F800000 := by decide
theorem witness_WindowValues :
    let s := { State.reset with opA := #v[0, 0x3F7FFFFF, 0x80000000, 0x3F000000] }
    ∀ i : LaneIdx, inPhase s.opA[i] = true := by decide
theorem witness_PureSineLane :
    let P : Patch := ⟨.fold, .sync, .after, .flat, .quadrature, 0, 0, 0, Lit.ratio 15⟩
    P.window = .flat ∧ P.aux = .quadrature ∧ P.r = Lit.ratio 15 ∧ (0x3F7FFFFE : F32).toNat < 0x3F800000
    ∧ Fp.isFinite 0x3F000000 = true ∧ (0x3F7FFFFE : F32) ≠ 0x3F7FFFFF := ⟨rfl, rfl, rfl, by decide, by decide, by decide⟩
/-- A full ring, and a proper ring with room. -/
theorem witness_RbPushResult :
    (getPmq (withRing ⟨[], 0, Units.capPm Config.build⟩) 0).n = Units.capPm Config.build
    ∧ RingWf (0 : F32) (Units.capPm Config.build) (getPmq (withRing ⟨[(0, 0x3F800000)], 0, 1⟩) 0)
    ∧ (getPmq (withRing ⟨[(0, 0x3F800000)], 0, 1⟩) 0).n < Units.capPm Config.build := by
  refine ⟨by simp [withRing], ?_, ?_⟩
  · simpa [withRing] using one_slot_wf (capPm_pos _)
  · have := blockSize_pos Config.build
    simp only [withRing, getPmq_setPmq_same, Units.capPm]; omega
/-- An empty ring, and a proper ring that holds one sample. -/
theorem witness_RbPopResult :
    (getPmq State.reset 0).n = 0
    ∧ RingWf (0 : F32) (Units.capPm Config.build) (getPmq (withRing ⟨[(0, 0x3F800000)], 0, 1⟩) 0)
    ∧ (getPmq (withRing ⟨[(0, 0x3F800000)], 0, 1⟩) 0).n ≠ 0 := by
  refine ⟨by decide, ?_, by decide⟩
  simpa [withRing] using one_slot_wf (capPm_pos _)
theorem witness_NopResult : (0x00000100 : Word).extractLsb' 0 8 = 0 ∧ (0x00000100 : Word) ≠ 0 := by decide
theorem witness_ResetAndClearResult : Fp.gt (Fp.mul busy.fsActive (Fp.ofNat (Lit.osNat busy.osActive))) 0 = true := by decide
/-- After reset no ring holds a sample. -/
theorem witness_TickResult : ∀ v : VoiceIdx, (getPmq State.reset v).n ≤ Units.capPm Config.build := by
  intro v
  have h : (getPmq State.reset v).n = 0 := by revert v; decide
  omega
/-- The state `busy` with 15 channels and a pending factor, and with a pending rate as well or not. -/
def pending (rate : Bool) : State := { busy with channels := 15, osFactor := .x16, srChanged := rate }

/-- The rate in force after the TICK is above 0. -/
theorem pending_rate (rate : Bool) :
    Fp.gt (Fp.mul (tick Config.build (pending rate)).fsActive (Fp.ofNat (Lit.osNat (tick Config.build (pending rate)).osActive))) 0
      = true := by
  unfold tick
  rw [(tickAudio_rates _ _ _).1, (tickAudio_rates _ _ _).2]
  rcases osLatch_cases Config.build (pending rate) with ⟨h, _⟩ | ⟨_, h⟩
  · exact absurd h (by cases rate <;> decide)
  · rw [h]
    cases rate
    · rcases srLatch_cases Config.build (mapVoices (voiceSetSampleRate Config.build
        (Fp.mul (pending false).fsActive (osF32 (pending false).osFactor)))
        (clearBuffers Config.build { pending false with osActive := (pending false).osFactor })) with ⟨_, g⟩ | ⟨g, _⟩
      · rw [g, mapVoices_fsActive, mapVoices_osActive, clearBuffers_fsActive, clearBuffers_osActive]; decide
      · simp [pending, busy] at g
    · rcases srLatch_cases Config.build (mapVoices (voiceSetSampleRate Config.build
        (Fp.mul (pending true).fsActive (osF32 (pending true).osFactor)))
        (clearBuffers Config.build { pending true with osActive := (pending true).osFactor })) with ⟨g, _⟩ | ⟨_, g⟩
      · simp [pending, busy] at g
      · rw [g, mapVoices_fsActive, mapVoices_osActive, clearBuffers_fsActive, clearBuffers_osActive]
        simp only [mapVoices_osActive, clearBuffers_osActive, mapVoices_sampleRate, clearBuffers_sampleRate]
        decide

/-- Every ring of `busy` is proper. -/
theorem busy_rings : RingsWf Config.build busy := by
  refine ⟨fun v => ?_, ringWf_empty _ (capOut_pos _)⟩
  have h : getPmq busy v = Ring.empty F32 := by revert v; decide
  rw [h]; exact ringWf_empty _ (capPm_pos _)

/-- A pending factor with and without a pending rate, at a new rate above 0; the last active voice with a proper ring, and the
first voice that is not active. -/
theorem witness_TickLatchSetsUnitRates :
    ∀ rate : Bool, let s := pending rate
      let t := tick Config.build s
      exec .tick s = .next t ∧ s.osFactor ≠ s.osActive ∧ s.srChanged = rate
      ∧ Fp.gt (Fp.mul t.fsActive (Fp.ofNat (Lit.osNat t.osActive))) 0 = true
      ∧ (14 : VoiceIdx).val < s.channels.toNat ∧ RingWf (0 : F32) (Units.capPm Config.build) (getPmq s 14)
      ∧ s.channels.toNat ≤ (15 : VoiceIdx).val := by
  intro rate
  exact ⟨rfl, by cases rate <;> decide, rfl, pending_rate rate, by cases rate <;> decide, busy_rings.pmq 14,
    by cases rate <;> decide⟩
theorem witness_TickLevel : exec .tick busy = .next (tick Config.build busy) := rfl
/-- Voice 1 is not active after reset; a TICK that finds a frame for voice 0; and a TICK that latches a factor and a rate, with
the last active voice and a channel of no active voice. -/
theorem witness_TickOutput :
    let s := { State.reset with outq := ⟨[], 0, 1⟩ }
    exec .tick s = .next (tick Config.build s) ∧ s.channels.toNat ≤ (1 : VoiceIdx).val ∧ s.osFactor = s.osActive
    ∧ s.srChanged = false ∧ s.outq.n ≠ 0 ∧ (0 : VoiceIdx).val < s.channels.toNat
    ∧ (let s := pending true
       let t := tick Config.build s
       exec .tick s = .next t ∧ s.osFactor ≠ s.osActive ∧ s.srChanged = true
       ∧ Fp.gt (Fp.mul t.fsActive (Fp.ofNat (Lit.osNat t.osActive))) 0 = true ∧ (14 : VoiceIdx).val < s.channels.toNat
       ∧ RingWf (0 : F32) (Units.capPm Config.build) (getPmq s 14) ∧ RingWf zeroFrame (Units.capOut Config.build) s.outq
       ∧ s.channels.toNat ≤ (30 : Fin 32).val / 2) :=
  ⟨rfl, by decide, rfl, rfl, by decide, by decide, rfl, by decide, rfl, pending_rate true, by decide, busy_rings.pmq 14,
    busy_rings.outq, by decide⟩
/-- Nothing pending and no frame, at os_active 1 and 4: the last active voice, and a channel of no active voice. -/
theorem witness_RenderTick :
    ∀ m ∈ [OsFactor.x1, OsFactor.x4],
      let s := { busy with channels := 15, osFactor := m, osActive := m }
      exec .tick s = .next (tick Config.build s) ∧ s.osFactor = s.osActive ∧ s.srChanged = false ∧ s.outq.n = 0
      ∧ (14 : VoiceIdx).val < s.channels.toNat ∧ RingWf (0 : F32) (Units.capPm Config.build) (getPmq s 14)
      ∧ RingWf zeroFrame (Units.capOut Config.build) s.outq ∧ s.channels.toNat ≤ (30 : Fin 32).val / 2 :=
  fun _ _ => ⟨rfl, rfl, rfl, rfl, (by decide : 14 < (15 : Word).toNat), busy_rings.pmq 14, busy_rings.outq,
    (by decide : (15 : Word).toNat ≤ 15)⟩
/-- A TICK that finds a frame: the active voice 0 and the voice 1 that is not active. -/
theorem witness_InactiveVoicesKept :
    let s := { State.reset with outq := ⟨[], 0, 1⟩ }
    exec .tick s = .next (tick Config.build s) ∧ s.osFactor = s.osActive ∧ s.srChanged = false
    ∧ s.channels.toNat ≤ (1 : VoiceIdx).val ∧ s.outq.n ≠ 0 := ⟨rfl, rfl, rfl, by decide, by decide⟩
/-- A TICK that latches a factor, and one that latches a rate, each with a sample in the ring of an inactive voice. -/
theorem witness_TickExternalRing_latch :
    let s := { setPmq State.reset 1 ⟨[(0, 0x3F800000)], 0, 1⟩ with osFactor := .x2 }
    let s' := { setPmq State.reset 1 ⟨[(0, 0x3F800000)], 0, 1⟩ with srChanged := true }
    exec .tick s = .next (tick Config.build s) ∧ s.osFactor ≠ s.osActive
    ∧ exec .tick s' = .next (tick Config.build s') ∧ s'.srChanged = true := ⟨rfl, by decide, rfl, rfl⟩
/-- A ring that holds one sample, and one that is full. -/
theorem witness_TickExternalRing :
    ∀ n ∈ [1, Units.capPm Config.build],
      let s := withRing ⟨[(0, 0x3F800000)], 0, n⟩
      exec .tick s = .next (tick Config.build s) ∧ s.osFactor = s.osActive ∧ s.srChanged = false
      ∧ (0 : VoiceIdx).val < s.channels.toNat ∧ RingWf (0 : F32) (Units.capPm Config.build) (getPmq s 0) := by
  intro n hn
  have hcap := capPm_pos Config.build
  have hle : n ≤ Units.capPm Config.build := by
    rcases List.mem_cons.mp hn with rfl | h
    · exact hcap
    · rw [List.mem_singleton.mp h]
  have hwf := one_slot_wf hcap
  refine ⟨rfl, rfl, rfl, (by decide : (0 : VoiceIdx).val < State.reset.channels.toNat), ?_⟩
  simpa [withRing] using (⟨hwf.slots, hwf.keys, hcap, hle⟩ : RingWf (0 : F32) _ ⟨[(0, 0x3F800000)], 0, n⟩)

/-- Two states that differ in the output ring and the history, with a factor and a rate pending. -/
theorem witness_FreshAfterLatch :
    let s := { busy with osFactor := .x4, srChanged := true }
    let s' := { s with outq := ⟨[], 0, 1⟩, hist := Vector.replicate 32 [0x3F800000] }
    s' = { s with outq := s'.outq, hist := s'.hist, voices := s'.voices }
    ∧ (∀ v : VoiceIdx, (getVoice s' v).ph = (getVoice s v).ph ∧ (getVoice s' v).sm = (getVoice s v).sm)
    ∧ RingsWf Config.build s ∧ RingsWf Config.build s' ∧ (s.osFactor ≠ s.osActive ∨ s.srChanged = true)
    ∧ exec .tick s = .next (tick Config.build s) ∧ exec .tick s' = .next (tick Config.build s') := by
  refine ⟨rfl, fun v => ⟨rfl, rfl⟩, ⟨busy_rings.pmq, busy_rings.outq⟩, ⟨busy_rings.pmq, ?_⟩, .inl (by decide), rfl, rfl⟩
  exact ⟨rfl, by simp, capOut_pos _, capOut_pos _⟩
theorem witness_DecimatorStreams :
    let h : List F32 := [0x3E800000, 0x3F000000, 0x3E800000]
    h ≠ [] ∧ 0 < 2 ∧ ([0, 0] : List F32).length = h.length - 1 ∧ ([1, 2, 3, 4] : List F32).length = 2 * 2
    ∧ ([5, 6] : List F32).length = 1 * 2 := by decide
theorem witness_PassThrough :
    busy.osActive = .x1 ∧ busy.outq.n = 0 ∧ RingWf zeroFrame (Units.capOut build) busy.outq
    ∧ (List.replicate 4 zeroFrame).length ≤ Units.capOut build :=
  ⟨rfl, rfl, ringWf_empty _ (capOut_pos _), by decide⟩
theorem busy_regs : RegsLegal busy :=
  ⟨by decide, by decide, by decide, by decide, by decide, by decide, by decide⟩
theorem busy_status : StatusWf busy := ⟨by decide, by decide⟩
theorem witness_RegistersKept :
    RegsLegal busy ∧ StatusWf busy ∧ step (issueNext (.request ⟨0x1008, 0x04⟩) busy) = .next (clearStatus 0x04 busy) :=
  ⟨busy_regs, busy_status, rfl⟩
theorem witness_BuffersKept :
    RingsWf Config.build busy ∧ HistWf Config.build busy ∧ step busy = .next busy :=
  ⟨busy_rings, fun c => by revert c; decide, rfl⟩
theorem witness_UnitsKept : RegsLegal busy ∧ UnitsWf busy ∧ step busy = .next busy := by
  refine ⟨busy_regs, ⟨by decide, fun v u => ?_⟩, rfl⟩
  have h : getSmoother busy v u = ⟨0, 0, 0x3F800000, 0, 0, 0x3C23D70A, .exponential, 0x473B8000⟩ := by
    revert v u; decide
  rw [h]
  exact ⟨by decide, by decide, by decide, fun _ => ⟨rfl, rfl⟩⟩

end Sys2Proof.Tests
end

section
/-! PROOFS. The transcendental units (spec/00_scope.md R25 to R28): the order of the binary32 comparisons, the ranges of the
two bounds, the values and the ranges of each unit, and from these the statement UnitFixedPoints. -/

namespace Sys2Proof.Fp

theorem le_iff {x y : F32} : le x y = true ↔ isNaN x = false ∧ isNaN y = false ∧ ord x ≤ ord y := by
  simp [le, and_assoc]

theorem lt_iff {x y : F32} : lt x y = true ↔ isNaN x = false ∧ isNaN y = false ∧ ord x < ord y := by
  simp [lt, and_assoc]

/-- The order is total on the numbers that are not NaN. -/
theorem le_of_not_lt {x y : F32} (hx : isNaN x = false) (hy : isNaN y = false) (h : lt x y ≠ true) : le y x = true := by
  rw [Ne, lt_iff] at h
  exact le_iff.mpr ⟨hy, hx, not_lt.mp fun hlt => h ⟨hx, hy, hlt⟩⟩

end Sys2Proof.Fp

namespace Sys2Proof.Units

open Sys2Proof.Config (Params)
open Sys2Proof.Machine (inUnit)

/-! ## The two bounds -/

/-- `y` where it lies in [lo, hi]; the nearer bound, or +0.0 for a NaN, where it does not. -/
def boundTo (lo hi y : F32) : F32 :=
  if Fp.isNaN y then Fp.posZero else if Fp.lt y lo then lo else if Fp.gt y hi then hi else y

theorem bound01_eq_boundTo (y : F32) : bound01 y = boundTo Fp.posZero Fp.one y := rfl

theorem bound11_eq_boundTo (y : F32) : bound11 y = boundTo Fp.negOne Fp.one y := rfl

/-- Each branch of the bound is in [lo, hi], when +0.0 is. -/
theorem boundTo_range {lo hi : F32} (hlo : Fp.le lo Fp.posZero = true) (hhi : Fp.le Fp.posZero hi = true) (y : F32) :
    Fp.le lo (boundTo lo hi y) = true ∧ Fp.le (boundTo lo hi y) hi = true := by
  obtain ⟨hloNaN, -, hlo0⟩ := Fp.le_iff.mp hlo
  obtain ⟨-, hhiNaN, hhi0⟩ := Fp.le_iff.mp hhi
  have hlohi : Fp.le lo hi = true := Fp.le_iff.mpr ⟨hloNaN, hhiNaN, hlo0.trans hhi0⟩
  unfold boundTo
  split_ifs with hnan hlt hgt
  · exact ⟨hlo, hhi⟩
  · exact ⟨Fp.le_iff.mpr ⟨hloNaN, hloNaN, le_rfl⟩, hlohi⟩
  · exact ⟨hlohi, Fp.le_iff.mpr ⟨hhiNaN, hhiNaN, le_rfl⟩⟩
  · rw [Bool.not_eq_true] at hnan
    exact ⟨Fp.le_of_not_lt hnan hloNaN hlt, Fp.le_of_not_lt hhiNaN hnan hgt⟩

theorem bound01_inUnit (y : F32) : inUnit (bound01 y) = true := by
  rw [bound01_eq_boundTo, inUnit, Bool.and_eq_true]
  exact boundTo_range (by decide) (by decide) y

theorem bound11_range (y : F32) : Fp.le Fp.negOne (bound11 y) = true ∧ Fp.le (bound11 y) Fp.one = true :=
  boundTo_range (by decide) (by decide) y

/-! ## SIN2PI and COS2PI (R27, R28) -/

variable {p : Params} {x y : F32}

theorem sin2pi_of_not_isFinite (hx : Fp.isFinite x = false) : sin2pi p x = Fp.qNaN := by simp [sin2pi, hx]

theorem cos2pi_of_not_isFinite (hx : Fp.isFinite x = false) : cos2pi p x = Fp.qNaN := by simp [cos2pi, hx]

/-- SIN2PI of a finite argument, by its reduced phase. -/
theorem sin2pi_of_isFinite (hx : Fp.isFinite x = true) :
    sin2pi p x = if Fp.frac x = Fp.posZero then Fp.posZero else if Fp.frac x = Fp.quarter then Fp.one
      else if Fp.frac x = Fp.half then Fp.posZero else if Fp.frac x = Fp.threeQuarters then Fp.negOne
      else bound11 (p.sin2pi (Fp.frac x)) := by
  simp [sin2pi, hx]

/-- COS2PI of a finite argument, by its reduced phase. -/
theorem cos2pi_of_isFinite (hx : Fp.isFinite x = true) :
    cos2pi p x = if Fp.frac x = Fp.posZero then Fp.one else if Fp.frac x = Fp.quarter then Fp.posZero
      else if Fp.frac x = Fp.half then Fp.negOne else if Fp.frac x = Fp.threeQuarters then Fp.posZero
      else bound11 (p.cos2pi (Fp.frac x)) := by
  simp [cos2pi, hx]

theorem sin2pi_congr_frac (hx : Fp.isFinite x = true) (hy : Fp.isFinite y = true) (h : Fp.frac x = Fp.frac y) :
    sin2pi p x = sin2pi p y := by
  rw [sin2pi_of_isFinite hx, sin2pi_of_isFinite hy, h]

theorem cos2pi_congr_frac (hx : Fp.isFinite x = true) (hy : Fp.isFinite y = true) (h : Fp.frac x = Fp.frac y) :
    cos2pi p x = cos2pi p y := by
  rw [cos2pi_of_isFinite hx, cos2pi_of_isFinite hy, h]

theorem sin2pi_of_frac_posZero (hx : Fp.isFinite x = true) (h : Fp.frac x = Fp.posZero) : sin2pi p x = Fp.posZero := by
  rw [sin2pi_of_isFinite hx, if_pos h]

theorem sin2pi_of_frac_quarter (hx : Fp.isFinite x = true) (h : Fp.frac x = Fp.quarter) : sin2pi p x = Fp.one := by
  rw [sin2pi_of_isFinite hx, h]; rfl

theorem sin2pi_of_frac_half (hx : Fp.isFinite x = true) (h : Fp.frac x = Fp.half) : sin2pi p x = Fp.posZero := by
  rw [sin2pi_of_isFinite hx, h]; rfl

theorem sin2pi_of_frac_threeQuarters (hx : Fp.isFinite x = true) (h : Fp.frac x = Fp.threeQuarters) :
    sin2pi p x = Fp.negOne := by
  rw [sin2pi_of_isFinite hx, h]; rfl

theorem cos2pi_of_frac_posZero (hx : Fp.isFinite x = true) (h : Fp.frac x = Fp.posZero) : cos2pi p x = Fp.one := by
  rw [cos2pi_of_isFinite hx, if_pos h]

theorem cos2pi_of_frac_quarter (hx : Fp.isFinite x = true) (h : Fp.frac x = Fp.quarter) : cos2pi p x = Fp.posZero := by
  rw [cos2pi_of_isFinite hx, h]; rfl

theorem cos2pi_of_frac_half (hx : Fp.isFinite x = true) (h : Fp.frac x = Fp.half) : cos2pi p x = Fp.negOne := by
  rw [cos2pi_of_isFinite hx, h]; rfl

theorem cos2pi_of_frac_threeQuarters (hx : Fp.isFinite x = true) (h : Fp.frac x = Fp.threeQuarters) :
    cos2pi p x = Fp.posZero := by
  rw [cos2pi_of_isFinite hx, h]; rfl

/-- SIN2PI is one of the four points or a bounded value, all in [-1, 1]. -/
theorem sin2pi_range (hx : Fp.isFinite x = true) :
    Fp.le Fp.negOne (sin2pi p x) = true ∧ Fp.le (sin2pi p x) Fp.one = true := by
  rw [sin2pi_of_isFinite hx]
  split_ifs
  case neg => exact bound11_range _
  all_goals decide

/-- COS2PI is one of the four points or a bounded value, all in [-1, 1]. -/
theorem cos2pi_range (hx : Fp.isFinite x = true) :
    Fp.le Fp.negOne (cos2pi p x) = true ∧ Fp.le (cos2pi p x) Fp.one = true := by
  rw [cos2pi_of_isFinite hx]
  split_ifs
  case neg => exact bound11_range _
  all_goals decide

/-! ## EXP (R25) -/

theorem exp_of_isNaN (hx : Fp.isNaN x = true) : exp p x = Fp.qNaN := by simp [exp, hx]

@[simp] theorem exp_posZero : exp p Fp.posZero = Fp.one := rfl

@[simp] theorem exp_negZero : exp p Fp.negZero = Fp.one := rfl

@[simp] theorem exp_negInf : exp p Fp.negInf = Fp.posZero := rfl

/-- EXP of an argument of at most 0 is 1 at a zero, 0 at -inf, and a bounded value elsewhere. -/
theorem exp_inUnit (hx : Fp.le x Fp.posZero = true) : inUnit (exp p x) = true := by
  obtain ⟨hnan, -, -⟩ := Fp.le_iff.mp hx
  unfold exp
  rw [if_neg (by simp [hnan])]
  split_ifs
  · decide
  · decide
  · exact bound01_inUnit _

/-! ## EXP2 (R26) -/

theorem exp2_of_isNaN (hx : Fp.isNaN x = true) : exp2 p x = Fp.qNaN := by simp [exp2, hx]

theorem exp2_of_point (hx : Fp.isNaN x = false) (h : exp2Point x = some y) : exp2 p x = y := by simp [exp2, hx, h]

theorem exp2_of_no_point (hx : Fp.isNaN x = false) (h : exp2Point x = none) :
    exp2 p x = if Fp.le Fp.posZero x && Fp.le x Lit.amountExponent && !Fp.isFinite (p.exp2 x) then Fp.one
      else p.exp2 x := by
  simp [exp2, hx, h]

/-- The powers of two that EXP2-1 fixes are finite. -/
theorem isFinite_of_exp2Point (h : exp2Point x = some y) : Fp.isFinite y = true := by
  unfold exp2Point at h
  split_ifs at h <;> cases h <;> decide

/-- On [0, 5] EXP2 is a fixed power of two, or the free function's value where that is finite, or 1. -/
theorem exp2_isFinite (h0 : Fp.le Fp.posZero x = true) (h5 : Fp.le x Lit.amountExponent = true) :
    Fp.isFinite (exp2 p x) = true := by
  obtain ⟨-, hnan, -⟩ := Fp.le_iff.mp h0
  cases hpt : exp2Point x with
  | some y => rw [exp2_of_point hnan hpt]; exact isFinite_of_exp2Point hpt
  | none =>
    rw [exp2_of_no_point hnan hpt, h0, h5]
    cases hfin : Fp.isFinite (p.exp2 x)
    · exact (by decide : Fp.isFinite Fp.one = true)
    · exact hfin

end Sys2Proof.Units

namespace Sys2Proof.Machine

open Sys2Proof.Units

/-- Settles O38: the values and ranges are those of the units for any parameters, the accuracy is that of the build of the
machine (`build_accurate`). -/
theorem unitFixedPoints : Obligations.UnitFixedPoints := by
  obtain ⟨haccurate, heps⟩ := build_accurate
  refine ⟨fun p => ⟨?sinPoints, ?cosPoints, ?range, ?nonFinite, ?expPoints, ?nan, ?expUnit, ?exp2Points, ?exp2Finite⟩,
    heps, haccurate.exp, haccurate.exp2, fun x hx => ⟨haccurate.sin2pi x hx, haccurate.cos2pi x hx⟩⟩
  case sinPoints =>
    exact ⟨sin2pi_of_frac_posZero (by decide) (by decide), sin2pi_of_frac_quarter (by decide) (by decide),
      sin2pi_of_frac_half (by decide) (by decide), sin2pi_of_frac_threeQuarters (by decide) (by decide)⟩
  case cosPoints =>
    exact ⟨cos2pi_of_frac_posZero (by decide) (by decide), cos2pi_of_frac_quarter (by decide) (by decide),
      cos2pi_of_frac_half (by decide) (by decide), cos2pi_of_frac_threeQuarters (by decide) (by decide)⟩
  case range =>
    exact fun x hx => ⟨sin2pi_range hx, cos2pi_range hx,
      fun y hy h => ⟨sin2pi_congr_frac hx hy h, cos2pi_congr_frac hx hy h⟩⟩
  case nonFinite => exact fun x hx => ⟨sin2pi_of_not_isFinite hx, cos2pi_of_not_isFinite hx⟩
  case expPoints => exact ⟨exp_posZero, exp_negZero, exp_negInf⟩
  case nan => exact fun x hx => ⟨exp_of_isNaN hx, exp2_of_isNaN hx⟩
  case expUnit => exact fun x hx => exp_inUnit hx
  case exp2Points =>
    exact ⟨exp2_of_point (by decide) rfl, exp2_of_point (by decide) rfl, exp2_of_point (by decide) rfl,
      exp2_of_point (by decide) rfl, exp2_of_point (by decide) rfl, exp2_of_point (by decide) rfl⟩
  case exp2Finite => exact fun x h0 h5 => exp2_isFinite h0 h5

end Sys2Proof.Machine
end

section
/-! PROOFS. The encoding and the decoder (spec/30_encoding.md R130 to R137): a word that decodes to a command is that command's
encoding, and the encoding of a well-formed instruction decodes to it. -/

namespace Sys2Proof

/-! ## Fields -/

/-- A command word whose reserved bits are 0 is made of its five fields (R132). -/
theorem commandWord_fields {w : Word} (hrsv : rsvField w = 0) :
    commandWord (opcField w) (vField w) (uField w) (mField w) (fField w) = w := by
  rw [commandWord, ← hrsv]
  unfold opcField vField uField mField fField rsvField
  ext i hi
  simp only [BitVec.getElem_append, BitVec.getElem_extractLsb']
  grind

@[simp] theorem voiceField_voiceOfField (f : BitVec 4) : voiceField (voiceOfField f) = f := rfl

@[simp] theorem modeField_modeOfField (f : BitVec 1) : modeField (modeOfField f) = f := by
  revert f; decide

@[simp] theorem immField_immOfField (f : BitVec 1) : immField (immOfField f) = f := by
  revert f; decide

theorem unitField_of_unitOfField {f : BitVec 2} {u : UnitIdx} (h : unitOfField f = some u) : unitField u = f := by
  revert f u; decide

theorem windowField_of_windowOfField {f : BitVec 2} {m : WindowMode} (h : windowOfField f = some m) : windowField m = f := by
  revert f; cases m <;> decide

/-! ## Command words -/

/-- A word that is a command has passed the checks of R136. -/
theorem decodeCommand_eq_ok {w : Word} {i : Instr} (h : decodeCommand w = .ok i) :
    rsvField w = 0 ∧ (∃ use, fieldUse (opcField w) = some use ∧ unusedNonzero use w = false) ∧ selectCommand w = .ok i := by
  unfold decodeCommand at h
  split at h
  · cases h
  · rename_i use huse
    split_ifs at h with hrsv hunused
    exact ⟨by simpa using hrsv, ⟨use, huse, by simpa using hunused⟩, h⟩

theorem unusedNonzero_eq_false {use : FieldUse} {w : Word} : unusedNonzero use w = false ↔
    (use.v = false → vField w = 0) ∧ (use.u = false → uField w = 0) ∧ (use.m = false → mField w = 0)
      ∧ (use.f = false → fField w = 0) := by
  simp [unusedNonzero, and_assoc]

/-- A row without operands selects its command. -/
theorem eq_of_ok {i j : Instr} (h : (Except.ok j : Except CommandReject Instr) = .ok i) : i = j := by
  cases h; rfl

/-- A row with a unit operand selects its command at the unit that U names, which is not 3. -/
theorem exists_unit_of_ok {f : BitVec 2} {k : UnitIdx → Instr} {i : Instr}
    (h : (match unitOfField f with
      | some u => Except.ok (k u)
      | none => .error CommandReject.unitThree) = .ok i) : ∃ u, unitField u = f ∧ i = k u := by
  cases hu : unitOfField f with
  | none => rw [hu] at h; cases h
  | some u => rw [hu] at h; cases h; exact ⟨u, unitField_of_unitOfField hu, rfl⟩

/-- WIN_EVAL selects its command at the shape that M names, which is not 3. -/
theorem exists_window_of_ok {f : BitVec 2} {k : WindowMode → Instr} {i : Instr}
    (h : (match windowOfField f with
      | some m => Except.ok (k m)
      | none => .error CommandReject.windowThree) = .ok i) : ∃ m, windowField m = f ∧ i = k m := by
  cases hm : windowOfField f with
  | none => rw [hm] at h; cases h
  | some m => rw [hm] at h; cases h; exact ⟨m, windowField_of_windowOfField hm, rfl⟩

/-- The command a word decodes to is no bus instruction, and the word is its encoding (R132, R135). -/
theorem encode_of_decodeCommand {w : Word} {i : Instr} (h : decodeCommand w = .ok i) :
    encode i = carryCommand w ∧ ∀ a d, i ≠ .regWr a d := by
  obtain ⟨hrsv, ⟨use, huse, hunused⟩, hsel⟩ := decodeCommand_eq_ok h
  obtain ⟨hv, hu, hm, hf⟩ := unusedNonzero_eq_false.mp hunused
  rw [← commandWord_fields hrsv]
  unfold fieldUse at huse
  split at huse
  case h_23 => cases huse
  all_goals
    rename_i hopc
    cases huse
    simp only [selectCommand, hopc] at hsel
    rw [(BitVec.toNat_eq_nat.mp hopc).2]
  case h_5 | h_6 | h_7 | h_8 | h_9 | h_10 =>
    obtain ⟨u, hunit, rfl⟩ := exists_unit_of_ok hsel
    refine ⟨?_, fun _ _ => nofun⟩
    simp [encode, hunit, hm, hf]
  case h_16 =>
    obtain ⟨m, hwindow, rfl⟩ := exists_window_of_ok hsel
    refine ⟨?_, fun _ _ => nofun⟩
    simp [encode, hwindow, hv, hu, hf]
  all_goals
    obtain rfl := eq_of_ok hsel
    refine ⟨?_, fun _ _ => nofun⟩
    simp [encode, hv, hu, hm, hf]
/-! ## Requests -/

@[simp] theorem header_msb (we : BitVec 1) (a : BitVec 12) : (we ++ a).msb = we.msb := by
  rw [BitVec.msb_append, if_neg (by decide)]

@[simp] theorem header_address (we : BitVec 1) (a : BitVec 12) : (we ++ a).extractLsb' 0 12 = a := by
  exact BitVec.extractLsb'_append_eq_right

/-- A write to CMD of a legal command word is that command (R130). -/
theorem decodeRequest_carryCommand {w : Word} {i : Instr} (h : decodeCommand w = .ok i) :
    decodeRequest (carryCommand w) = i := by
  simp [decodeRequest, carryCommand, h]

/-- Any other write is the REG_WR that its header and data give (R131, R136). -/
theorem decodeRequest_write {a : BitVec 12} {w : Word} (h : a = cmdAddr → ∃ e, decodeCommand w = .error e) :
    decodeRequest ⟨1#1 ++ a, w⟩ = .regWr a w := by
  by_cases ha : a = cmdAddr
  · obtain ⟨e, he⟩ := h ha
    simp [decodeRequest, ha, he]
  · simp [decodeRequest, ha]

theorem decodeRequest_read (a : BitVec 12) : decodeRequest ⟨0#1 ++ a, 0⟩ = .regRd a := by
  simp [decodeRequest]

/-- A request that decodes to a write of CMD carries no command word (R136). -/
theorem decodeCommand_of_decodeRequest {r : BusRequest} {w : Word} (h : decodeRequest r = .regWr cmdAddr w) :
    ∃ e, decodeCommand w = .error e := by
  unfold decodeRequest at h
  dsimp only at h
  split at h
  · split_ifs at h with haddr
    · split at h
      · rename_i i hi
        exact absurd h ((encode_of_decodeCommand hi).2 _ _)
      · rename_i e he
        exact ⟨e, (Instr.regWr.inj h).2 ▸ he⟩
    · exact absurd (Instr.regWr.inj h).1 haddr
  · cases h

theorem encodedByTable (i : Instr) : Laws.EncodedByTable.Statement i := by
  cases i with
  | nop => exact Laws.EncodedByTable.nop
  | tick => exact Laws.EncodedByTable.tick
  | reset => exact Laws.EncodedByTable.reset
  | clear => exact Laws.EncodedByTable.clear
  | phSetfreq v u => exact Laws.EncodedByTable.phSetfreq v u
  | phProcess v u => exact Laws.EncodedByTable.phProcess v u
  | phSetsr v u => exact Laws.EncodedByTable.phSetsr v u
  | smInit v u mode => exact Laws.EncodedByTable.smInit v u mode
  | smSet v u imm => exact Laws.EncodedByTable.smSet v u imm
  | smProcess v u => exact Laws.EncodedByTable.smProcess v u
  | pdBend => exact Laws.EncodedByTable.pdBend
  | pdSync => exact Laws.EncodedByTable.pdSync
  | pdFormant => exact Laws.EncodedByTable.pdFormant
  | pdFold => exact Laws.EncodedByTable.pdFold
  | pmInject => exact Laws.EncodedByTable.pmInject
  | winEval w => exact Laws.EncodedByTable.winEval w
  | fnSin2pi => exact Laws.EncodedByTable.fnSin2pi
  | fnCos2pi => exact Laws.EncodedByTable.fnCos2pi
  | fnExp => exact Laws.EncodedByTable.fnExp
  | fnExp2 => exact Laws.EncodedByTable.fnExp2
  | rbPush v => exact Laws.EncodedByTable.rbPush v
  | rbPop v => exact Laws.EncodedByTable.rbPop v
  | regWr a w => exact Laws.EncodedByTable.regWr a w
  | regRd a => exact Laws.EncodedByTable.regRd a

/-- A word that no row of the table admits is no command (R137). -/
theorem decodeCommand_of_not_isCommandWord {w : Word} (h : isCommandWord w = false) :
    ∃ e, decodeCommand w = .error e := by
  cases hi : decodeCommand w with
  | error e => exact ⟨e, rfl⟩
  | ok i =>
    obtain ⟨henc, hbus⟩ := encode_of_decodeCommand hi
    rcases encodedByTable i with ⟨-, hword⟩ | ⟨a, d, rfl, -⟩ | ⟨a, rfl, hread⟩
    · rw [henc] at hword
      exact absurd hword (by simp [carryCommand, h])
    · exact absurd rfl (hbus a d)
    · rw [hread] at henc
      exact absurd (congrArg (fun r => r.header.msb) henc) (by simp [carryCommand])

/-- The encoding of a well-formed instruction decodes to it: a command by its word, a bus instruction by its header. -/
theorem decodeRequest_encode {i : Instr} (h : i.wellFormed = true) : decodeRequest (encode i) = i := by
  cases i with
  | regWr a w =>
    refine decodeRequest_write fun ha => decodeCommand_of_not_isCommandWord ?_
    simpa [Instr.wellFormed, ha] using h
  | regRd a => exact decodeRequest_read a
  | phSetfreq v u => exact decodeRequest_carryCommand (by revert v u; decide)
  | phProcess v u => exact decodeRequest_carryCommand (by revert v u; decide)
  | phSetsr v u => exact decodeRequest_carryCommand (by revert v u; decide)
  | smInit v u mode => exact decodeRequest_carryCommand (by revert v u; cases mode <;> decide)
  | smSet v u imm => exact decodeRequest_carryCommand (by revert v u imm; decide)
  | smProcess v u => exact decodeRequest_carryCommand (by revert v u; decide)
  | winEval w => exact decodeRequest_carryCommand (by cases w <;> rfl)
  | rbPush v => exact decodeRequest_carryCommand (by revert v; decide)
  | rbPop v => exact decodeRequest_carryCommand (by revert v; decide)
  | _ => exact decodeRequest_carryCommand rfl

end Sys2Proof
end

section
/-! PROOFS. What a step can do, said once (spec/00_scope.md R7; spec/10_state.md R41, R42): the cases of a step and of exec,
and the parts a command and a TICK are made of, with the rule that a predicate kept by the parts is kept by the whole. -/

namespace Sys2Proof.Machine

open Sys2Proof.Config (Params)

/-! ## A step -/

theorem step_of_idle {s : State} (h : s.inbox = []) : step s = .next s := by
  simp [step, nextEvent, h]

theorem step_of_hardReset {s : State} {rest : List HostEvent} (h : s.inbox = .hardReset :: rest) :
    step s = .next (hardwareReset Config.build { s with inbox := rest }) := by
  simp [step, nextEvent, h]

theorem step_of_request {s : State} {r : BusRequest} {rest : List HostEvent} (h : s.inbox = .request r :: rest) :
    step s = exec (decodeRequest r) { s with inbox := rest } := by
  simp [step, nextEvent, h]

/-- A step idles, performs a hardware reset, or performs the oldest request. -/
theorem step_cases {s t : State} (h : step s = .next t) :
    (s.inbox = [] ∧ t = s)
    ∨ (∃ rest, s.inbox = .hardReset :: rest ∧ t = hardwareReset Config.build { s with inbox := rest })
    ∨ ∃ r rest, s.inbox = .request r :: rest ∧ exec (decodeRequest r) { s with inbox := rest } = .next t := by
  match hin : s.inbox with
  | [] =>
    rw [step_of_idle hin] at h
    cases h
    exact .inl ⟨rfl, rfl⟩
  | .hardReset :: rest =>
    rw [step_of_hardReset hin] at h
    cases h
    exact .inr (.inl ⟨rest, rfl, rfl⟩)
  | .request r :: rest =>
    rw [step_of_request hin] at h
    exact .inr (.inr ⟨r, rest, rfl, h⟩)

/-! ## An instruction -/

theorem exec_regWr (a : BitVec 12) (w : Word) (s : State) : exec (.regWr a w) s = .next (busWrite Config.build a w s) := rfl

theorem exec_regRd (a : BitVec 12) (s : State) : exec (.regRd a) s = .next (busRead a s) := rfl

theorem exec_command {i : Instr} (hwr : ∀ a w, i ≠ .regWr a w) (hrd : ∀ a, i ≠ .regRd a) (s : State) :
    exec i s = .next (runCommand Config.build i s) := by
  cases i with
  | regWr a w => exact absurd rfl (hwr a w)
  | regRd a => exact absurd rfl (hrd a)
  | _ => rfl

/-- An instruction is a bus write, a bus read, or the command that CMD would perform. -/
theorem exec_cases (i : Instr) (s : State) :
    (∃ a w, i = .regWr a w ∧ exec i s = .next (busWrite Config.build a w s))
    ∨ (∃ a, i = .regRd a ∧ exec i s = .next (busRead a s))
    ∨ exec i s = .next (runCommand Config.build i s) := by
  by_cases hwr : ∃ a w, i = .regWr a w
  · obtain ⟨a, w, rfl⟩ := hwr
    exact .inl ⟨a, w, rfl, rfl⟩
  by_cases hrd : ∃ a, i = .regRd a
  · obtain ⟨a, rfl⟩ := hrd
    exact .inr (.inl ⟨a, rfl, rfl⟩)
  · exact .inr (.inr (exec_command (fun a w h => hwr ⟨a, w, h⟩) (fun a h => hrd ⟨a, h⟩) s))

/-- The instruction performs a TICK: the command itself, or a write to CMD of its word. -/
def performsTick (i : Instr) : Prop :=
  i = .tick ∨ ∃ a w, i = .regWr a w ∧ regAt a = some .cmd ∧ decodeCommand w = .ok .tick

/-! ## What the changes of every voice leave alone -/

theorem mapVoices_frame (f : Voice → Voice) (s : State) : ∃ voices, mapVoices f s = { s with voices := voices } := ⟨_, rfl⟩

theorem clearBuffers_frame (p : Params) (s : State) :
    ∃ voices outq hist, clearBuffers p s = { s with voices := voices, outq := outq, hist := hist } := ⟨_, _, _, rfl⟩

/-! ## The parts of the instructions other than TICK -/

/-- `I` is kept by each update that an instruction other than TICK is made of. It may speak of the registers, STATUS and the
buffers, not of the units (`setUnits` and `mapUnits` change phasors and smoothers at will), RES, `inbox` or `readData`. -/
structure KeptByParts (p : Params) (I : State → Prop) : Prop where
  ownFields : ∀ s inbox readData res, I s → I { s with inbox := inbox, readData := readData, res := res }
  raise : ∀ e s, I s → I (raise e s)
  writeReg : ∀ r w s, r ≠ .cmd → I s → I (writeReg p r w s)
  setUnits : ∀ s v x, x.pmq = (getVoice s v).pmq → I s → I (setVoice s v x)
  mapUnits : ∀ f s, (∀ vo : Voice, (f vo).pmq = vo.pmq) → I s → I (mapVoices f s)
  pushPm : ∀ v x s, I s → I (pushPm p v x s)
  popPm : ∀ v s, I s → I (popPmState p v s)
  clear : ∀ s, I s → I (clearBuffers p s)

namespace KeptByParts

variable {p : Params} {I : State → Prop} {s : State}

theorem setRes (h : KeptByParts p I) (r : Vector F32 4) (hs : I s) : I (setRes s r) :=
  h.ownFields s s.inbox s.readData r hs

theorem setRes0 (h : KeptByParts p I) (x : F32) (hs : I s) : I (setRes0 s x) :=
  h.ownFields s s.inbox s.readData _ hs

theorem setPhasor (h : KeptByParts p I) (v : VoiceIdx) (u : UnitIdx) (x : Phasor) (hs : I s) : I (setPhasor s v u x) :=
  h.setUnits s v _ rfl hs

theorem setSmoother (h : KeptByParts p I) (v : VoiceIdx) (u : UnitIdx) (x : Smoother) (hs : I s) :
    I (setSmoother s v u x) :=
  h.setUnits s v _ rfl hs

theorem phSetsr (h : KeptByParts p I) (v : VoiceIdx) (u : UnitIdx) (hs : I s) : I (phSetsr v u s) := by
  unfold Machine.phSetsr
  split
  · exact h.setPhasor v u _ hs
  · exact h.raise _ s hs

theorem smInit (h : KeptByParts p I) (v : VoiceIdx) (u : UnitIdx) (mode : SmoothMode) (hs : I s) :
    I (smInit p v u mode s) := by
  unfold Machine.smInit
  split
  · exact h.raise _ s hs
  · split
    · exact h.raise _ s hs
    · exact h.setSmoother v u _ hs

/-- RESET resets the units and clears the buffers (46_engine.md R310). -/
theorem softReset (h : KeptByParts p I) (hs : I s) : I (softReset p s) :=
  h.clear _ (h.mapUnits _ s (fun _ => rfl) hs)

/-- A command keeps `I` when a TICK does. -/
theorem runCommand (h : KeptByParts p I) (i : Instr) (htick : i = .tick → I (tick p s)) (hs : I s) :
    I (runCommand p i s) := by
  cases i with
  | nop => exact hs
  | tick => exact htick rfl
  | reset => exact h.softReset hs
  | clear => exact h.clear s hs
  | phSetfreq v u => exact h.setPhasor v u _ hs
  | phProcess v u => exact h.setRes _ (h.setPhasor v u _ hs)
  | phSetsr v u => exact h.phSetsr v u hs
  | smInit v u mode => exact h.smInit v u mode hs
  | smSet v u imm => exact h.setSmoother v u _ hs
  | smProcess v u => exact h.setRes0 _ (h.setSmoother v u _ hs)
  | rbPush v => exact h.pushPm v _ s hs
  | rbPop v => exact h.setRes0 _ (h.popPm v s hs)
  | regWr a w => exact h.raise _ s hs
  | regRd a => exact h.raise _ s hs
  | _ => exact h.setRes _ hs

theorem busRead (h : KeptByParts p I) (a : BitVec 12) (hs : I s) : I (busRead a s) := by
  rcases busRead_cases a s with ⟨-, hread⟩ | ⟨r, -, hread⟩ <;> rw [hread]
  · exact h.ownFields _ s.inbox 0 s.res (h.raise _ s hs)
  · exact h.ownFields s s.inbox _ s.res hs

theorem busWrite (h : KeptByParts p I) (a : BitVec 12) (w : Word)
    (htick : regAt a = some .cmd → decodeCommand w = .ok .tick → I (tick p s)) (hs : I s) : I (busWrite p a w s) := by
  rcases busWrite_cases p a w s with ⟨-, hwrite⟩ | ⟨r, hr, -, hwrite⟩ <;> rw [hwrite]
  · exact h.raise _ s hs
  by_cases hcmd : r = .cmd
  · subst hcmd
    change I (writeCommand p w s)
    rcases writeCommand_cases p w s with ⟨i, hi, hrun⟩ | ⟨-, hrun⟩ <;> rw [hrun]
    · exact h.runCommand i (fun hi' => htick hr (hi' ▸ hi)) hs
    · exact h.raise _ s hs
  · exact h.writeReg r w s hcmd hs

/-- An instruction keeps `I` when a TICK does, if it performs one. -/
theorem exec {t : State} {i : Instr} (h : KeptByParts Config.build I)
    (htick : performsTick i → I (tick Config.build s)) (hs : I s) (hexec : exec i s = .next t) : I t := by
  rcases exec_cases i s with ⟨a, w, rfl, hi⟩ | ⟨a, rfl, hi⟩ | hi <;> rw [hi] at hexec <;> cases hexec
  · exact h.busWrite a w (fun hr hw => htick (.inr ⟨a, w, rfl, hr, hw⟩)) hs
  · exact h.busRead a hs
  · exact h.runCommand i (fun hi' => htick (.inl hi')) hs

end KeptByParts

/-! ## The parts of a TICK and of a hardware reset -/

/-- The filter history after a block of frames (45_decimation_src.md R285), whatever the factor in force. -/
def filterBlock (p : Params) (X : List Frame) (s : State) : State :=
  { s with hist := Vector.ofFn fun c : Fin 32 => decimateHist (Units.taps p s.osActive) s.hist[c] (channelOf X c) }

theorem filterBlock_frame (p : Params) (X : List Frame) (s : State) : ∃ hist, filterBlock p X s = { s with hist := hist } :=
  ⟨_, rfl⟩

/-- A conversion pushes frames, after filtering the block when the factor is above 1 (45_decimation_src.md R281, R285). -/
theorem convert_eq_pushOutAll (p : Params) (X : List Frame) (s : State) :
    ∃ Y, convert p X s = pushOutAll p Y s ∨ convert p X s = pushOutAll p Y (filterBlock p X s) := by
  rcases convert_cases p X s with ⟨-, h⟩ | ⟨-, h⟩
  · exact ⟨_, .inl h⟩
  · exact ⟨_, .inr h⟩

/-- The block of a voice changes its phasors and smoothers only (43_pdo_block.md R239). -/
theorem groupSteps_pmq (p : Params) (P : Patch) (k : Nat) (ext : List F32) (vo : Voice) :
    (groupSteps p P k ext vo).2.pmq = vo.pmq := by
  induction k generalizing ext vo with
  | zero => rfl
  | succ k ih => exact ih (ext.drop 4) (groupStep p P ext vo).2

theorem pdoBlock_pmq (p : Params) (P : Patch) (f : F32) (ext : List F32) (n : Nat) (vo : Voice) :
    (pdoBlock p P f ext n vo).2.pmq = vo.pmq :=
  groupSteps_pmq p P (n / 4) ext (startTargets P (startFrequencies P f vo))

theorem channels_of_keptByRender {s t : State} (h : keptByRender t = keptByRender s) : t.channels = s.channels := by
  simp only [keptByRender, hostRegs, Prod.mk.injEq] at h
  obtain ⟨⟨-, -, hchannels, -⟩, -⟩ := h
  exact hchannels

/-- `I` is kept by each update that a step is made of, a TICK and a hardware reset included. -/
structure KeptByStep (p : Params) (I : State → Prop) : Prop extends KeptByParts p I where
  reset : I (State.resetWith p)
  latchFactor : ∀ s, I s → I (clearBuffers p { s with osActive := s.osFactor })
  latchRate : ∀ s, I s → I (clearBuffers p { s with srChanged := false, fsActive := s.sampleRate })
  pushOut : ∀ F s, I s → I (pushOut p F s)
  filterBlock : ∀ X s, I s → I (filterBlock p X s)
  output : ∀ s, I s → I (output p s.channels s)

namespace KeptByStep

variable {p : Params} {I : State → Prop} {s : State}

theorem hardwareReset (h : KeptByStep p I) : I (hardwareReset p s) :=
  h.ownFields (State.resetWith p) s.inbox _ _ h.reset

theorem osLatch (h : KeptByStep p I) (hs : I s) : I (osLatch p s) := by
  rcases osLatch_cases p s with ⟨-, hlatch⟩ | ⟨-, hlatch⟩ <;> rw [hlatch]
  · exact hs
  · exact h.mapUnits _ _ (fun _ => rfl) (h.latchFactor s hs)

theorem srLatch (h : KeptByStep p I) (hs : I s) : I (srLatch p s) := by
  rcases srLatch_cases p s with ⟨-, hlatch⟩ | ⟨-, hlatch⟩ <;> rw [hlatch]
  · exact hs
  · exact h.mapUnits _ _ (fun _ => rfl) (h.latchRate s hs)

theorem pushPmTimes (h : KeptByStep p I) (v : VoiceIdx) (x : F32) (k : Nat) (hs : I s) : I (pushPmTimes p v x k s) := by
  induction k generalizing s with
  | zero => exact hs
  | succ k ih => exact ih (h.pushPm v x s hs)

theorem pushExt (h : KeptByStep p I) (n : Nat) (hs : I s) : I (pushExt p n s) := by
  unfold Machine.pushExt
  induction activeVoices n generalizing s with
  | nil => exact hs
  | cons v vs ih => exact ih (h.pushPmTimes v _ _ hs)

theorem popBlockPm (h : KeptByStep p I) (v : VoiceIdx) (k : Nat) (hs : I s) : I (popBlockPm p v k s).2 := by
  induction k generalizing s with
  | zero => exact hs
  | succ k ih => exact ih (h.popPm v s hs)

theorem renderVoices (h : KeptByStep p I) (P : Patch) (n : Nat) (vs : List VoiceIdx) (hs : I s) :
    I (renderVoices p P n vs s).2 := by
  induction vs generalizing s with
  | nil => exact hs
  | cons v vs ih => exact ih (h.setUnits _ v _ (pdoBlock_pmq ..) (h.popBlockPm v n hs))

theorem pushOutAll (h : KeptByStep p I) (Fs : List Frame) (hs : I s) : I (pushOutAll p Fs s) := by
  induction Fs generalizing s with
  | nil => exact hs
  | cons F Fs ih => exact ih (h.pushOut F s hs)

theorem convert (h : KeptByStep p I) (X : List Frame) (hs : I s) : I (convert p X s) := by
  obtain ⟨Y, hc | hc⟩ := convert_eq_pushOutAll p X s <;> rw [hc]
  · exact h.pushOutAll Y hs
  · exact h.pushOutAll Y (h.filterBlock X s hs)

theorem render (h : KeptByStep p I) (n : Nat) (hs : I s) : I (render p n s) :=
  h.convert _ (h.renderVoices _ _ _ hs)

/-- After the latches a TICK pushes, renders if `outq` is empty, and outputs (46_engine.md R303 to R307). -/
theorem tickAudio (h : KeptByStep p I) (hs : I s) : I (tickAudio p s.channels s) := by
  have hpush : I (Machine.pushExt p s.channels.toNat s) := h.pushExt _ hs
  have houtput : ∀ u, keptByRender u = keptByRender s → I u → I (Machine.output p s.channels u) :=
    fun u hkept hu => channels_of_keptByRender hkept ▸ h.output u hu
  unfold Machine.tickAudio
  dsimp only
  split
  · exact houtput _ (by rw [render_kept, pushExt_kept]) (h.render _ hpush)
  · exact houtput _ (pushExt_kept _ _ _) hpush

theorem tick (h : KeptByStep p I) (hs : I s) : I (tick p s) :=
  h.tickAudio (h.srLatch (h.osLatch hs))

/-- A step keeps `I` (10_state.md R42). -/
theorem step {t : State} (h : KeptByStep Config.build I) (hs : I s) (hstep : step s = .next t) : I t := by
  rcases step_cases hstep with ⟨-, rfl⟩ | ⟨rest, -, rfl⟩ | ⟨r, rest, -, hexec⟩
  · exact hs
  · exact h.hardwareReset
  · have hs' : I { s with inbox := rest } := h.ownFields s rest s.readData s.res hs
    exact h.exec (fun _ => h.tick hs') hs' hexec

end KeptByStep

end Sys2Proof.Machine
end

section
/-! PROOFS. The registers (spec/10_state.md R44 to R58, R73): the address of each register, the write rule of each with the words it
takes, and from these the statements about register writes. -/

namespace Sys2Proof.Fp

/-- The value of a number, on the bits. -/
theorem ord_eq_encMag (x : F32) :
    ord x = if 2 ^ 31 ≤ x.toNat then -(encMag (x.toNat % 2 ^ 31) : Int) else (encMag (x.toNat % 2 ^ 31) : Int) := by
  simp only [ord, signBit_eq, mag_eq_encMag, decide_eq_true_eq]

/-- Above a number without a sign bit lie the larger words without one. -/
theorem ord_lt_ord_iff {z : F32} (hz : z.toNat < 2 ^ 31) (x : F32) :
    ord z < ord x ↔ z.toNat < x.toNat ∧ x.toNat < 2 ^ 31 := by
  rw [ord_eq_encMag z, ord_eq_encMag x, if_neg (by omega), Nat.mod_eq_of_lt hz]
  by_cases hx : 2 ^ 31 ≤ x.toNat
  · rw [if_pos hx]; omega
  · have hmag := encMag_lt_iff (m := z.toNat) (n := x.toNat)
    rw [if_neg hx, Nat.mod_eq_of_lt (by omega)]
    omega

/-- Below 0 lie the words with a sign bit, but -0.0. -/
theorem ord_neg_iff (x : F32) : ord x < ord posZero ↔ 2 ^ 31 < x.toNat := by
  have hlt := x.isLt
  have hmag := encMag_lt_iff (m := 0) (n := x.toNat % 2 ^ 31)
  rw [encMag_zero] at hmag
  rw [ord_eq_encMag x, show ord posZero = 0 from rfl]
  split <;> omega

end Sys2Proof.Fp

namespace Sys2Proof.Machine

open Sys2Proof.Config (Params)

/-! ## Addresses (20_memory.md R104) -/

@[simp] theorem regAt_regAddr (r : Reg) : regAt (regAddr r) = some r := by
  cases r with
  | freq v => revert v; decide
  | extPm v => revert v; decide
  | outPri v => revert v; decide
  | outAux v => revert v; decide
  | extqLevel v => revert v; decide
  | opA i => revert i; decide
  | opB i => revert i; decide
  | opC i => revert i; decide
  | opD i => revert i; decide
  | res i => revert i; decide
  | _ => rfl

/-- A REG_WR to the address of a writable register is that register's write rule (46_engine.md R314). -/
theorem exec_regWr_regAddr {r : Reg} (hr : readOnly r = false) (w : Word) (s : State) :
    exec (.regWr (regAddr r) w) s = .next (writeReg Config.build r w s) := by
  simp [exec_regWr, busWrite, hr]

/-! ## Words of the registers that hold an enumeration (R48, R50, R52 to R55) -/

/-- A word is stored as the value it names, and is CFG_IGN where it names none (60_exceptions.md R342). -/
def storeNamed {α : Type} (named : Option α) (store : α → State) (s : State) : State :=
  match named with
  | some x => store x
  | none => raise .cfgIgn s

@[simp] theorem storeNamed_some {α : Type} (x : α) (store : α → State) (s : State) :
    storeNamed (some x) store s = store x := rfl

@[simp] theorem storeNamed_none {α : Type} (store : α → State) (s : State) : storeNamed none store s = raise .cfgIgn s := rfl

theorem writeOsFactor_eq (w : Word) (s : State) :
    writeOsFactor w s = storeNamed (Lit.osOfWord w) (fun m => { s with osFactor := m }) s := by
  unfold writeOsFactor storeNamed; cases Lit.osOfWord w <;> rfl

theorem writeAlg1_eq (w : Word) (s : State) :
    writeAlg1 w s = storeNamed (Lit.algOfWord w)
      (fun a => if a = s.alg1 then s else raise .algChanged { s with alg1 := a }) s := by
  unfold writeAlg1 storeNamed; cases Lit.algOfWord w <;> rfl

theorem writeAlg2_eq (w : Word) (s : State) :
    writeAlg2 w s = storeNamed (Lit.algOfWord w)
      (fun a => if a = s.alg2 then s else raise .algChanged { s with alg2 := a }) s := by
  unfold writeAlg2 storeNamed; cases Lit.algOfWord w <;> rfl

theorem writeRouting_eq (w : Word) (s : State) :
    writeRouting w s = storeNamed (Lit.routingOfWord w) (fun r => { s with routing := r }) s := by
  unfold writeRouting storeNamed; cases Lit.routingOfWord w <;> rfl

theorem writeWindow_eq (w : Word) (s : State) :
    writeWindow w s = storeNamed (Lit.windowOfWord w) (fun m => { s with window := m }) s := by
  unfold writeWindow storeNamed; cases Lit.windowOfWord w <;> rfl

theorem writeAuxMode_eq (w : Word) (s : State) :
    writeAuxMode w s = storeNamed (Lit.auxOfWord w) (fun m => { s with auxMode := m }) s := by
  unfold writeAuxMode storeNamed; cases Lit.auxOfWord w <;> rfl

theorem writeRatioIdx_eq (w : Word) (s : State) :
    writeRatioIdx w s = storeNamed (Lit.ratioIdxOfWord w) (fun i => { s with ratioIdx := i }) s := by
  unfold writeRatioIdx storeNamed; cases Lit.ratioIdxOfWord w <;> rfl

theorem osOfWord_eq_none {w : Word} (h : w ∉ [1#32, 2#32, 4#32, 8#32, 16#32]) : Lit.osOfWord w = none := by
  simp only [List.mem_cons, List.not_mem_nil, or_false, not_or] at h
  obtain ⟨h1, h2, h4, h8, h16⟩ := h
  simp [Lit.osOfWord, h1, h2, h4, h8, h16]

theorem algOfWord_eq_none {w : Word} (h : 3 < w.toNat) : Lit.algOfWord w = none := by
  unfold Lit.algOfWord
  rw [if_neg, if_neg, if_neg, if_neg]
  all_goals rintro rfl; exact absurd h (by decide)

theorem routingOfWord_eq_none {w : Word} (h : 1 < w.toNat) : Lit.routingOfWord w = none := by
  unfold Lit.routingOfWord
  rw [if_neg, if_neg]
  all_goals rintro rfl; exact absurd h (by decide)

theorem windowOfWord_eq_none {w : Word} (h : 2 < w.toNat) : Lit.windowOfWord w = none := by
  unfold Lit.windowOfWord
  rw [if_neg, if_neg, if_neg]
  all_goals rintro rfl; exact absurd h (by decide)

theorem auxOfWord_eq_none {w : Word} (h : 3 < w.toNat) : Lit.auxOfWord w = none := by
  unfold Lit.auxOfWord
  rw [if_neg, if_neg, if_neg, if_neg]
  all_goals rintro rfl; exact absurd h (by decide)

theorem ratioIdxOfWord_eq_none {w : Word} (h : 15 < w.toNat) : Lit.ratioIdxOfWord w = none := by
  simp only [Lit.ratioIdxOfWord]
  rw [dif_neg (by omega)]

theorem ratioIdxOfWord_ofNat (i : Fin 16) : Lit.ratioIdxOfWord (BitVec.ofNat 32 i.val) = some i := by
  revert i; decide

/-! ## Words of the number registers (R47, R49, R51) -/

/-- A legal rate, on the bits: a finite number above 0. -/
theorem rateLegal_iff (w : Word) : rateLegal w = true ↔ 0 < w.toNat ∧ w.toNat < 0x7F800000 := by
  have hw := w.isLt
  have hinf : Fp.infMag = 0x7F800000 := rfl
  have hzero : Fp.posZero.toNat = 0 := rfl
  rw [rateLegal, Bool.and_eq_true, Fp.isFinite_eq, decide_eq_true_eq, Fp.gt, Fp.lt_iff, Fp.ord_lt_ord_iff (by decide) w,
    Fp.isNaN_eq w, decide_eq_false_iff_not, hinf, hzero]
  constructor
  · rintro ⟨hfinite, -, -, hpos, hsign⟩
    omega
  · rintro ⟨hpos, hlt⟩
    exact ⟨by omega, rfl, by omega, hpos, by omega⟩

/-- The clamp of an amount, on the bits (00_scope.md R20). -/
theorem clamp01Reg_eq (w : Word) : Fp.clamp01Reg w =
    if 0x7F800000 < w.toNat % 2 ^ 31 then 0
      else if w = 0x80000000 then w
      else if w.msb then 0
      else if 0x3F800000 < w.toNat then 0x3F800000
      else w := by
  have hw := w.isLt
  have hnan : Fp.isNaN w = true ↔ 0x7F800000 < w.toNat % 2 ^ 31 := by rw [Fp.isNaN_eq, decide_eq_true_eq]; rfl
  have hmsb : w.msb = true ↔ 2 ^ 31 ≤ w.toNat := by simp [BitVec.msb_eq_decide]
  have heq : w = 0x80000000 ↔ w.toNat = 2 ^ 31 := BitVec.toNat_inj.symm
  unfold Fp.clamp01Reg
  by_cases hn : 0x7F800000 < w.toNat % 2 ^ 31
  · rw [if_pos (hnan.mpr hn), if_pos hn]; rfl
  have hw' : Fp.isNaN w = false := by rwa [← hnan, Bool.not_eq_true] at hn
  have hneg : Fp.lt w Fp.posZero = true ↔ 2 ^ 31 < w.toNat := by
    rw [Fp.lt_iff, ← Fp.ord_neg_iff w]
    exact ⟨fun h => h.2.2, fun h => ⟨hw', rfl, h⟩⟩
  have hone : Fp.gt w Fp.one = true ↔ 0x3F800000 < w.toNat ∧ w.toNat < 2 ^ 31 := by
    rw [Fp.gt, Fp.lt_iff, Fp.ord_lt_ord_iff (by decide) w]
    exact ⟨fun h => h.2.2, fun h => ⟨rfl, hw', h⟩⟩
  rw [if_neg (by simp [hw']), if_neg hn, Fp.clamp01]
  simp only [hneg, hone, hmsb, heq]
  rcases Nat.lt_trichotomy w.toNat (2 ^ 31) with hplus | hnegZero | hminus
  · simp only [hplus, hplus.not_gt, hplus.ne, hplus.not_ge, and_true, if_false]; rfl
  · simp only [hnegZero, lt_irrefl, and_false, if_false, if_true]
  · simp only [hminus, hminus.ne', hminus.le, if_true, if_false]; rfl

theorem writeChannels_of_legal {w : Word} {s : State} (h1 : 1 ≤ w.toNat) (h16 : w.toNat ≤ 16) :
    writeChannels w s = { s with channels := w } := by
  have hw : w ≠ 0 := by rintro rfl; exact absurd h1 (by decide)
  rw [writeChannels, if_neg hw, if_pos h16]

theorem writeChannels_of_gt {w : Word} {s : State} (h : 16 < w.toNat) : writeChannels w s = raise .cfgIgn s := by
  have hw : w ≠ 0 := by rintro rfl; exact absurd h (by decide)
  rw [writeChannels, if_neg hw, if_neg (by omega)]

/-! ## The units and rings at reset (R78) -/

@[simp] theorem getVoice_resetWith (p : Params) (v : VoiceIdx) : getVoice (State.resetWith p) v = Voice.atReset p := by
  simp only [getVoice, State.resetWith, Fin.getElem_fin, Vector.getElem_replicate]

@[simp] theorem getPhasor_resetWith (p : Params) (v : VoiceIdx) (u : UnitIdx) :
    getPhasor (State.resetWith p) v u = Phasor.atReset := by
  simp only [getPhasor, getVoice_resetWith, Voice.atReset, Fin.getElem_fin, Vector.getElem_replicate]

@[simp] theorem getSmoother_resetWith (p : Params) (v : VoiceIdx) (u : UnitIdx) :
    getSmoother (State.resetWith p) v u = Smoother.atReset p u := by
  rw [getSmoother, getVoice_resetWith]
  match u with
  | 0 | 1 | 2 => rfl

@[simp] theorem getPmq_resetWith (p : Params) (v : VoiceIdx) : getPmq (State.resetWith p) v = Ring.empty F32 := by
  rw [getPmq, getVoice_resetWith, Voice.atReset]

/-! ## The statements -/

/-- Settles O6: the step takes the oldest request, and the encoding of a well-formed instruction decodes to it. -/
theorem stepRunsInstruction : Obligations.StepRunsInstruction := fun s rest =>
  ⟨fun i hwf h => by rw [step_of_request h, decodeRequest_encode hwf], fun r h => step_of_request h⟩

/-- Settles O14: each of these registers is writable and its write rule stores the word. -/
theorem storedWrites : Obligations.StoredWrites := fun s w =>
  ⟨fun v => ⟨exec_regWr_regAddr (r := .freq v) rfl w s, exec_regWr_regAddr (r := .extPm v) rfl w s⟩,
   fun i => ⟨exec_regWr_regAddr (r := .opA i) rfl w s, exec_regWr_regAddr (r := .opB i) rfl w s,
    exec_regWr_regAddr (r := .opC i) rfl w s, exec_regWr_regAddr (r := .opD i) rfl w s⟩⟩

/-- Settles O15, by the bits of a legal rate. -/
theorem sampleRateWrites : Obligations.SampleRateWrites := fun s w => by
  rw [show (0x00C : BitVec 12) = regAddr .sampleRate from rfl, exec_regWr_regAddr rfl]
  by_cases hw : rateLegal w = true
  · rw [if_pos ((rateLegal_iff w).mp hw), writeReg, writeSampleRate, if_pos hw]
  · rw [if_neg (mt (rateLegal_iff w).mpr hw), writeReg, writeSampleRate, if_neg hw]
    rfl

/-- Settles O17, by the bits of the clamp. -/
theorem amountWrites : Obligations.AmountWrites := fun s w => by
  dsimp only
  rw [← clamp01Reg_eq w]
  exact ⟨exec_regWr_regAddr (r := .amt1) rfl w s, exec_regWr_regAddr (r := .amt2) rfl w s,
    exec_regWr_regAddr (r := .depth) rfl w s⟩

/-- Settles O19: the low byte of the word is the mask. -/
theorem statusWrites : Obligations.StatusWrites := fun s d => by
  have hbyte : d.extractLsb' 0 8 = d.setWidth 8 := by
    ext i hi; simp
  rw [show (0x008 : BitVec 12) = regAddr .status from rfl, exec_regWr_regAddr rfl, writeReg, clearStatus, hbyte]

/-- Settles O16, register by register: the words that name a value, and the words that name none. -/
theorem modeWrites : Obligations.ModeWrites := fun s => by
  have hos (w : Word) : exec (.regWr 0x010 w) s = .next (storeNamed (Lit.osOfWord w) (fun m => { s with osFactor := m }) s) :=
    (exec_regWr_regAddr (r := .osFactor) rfl w s).trans (congrArg _ (writeOsFactor_eq w s))
  have hchannels (w : Word) : exec (.regWr 0x014 w) s = .next (writeChannels w s) :=
    exec_regWr_regAddr (r := .channels) rfl w s
  have hrouting (w : Word) :
      exec (.regWr 0x020 w) s = .next (storeNamed (Lit.routingOfWord w) (fun r => { s with routing := r }) s) :=
    (exec_regWr_regAddr (r := .routing) rfl w s).trans (congrArg _ (writeRouting_eq w s))
  have hwindow (w : Word) :
      exec (.regWr 0x024 w) s = .next (storeNamed (Lit.windowOfWord w) (fun m => { s with window := m }) s) :=
    (exec_regWr_regAddr (r := .window) rfl w s).trans (congrArg _ (writeWindow_eq w s))
  have haux (w : Word) : exec (.regWr 0x028 w) s = .next (storeNamed (Lit.auxOfWord w) (fun m => { s with auxMode := m }) s) :=
    (exec_regWr_regAddr (r := .auxMode) rfl w s).trans (congrArg _ (writeAuxMode_eq w s))
  have hratio (w : Word) :
      exec (.regWr 0x02C w) s = .next (storeNamed (Lit.ratioIdxOfWord w) (fun i => { s with ratioIdx := i }) s) :=
    (exec_regWr_regAddr (r := .ratioIdx) rfl w s).trans (congrArg _ (writeRatioIdx_eq w s))
  refine ⟨⟨hos 1, hos 2, hos 4, hos 8, hos 16, fun w hw => ?_⟩, ⟨hchannels 0, fun w h1 h16 => ?_, fun w hw => ?_⟩,
    ⟨hrouting 0, hrouting 1, fun w hw => ?_⟩, ⟨hwindow 0, hwindow 1, hwindow 2, fun w hw => ?_⟩,
    ⟨haux 0, haux 1, haux 2, haux 3, fun w hw => ?_⟩, fun i => ?_, fun w hw => ?_⟩
  · rw [hos, osOfWord_eq_none hw, storeNamed_none]; rfl
  · rw [hchannels, writeChannels_of_legal h1 h16]
  · rw [hchannels, writeChannels_of_gt hw]; rfl
  · rw [hrouting, routingOfWord_eq_none hw, storeNamed_none]; rfl
  · rw [hwindow, windowOfWord_eq_none hw, storeNamed_none]; rfl
  · rw [haux, auxOfWord_eq_none hw, storeNamed_none]; rfl
  · rw [hratio, ratioIdxOfWord_ofNat, storeNamed_some]
  · rw [hratio, ratioIdxOfWord_eq_none hw, storeNamed_none]; rfl

/-- Settles O18: the four codes name the four algorithms, and a word above 3 names none. -/
theorem algorithmWrites : Obligations.AlgorithmWrites := fun s => by
  have halg1 (w : Word) : exec (.regWr 0x018 w) s = .next (storeNamed (Lit.algOfWord w)
      (fun a => if a = s.alg1 then s else raise .algChanged { s with alg1 := a }) s) :=
    (exec_regWr_regAddr (r := .alg1) rfl w s).trans (congrArg _ (writeAlg1_eq w s))
  have halg2 (w : Word) : exec (.regWr 0x01C w) s = .next (storeNamed (Lit.algOfWord w)
      (fun a => if a = s.alg2 then s else raise .algChanged { s with alg2 := a }) s) :=
    (exec_regWr_regAddr (r := .alg2) rfl w s).trans (congrArg _ (writeAlg2_eq w s))
  refine ⟨fun c hc => ?_, fun w hw => ?_⟩
  · have hcode : Lit.algOfWord c.1 = some c.2 := by
      revert c; decide
    rw [halg1, halg2, hcode, storeNamed_some, storeNamed_some]
    exact ⟨rfl, rfl⟩
  · rw [halg1, halg2, algOfWord_eq_none hw, storeNamed_none, storeNamed_none]
    exact ⟨rfl, rfl⟩

/-- Settles O9: the reset table, row by row; the defaults of the three smoothers are the same. -/
theorem resetTable : Obligations.ResetTable := by
  refine ⟨rfl, rfl, rfl, rfl, rfl, rfl, rfl, rfl, rfl, rfl, rfl, rfl, rfl, rfl, fun v => ?_, rfl, fun i => ?_, rfl, rfl, rfl,
    fun v u => ?_, fun v => ?_, rfl, rfl, fun c => ?_⟩
  · simp only [State.reset, State.resetWith, Fin.getElem_fin, Vector.getElem_replicate]
    exact ⟨rfl, rfl, rfl, rfl⟩
  · simp only [State.reset, State.resetWith, Fin.getElem_fin, Vector.getElem_replicate]
    exact ⟨rfl, rfl, rfl, rfl, rfl⟩
  · rw [State.reset, getPhasor_resetWith, getSmoother_resetWith]
    exact ⟨rfl, rfl⟩
  · rw [State.reset, getPmq_resetWith]
    exact ⟨rfl, rfl⟩
  · simp only [State.reset, State.resetWith, Fin.getElem_fin, Vector.getElem_replicate]

end Sys2Proof.Machine
end

section
/-! PROOFS. What every step keeps (spec/10_state.md R46 to R71): the registers legal, the status word consistent, the rings rings, the
filter history of the length the filter reads, and the rates in force outside a TICK; and that the reset state is sound. -/

namespace Sys2Proof.Units

open Sys2Proof.Config (Params)
open Sys2Proof.Machine (inUnit)

/-! ## The coefficient of a smoother (41_smoother.md R181) -/

theorem isFinite_of_inUnit {x : F32} (hx : inUnit x = true) : Fp.isFinite x = true := by
  rw [inUnit, Bool.and_eq_true, Fp.le_iff, Fp.le_iff] at hx
  obtain ⟨⟨-, hnan, hlo⟩, -, -, hhi⟩ := hx
  rw [Fp.isNaN_eq, decide_eq_false_iff_not] at hnan
  rw [Fp.isFinite_eq, decide_eq_true_eq]
  by_contra hinf
  have hmag : x.toNat % 2 ^ 31 = Fp.infMag := by omega
  have hbig : Fp.ord Fp.one < (Fp.encMag Fp.infMag : Int) := by decide
  have hzero : Fp.ord Fp.posZero = 0 := rfl
  rw [Fp.ord_eq_encMag x, hmag] at hlo hhi
  split at hlo <;> omega

/-- One less a number of [0, 1], rounded, lies in [0, 1]. -/
theorem one_sub_inUnit {x : F32} (hx : inUnit x = true) : inUnit (Fp.sub Fp.one x) = true := by
  have hfinite := isFinite_of_inUnit hx
  rw [inUnit, Bool.and_eq_true, Fp.le_iff, Fp.le_iff] at hx
  obtain ⟨⟨-, -, hlo⟩, -, -, hhi⟩ := hx
  have hzero : Fp.ord Fp.posZero = 0 := rfl
  rw [Fp.sub_finite (by decide) hfinite, inUnit, Bool.and_eq_true, Fp.le_iff, Fp.le_iff]
  exact ⟨⟨rfl, Fp.isNaN_roundSum _ _, Fp.le_ord_roundSum rfl (by omega)⟩,
    Fp.isNaN_roundSum _ _, rfl, Fp.ord_roundSum_le rfl (by omega)⟩

/-- The exponent of a smoother is at most 0. -/
theorem neg_inv_le_zero {d : F32} (hpos : Fp.gt d Fp.posZero = true) (hfinite : Fp.isFinite d = true) :
    Fp.le (Fp.neg (Fp.div Fp.one d)) Fp.posZero = true := by
  rw [Fp.gt, Fp.lt_iff, Fp.ord_lt_ord_iff (by decide)] at hpos
  obtain ⟨-, -, hd, hsign⟩ := hpos
  have hd0 : 0 < d.toNat := hd
  have hmag : Fp.mag d ≠ 0 := by
    have h := Fp.encMag_lt_iff (m := 0) (n := d.toNat % 2 ^ 31)
    rw [Fp.encMag_zero] at h
    rw [Fp.mag_eq_encMag]
    omega
  have hplus : (Fp.signBit Fp.one != Fp.signBit d) = false := by
    rw [Fp.signBit_eq d, decide_eq_false (by omega)]; rfl
  have hround := Fp.roundMag_le_infMag (Fp.mag Fp.one * Fp.oneOrd) (Fp.mag d)
  have hinf := Fp.infMag_lt
  rw [Fp.div_finite (by decide) hfinite hmag, hplus, Fp.le_iff, Fp.ord_neg, Fp.ord_ofMag false (by omega),
    if_neg Bool.false_ne_true, Fp.isNaN_eq, Fp.toNat_neg_mod, ← Fp.isNaN_eq, Fp.isNaN_ofMag false hround]
  exact ⟨rfl, rfl, by rw [show Fp.ord Fp.posZero = 0 from rfl]; omega⟩

/-- A coefficient is 1, or one less an EXP at or below 0; both lie in [0, 1]. -/
theorem coefOf_inUnit (p : Params) (tc fs : F32) : inUnit (coefOf p tc fs) = true := by
  unfold coefOf
  dsimp only
  split
  · next hd =>
    obtain ⟨hpos, hfinite⟩ := Bool.and_eq_true_iff.mp hd
    exact one_sub_inUnit (exp_inUnit (neg_inv_le_zero hpos hfinite))
  · decide

end Sys2Proof.Units

namespace Sys2Proof.Machine

open Sys2Proof.Config (Params)

/-! ## Registers (R47, R49, R51, R59, R69) -/

/-- What holds where a word is refused and wherever it is stored holds after the write. -/
theorem storeNamed_induct {α : Type} {I : State → Prop} {named : Option α} {store : α → State} {s : State}
    (hrefused : I (raise .cfgIgn s)) (hstored : ∀ x, I (store x)) : I (storeNamed named store s) := by
  cases named with
  | none => exact hrefused
  | some x => exact hstored x

/-- The register clamp is the bound of a unit's value to [0, 1], so it lies there. -/
theorem clamp01Reg_inUnit (w : Word) : inUnit (Fp.clamp01Reg w) = true := Units.bound01_inUnit w

theorem rateLegal_fsReset : rateLegal Lit.fsReset = true := by decide

theorem inUnit_posZero : inUnit Fp.posZero = true := by decide

theorem channels_one : 1 ≤ (1 : Word).toNat ∧ (1 : Word).toNat ≤ 16 := by decide

theorem regsLegal_resetWith (p : Params) : RegsLegal (State.resetWith p) where
  sampleRate := rateLegal_fsReset
  fsActive := rateLegal_fsReset
  channels := channels_one
  outChannels := channels_one
  amt1 := inUnit_posZero
  amt2 := inUnit_posZero
  depth := inUnit_posZero

theorem regsLegal_raise (e : Event) {s : State} (hs : RegsLegal s) : RegsLegal (raise e s) := { hs with }

theorem regsLegal_writeSampleRate (w : Word) {s : State} (hs : RegsLegal s) : RegsLegal (writeSampleRate w s) := by
  unfold writeSampleRate
  split
  · next hw => exact { hs with sampleRate := hw }
  · exact regsLegal_raise _ hs

theorem regsLegal_writeChannels (w : Word) {s : State} (hs : RegsLegal s) : RegsLegal (writeChannels w s) := by
  unfold writeChannels
  split
  · exact { hs with channels := channels_one }
  · next h0 =>
    split
    · next h16 => exact { hs with channels := ⟨Nat.pos_of_ne_zero fun h => h0 (BitVec.eq_of_toNat_eq h), h16⟩ }
    · exact regsLegal_raise _ hs

theorem regsLegal_writeReg {p : Params} {r : Reg} (w : Word) {s : State} (hr : r ≠ .cmd) (hs : RegsLegal s) :
    RegsLegal (writeReg p r w s) := by
  have hrefused : RegsLegal (raise .cfgIgn s) := regsLegal_raise _ hs
  cases r with
  | cmd => exact absurd rfl hr
  | sampleRate => exact regsLegal_writeSampleRate w hs
  | channels => exact regsLegal_writeChannels w hs
  | amt1 => exact { hs with amt1 := clamp01Reg_inUnit w }
  | amt2 => exact { hs with amt2 := clamp01Reg_inUnit w }
  | depth => exact { hs with depth := clamp01Reg_inUnit w }
  | osFactor => rw [writeReg, writeOsFactor_eq]; exact storeNamed_induct hrefused fun _ => { hs with }
  | alg1 => rw [writeReg, writeAlg1_eq]; exact storeNamed_induct hrefused fun _ => by split <;> exact { hs with }
  | alg2 => rw [writeReg, writeAlg2_eq]; exact storeNamed_induct hrefused fun _ => by split <;> exact { hs with }
  | routing => rw [writeReg, writeRouting_eq]; exact storeNamed_induct hrefused fun _ => { hs with }
  | window => rw [writeReg, writeWindow_eq]; exact storeNamed_induct hrefused fun _ => { hs with }
  | auxMode => rw [writeReg, writeAuxMode_eq]; exact storeNamed_induct hrefused fun _ => { hs with }
  | ratioIdx => rw [writeReg, writeRatioIdx_eq]; exact storeNamed_induct hrefused fun _ => { hs with }
  | _ => exact { hs with }

theorem regsLegal_clearBuffers (p : Params) {s : State} (hs : RegsLegal s) : RegsLegal (clearBuffers p s) := by
  obtain ⟨voices, outq, hist, h⟩ := clearBuffers_frame p s
  rw [h]
  exact { hs with }

theorem regsLegal_keptByStep (p : Params) : KeptByStep p RegsLegal where
  ownFields _ _ _ _ hs := { hs with }
  raise e _ hs := regsLegal_raise e hs
  writeReg _ w _ hr hs := regsLegal_writeReg w hr hs
  setUnits _ _ _ _ hs := { hs with }
  mapUnits f s _ hs := by obtain ⟨voices, h⟩ := mapVoices_frame f s; rw [h]; exact { hs with }
  pushPm v x s hs := by rcases pushPm_cases p v x s with ⟨-, h⟩ | ⟨-, h⟩ <;> rw [h] <;> exact { hs with }
  popPm v s hs := by rcases popPm_cases p v s with ⟨-, -, h⟩ | ⟨-, -, h⟩ <;> rw [h] <;> exact { hs with }
  clear _ hs := regsLegal_clearBuffers p hs
  reset := regsLegal_resetWith p
  latchFactor _ hs := regsLegal_clearBuffers p { hs with }
  latchRate _ hs := regsLegal_clearBuffers p { hs with fsActive := hs.sampleRate }
  pushOut F s hs := by rcases pushOut_cases p F s with ⟨-, h⟩ | ⟨-, h⟩ <;> rw [h] <;> exact { hs with }
  filterBlock X s hs := by obtain ⟨hist, h⟩ := filterBlock_frame p X s; rw [h]; exact { hs with }
  output s hs := by
    rcases output_cases p s.channels s with ⟨-, h⟩ | ⟨-, h⟩ <;> rw [h]
    · exact regsLegal_raise _ hs
    · exact { hs with outChannels := hs.channels }

/-! ## STATUS (R46, R71) -/

/-- Raising an event leaves a consistent status word, whatever it was: its bit is set and its code is 1 to 8. -/
theorem statusWf_raise (e : Event) (s : State) : StatusWf (raise e s) where
  code := by rw [raise_lastCode]; cases e <;> decide
  clear := by
    have hcode : eventCode e ≠ 0 := by cases e <;> decide
    have hbit : eventBit e ≠ 0 := by cases e <;> decide
    rw [raise_lastCode, raise_flags]
    exact ⟨fun h => absurd h hcode, fun h => absurd (BitVec.or_eq_zero_iff.mp h).2 hbit⟩

/-- A clear that leaves no bit set makes LAST_CODE 0, and any other keeps a code that was not 0 (60_exceptions.md R345). -/
theorem statusWf_clearStatus (d : Word) {s : State} (hs : StatusWf s) : StatusWf (clearStatus d s) := by
  constructor <;> rw [clearStatus_lastCode] <;> by_cases h : s.flags &&& ~~~(d.extractLsb' 0 8) = 0
  · rw [if_pos h]; decide
  · rw [if_neg h]; exact hs.code
  · rw [if_pos h, clearStatus_flags]; exact ⟨fun _ => h, fun _ => rfl⟩
  · have hflags : s.flags ≠ 0 := fun h0 => h (by rw [h0]; exact BitVec.zero_and)
    rw [if_neg h, clearStatus_flags, hs.clear]
    exact ⟨fun h0 => absurd h0 hflags, fun h0 => absurd h0 h⟩

theorem statusWf_clearBuffers (p : Params) {s : State} (hs : StatusWf s) : StatusWf (clearBuffers p s) := by
  obtain ⟨voices, outq, hist, h⟩ := clearBuffers_frame p s
  rw [h]
  exact { hs with }

theorem statusWf_resetWith (p : Params) : StatusWf (State.resetWith p) := ⟨Nat.zero_le 8, ⟨fun _ => rfl, fun _ => rfl⟩⟩

theorem statusWf_writeReg {p : Params} {r : Reg} (w : Word) {s : State} (hr : r ≠ .cmd) (hs : StatusWf s) :
    StatusWf (writeReg p r w s) := by
  have hrefused : StatusWf (raise .cfgIgn s) := statusWf_raise _ s
  cases r with
  | cmd => exact absurd rfl hr
  | status => exact statusWf_clearStatus w hs
  | sampleRate =>
    rw [writeReg, writeSampleRate]
    split
    · exact { hs with }
    · exact hrefused
  | channels =>
    rw [writeReg, writeChannels]
    split_ifs
    · exact { hs with }
    · exact { hs with }
    · exact hrefused
  | osFactor => rw [writeReg, writeOsFactor_eq]; exact storeNamed_induct hrefused fun _ => { hs with }
  | alg1 =>
    rw [writeReg, writeAlg1_eq]
    exact storeNamed_induct hrefused fun _ => by split; exacts [hs, statusWf_raise _ _]
  | alg2 =>
    rw [writeReg, writeAlg2_eq]
    exact storeNamed_induct hrefused fun _ => by split; exacts [hs, statusWf_raise _ _]
  | routing => rw [writeReg, writeRouting_eq]; exact storeNamed_induct hrefused fun _ => { hs with }
  | window => rw [writeReg, writeWindow_eq]; exact storeNamed_induct hrefused fun _ => { hs with }
  | auxMode => rw [writeReg, writeAuxMode_eq]; exact storeNamed_induct hrefused fun _ => { hs with }
  | ratioIdx => rw [writeReg, writeRatioIdx_eq]; exact storeNamed_induct hrefused fun _ => { hs with }
  | amt1 | amt2 | depth | freq | extPm | opA | opB | opC | opD => exact { hs with }
  | id | outChannels | outqLevel | ratioValue | outPri | outAux | extqLevel | res => exact statusWf_raise _ s

theorem statusWf_keptByStep (p : Params) : KeptByStep p StatusWf where
  ownFields _ _ _ _ hs := { hs with }
  raise e s _ := statusWf_raise e s
  writeReg _ w _ hr hs := statusWf_writeReg w hr hs
  setUnits _ _ _ _ hs := { hs with }
  mapUnits f s _ hs := by obtain ⟨voices, h⟩ := mapVoices_frame f s; rw [h]; exact { hs with }
  pushPm v x s hs := by
    rcases pushPm_cases p v x s with ⟨-, h⟩ | ⟨-, h⟩ <;> rw [h]
    exacts [statusWf_raise _ s, { hs with }]
  popPm v s hs := by
    rcases popPm_cases p v s with ⟨-, -, h⟩ | ⟨-, -, h⟩ <;> rw [h]
    exacts [statusWf_raise _ s, { hs with }]
  clear _ hs := statusWf_clearBuffers p hs
  reset := statusWf_resetWith p
  latchFactor _ hs := statusWf_clearBuffers p { hs with }
  latchRate _ hs := statusWf_clearBuffers p { hs with }
  pushOut F s hs := by rcases pushOut_cases p F s with ⟨-, h⟩ | ⟨-, h⟩ <;> rw [h] <;> exact { hs with }
  filterBlock X s hs := by obtain ⟨hist, h⟩ := filterBlock_frame p X s; rw [h]; exact { hs with }
  output s hs := by
    rcases output_cases p s.channels s with ⟨-, h⟩ | ⟨-, h⟩ <;> rw [h]
    exacts [statusWf_raise _ s, { hs with }]

/-- Settles O56: both parts are kept by every update a step is made of. -/
theorem registersKept : Obligations.RegistersKept := fun _ _ hregs hstatus hstep =>
  ⟨(regsLegal_keptByStep Config.build).step hregs hstep, (statusWf_keptByStep Config.build).step hstatus hstep⟩

/-! ## Buffers (R65 to R67) -/

/-- A register write that is no command leaves the buffers and the rates in force alone. -/
theorem writeReg_buffers (p : Params) {r : Reg} (w : Word) (s : State) (hr : r ≠ .cmd) :
    let t := writeReg p r w s
    t.voices = s.voices ∧ t.outq = s.outq ∧ t.hist = s.hist ∧ t.fsActive = s.fsActive ∧ t.osActive = s.osActive := by
  have h := writeReg_kept p r w s hr
  simp only [keptByWrite, Prod.mk.injEq] at h
  obtain ⟨-, hfs, hos, hvoices, houtq, hhist, -⟩ := h
  exact ⟨hvoices, houtq, hhist, hfs, hos⟩

theorem getPmq_setVoice_of_pmq {s : State} {v : VoiceIdx} {x : Voice} (hx : x.pmq = (getVoice s v).pmq) (w : VoiceIdx) :
    getPmq (setVoice s v x) w = getPmq s w := by
  rw [getPmq, getVoice_setVoice]
  split
  · next hw => rw [hx, hw, getPmq]
  · rfl

section rings

variable {p : Params} {s : State}

theorem ringsWf_setPmq {v : VoiceIdx} {q : Ring F32} (hq : RingWf Fp.posZero (Units.capPm p) q) (hs : RingsWf p s) :
    RingsWf p (setPmq s v q) where
  pmq w := by
    rw [getPmq_setPmq]
    split
    exacts [hq, hs.pmq w]
  outq := hs.outq

theorem ringsWf_pushPm (v : VoiceIdx) (x : F32) (hs : RingsWf p s) : RingsWf p (pushPm p v x s) := by
  rcases pushPm_cases p v x s with ⟨-, h⟩ | ⟨hroom, h⟩ <;> rw [h]
  · exact { hs with }
  · exact ringsWf_setPmq (ringWf_push (hs.pmq v) (Nat.lt_of_le_of_ne (hs.pmq v).n hroom) x) hs

theorem ringsWf_popPmState (v : VoiceIdx) (hs : RingsWf p s) : RingsWf p (popPmState p v s) := by
  rcases popPm_cases p v s with ⟨-, -, h⟩ | ⟨-, -, h⟩ <;> rw [h]
  · exact { hs with }
  · exact ringsWf_setPmq (ringWf_drop (hs.pmq v)) hs

theorem ringsWf_pushOut (F : Frame) (hs : RingsWf p s) : RingsWf p (pushOut p F s) := by
  rcases pushOut_cases p F s with ⟨-, h⟩ | ⟨hroom, h⟩ <;> rw [h]
  · exact hs
  · exact { hs with outq := ringWf_push hs.outq (Nat.lt_of_le_of_ne hs.outq.n hroom) F }

theorem ringsWf_clearBuffers (hs : RingsWf p s) : RingsWf p (clearBuffers p s) where
  pmq v := by rw [getPmq_clearBuffers]; exact ringWf_clear (hs.pmq v)
  outq := by rw [clearBuffers_outq]; exact ringWf_clear hs.outq

theorem ringsWf_output (n : Word) (hs : RingsWf p s) : RingsWf p (output p n s) := by
  rcases output_cases p n s with ⟨-, h⟩ | ⟨-, h⟩ <;> rw [h]
  · exact { hs with }
  · exact { hs with outq := ringWf_drop hs.outq }

end rings

theorem ringsWf_resetWith (p : Params) : RingsWf p (State.resetWith p) where
  pmq v := by rw [getPmq_resetWith]; exact ringWf_empty _ (capPm_pos p)
  outq := ringWf_empty _ (capOut_pos p)

theorem ringsWf_keptByStep (p : Params) : KeptByStep p (RingsWf p) where
  ownFields _ _ _ _ hs := { hs with }
  raise _ _ hs := { hs with }
  writeReg r w s hr hs := by
    obtain ⟨hvoices, houtq, -⟩ := writeReg_buffers p w s hr
    exact ⟨fun v => by rw [getPmq_congr hvoices]; exact hs.pmq v, by rw [houtq]; exact hs.outq⟩
  setUnits s v x hx hs := ⟨fun w => by rw [getPmq_setVoice_of_pmq hx]; exact hs.pmq w, hs.outq⟩
  mapUnits f s hf hs := ⟨fun v => by rw [getPmq_mapVoices, hf]; exact hs.pmq v, hs.outq⟩
  pushPm v x _ hs := ringsWf_pushPm v x hs
  popPm v _ hs := ringsWf_popPmState v hs
  clear _ hs := ringsWf_clearBuffers hs
  reset := ringsWf_resetWith p
  latchFactor _ hs := ringsWf_clearBuffers { hs with }
  latchRate _ hs := ringsWf_clearBuffers { hs with }
  pushOut F _ hs := ringsWf_pushOut F hs
  filterBlock X s hs := by obtain ⟨hist, h⟩ := filterBlock_frame p X s; rw [h]; exact { hs with }
  output s hs := ringsWf_output s.channels hs

/-- The filter keeps as many samples as it reads, however many come in (45_decimation_src.md R285). -/
theorem length_decimateHist {h hist : List F32} (x : List F32) (hlen : hist.length = h.length - 1) :
    (decimateHist h hist x).length = h.length - 1 := by
  rw [decimateHist, List.length_drop, List.length_append]
  omega

theorem histWf_clearBuffers (p : Params) (s : State) : HistWf p (clearBuffers p s) := fun c => by
  simp

theorem histWf_filterBlock {p : Params} (X : List Frame) {s : State} (hs : HistWf p s) : HistWf p (filterBlock p X s) :=
  fun c => by
    simp only [filterBlock, Fin.getElem_fin, Vector.getElem_ofFn]
    exact length_decimateHist _ (hs c)

theorem histWf_resetWith (p : Params) : HistWf p (State.resetWith p) :=
  fun c => by simp [State.resetWith, Units.histLen, Units.taps]

theorem histWf_keptByStep (p : Params) : KeptByStep p (HistWf p) where
  ownFields _ _ _ _ hs := hs
  raise _ _ hs := hs
  writeReg r w s hr hs := by
    obtain ⟨-, -, hhist, -, hos⟩ := writeReg_buffers p w s hr
    intro c
    rw [hhist, hos]
    exact hs c
  setUnits _ _ _ _ hs := hs
  mapUnits f s _ hs := by obtain ⟨voices, h⟩ := mapVoices_frame f s; rw [h]; exact hs
  pushPm v x s hs := by rcases pushPm_cases p v x s with ⟨-, h⟩ | ⟨-, h⟩ <;> rw [h] <;> exact hs
  popPm v s hs := by rcases popPm_cases p v s with ⟨-, -, h⟩ | ⟨-, -, h⟩ <;> rw [h] <;> exact hs
  clear s _ := histWf_clearBuffers p s
  reset := histWf_resetWith p
  latchFactor _ _ := histWf_clearBuffers p _
  latchRate _ _ := histWf_clearBuffers p _
  pushOut F s hs := by rcases pushOut_cases p F s with ⟨-, h⟩ | ⟨-, h⟩ <;> rw [h] <;> exact hs
  filterBlock X _ hs := histWf_filterBlock X hs
  output s hs := by rcases output_cases p s.channels s with ⟨-, h⟩ | ⟨-, h⟩ <;> rw [h] <;> exact hs

/-- Settles O57: both parts are kept by every update a step is made of. -/
theorem buffersKept : Obligations.BuffersKept := fun _ _ hrings hhist hstep =>
  ⟨(ringsWf_keptByStep Config.build).step hrings hstep, (histWf_keptByStep Config.build).step hhist hstep⟩

/-! ## The rates in force (R69) -/

/-- The rates in force are those of `s`. -/
def sameRates (s t : State) : Prop := t.fsActive = s.fsActive ∧ t.osActive = s.osActive

theorem sameRates_keptByParts (p : Params) (s : State) : KeptByParts p (sameRates s) where
  ownFields _ _ _ _ ht := ht
  raise _ _ ht := ht
  writeReg r w t hr ht := by
    obtain ⟨-, -, -, hfs, hos⟩ := writeReg_buffers p w t hr
    exact ⟨hfs.trans ht.1, hos.trans ht.2⟩
  setUnits _ _ _ _ ht := ht
  mapUnits f t _ ht := by obtain ⟨voices, h⟩ := mapVoices_frame f t; rw [h]; exact ht
  pushPm v x t ht := by rcases pushPm_cases p v x t with ⟨-, h⟩ | ⟨-, h⟩ <;> rw [h] <;> exact ht
  popPm v t ht := by rcases popPm_cases p v t with ⟨-, -, h⟩ | ⟨-, -, h⟩ <;> rw [h] <;> exact ht
  clear t ht := by obtain ⟨voices, outq, hist, h⟩ := clearBuffers_frame p t; rw [h]; exact ht

theorem ite_ne_of_ne {α : Type} {c : Prop} [Decidable c] {x y z : α} (hx : x ≠ z) (hy : y ≠ z) :
    (if c then x else y) ≠ z := by
  split <;> assumption

/-- CMD is one slot: the slots from 18 on are the banks and what is not mapped (20_memory.md R104). -/
theorem regOfSlot_eq_cmd {k : Nat} (h : regOfSlot k = some .cmd) : k = 1 := by
  unfold regOfSlot at h
  split at h
  case h_2 => rfl
  case h_19 =>
    refine absurd h ?_
    dsimp only
    repeat refine ite_ne_of_ne nofun ?_
    nofun
  all_goals cases h

theorem regAt_eq_cmd {a : BitVec 12} (h : regAt a = some .cmd) : a = cmdAddr := by
  unfold regAt at h
  split at h
  · have hslot : a.toNat / 4 = 1 := regOfSlot_eq_cmd h
    exact BitVec.eq_of_toNat_eq (show a.toNat = 4 by omega)
  · cases h

/-- A request performs a TICK only as the command (30_encoding.md R130). -/
theorem decodeRequest_eq_tick {r : BusRequest} (h : performsTick (decodeRequest r)) : decodeRequest r = .tick := by
  rcases h with h | ⟨a, w, hr, ha, hw⟩
  · exact h
  · rw [regAt_eq_cmd ha] at hr
    obtain ⟨e, he⟩ := decodeCommand_of_decodeRequest hr
    rw [hw] at he
    cases he

/-- Settles O22: a step that is no hardware reset and performs no TICK is made of parts that keep the rates. -/
theorem latchedRatesChangeAtTick : Obligations.LatchedRatesChangeAtTick := fun s t hstep hchange => by
  rcases step_cases hstep with ⟨-, rfl⟩ | ⟨rest, hin, -⟩ | ⟨r, rest, hin, hexec⟩
  · exact absurd ⟨rfl, rfl⟩ (not_and_or.mpr hchange)
  · exact ⟨rest, .inl hin⟩
  · refine ⟨rest, .inr ⟨r, hin, ?_⟩⟩
    by_contra htick
    have htaken : sameRates s { s with inbox := rest } := ⟨rfl, rfl⟩
    have hsame : sameRates s t :=
      (sameRates_keptByParts Config.build s).exec (fun h => absurd (decodeRequest_eq_tick h) htick) htaken hexec
    exact not_and_or.mpr hchange hsame

/-! ## The reset state (R78) -/

theorem smootherWf_atReset (p : Params) (u : UnitIdx) : SmootherWf (Smoother.atReset p u) where
  tc := (by decide : tcLegal (Lit.tcDefault 0) = true)
  fs := (by decide : Fp.gt Lit.fsReset Fp.posZero = true)
  coef := Units.coefOf_inUnit p _ _
  noRamp _ := ⟨rfl, rfl⟩

theorem unitsWf_resetWith (p : Params) : UnitsWf (State.resetWith p) where
  phasors v u := by rw [getPhasor_resetWith]; exact (by decide : Fp.gt Lit.fsReset Fp.posZero = true)
  smoothers v u := by rw [getSmoother_resetWith]; exact smootherWf_atReset p u

/-- Settles O59, part by part; the coefficient of a smoother lies in [0, 1] because EXP does at or below 0. -/
theorem soundAtReset : Obligations.SoundAtReset :=
  ⟨regsLegal_resetWith _, statusWf_resetWith _, ringsWf_resetWith _, histWf_resetWith _, unitsWf_resetWith _⟩

end Sys2Proof.Machine
end

section
/-! PROOFS. The register bus (spec/20_memory.md R103 to R108, R110): which addresses name a register, what a request to any other
address does, what a read returns, and what a second write of the same word does. -/

namespace Sys2Proof.Machine

open Sys2Proof.Config (Params)

/-! ## The address map (R104) -/

/-- The register of a word slot has the slot's address: the slots up to 17 one by one, the others bank by bank. -/
theorem regAddr_of_regOfSlot {k : Nat} {r : Reg} (h : regOfSlot k = some r) : (regAddr r).toNat = 4 * k := by
  unfold regOfSlot at h
  split at h
  case h_19 =>
    simp only [ite_eq_iff, reduceCtorEq, and_false, false_or, or_false, Option.some.injEq] at h
    rcases h with ⟨_, ⟨_, rfl⟩ | ⟨_, ⟨_, rfl⟩ | ⟨_, ⟨_, rfl⟩ | ⟨_, ⟨_, rfl⟩ | ⟨_, ⟨_, rfl⟩ | ⟨_, ⟨_, rfl⟩ | ⟨_, ⟨_, rfl⟩ |
      ⟨_, ⟨_, rfl⟩ | ⟨_, ⟨_, rfl⟩ | ⟨_, _, rfl⟩⟩⟩⟩⟩⟩⟩⟩⟩⟩
    all_goals simp only [regAddr, BitVec.toNat_ofNat, Fin.ofNat]; omega
  all_goals cases h; rfl

theorem regAt_eq_some_iff {a : BitVec 12} {r : Reg} : regAt a = some r ↔ a = regAddr r := by
  constructor
  · intro h
    unfold regAt at h
    split at h
    · next haligned =>
      have hslot := regAddr_of_regOfSlot h
      exact BitVec.eq_of_toNat_eq (by omega)
    · cases h
  · rintro rfl
    exact regAt_regAddr r

theorem regAt_eq_none_iff {a : BitVec 12} : regAt a = none ↔ ∀ r, a ≠ regAddr r := by
  simp only [Option.eq_none_iff_forall_ne_some, ne_eq, regAt_eq_some_iff]

/-- Where registers lie: at aligned addresses, outside the two unmapped ranges of R107. -/
theorem regAddr_mapped (r : Reg) : (regAddr r).toNat % 4 = 0
    ∧ ((regAddr r).toNat < 0x048 ∨ 0x080 ≤ (regAddr r).toNat ∧ (regAddr r).toNat < 0x210) := by
  cases r with
  | freq v | extPm v | outPri v | outAux v | extqLevel v | opA v | opB v | opC v | opD v | res v =>
    simp only [regAddr, BitVec.toNat_ofNat]; omega
  | _ => decide

/-- Where writable registers lie: from CMD to DEPTH, in the banks FREQ and EXTPM, and in the operand banks. -/
theorem regAddr_writable {r : Reg} (hr : readOnly r = false) :
    0x004 ≤ (regAddr r).toNat ∧ (regAddr r).toNat < 0x03C
    ∨ 0x080 ≤ (regAddr r).toNat ∧ (regAddr r).toNat < 0x100
    ∨ 0x1C0 ≤ (regAddr r).toNat ∧ (regAddr r).toNat < 0x200 := by
  cases r with
  | freq v | extPm v | opA v | opB v | opC v | opD v => simp only [regAddr, BitVec.toNat_ofNat]; omega
  | id | outChannels | outqLevel | ratioValue | outPri | outAux | extqLevel | res => cases hr
  | _ => decide

theorem extractLsb'_zero_two_eq_zero_iff (a : BitVec 12) : a.extractLsb' 0 2 = 0 ↔ a.toNat % 4 = 0 := by
  rw [← BitVec.toNat_inj]
  simp

theorem regAt_of_misaligned {a : BitVec 12} (ha : a.extractLsb' 0 2 ≠ 0) : regAt a = none := by
  refine regAt_eq_none_iff.mpr fun r hr => ha ?_
  rw [extractLsb'_zero_two_eq_zero_iff, hr]
  exact (regAddr_mapped r).1

theorem regAt_of_unmapped {a : BitVec 12} (ha : 0x048 ≤ a ∧ a ≤ 0x07C ∨ 0x210 ≤ a) : regAt a = none := by
  refine regAt_eq_none_iff.mpr fun r hr => ?_
  obtain ⟨-, hrange⟩ := regAddr_mapped r
  rw [← hr] at hrange
  bv_omega

/-! ## Requests that name no register (R103, R107, R108) -/

theorem busWrite_regAddr (p : Params) {r : Reg} (hr : readOnly r = false) (w : Word) (s : State) :
    busWrite p (regAddr r) w s = writeReg p r w s := by
  simp [busWrite, hr]

/-- A write that reaches no writable register is BUS_ERR. -/
theorem busWrite_of_rejected (p : Params) {a : BitVec 12} (ha : ∀ r, readOnly r = false → a ≠ regAddr r) (w : Word)
    (s : State) : busWrite p a w s = raise .busErr s := by
  rcases busWrite_cases p a w s with ⟨-, h⟩ | ⟨r, hr, hwritable, -⟩
  · exact h
  · exact absurd (regAt_eq_some_iff.mp hr) (ha r hwritable)

theorem exec_regWr_of_rejected {a : BitVec 12} (ha : ∀ r, readOnly r = false → a ≠ regAddr r) (w : Word) (s : State) :
    exec (.regWr a w) s = .next { s with flags := s.flags ||| 0x04#8, lastCode := 3#4 } :=
  congrArg _ (busWrite_of_rejected Config.build ha w s)

/-- A request to an address without a register is BUS_ERR, and such a read returns 0. -/
theorem exec_of_regAt_eq_none {a : BitVec 12} (ha : regAt a = none) (w : Word) (s : State) :
    exec (.regWr a w) s = .next { s with flags := s.flags ||| 0x04#8, lastCode := 3#4 }
    ∧ exec (.regRd a) s = .next { s with flags := s.flags ||| 0x04#8, lastCode := 3#4, readData := 0 } := by
  refine ⟨exec_regWr_of_rejected (fun r _ => regAt_eq_none_iff.mp ha r) w s, ?_⟩
  rw [exec_regRd, busRead, ha]; rfl

/-! ## Reads (R105) -/

/-- A REG_RD of the address of a register returns its value and changes nothing else. -/
theorem exec_regRd_regAddr (r : Reg) (s : State) :
    exec (.regRd (regAddr r)) s = .next { s with readData := readReg s r } := by
  rw [exec_regRd, busRead, regAt_regAddr]

/-- The bits of STATUS (10_state.md R46): the sticky bits, SR_PENDING, and LAST_CODE from bit 16 on. -/
theorem getLsbD_statusWord (s : State) (k : Nat) : (statusWord s).getLsbD k =
    if k < 8 then s.flags.getLsbD k else if k = 8 then s.srChanged else decide (16 ≤ k) && s.lastCode.getLsbD (k - 16) := by
  unfold statusWord
  rw [BitVec.getLsbD_append, BitVec.getLsbD_append, BitVec.getLsbD_append, BitVec.getLsbD_append, BitVec.getLsbD_ofBool]
  simp only [BitVec.ofNat_eq_ofNat, BitVec.getLsbD_zero]
  grind

/-- SR_PENDING alone: bit 8 of STATUS. -/
theorem getLsbD_pendingBit (b : Bool) (k : Nat) :
    ((if b then 0x100 else 0 : Nat) : Word).getLsbD k = (decide (k = 8) && b) := by
  cases b with
  | false => simp
  | true =>
    change (BitVec.twoPow 32 8).getLsbD k = _
    rw [BitVec.getLsbD_twoPow]
    simp [eq_comm]

/-- The fields of STATUS, each at its place (10_state.md R46). -/
theorem statusWord_eq (s : State) : statusWord s =
    s.flags.setWidth 32 ||| (if s.srChanged then 0x100 else 0) ||| (s.lastCode.setWidth 32 <<< 16) := by
  refine BitVec.eq_of_getLsbD_eq fun k hk => ?_
  rw [getLsbD_statusWord, BitVec.getLsbD_or, BitVec.getLsbD_or, getLsbD_pendingBit, BitVec.getLsbD_shiftLeft,
    BitVec.getLsbD_setWidth, BitVec.getLsbD_setWidth]
  grind

/-- The quotients of RATIO_TABLE (10_state.md R50). -/
theorem ratio_eq (i : Fin 16) : Lit.ratio i =
    (#v[0x3E800000, 0x3EAAAAAB, 0x3F000000, 0x3F800000, 0x40000000, 0x40400000, 0x40800000,
      0x40A00000, 0x40C00000, 0x40E00000, 0x41000000, 0x3FC00000, 0x40200000, 0x40600000, 0x3FAAAAAB, 0x3FD55555] :
      Vector Word 16)[i] := by
  revert i; decide

/-! ## Repeated writes (R110) -/

@[simp] theorem raise_raise (e : Event) (s : State) : raise e (raise e s) = raise e s := by
  simp only [raise, BitVec.or_assoc, BitVec.or_self]

theorem writeChannels_writeChannels (w : Word) (s : State) :
    writeChannels w (writeChannels w s) = writeChannels w s := by
  unfold writeChannels
  split_ifs
  exacts [rfl, rfl, raise_raise _ s]

/-- A refused word raises the same event again; a stored, clamped or named one is stored again over itself. -/
theorem writeReg_writeReg (p : Params) {r : Reg} (w : Word) (s : State)
    (hcmd : r ≠ .cmd) (hstatus : r ≠ .status) (hrate : r ≠ .sampleRate) :
    writeReg p r w (writeReg p r w s) = writeReg p r w s := by
  cases r with
  | cmd => exact absurd rfl hcmd
  | status => exact absurd rfl hstatus
  | sampleRate => exact absurd rfl hrate
  | channels => exact writeChannels_writeChannels w s
  | osFactor => simp only [writeReg, writeOsFactor_eq]; cases Lit.osOfWord w; exacts [raise_raise _ s, rfl]
  | routing => simp only [writeReg, writeRouting_eq]; cases Lit.routingOfWord w; exacts [raise_raise _ s, rfl]
  | window => simp only [writeReg, writeWindow_eq]; cases Lit.windowOfWord w; exacts [raise_raise _ s, rfl]
  | auxMode => simp only [writeReg, writeAuxMode_eq]; cases Lit.auxOfWord w; exacts [raise_raise _ s, rfl]
  | ratioIdx => simp only [writeReg, writeRatioIdx_eq]; cases Lit.ratioIdxOfWord w; exacts [raise_raise _ s, rfl]
  | alg1 =>
    simp only [writeReg, writeAlg1_eq]
    cases Lit.algOfWord w with
    | none => exact raise_raise _ s
    | some a => by_cases ha : a = s.alg1 <;> simp [ha]
  | alg2 =>
    simp only [writeReg, writeAlg2_eq]
    cases Lit.algOfWord w with
    | none => exact raise_raise _ s
    | some a => by_cases ha : a = s.alg2 <;> simp [ha]
  | amt1 | amt2 | depth => rfl
  | freq | extPm | opA | opB | opC | opD => simp only [writeReg, Vector.set_set]
  | id | outChannels | outqLevel | ratioValue | outPri | outAux | extqLevel | res => exact raise_raise .busErr s

theorem busWrite_busWrite (p : Params) {a : BitVec 12} (w : Word) (s : State)
    (hcmd : a ≠ regAddr .cmd) (hstatus : a ≠ regAddr .status) (hrate : a ≠ regAddr .sampleRate) :
    busWrite p a w (busWrite p a w s) = busWrite p a w s := by
  by_cases ha : ∀ r, readOnly r = false → a ≠ regAddr r
  · simp only [busWrite_of_rejected p ha, raise_raise]
  · push Not at ha
    obtain ⟨r, hr, rfl⟩ := ha
    simp only [busWrite_regAddr p hr]
    exact writeReg_writeReg p w s (ne_of_apply_ne regAddr hcmd) (ne_of_apply_ne regAddr hstatus)
      (ne_of_apply_ne regAddr hrate)

/-! ## The statements -/

/-- Settles O4: an aligned address names the register of its slot, and the register of a slot has the slot's address. -/
theorem addressMapIsExact : Obligations.AddressMapIsExact := fun _ _ => regAt_eq_some_iff

/-- Settles O10: every register lies at an aligned address. -/
theorem misalignedRequests : Obligations.MisalignedRequests := fun s _ w ha =>
  exec_of_regAt_eq_none (regAt_of_misaligned ha) w s

/-- Settles O11: no register lies in the two ranges. -/
theorem unmappedRequests : Obligations.UnmappedRequests := fun s _ w _ ha =>
  exec_of_regAt_eq_none (regAt_of_unmapped ha) w s

/-- Settles O12: no writable register lies at these addresses, and a write to STATUS masks the bits held. -/
theorem readOnlyWrites : Obligations.ReadOnlyWrites := fun s w => by
  refine ⟨fun a _ ha => exec_regWr_of_rejected (fun r hr hra => ?_) w s, _, statusWrites s w, ?_⟩
  · have hrange := regAddr_writable hr
    rw [← hra] at hrange
    bv_omega
  · change s.flags &&& ~~~(w.setWidth 8) &&& ~~~s.flags = 0
    rw [BitVec.and_comm s.flags, BitVec.and_assoc, BitVec.and_not_self]
    exact BitVec.and_zero

/-- Settles O13, register by register; STATUS by its fields and RATIO_VALUE by the table of quotients. -/
theorem mappedReads : Obligations.MappedReads := fun s => by
  have hread (r : Reg) := exec_regRd_regAddr r s
  refine ⟨hread .id, hread .cmd, ?_, hread .sampleRate, hread .osFactor, hread .channels, hread .alg1, hread .alg2,
    hread .routing, hread .window, hread .auxMode, hread .ratioIdx, hread .amt1, hread .amt2, hread .depth,
    hread .outChannels, hread .outqLevel, ?_,
    fun v => ⟨hread (.freq v), hread (.extPm v), hread (.outPri v), hread (.outAux v), hread (.extqLevel v)⟩,
    fun i => ⟨hread (.opA i), hread (.opB i), hread (.opC i), hread (.opD i), hread (.res i)⟩⟩
  · rw [← statusWord_eq]; exact hread .status
  · rw [← ratio_eq]; exact hread .ratioValue

/-- Settles O20: a refused write repeats its event, and any other stores again what it has stored. -/
theorem repeatedWrites : Obligations.RepeatedWrites := fun s t a w hcmd hstatus hrate h => by
  rw [exec_regWr] at h
  cases h
  rw [exec_regWr, busWrite_busWrite Config.build w s hcmd hstatus hrate]

end Sys2Proof.Machine
end

section
/-! PROOFS. The words of the opcode table (spec/30_encoding.md R130 to R138): the decoder accepts a word exactly when a row of the
table admits it, a write to CMD performs the command its word is, and the bits of a row are the request that decodes to it. -/

namespace Sys2Proof

/-! ## The rows of the table (R134, R135) -/

/-- A field that a row's mask covers is the pattern's. -/
theorem extractLsb'_of_masked {w mask pattern : Word} {start len : Nat} (h : w &&& mask = pattern)
    (hmask : mask.extractLsb' start len = BitVec.allOnes len) : w.extractLsb' start len = pattern.extractLsb' start len := by
  rw [← h, BitVec.extractLsb'_and, hmask, BitVec.and_allOnes]

/-- The row is the opcode's line in the decoder's table of field uses: its mask covers OPC, RSV and every field that the opcode
does not use, its pattern is 0 outside OPC, and it carries a constraint where U or M is used. -/
structure CommandRow.Agrees (r : CommandRow) (use : FieldUse) : Prop where
  use_eq : fieldUse (opcField r.pattern) = some use
  opc : opcField r.mask = BitVec.allOnes 8
  rsv : rsvField r.mask = BitVec.allOnes 15 ∧ rsvField r.pattern = 0
  v : use.v = false → vField r.mask = BitVec.allOnes 4 ∧ vField r.pattern = 0
  u : use.u = false → uField r.mask = BitVec.allOnes 2 ∧ uField r.pattern = 0
  m : use.m = false → mField r.mask = BitVec.allOnes 2 ∧ mField r.pattern = 0
  f : use.f = false → fField r.mask = BitVec.allOnes 1 ∧ fField r.pattern = 0
  unit : r.unitField = use.u
  window : r.windowField = use.m

/-- The opcode table and the decoder's table of field uses were written apart; row by row they agree. -/
theorem exists_agrees_of_mem {r : CommandRow} (hr : r ∈ commandTable) : ∃ use, r.Agrees use := by
  fin_cases hr
  all_goals exact ⟨_, rfl, by decide, by decide, by decide, by decide, by decide, by decide, rfl, rfl⟩

theorem admits_iff {r : CommandRow} {w : Word} : r.admits w = true ↔
    w &&& r.mask = r.pattern ∧ (r.unitField = true → uField w ≠ 3) ∧ (r.windowField = true → mField w ≠ 3) := by
  simp [CommandRow.admits, uField, mField, and_assoc, imp_iff_not_or]

/-! ## Words that are commands (R136, R137) -/

theorem exists_unitOfField {f : BitVec 2} (h : f ≠ 3) : ∃ u, unitOfField f = some u :=
  Option.isSome_iff_exists.mp (by revert f; decide)

theorem exists_windowOfField {f : BitVec 2} (h : f ≠ 3) : ∃ m, windowOfField f = some m :=
  Option.isSome_iff_exists.mp (by revert f; decide)

/-- An assigned opcode selects a command unless it uses U or M and that field is 3. -/
theorem exists_selectCommand {w : Word} {use : FieldUse} (huse : fieldUse (opcField w) = some use)
    (hu : use.u = true → uField w ≠ 3) (hm : use.m = true → mField w ≠ 3) : ∃ i, selectCommand w = .ok i := by
  unfold fieldUse at huse
  split at huse
  case h_23 => cases huse
  all_goals
    rename_i hopc
    cases huse
    simp only [selectCommand, hopc]
  case h_5 | h_6 | h_7 | h_8 | h_9 | h_10 =>
    obtain ⟨u, hunit⟩ := exists_unitOfField (hu rfl)
    exact ⟨_, by rw [hunit]⟩
  case h_16 =>
    obtain ⟨m, hwindow⟩ := exists_windowOfField (hm rfl)
    exact ⟨_, by rw [hwindow]⟩
  all_goals exact ⟨_, rfl⟩

/-- A word that passes the checks of R136 on RSV and on the unused fields is the command its opcode selects. -/
theorem decodeCommand_eq_selectCommand {w : Word} {use : FieldUse} (hrsv : rsvField w = 0)
    (huse : fieldUse (opcField w) = some use) (hunused : unusedNonzero use w = false) :
    decodeCommand w = selectCommand w := by
  simp [decodeCommand, hrsv, huse, hunused]

/-- A word that a row of the table admits is a command. -/
theorem exists_decodeCommand_of_admits {r : CommandRow} {w : Word} (hr : r ∈ commandTable) (hw : r.admits w = true) :
    ∃ i, decodeCommand w = .ok i := by
  obtain ⟨use, h⟩ := exists_agrees_of_mem hr
  obtain ⟨hmask, hu, hm⟩ := admits_iff.mp hw
  have huse : fieldUse (opcField w) = some use := by
    rw [← h.use_eq]
    exact congrArg fieldUse (extractLsb'_of_masked hmask h.opc)
  have hrsv : rsvField w = 0 := (extractLsb'_of_masked hmask h.rsv.1).trans h.rsv.2
  have hunused : unusedNonzero use w = false := unusedNonzero_eq_false.mpr
    ⟨fun hno => (extractLsb'_of_masked hmask (h.v hno).1).trans (h.v hno).2,
      fun hno => (extractLsb'_of_masked hmask (h.u hno).1).trans (h.u hno).2,
      fun hno => (extractLsb'_of_masked hmask (h.m hno).1).trans (h.m hno).2,
      fun hno => (extractLsb'_of_masked hmask (h.f hno).1).trans (h.f hno).2⟩
  rw [decodeCommand_eq_selectCommand hrsv huse hunused]
  exact exists_selectCommand huse (h.unit ▸ hu) (h.window ▸ hm)

theorem exists_decodeCommand_iff {w : Word} : (∃ i, decodeCommand w = .ok i) ↔ isCommandWord w = true := by
  constructor
  · rintro ⟨i, hi⟩
    by_contra hw
    obtain ⟨e, he⟩ := decodeCommand_of_not_isCommandWord (Bool.eq_false_of_not_eq_true hw)
    rw [he] at hi
    cases hi
  · intro hw
    obtain ⟨r, hr, hadmits⟩ := List.any_eq_true.mp hw
    exact exists_decodeCommand_of_admits hr hadmits

/-- A command word is no read: it travels as a write. -/
theorem ne_regRd_of_decodeCommand {w : Word} {i : Instr} (h : decodeCommand w = .ok i) (a : BitVec 12) : i ≠ .regRd a := by
  rintro rfl
  have hmsb := congrArg (fun r => r.header.msb) (encode_of_decodeCommand h).1
  simp [encode, carryCommand] at hmsb

/-! ## The bits of a row as a request (log 10) -/

theorem ok_of_toOption_eq_some {x : Except CommandReject Instr} {i : Instr} (h : x.toOption = some i) : x = .ok i := by
  cases x with
  | error e => cases h
  | ok j => cases h; rfl

/-- Bytes that are an instruction are the request that decodes to it. -/
theorem exists_requestOfBytes {bs : List Byte} {i : Instr} (h : decodeBytes bs = some i) :
    ∃ r, requestOfBytes bs = some r ∧ decodeRequest r = i := by
  unfold decodeBytes at h
  split at h
  · exact ⟨_, rfl, decodeRequest_carryCommand (ok_of_toOption_eq_some h)⟩
  · exact Option.map_eq_some_iff.mp h

end Sys2Proof

namespace Sys2Proof.Machine

/-! ## Commands on the bus, and requests issued -/

theorem exec_regWr_cmd (w : Word) (s : State) :
    exec (.regWr cmdAddr w) s = .next (writeCommand Config.build w s) :=
  congrArg Host.Outcome.next (busWrite_regAddr Config.build (r := .cmd) rfl w s)

theorem exec_of_decodeCommand {w : Word} {i : Instr} (h : decodeCommand w = .ok i) (s : State) :
    exec i s = .next (runCommand Config.build i s) :=
  exec_command (encode_of_decodeCommand h).2 (ne_regRd_of_decodeCommand h) s

theorem writeCommand_of_ok {w : Word} {i : Instr} (h : decodeCommand w = .ok i) (p : Config.Params) (s : State) :
    writeCommand p w s = runCommand p i s := by
  simp [writeCommand, h]

theorem writeCommand_of_error {w : Word} {e : CommandReject} (h : decodeCommand w = .error e) (p : Config.Params)
    (s : State) : writeCommand p w s = raise .cmdIll s := by
  simp [writeCommand, h]

/-- The request issued as the very next event is performed on the state it was issued in. -/
theorem step_issueNext_request (r : BusRequest) (s : State) :
    step (issueNext (.request r) s) = exec (decodeRequest r) s :=
  step_of_request rfl

/-! ## The statements -/

/-- Settles O1: a command is decoded by its word, a bus instruction by its header. -/
theorem decodeOfEncode : Obligations.DecodeOfEncode := fun _ h => decodeRequest_encode h

/-- Settles O2: the rows of the table agree with the decoder's field uses, and a word's fields are all of it. -/
theorem commandWordsAreTheTable : Obligations.CommandWordsAreTheTable :=
  ⟨fun _ => exists_decodeCommand_iff, fun _ _ h => (encode_of_decodeCommand h).1⟩

/-- Settles O3, by the two outcomes of decoding the word. -/
theorem commandWrites : Obligations.CommandWrites := fun w s => by
  refine ⟨fun i hi => ?_, fun hw => ?_⟩
  · calc exec (.regWr cmdAddr w) s
        = .next (writeCommand Config.build w s) := exec_regWr_cmd w s
      _ = .next (runCommand Config.build i s) := by rw [writeCommand_of_ok hi]
      _ = exec i s := (exec_of_decodeCommand hi s).symm
  · obtain ⟨e, he⟩ := decodeCommand_of_not_isCommandWord hw
    calc exec (.regWr cmdAddr w) s
        = .next (writeCommand Config.build w s) := exec_regWr_cmd w s
      _ = .next (raise .cmdIll s) := by rw [writeCommand_of_error he]

/-- Settles O7: the bits are a request that decodes to the instruction, and it is the next one performed. -/
theorem tableWordsRun : Obligations.TableWordsRun := fun s nbits w i h => by
  obtain ⟨r, hr, rfl⟩ := exists_requestOfBytes h
  have hissue : s.withFetchWord nbits w = issueNext (.request r) s := by
    simp [State.withFetchWord, issueTableWord, requestOfTableWord, hr]
  rw [hissue, step_issueNext_request]

/-- Settles O5: the decoder evaluated on each word. -/
theorem specWordsDecode : Obligations.SpecWordsDecode := by
  unfold Obligations.SpecWordsDecode
  decide

end Sys2Proof.Machine
end

section
/-! PROOFS. The phasor (spec/40_phasor.md R160 to R169): the sums, differences and products of numbers in [0, 2) that its rules
form, the two values a held lane gives (the base phase of a frequency set and the phase of a call), what a call and a frequency
set do to each lane, and from these the statements of the family. -/

namespace Sys2Proof.Fp

/-! ## Magnitudes and values -/

theorem ord_posZero : ord posZero = 0 := rfl

theorem ord_one : ord one = 2 ^ 149 := by decide

theorem ord_two : ord two = 2 ^ 150 := by decide

theorem natAbs_ord (x : F32) : (ord x).natAbs = mag x := by
  unfold ord
  split <;> simp

theorem ord_eq_zero_iff {x : F32} : ord x = 0 ↔ mag x = 0 := by
  rw [← natAbs_ord, Int.natAbs_eq_zero]

/-- The finite numbers are those whose magnitude is below that of the infinities. -/
theorem isFinite_iff_mag_lt {x : F32} : isFinite x = true ↔ mag x < encMag infMag := by
  rw [isFinite_eq, decide_eq_true_eq, mag_eq_encMag, encMag_lt_iff]

theorem isFinite_of_natAbs_ord_le {x : F32} (h : (ord x).natAbs ≤ 2 ^ 150) : isFinite x = true := by
  have hinf : 2 ^ 150 < encMag infMag := by decide
  rw [natAbs_ord] at h
  exact isFinite_iff_mag_lt.mpr (h.trans_lt hinf)

/-- Membership in [0, z) for a bound of at most 2. -/
theorem le_and_lt_iff {x z : F32} (hz : isNaN z = false) (hbound : ord z ≤ 2 ^ 150) :
    (le posZero x && lt x z) = true ↔ isFinite x = true ∧ 0 ≤ ord x ∧ ord x < ord z := by
  rw [Bool.and_eq_true, le_iff, lt_iff, ord_posZero]
  constructor
  · rintro ⟨⟨-, -, h0⟩, -, -, hlt⟩
    exact ⟨isFinite_of_natAbs_ord_le (by omega), h0, hlt⟩
  · rintro ⟨hfinite, h0, hlt⟩
    have hnan := not_isNaN_of_isFinite hfinite
    exact ⟨⟨rfl, hnan, h0⟩, hnan, hz, hlt⟩

theorem isInf_of_not_isFinite {x : F32} (hnan : isNaN x = false) (h : ¬ isFinite x = true) : isInf x = true := by
  rw [isFinite_eq, decide_eq_true_eq] at h
  rw [isNaN_eq, decide_eq_false_iff_not] at hnan
  rw [isInf_eq, decide_eq_true_eq]
  omega

theorem isFinite_of_mag_eq_zero {x : F32} (h : mag x = 0) : isFinite x = true :=
  isFinite_iff_mag_lt.mpr (by rw [h]; decide)

/-- Between a positive number and the next lies no other. -/
theorem ord_le_of_ord_lt_succ {w z x : F32} (hwz : z.toNat = w.toNat + 1) (hz : z.toNat < 2 ^ 31)
    (hx : ord x < ord z) : ord x ≤ ord w := by
  by_contra hcon
  obtain ⟨hw, hpos⟩ := (ord_lt_ord_iff (by omega) x).mp (not_le.mp hcon)
  rcases Nat.eq_or_lt_of_le (show z.toNat ≤ x.toNat by omega) with heq | hlt
  · exact absurd (congrArg ord (BitVec.eq_of_toNat_eq heq)) hx.ne'
  · exact absurd ((ord_lt_ord_iff hz x).mpr ⟨hlt, hpos⟩) hx.asymm

/-- The largest number below 1. -/
theorem ord_lt_one_iff {x : F32} : ord x < 2 ^ 149 ↔ ord x ≤ 2 ^ 149 - 2 ^ 125 := by
  have hpred : ord (0x3F7FFFFF : F32) = 2 ^ 149 - 2 ^ 125 := by decide
  refine ⟨fun h => ?_, fun h => by omega⟩
  rw [← hpred]
  exact ord_le_of_ord_lt_succ (z := one) (by decide) (by decide) (by rw [ord_one]; exact h)

theorem signBit_roundSum_of_nonneg {n : Int} (hn : 0 ≤ n) : signBit (roundSum false n) = false := by
  have hround := roundMag_le_infMag n.natAbs 1
  have hinf := infMag_lt
  unfold roundSum
  split
  · exact signBit_ofMag false (by decide)
  · rw [decide_eq_false (by omega), signBit_ofMag false (by omega)]

/-! ## Sums -/

/-- A zero added to a number without a sign bit leaves it as it is. -/
theorem add_of_mag_eq_zero {x z : F32} (hx : isFinite x = true) (hsign : signBit x = false) (hz : mag z = 0) :
    add x z = x := by
  have hpack : ofMag false (x.toNat % 2 ^ 31) = x := by rw [← hsign]; exact ofMag_signBit x
  have hord : ord x = (encMag (x.toNat % 2 ^ 31) : Int) := by simp [ord, hsign, mag_eq_encMag]
  have hlt : x.toNat % 2 ^ 31 < infMag := by rwa [isFinite_eq, decide_eq_true_eq] at hx
  rw [add_finite hx (isFinite_of_mag_eq_zero hz), ord_eq_zero_iff.mpr hz, hsign, Bool.false_and, Int.add_zero, hord,
    roundSum]
  split
  · next h0 =>
    have : x.toNat % 2 ^ 31 = 0 := encMag_strictMono.injective (by rw [encMag_zero]; exact_mod_cast h0)
    rw [this] at hpack
    exact hpack
  · rw [decide_eq_false (by omega), Int.natAbs_natCast]
    have hexact := roundMag_exact (m := x.toNat % 2 ^ 31) (den := 1) Nat.one_pos hlt.le
    rw [Nat.mul_one] at hexact
    rw [hexact, hpack]

/-- +0.0 plus a number below 0 is below 0. -/
theorem posZero_add_lt {y : F32} (hy : lt y posZero = true) : lt (add posZero y) posZero = true := by
  obtain ⟨hnan, -, hneg⟩ := lt_iff.mp hy
  by_cases hfinite : isFinite y = true
  · rw [add_finite (by decide) hfinite, lt_iff, ord_roundSum_exact hnan (by rw [ord_posZero, Int.zero_add])]
    exact ⟨isNaN_roundSum _ _, rfl, hneg⟩
  · have hinf := isInf_of_not_isFinite hnan hfinite
    have hadd : add posZero y = y := by
      simp [add, hnan, hinf, show isNaN posZero = false from rfl, show isInf posZero = false from rfl]
    rwa [hadd]

/-- The sum of two finite numbers of [0, 1) is a number of [0, 2): the largest is 2 - 2^-23. -/
theorem ord_add_range {x y : F32} (hx : isFinite x = true) (hy : isFinite y = true) (hx0 : 0 ≤ ord x) (hy0 : 0 ≤ ord y)
    (hx1 : ord x < 2 ^ 149) (hy1 : ord y < 2 ^ 149) :
    0 ≤ ord (add x y) ∧ ord (add x y) < 2 ^ 150 := by
  have hpred : ord (0x3FFFFFFF : F32) = 2 ^ 150 - 2 ^ 126 := by decide
  rw [ord_lt_one_iff] at hx1 hy1
  rw [add_finite hx hy]
  constructor
  · exact le_ord_roundSum (z := posZero) rfl (by rw [ord_posZero]; omega)
  · have := ord_roundSum_le (b := signBit x && signBit y) (n := ord x + ord y) (z := 0x3FFFFFFF) rfl (by omega)
    omega

/-! ## One less -/

/-- A whole number of units that needs at most 24 bits is rounded to itself. -/
theorem encMag_roundMag_of_dvd {e n : Nat} (hdvd : 2 ^ e ∣ n) (hlt : n < 2 ^ (e + 24)) (hmax : n ≤ encMag infMag) :
    encMag (roundMag n 1) = n := by
  obtain ⟨k, q, -, hq, hk, -, hlo, hhi, -⟩ := roundMag_shape n 1 Nat.one_pos
  rw [Nat.mul_one] at hlo hhi
  have hke : k ≤ e := by
    rcases hk with rfl | hk
    · exact Nat.zero_le e
    · have hpow : 2 ^ (23 + k) < 2 ^ (e + 24) := by
        rw [Nat.pow_add]
        exact (Nat.mul_le_mul_right _ hk).trans_lt (hlo.trans_lt hlt)
      have := (Nat.pow_lt_pow_iff_right (by decide)).mp hpow
      omega
  obtain ⟨c, rfl⟩ := (Nat.pow_dvd_pow 2 hke).trans hdvd
  rw [Nat.mul_comm (2 ^ k) c] at hlo hhi ⊢
  have hqc : q ≤ c := Nat.le_of_mul_le_mul_right hlo (Nat.two_pow_pos k)
  have hcq : c < q + 1 := Nat.lt_of_mul_lt_mul_right hhi
  have hc : c = q := by omega
  have hpack : encMag (k * 2 ^ 23 + q) = c * 2 ^ k := by rw [hc]; exact encMag_pack (by omega) hk
  have hexact := roundMag_exact (m := k * 2 ^ 23 + q) (den := 1) Nat.one_pos
    (encMag_le_iff.mp (by rw [hpack, Nat.mul_comm c]; exact hmax))
  rw [Nat.mul_one, hpack] at hexact
  rw [hexact, hpack]

/-- The numbers of [1, 2) are multiples of 2^-23. -/
theorem dvd_mag_of_mem_one_two {x : F32} (h1 : 2 ^ 149 ≤ mag x) (h2 : mag x < 2 ^ 150) : 2 ^ 126 ∣ mag x := by
  have hlo : encMag 0x3F800000 = 2 ^ 149 := by decide
  have hhi : encMag 0x40000000 = 2 ^ 150 := by decide
  rw [mag_eq_encMag, ← hlo, encMag_le_iff] at h1
  rw [mag_eq_encMag, ← hhi, encMag_lt_iff] at h2
  have hexp : x.toNat % 2 ^ 31 / 2 ^ 23 = 127 := by omega
  rw [mag_eq_encMag, encMag, hexp, if_neg (by decide)]
  exact Nat.dvd_mul_left _ _

/-- On [1, 2) the difference is exact (R166). -/
theorem ord_sub_one {x : F32} (h1 : 2 ^ 149 ≤ ord x) (h2 : ord x < 2 ^ 150) : ord (sub x one) = ord x - 2 ^ 149 := by
  have hmag := natAbs_ord x
  have hinf : 2 ^ 149 ≤ encMag infMag := by decide
  have hdvd : 2 ^ 126 ∣ (ord x - 2 ^ 149).natAbs := by
    have := dvd_mag_of_mem_one_two (x := x) (by omega) (by omega)
    omega
  rw [sub_finite (isFinite_of_natAbs_ord_le (by omega)) (by decide), ord_roundSum, ord_one, if_neg (by omega),
    encMag_roundMag_of_dvd hdvd (by omega) (by omega)]
  omega

/-- From 1 up, infinity included, the difference is not below 0. -/
theorem posZero_le_sub_one {x : F32} (h : ge x one = true) : le posZero (sub x one) = true := by
  obtain ⟨-, hnan, h1⟩ := le_iff.mp h
  by_cases hfinite : isFinite x = true
  · rw [sub_finite hfinite (by decide), le_iff]
    exact ⟨rfl, isNaN_roundSum _ _, le_ord_roundSum rfl (by rw [ord_posZero]; omega)⟩
  · have hinf := isInf_of_not_isFinite hnan hfinite
    have hsub : sub x one = x := by
      simp [sub, add, hnan, hinf, show isNaN (neg one) = false by decide, show isInf (neg one) = false by decide]
    rw [hsub, le_iff]
    rw [ord_one] at h1
    exact ⟨rfl, hnan, by rw [ord_posZero]; omega⟩

/-- From 1 up, a finite number less 1 is finite. -/
theorem isFinite_sub_one {x : F32} (hfinite : isFinite x = true) (h1 : 2 ^ 149 ≤ ord x) : isFinite (sub x one) = true := by
  have hnan := not_isNaN_of_isFinite hfinite
  have hmag := natAbs_ord x
  have hmag' := natAbs_ord (sub x one)
  rw [isFinite_iff_mag_lt] at hfinite ⊢
  rw [sub_finite (isFinite_iff_mag_lt.mpr hfinite) (by decide)] at hmag' ⊢
  have hle := ord_roundSum_le (b := signBit x && signBit (neg one)) (n := ord x - ord one) hnan (by rw [ord_one]; omega)
  have hge := le_ord_roundSum (b := signBit x && signBit (neg one)) (n := ord x - ord one) (z := posZero) rfl
    (by rw [ord_one, ord_posZero]; omega)
  rw [ord_posZero] at hge
  omega

/-! ## Products -/

/-- The sign bit of a number not below 0 is set on -0.0 only. -/
theorem mag_eq_zero_of_signBit {x : F32} (hsign : signBit x = true) (h0 : 0 ≤ ord x) : mag x = 0 := by
  rw [ord, if_pos hsign] at h0
  omega

/-- The product of two finite numbers of [0, 1) is a number of [0, 1). -/
theorem ord_mul_range {x y : F32} (hx : isFinite x = true) (hy : isFinite y = true) (hx0 : 0 ≤ ord x) (hy0 : 0 ≤ ord y)
    (hx1 : ord x < 2 ^ 149) (hy1 : ord y < 2 ^ 149) : 0 ≤ ord (mul x y) ∧ ord (mul x y) < 2 ^ 149 := by
  have hpred : encMag 0x3F7FFFFF = 2 ^ 149 - 2 ^ 125 := by decide
  have hmagx := natAbs_ord x
  have hmagy := natAbs_ord y
  rw [ord_lt_one_iff] at hx1
  have hround : roundMag (mag x * mag y) oneOrd ≤ 0x3F7FFFFF := by
    refine roundMag_le (Nat.two_pow_pos 149) (Nat.mul_le_mul ?_ (show mag y ≤ 2 ^ 149 by omega))
    omega
  have hmag := encMag_le_iff.mpr hround
  rw [mul_finite hx hy, ord_ofMag _ (by omega)]
  split
  · next hsign =>
    have hzero : mag x * mag y = 0 := by
      rcases Bool.eq_false_or_eq_true (signBit x) with hs | hs
      · rw [mag_eq_zero_of_signBit hs hx0, Nat.zero_mul]
      · rw [mag_eq_zero_of_signBit (by simpa [hs] using hsign) hy0, Nat.mul_zero]
    rw [hzero, roundMag_zero oneOrd (Nat.two_pow_pos 149), encMag_zero]
    omega
  · omega

theorem mag_mul_eq_zero {x y : F32} (hx : isFinite x = true) (hy : isFinite y = true) (h : mag x * mag y = 0) :
    mag (mul x y) = 0 := by
  rw [mul_finite hx hy, h, roundMag_zero oneOrd (Nat.two_pow_pos 149), mag_ofMag _ (by decide), encMag_zero]

/-! ## Quotients -/

/-- Zero by zero is a NaN. -/
theorem div_zero_zero {x y : F32} (hx : mag x = 0) (hy : mag y = 0) : div x y = qNaN := by
  have hfx := isFinite_of_mag_eq_zero hx
  have hfy := isFinite_of_mag_eq_zero hy
  simp [div, hx, hy, not_isNaN_of_isFinite hfx, not_isNaN_of_isFinite hfy, not_isInf_of_isFinite hfx,
    not_isInf_of_isFinite hfy]

/-- A number above 0 is no NaN, has no sign bit and is not a zero. -/
theorem bits_of_gt_posZero {y : F32} (hy : gt y posZero = true) :
    isNaN y = false ∧ signBit y = false ∧ mag y ≠ 0 := by
  rw [gt, lt_iff, ord_posZero] at hy
  obtain ⟨-, hnan, hpos⟩ := hy
  refine ⟨hnan, ?_, fun h => absurd (ord_eq_zero_iff.mpr h) hpos.ne'⟩
  by_contra hsign
  rw [ord, if_pos (by simpa using hsign)] at hpos
  omega

/-- +0.0 divided by a rate above 0, infinity included, is +0.0. -/
theorem div_posZero {y : F32} (hy : gt y posZero = true) : div posZero y = posZero := by
  obtain ⟨hnan, hsign, hmag⟩ := bits_of_gt_posZero hy
  by_cases hfinite : isFinite y = true
  · rw [div_finite (by decide) hfinite hmag, hsign, show mag posZero = 0 from rfl, Nat.zero_mul,
      roundMag_zero _ (Nat.pos_of_ne_zero hmag)]
    rfl
  · have hinf := isInf_of_not_isFinite hnan hfinite
    simp only [div, hnan, hinf, hsign, show isNaN posZero = false from rfl, show isInf posZero = false from rfl]
    rfl

/-! ## NaN and infinite operands -/

theorem add_of_isNaN_left {x : F32} (h : isNaN x = true) (y : F32) : add x y = qNaN := by simp [add, h]

theorem add_of_isNaN_right (x : F32) {y : F32} (h : isNaN y = true) : add x y = qNaN := by simp [add, h]

theorem mul_of_isNaN_left {x : F32} (h : isNaN x = true) (y : F32) : mul x y = qNaN := by simp [mul, h]

theorem div_of_isNaN_left {x : F32} (h : isNaN x = true) (y : F32) : div x y = qNaN := by simp [div, h]

theorem not_isNaN_of_isInf {x : F32} (h : isInf x = true) : isNaN x = false := by
  rw [isInf_eq, decide_eq_true_eq] at h
  rw [isNaN_eq, decide_eq_false_iff_not]
  omega

/-- An infinity is its sign bit. -/
theorem ofMag_signBit_infMag {x : F32} (h : isInf x = true) : ofMag (signBit x) infMag = x := by
  rw [isInf_eq, decide_eq_true_eq] at h
  rw [← h]
  exact ofMag_signBit x

theorem add_of_isInf_right {x y : F32} (hx : isFinite x = true) (hy : isInf y = true) : add x y = y := by
  simp [add, not_isNaN_of_isFinite hx, not_isInf_of_isFinite hx, not_isNaN_of_isInf hy, hy]

theorem mul_of_isInf_left {x y : F32} (hx : isInf x = true) (hpos : gt y posZero = true) : mul x y = x := by
  obtain ⟨hnan, hsign, hmag⟩ := bits_of_gt_posZero hpos
  have hmagx : mag x ≠ 0 := fun h => by
    rw [not_isInf_of_isFinite (isFinite_of_mag_eq_zero h)] at hx
    exact absurd hx (by decide)
  simpa [mul, not_isNaN_of_isInf hx, hnan, hx, hsign, hmag, hmagx] using ofMag_signBit_infMag hx

theorem div_of_isInf_left {x y : F32} (hx : isInf x = true) (hy : isFinite y = true) (hpos : gt y posZero = true) :
    div x y = x := by
  obtain ⟨hnan, hsign, -⟩ := bits_of_gt_posZero hpos
  simpa [div, not_isNaN_of_isInf hx, hnan, hx, not_isInf_of_isFinite hy, hsign] using ofMag_signBit_infMag hx

end Sys2Proof.Fp

namespace Sys2Proof.Machine

/-! ## The two values of a held lane (R161, R163) -/

theorem inPhase_iff {x : F32} : inPhase x = true ↔ Fp.isFinite x = true ∧ 0 ≤ Fp.ord x ∧ Fp.ord x < 2 ^ 149 := by
  rw [inPhase, Fp.le_and_lt_iff rfl (by decide), Fp.ord_one]

theorem inHeld_iff {x : F32} : inHeld x = true ↔ Fp.isFinite x = true ∧ 0 ≤ Fp.ord x ∧ Fp.ord x < 2 ^ 150 := by
  rw [inHeld, Fp.le_and_lt_iff rfl (by decide), Fp.ord_two]

theorem add_inHeld {x y : F32} (hx : inPhase x = true) (hy : inPhase y = true) : inHeld (Fp.add x y) = true := by
  obtain ⟨hxf, hx0, hx1⟩ := inPhase_iff.mp hx
  obtain ⟨hyf, hy0, hy1⟩ := inPhase_iff.mp hy
  obtain ⟨h0, h2⟩ := Fp.ord_add_range hxf hyf hx0 hy0 hx1 hy1
  exact inHeld_iff.mpr ⟨Fp.isFinite_of_natAbs_ord_le (by omega), h0, h2⟩

theorem mul_inPhase {x y : F32} (hx : inPhase x = true) (hy : inPhase y = true) : inPhase (Fp.mul x y) = true := by
  obtain ⟨hxf, hx0, hx1⟩ := inPhase_iff.mp hx
  obtain ⟨hyf, hy0, hy1⟩ := inPhase_iff.mp hy
  obtain ⟨h0, h1⟩ := Fp.ord_mul_range hxf hyf hx0 hy0 hx1 hy1
  exact inPhase_iff.mpr ⟨Fp.isFinite_of_natAbs_ord_le (by omega), h0, h1⟩

theorem laneFraction_inPhase (i : LaneIdx) : inPhase (Lit.laneFraction i) = true := by
  revert i; decide

theorem basePhase_of_one_le {p : F32} (h : Fp.ge p Fp.one = true) : basePhase p = Fp.sub p Fp.one := if_pos h

theorem basePhase_of_not_one_le {p : F32} (h : ¬ Fp.ge p Fp.one = true) : basePhase p = p := if_neg h

/-- A frequency set and a call wrap a lane alike; a call floors what is left below 0. -/
theorem laneOut_eq (p : F32) :
    laneOut p = if Fp.lt (basePhase p) Fp.posZero then Fp.posZero else basePhase p := rfl

theorem laneOut_of_lt_posZero {p : F32} (h : Fp.lt p Fp.posZero = true) : laneOut p = Fp.posZero := by
  have hge : ¬ Fp.ge p Fp.one = true := by
    rw [Fp.lt_iff, Fp.ord_posZero] at h
    rw [Fp.ge, Fp.le_iff, Fp.ord_one]
    omega
  rw [laneOut_eq, basePhase_of_not_one_le hge, if_pos h]

theorem laneOut_of_isNaN {p : F32} (h : Fp.isNaN p = true) : laneOut p = p := by
  have hge : ¬ Fp.ge p Fp.one = true := by simp [Fp.ge, Fp.le, h]
  have hlt : ¬ Fp.lt p Fp.posZero = true := by simp [Fp.lt, h]
  rw [laneOut_eq, basePhase_of_not_one_le hge, if_neg hlt]

theorem laneOut_of_posZero_le {p : F32} (h : Fp.le Fp.posZero (basePhase p) = true) : laneOut p = basePhase p := by
  rw [laneOut_eq, if_neg]
  rw [Fp.le_iff] at h
  rw [Fp.lt_iff]
  omega

/-- From 1 up a call wraps once, and no further (R168 (c)). -/
theorem laneOut_of_one_le {p : F32} (h : Fp.ge p Fp.one = true) : laneOut p = Fp.sub p Fp.one := by
  have hbase := basePhase_of_one_le h
  rw [laneOut_of_posZero_le (by rw [hbase]; exact Fp.posZero_le_sub_one h), hbase]

/-- The wrap takes a held lane into [0, 1), exactly. -/
theorem ord_basePhase {p : F32} (hp : inHeld p = true) : Fp.ord (basePhase p) = Fp.ord p % 2 ^ 149 := by
  obtain ⟨hfinite, h0, h2⟩ := inHeld_iff.mp hp
  by_cases h1 : 2 ^ 149 ≤ Fp.ord p
  · have hge : Fp.ge p Fp.one = true := Fp.le_iff.mpr ⟨rfl, Fp.not_isNaN_of_isFinite hfinite, by rwa [Fp.ord_one]⟩
    rw [basePhase_of_one_le hge, Fp.ord_sub_one h1 h2]
    omega
  · have hge : ¬ Fp.ge p Fp.one = true := by
      rw [Fp.ge, Fp.le_iff, Fp.ord_one]
      omega
    rw [basePhase_of_not_one_le hge]
    omega

theorem basePhase_inPhase {p : F32} (hp : inHeld p = true) : inPhase (basePhase p) = true := by
  have hord := ord_basePhase hp
  exact inPhase_iff.mpr ⟨Fp.isFinite_of_natAbs_ord_le (by omega), by omega, by omega⟩

theorem laneOut_eq_basePhase {p : F32} (hp : inHeld p = true) : laneOut p = basePhase p := by
  obtain ⟨hfinite, h0, -⟩ := inPhase_iff.mp (basePhase_inPhase hp)
  exact laneOut_of_posZero_le
    (Fp.le_iff.mpr ⟨rfl, Fp.not_isNaN_of_isFinite hfinite, by rwa [Fp.ord_posZero]⟩)

theorem inHeld_of_inPhase {p : F32} (hp : inPhase p = true) : inHeld p = true := by
  obtain ⟨hfinite, h0, h1⟩ := inPhase_iff.mp hp
  exact inHeld_iff.mpr ⟨hfinite, h0, by omega⟩

theorem basePhase_of_inPhase {p : F32} (hp : inPhase p = true) : basePhase p = p := by
  obtain ⟨-, -, h1⟩ := inPhase_iff.mp hp
  refine basePhase_of_not_one_le ?_
  rw [Fp.ge, Fp.le_iff, Fp.ord_one]
  omega

theorem laneOut_of_inPhase {p : F32} (hp : inPhase p = true) : laneOut p = p := by
  rw [laneOut_eq_basePhase (inHeld_of_inPhase hp), basePhase_of_inPhase hp]

/-- The base phase keeps the sign bit of a lane of [0, 2) clear. -/
theorem signBit_basePhase {p : F32} (hp : inHeld p = true) (hsign : Fp.signBit p = false) :
    Fp.signBit (basePhase p) = false := by
  obtain ⟨hfinite, -, -⟩ := inHeld_iff.mp hp
  by_cases hge : Fp.ge p Fp.one = true
  · obtain ⟨-, -, h1⟩ := Fp.le_iff.mp hge
    rw [basePhase_of_one_le hge, Fp.sub_finite hfinite (by decide), hsign, Bool.false_and]
    exact Fp.signBit_roundSum_of_nonneg (by omega)
  · rw [basePhase_of_not_one_le hge, hsign]

theorem isFinite_basePhase {p : F32} (hp : Fp.isFinite p = true) : Fp.isFinite (basePhase p) = true := by
  by_cases hge : Fp.ge p Fp.one = true
  · obtain ⟨-, -, h1⟩ := Fp.le_iff.mp hge
    rw [basePhase_of_one_le hge]
    exact Fp.isFinite_sub_one hp (by rwa [Fp.ord_one] at h1)
  · rwa [basePhase_of_not_one_le hge]

/-! ## A call and a frequency set, by lane -/

@[simp] theorem phasorOut_get (P : Phasor) (i : LaneIdx) : (phasorOut P)[i] = laneOut P.lane[i] := by simp [phasorOut]

@[simp] theorem phasorNext_lane (P : Phasor) (i : LaneIdx) :
    (phasorNext P).lane[i] = Fp.add (laneOut P.lane[i]) P.inc := by simp [phasorNext]

@[simp] theorem phasorNext_inc (P : Phasor) : (phasorNext P).inc = P.inc := rfl

@[simp] theorem setFrequency_inc (P : Phasor) (f : F32) : (setFrequency P f).inc = Fp.div (Fp.mul f Fp.four) P.fs := rfl

@[simp] theorem setFrequency_fs (P : Phasor) (f : F32) : (setFrequency P f).fs = P.fs := rfl

@[simp] theorem setFrequency_lane (P : Phasor) (f : F32) (i : LaneIdx) :
    (setFrequency P f).lane[i]
      = Fp.add (basePhase P.lane[0]) (Fp.mul (setFrequency P f).inc (Lit.laneFraction i)) := by simp [setFrequency]

theorem ofFn_lane {α : Type} (f : LaneIdx → α) : Vector.ofFn f = #v[f 0, f 1, f 2, f 3] := by
  ext i hi
  interval_cases i <;> simp

/-! ## The commands -/

theorem exec_phSetfreq (v : VoiceIdx) (u : UnitIdx) (s : State) : exec (.phSetfreq v u) s = .next (phSetfreq v u s) := rfl

theorem exec_phProcess (v : VoiceIdx) (u : UnitIdx) (s : State) : exec (.phProcess v u) s = .next (phProcess v u s) := rfl

theorem exec_phSetsr (v : VoiceIdx) (u : UnitIdx) (s : State) : exec (.phSetsr v u) s = .next (phSetsr v u s) := rfl

@[simp] theorem getPhasor_phSetfreq (v : VoiceIdx) (u : UnitIdx) (s : State) :
    getPhasor (phSetfreq v u s) v u = setFrequency (getPhasor s v u) s.opA[0] := getPhasor_setPhasor_same s v u _

@[simp] theorem getPhasor_phProcess (v : VoiceIdx) (u : UnitIdx) (s : State) :
    getPhasor (phProcess v u s) v u = phasorNext (getPhasor s v u) := getPhasor_setPhasor_same s v u _

@[simp] theorem phProcess_res (v : VoiceIdx) (u : UnitIdx) (s : State) :
    (phProcess v u s).res = phasorOut (getPhasor s v u) := rfl

/-- A completed instruction has one next state. -/
theorem eq_of_exec_eq {i : Instr} {s t t' : State} (ht : exec i s = .next t) (ht' : exec i s = .next t') : t = t' := by
  rw [ht] at ht'
  injection ht'

/-- Settles O26: the definitions, with each vector of lanes written out. -/
theorem phasorCommands : Obligations.PhasorCommands := fun v u s => by
  refine ⟨?_, ?_, ?_⟩
  · rw [exec_phSetfreq, phSetfreq, setFrequency, ofFn_lane]; rfl
  · rw [exec_phProcess, phProcess, phasorNext, phasorOut, ofFn_lane, ofFn_lane]; rfl
  · rw [exec_phSetsr, phSetsr, phasorSetSampleRate, setFrequency, ofFn_lane]; rfl

/-! ## Lanes in range (R166) -/

theorem phasorOut_inPhase {P : Phasor} (hheld : ∀ i : LaneIdx, inHeld P.lane[i] = true) (i : LaneIdx) :
    inPhase (phasorOut P)[i] = true := by
  rw [phasorOut_get, laneOut_eq_basePhase (hheld i)]
  exact basePhase_inPhase (hheld i)

theorem phasorNext_inHeld {P : Phasor} (hinc : inPhase P.inc = true) (hheld : ∀ i : LaneIdx, inHeld P.lane[i] = true)
    (i : LaneIdx) : inHeld (phasorNext P).lane[i] = true := by
  have hout := phasorOut_inPhase hheld i
  rw [phasorOut_get] at hout
  rw [phasorNext_lane]
  exact add_inHeld hout hinc

theorem setFrequency_inHeld {P : Phasor} {f : F32} (hinc : inPhase (setFrequency P f).inc = true)
    (hheld : inHeld P.lane[0] = true) (i : LaneIdx) : inHeld (setFrequency P f).lane[i] = true := by
  rw [setFrequency_lane]
  exact add_inHeld (basePhase_inPhase hheld) (mul_inPhase hinc (laneFraction_inPhase i))

theorem phasorNext_iterate_inc (P : Phasor) (c : Nat) : (phasorNext^[c] P).inc = P.inc := by
  induction c with
  | zero => rfl
  | succ c ih => rw [Function.iterate_succ_apply', phasorNext_inc, ih]

theorem phasorNext_iterate_inHeld {P : Phasor} (hinc : inPhase P.inc = true)
    (hheld : ∀ i : LaneIdx, inHeld P.lane[i] = true) (c : Nat) (i : LaneIdx) :
    inHeld (phasorNext^[c] P).lane[i] = true := by
  induction c generalizing i with
  | zero => exact hheld i
  | succ c ih =>
    rw [Function.iterate_succ_apply']
    exact phasorNext_inHeld (by rwa [phasorNext_iterate_inc]) ih i

/-! ## The samples of a phasor whose sums are exact (R160, R169) -/

/-- Sample `n` of a phasor, four a call, in the unit 2^-149. -/
def phasorSample (P : Phasor) (n : Nat) : Int :=
  Fp.ord (phasorOut (phasorNext^[n / 4] P))[(⟨n % 4, Nat.mod_lt n (by decide)⟩ : LaneIdx)]

/-- A phasor after a frequency set from base phase `b` (in the unit 2^-149), in range, whose every sum is exact (R169). -/
structure SumsExact (P : Phasor) (b : Int) : Prop where
  inc : inPhase P.inc = true
  held : ∀ i : LaneIdx, inHeld P.lane[i] = true
  lanes : ∀ i : LaneIdx, 4 * Fp.ord P.lane[i] = 4 * b + i.val * Fp.ord P.inc
  calls : ∀ (c : Nat) (i : LaneIdx),
    Fp.ord (phasorNext^[c + 1] P).lane[i] = Fp.ord (phasorOut (phasorNext^[c] P))[i] + Fp.ord P.inc

namespace SumsExact
variable {P : Phasor} {b : Int}

theorem ord_phasorOut (h : SumsExact P b) (c : Nat) (i : LaneIdx) :
    Fp.ord (phasorOut (phasorNext^[c] P))[i] = Fp.ord (phasorNext^[c] P).lane[i] % 2 ^ 149 := by
  have hheld := phasorNext_iterate_inHeld h.inc h.held c i
  rw [phasorOut_get, laneOut_eq_basePhase hheld, ord_basePhase hheld]

/-- Modulo 1, a lane rises by the increment at each call. -/
theorem ord_lane_iterate (h : SumsExact P b) (c : Nat) (i : LaneIdx) :
    Fp.ord (phasorNext^[c] P).lane[i] % 2 ^ 149 = (Fp.ord P.lane[i] + c * Fp.ord P.inc) % 2 ^ 149 := by
  induction c with
  | zero => simp
  | succ c ih =>
    rw [h.calls, h.ord_phasorOut, ih, Int.emod_add_emod]
    congr 1
    push_cast
    ring

/-- Sample `n` is the base phase and `n` quarters of the increment, modulo 1. -/
theorem four_mul_phasorSample (h : SumsExact P b) (n : Nat) :
    4 * phasorSample P n = (4 * b + n * Fp.ord P.inc) % (4 * 2 ^ 149) := by
  have hn : (n : Int) = 4 * (n / 4 : Nat) + (n % 4 : Nat) := by omega
  calc 4 * phasorSample P n
      = 4 * ((Fp.ord P.lane[(⟨n % 4, Nat.mod_lt n (by decide)⟩ : LaneIdx)] + (n / 4 : Nat) * Fp.ord P.inc) % 2 ^ 149) := by
        rw [phasorSample, h.ord_phasorOut, h.ord_lane_iterate]
    _ = (4 * (Fp.ord P.lane[(⟨n % 4, Nat.mod_lt n (by decide)⟩ : LaneIdx)] + (n / 4 : Nat) * Fp.ord P.inc))
          % (4 * 2 ^ 149) := (Int.mul_emod_mul_of_pos _ _ (by decide)).symm
    _ = (4 * b + n * Fp.ord P.inc) % (4 * 2 ^ 149) := by
        rw [Int.mul_add, h.lanes]
        congr 1
        rw [hn]
        ring

theorem phasorSample_range (h : SumsExact P b) (n : Nat) : 0 ≤ phasorSample P n ∧ phasorSample P n < 2 ^ 149 := by
  have hsample := h.four_mul_phasorSample n
  omega

/-- The next sample is a quarter of the increment above, or that less 1. -/
theorem phasorSample_succ (h : SumsExact P b) (n : Nat) :
    4 * phasorSample P (n + 1) = 4 * phasorSample P n + Fp.ord P.inc
      ∨ 4 * phasorSample P (n + 1) = 4 * phasorSample P n + Fp.ord P.inc - 4 * 2 ^ 149 := by
  obtain ⟨-, hinc0, hinc1⟩ := inPhase_iff.mp h.inc
  have hnext := h.four_mul_phasorSample (n + 1)
  rw [Int.natCast_add, Int.natCast_one, Int.add_mul, Int.one_mul, ← Int.add_assoc, Int.add_emod,
    ← h.four_mul_phasorSample n] at hnext
  have hrange := h.phasorSample_range n
  omega

/-- When `T` increments are four whole turns, `T` samples later the phase is the same. -/
theorem phasorSample_add (h : SumsExact P b) {T : Nat} (hT : T * Fp.ord P.inc = 4 * 2 ^ 149) (n : Nat) :
    phasorSample P (n + T) = phasorSample P n := by
  have hlater := h.four_mul_phasorSample (n + T)
  rw [Int.natCast_add, Int.add_mul, hT, ← Int.add_assoc, Int.add_emod_right, ← h.four_mul_phasorSample n] at hlater
  omega

end SumsExact

/-- A frequency set at frequency 0 and rate 0 gives no increment in [0, 1): the quotient is a NaN. -/
theorem setFrequency_inc_of_zero {P : Phasor} {f : F32} (hf : Fp.ord f = 0) (hfs : Fp.ord P.fs = 0) :
    (setFrequency P f).inc = Fp.qNaN := by
  rw [setFrequency_inc]
  have hmag := Fp.ord_eq_zero_iff.mp hf
  exact Fp.div_zero_zero
    (Fp.mag_mul_eq_zero (Fp.isFinite_of_mag_eq_zero hmag) (by decide) (by rw [hmag, Nat.zero_mul]))
    (Fp.ord_eq_zero_iff.mp hfs)

/-- An increment of exactly 4f/fs, with fs/f = T, is 4/T. -/
theorem period_mul_inc {P : Phasor} {f : F32} {T : Nat} (hinc : inPhase (setFrequency P f).inc = true)
    (hquot : Fp.ord (setFrequency P f).inc * Fp.ord (setFrequency P f).fs = 4 * Fp.ord f * 2 ^ 149)
    (hT : T * Fp.ord f = Fp.ord (setFrequency P f).fs) :
    T * Fp.ord (setFrequency P f).inc = 4 * 2 ^ 149 := by
  have hf : Fp.ord f ≠ 0 := by
    intro hf
    rw [hf, Int.mul_zero, setFrequency_fs] at hT
    rw [setFrequency_inc_of_zero hf hT.symm] at hinc
    exact absurd hinc (by decide)
  refine mul_right_cancel₀ hf ?_
  rw [← hT] at hquot
  linarith

/-- Settles O27: the ranges lane by lane, and with exact sums the samples modulo 1. -/
theorem phasorRange : Obligations.PhasorRange := fun v u s => by
  refine ⟨fun hinc hheld => ?_, fun hinc hheld => ?_, fun P0 f T => ?_⟩
  · refine ⟨_, exec_phProcess v u s, by simp, fun i => ?_⟩
    rw [phProcess_res, getPhasor_phProcess]
    exact ⟨phasorOut_inPhase hheld i, phasorNext_inHeld hinc hheld i⟩
  · refine ⟨_, exec_phSetfreq v u s, ?_⟩
    rw [getPhasor_phSetfreq]
    exact ⟨hinc, setFrequency_inHeld hinc hheld⟩
  · intro P call sample hinc hheld hlanes hcalls
    have h : SumsExact P (Fp.ord (basePhase P0.lane[0])) := ⟨hinc, setFrequency_inHeld hinc hheld, hlanes, hcalls⟩
    refine ⟨fun n => ?_, fun hquot hT n => h.phasorSample_add (period_mul_inc hinc hquot hT) n⟩
    obtain ⟨h0, h1⟩ := h.phasorSample_range n
    exact ⟨h0, h1, h.phasorSample_succ n⟩

/-! ## The base phase through a frequency change (R161) -/

/-- A frequency set with a finite increment puts the base phase itself in lane 0. -/
theorem setFrequency_lane_zero {P : Phasor} {f : F32} (hheld : inHeld P.lane[0] = true)
    (hsign : Fp.signBit P.lane[0] = false) (hinc : Fp.isFinite (setFrequency P f).inc = true) :
    (setFrequency P f).lane[0] = basePhase P.lane[0] := by
  obtain ⟨hfinite, -, -⟩ := inPhase_iff.mp (basePhase_inPhase hheld)
  have hzero : Fp.mag (Fp.mul (setFrequency P f).inc (Lit.laneFraction 0)) = 0 :=
    Fp.mag_mul_eq_zero hinc (by decide) (Nat.mul_zero _)
  exact (setFrequency_lane P f 0).trans (Fp.add_of_mag_eq_zero hfinite (signBit_basePhase hheld hsign) hzero)

/-- Settles O29: both calls output the base phase. -/
theorem frequencyChangeKeepsPhase : Obligations.FrequencyChangeKeepsPhase := by
  intro v u s t t1 t2 hheld hsign hset hinc h1 h2
  obtain rfl := eq_of_exec_eq (exec_phSetfreq v u s) hset
  obtain rfl := eq_of_exec_eq (exec_phProcess v u s) h1
  obtain rfl := eq_of_exec_eq (exec_phProcess v u _) h2
  rw [getPhasor_phSetfreq] at hinc
  rw [phProcess_res, phProcess_res, getPhasor_phSetfreq]
  calc (phasorOut (setFrequency (getPhasor s v u) s.opA[0]))[0]
      = laneOut (setFrequency (getPhasor s v u) s.opA[0]).lane[0] := phasorOut_get _ 0
    _ = laneOut (basePhase (getPhasor s v u).lane[0]) := by rw [setFrequency_lane_zero hheld hsign hinc]
    _ = basePhase (getPhasor s v u).lane[0] := laneOut_of_inPhase (basePhase_inPhase hheld)
    _ = laneOut (getPhasor s v u).lane[0] := (laneOut_eq_basePhase hheld).symm
    _ = (phasorOut (getPhasor s v u))[0] := (phasorOut_get _ 0).symm

/-! ## Corner cases (R168) -/

/-- The lanes of a call at increment +0.0: a phase of [0, 1) stands still. -/
theorem add_laneOut_posZero {p : F32} (hp : inPhase p = true) (hsign : p.msb = false) :
    Fp.add (laneOut p) Fp.posZero = p := by
  obtain ⟨hfinite, -, -⟩ := inPhase_iff.mp hp
  rw [laneOut_of_inPhase hp, Fp.add_of_mag_eq_zero hfinite hsign rfl]

theorem one_le_sub_one_of_two_le {p : F32} (hfinite : Fp.isFinite p = true) (h : Fp.ge p Fp.two = true) :
    Fp.ge p Fp.one = true ∧ Fp.ge (Fp.sub p Fp.one) Fp.one = true := by
  obtain ⟨-, hnan, h2⟩ := Fp.le_iff.mp h
  rw [Fp.ord_two] at h2
  rw [Fp.sub_finite hfinite (by decide), Fp.ge, Fp.ge, Fp.le_iff, Fp.le_iff]
  exact ⟨⟨rfl, hnan, by rw [Fp.ord_one]; omega⟩,
    rfl, Fp.isNaN_roundSum _ _, Fp.le_ord_roundSum rfl (by rw [Fp.ord_one]; omega)⟩

/-- At frequency +0.0 the increment is +0.0 (R168 (a)). -/
theorem setFrequency_inc_posZero {P : Phasor} (hfs : Fp.gt P.fs Fp.posZero = true) :
    (setFrequency P Fp.posZero).inc = Fp.posZero := by
  rw [setFrequency_inc, show Fp.mul Fp.posZero Fp.four = Fp.posZero by decide, Fp.div_posZero hfs]

/-- A NaN frequency makes the increment and every lane NaN (R168 (d)). -/
theorem setFrequency_of_isNaN (P : Phasor) {f : F32} (hf : Fp.isNaN f = true) :
    (setFrequency P f).inc = Fp.qNaN ∧ ∀ i : LaneIdx, (setFrequency P f).lane[i] = Fp.qNaN := by
  have hinc : (setFrequency P f).inc = Fp.qNaN := by
    rw [setFrequency_inc, Fp.mul_of_isNaN_left hf, Fp.div_of_isNaN_left (by decide)]
  refine ⟨hinc, fun i => ?_⟩
  rw [setFrequency_lane, hinc, Fp.mul_of_isNaN_left (by decide), Fp.add_of_isNaN_right _ (by decide)]

theorem laneFraction_pos {i : LaneIdx} (hi : i ≠ 0) : Fp.gt (Lit.laneFraction i) Fp.posZero = true := by
  revert i; decide

theorem mul_laneFraction_zero {f : F32} (hf : Fp.isInf f = true) : Fp.mul f (Lit.laneFraction 0) = Fp.qNaN := by
  have hzero : Fp.mag (Lit.laneFraction 0) = 0 := rfl
  simp [Fp.mul, hf, hzero]

/-- An infinite frequency is the increment, and every lane but lane 0, which is a NaN (R168 (e)). -/
theorem setFrequency_of_isInf {P : Phasor} {f : F32} (hf : Fp.isInf f = true) (hfs : Fp.isFinite P.fs = true)
    (hpos : Fp.gt P.fs Fp.posZero = true) (hlane : Fp.isFinite P.lane[0] = true) :
    (setFrequency P f).inc = f ∧ (setFrequency P f).lane[0] = Fp.qNaN
      ∧ ∀ i : LaneIdx, i ≠ 0 → (setFrequency P f).lane[i] = f := by
  have hinc : (setFrequency P f).inc = f := by
    rw [setFrequency_inc, Fp.mul_of_isInf_left hf (by decide), Fp.div_of_isInf_left hf hfs hpos]
  refine ⟨hinc, (setFrequency_lane P f 0).trans ?_, fun i hi => ?_⟩
  · rw [hinc, mul_laneFraction_zero hf, Fp.add_of_isNaN_right _ (by decide)]
  · rw [setFrequency_lane, hinc, Fp.mul_of_isInf_left hf (laneFraction_pos hi),
      Fp.add_of_isInf_right (isFinite_basePhase hlane) hf]

/-- Settles O28: each lane by the branch of the wrap and the floor it takes, each frequency by its kind. -/
theorem phasorCornerCases : Obligations.PhasorCornerCases := by
  refine ⟨fun v u s t i hexec => ?_, fun v u s t hexec => ?_⟩
  · obtain rfl := eq_of_exec_eq (exec_phProcess v u s) hexec
    intro P Q
    have hres : (phProcess v u s).res[i] = laneOut P.lane[i] := phasorOut_get P i
    have hlane : Q.lane[i] = Fp.add (laneOut P.lane[i]) P.inc := by
      rw [show Q = phasorNext P from getPhasor_phProcess v u s, phasorNext_lane]
    rw [hres, hlane]
    refine ⟨fun hinc hp hsign => ?_, fun hinc hp => ?_, fun hp => ?_, fun hp => ?_, fun hfinite hp => ?_, fun hp => ?_,
      fun hp => ?_⟩
    · rw [hinc]
      exact ⟨laneOut_of_inPhase hp, add_laneOut_posZero hp hsign⟩
    · rw [laneOut_of_lt_posZero hp]
      exact ⟨rfl, Fp.posZero_add_lt hinc⟩
    · rw [laneOut_of_isNaN hp]
      exact ⟨hp, Fp.add_of_isNaN_left hp _⟩
    · rw [hp]; decide
    · obtain ⟨hone, hsub⟩ := one_le_sub_one_of_two_le hfinite hp
      rw [laneOut_of_one_le hone]
      exact ⟨rfl, hsub, rfl⟩
    · rw [hp]; decide
    · rw [hp]; decide
  · obtain rfl := eq_of_exec_eq (exec_phSetfreq v u s) hexec
    rw [getPhasor_phSetfreq]
    intro P Q hfs
    refine ⟨fun hf => ?_, setFrequency_of_isNaN P, fun hf hfinite hlane => ?_⟩
    · exact (congrArg (fun f => (setFrequency P f).inc) hf).trans (setFrequency_inc_posZero hfs)
    · have hinf : Fp.isInf s.opA[0] = true := by rcases hf with hf | hf <;> rw [hf] <;> decide
      exact setFrequency_of_isInf hinf hfinite hfs hlane

end Sys2Proof.Machine
end

section
/-! PROOFS. The smoother (spec/41_smoother.md R181 to R190): its commands, and the linear ramp, which ends at the target and,
between finite numbers, moves only towards it. A ramp up and a ramp down are one argument: `σ` is 1 or -1, and `σ * ord x` rises
along the ramp. -/

namespace Sys2Proof.Fp

/-! ## Signs of sums and quotients -/

/-- Adding a number of one sign to a finite number moves it that way, or not at all. -/
theorem mul_ord_le_mul_ord_add {σ : Int} (hσ : σ = 1 ∨ σ = -1) {x y : F32} (hx : isFinite x = true) (hy : isNaN y = false)
    (hdir : 0 ≤ σ * ord y) : isNaN (add x y) = false ∧ σ * ord x ≤ σ * ord (add x y) := by
  have hxnan := not_isNaN_of_isFinite hx
  by_cases hfinite : isFinite y = true
  · rw [add_finite hx hfinite]
    refine ⟨isNaN_roundSum _ _, ?_⟩
    rcases hσ with rfl | rfl
    · have := le_ord_roundSum (b := signBit x && signBit y) (n := ord x + ord y) hxnan (by omega)
      omega
    · have := ord_roundSum_le (b := signBit x && signBit y) (n := ord x + ord y) hxnan (by omega)
      omega
  · have hinf := isInf_of_not_isFinite hy hfinite
    rw [add_of_isInf_right hx hinf]
    refine ⟨hy, ?_⟩
    rw [isFinite_iff_mag_lt] at hx hfinite
    have hmagx := natAbs_ord x
    have hmagy := natAbs_ord y
    rcases hσ with rfl | rfl <;> omega

/-- A rounded difference has the sign of the exact one. -/
theorem mul_ord_sub_nonneg {σ : Int} (hσ : σ = 1 ∨ σ = -1) {x y : F32} (hx : isFinite x = true) (hy : isFinite y = true)
    (hdir : σ * ord y ≤ σ * ord x) : isNaN (sub x y) = false ∧ 0 ≤ σ * ord (sub x y) := by
  rw [sub_finite hx hy]
  refine ⟨isNaN_roundSum _ _, ?_⟩
  rcases hσ with rfl | rfl
  · have := le_ord_roundSum (b := signBit x && signBit (neg y)) (n := ord x - ord y) (z := posZero) rfl
      (by rw [ord_posZero]; omega)
    rw [ord_posZero] at this
    omega
  · have := ord_roundSum_le (b := signBit x && signBit (neg y)) (n := ord x - ord y) (z := posZero) rfl
      (by rw [ord_posZero]; omega)
    rw [ord_posZero] at this
    omega

/-- A quotient by a finite number above 0 has the sign of the dividend, or is a zero. -/
theorem mul_ord_div_nonneg {σ : Int} (hσ : σ = 1 ∨ σ = -1) {x d : F32} (hx : isNaN x = false) (hdir : 0 ≤ σ * ord x)
    (hd : isFinite d = true) (hpos : gt d posZero = true) : isNaN (div x d) = false ∧ 0 ≤ σ * ord (div x d) := by
  obtain ⟨-, hsign, hmagd⟩ := bits_of_gt_posZero hpos
  by_cases hfinite : isFinite x = true
  · have hround := roundMag_le_infMag (mag x * oneOrd) (mag d)
    have hinf := infMag_lt
    rw [div_finite hfinite hd hmagd, hsign, Bool.bne_false, ord_ofMag _ (by omega)]
    refine ⟨isNaN_ofMag _ hround, ?_⟩
    by_cases hzero : mag x = 0
    · rw [hzero, Nat.zero_mul, roundMag_zero _ (Nat.pos_of_ne_zero hmagd), encMag_zero]
      simp
    · rw [ord] at hdir
      split at hdir
      · next hs => rw [if_pos hs]; rcases hσ with rfl | rfl <;> omega
      · next hs => rw [if_neg hs]; rcases hσ with rfl | rfl <;> omega
  · rw [div_of_isInf_left (isInf_of_not_isFinite hx hfinite) hd hpos]
    exact ⟨hx, hdir⟩

/-- A number between two finite ones is finite. -/
theorem isFinite_of_between {σ : Int} (hσ : σ = 1 ∨ σ = -1) {x y z : F32} (hx : isFinite x = true) (hz : isFinite z = true)
    (hxy : σ * ord x ≤ σ * ord y) (hyz : σ * ord y ≤ σ * ord z) : isFinite y = true := by
  rw [isFinite_iff_mag_lt, ← natAbs_ord] at hx hz ⊢
  rcases hσ with rfl | rfl <;> omega

end Sys2Proof.Fp

namespace Sys2Proof.Machine

open Sys2Proof.Config (Params)

/-! ## The commands (R187 to R189) -/

theorem exec_smInit (v : VoiceIdx) (u : UnitIdx) (mode : SmoothMode) (s : State) :
    exec (.smInit v u mode) s = .next (smInit Config.build v u mode s) := rfl

theorem exec_smSet (v : VoiceIdx) (u : UnitIdx) (imm : Bool) (s : State) :
    exec (.smSet v u imm) s = .next (smSet v u imm s) := rfl

theorem exec_smProcess (v : VoiceIdx) (u : UnitIdx) (s : State) : exec (.smProcess v u) s = .next (smProcess v u s) := rfl

/-- SM_INIT refuses either illegal operand with the one event (R187). -/
theorem smInit_eq (p : Params) (v : VoiceIdx) (u : UnitIdx) (mode : SmoothMode) (s : State) :
    smInit p v u mode s = if rateLegal s.opA[0] && tcLegal s.opA[1]
      then setSmoother s v u (smootherInit p (getSmoother s v u) s.opA[0] s.opA[1] mode) else raise .operandIll s := by
  unfold smInit
  cases rateLegal s.opA[0] <;> cases tcLegal s.opA[1] <;> rfl

/-- The smoother after a call is held, and its value is returned (R189). -/
def storeAndReturn (v : VoiceIdx) (u : UnitIdx) (s : State) (S : Smoother) : State :=
  setRes0 (setSmoother s v u S) S.value

theorem smProcess_eq (v : VoiceIdx) (u : UnitIdx) (s : State) :
    smProcess v u s = storeAndReturn v u s (smootherNext (getSmoother s v u)) := rfl

/-! ## The functions by mode (R184 to R186) -/

section modes

variable {S : Smoother}

theorem smootherSet_imm (S : Smoother) (x : F32) :
    smootherSet S x true = { S with target := x, value := x, step := Fp.posZero, remain := 0 } := rfl

theorem smootherSet_exponential (hmode : S.mode = .exponential) (x : F32) :
    smootherSet S x false = { S with target := x } := by
  simp [smootherSet, hmode]

theorem smootherSet_linear (hmode : S.mode = .linear) (x : F32) :
    smootherSet S x false =
      if Fp.gt (Fp.mul S.tc S.fs) Fp.posZero && Fp.isFinite (Fp.mul S.tc S.fs) then
        { S with target := x, step := Fp.div (Fp.sub x S.value) (Fp.mul S.tc S.fs),
                 remain := BitVec.ofNat 32 (Fp.ceilSat32 (Fp.mul S.tc S.fs)) }
      else { S with target := x, step := Fp.posZero, remain := 0 } := by
  simp [smootherSet, hmode]

theorem smootherNext_exponential (hmode : S.mode = .exponential) : smootherNext S = smootherNextExp S := by
  simp [smootherNext, hmode]

theorem smootherNext_linear (hmode : S.mode = .linear) : smootherNext S = smootherNextLin S := by
  simp [smootherNext, hmode]

/-- The last call of a ramp is the one that finds 1 in `remain`. -/
theorem rampEnds_eq (S : Smoother) (x : F32) :
    rampEnds S x = ((Fp.gt S.step Fp.posZero && Fp.ge x S.target) || (Fp.lt S.step Fp.posZero && Fp.le x S.target)
      || S.remain == 1#32) := by
  have hlast : (S.remain - 1 == 0) = (S.remain == 1#32) := by
    rw [Bool.eq_iff_iff, beq_iff_eq, beq_iff_eq]
    bv_omega
  rw [rampEnds, hlast]

end modes

/-- Settles O30: each command is its function, taken by mode. -/
theorem smootherCommands : Obligations.SmootherCommands := fun v u s => by
  refine ⟨fun m => ?_, ?_, fun hmode => ?_, fun hmode => ?_, fun hmode => ?_, fun hmode => ?_⟩
  · rw [exec_smInit, smInit_eq, rateLegal, tcLegal, ← Bool.and_assoc]; rfl
  · rw [exec_smSet, smSet, smootherSet_imm]; rfl
  · rw [exec_smSet, smSet, smootherSet_exponential hmode]
  · rw [exec_smSet, smSet, smootherSet_linear hmode, apply_ite (setSmoother s v u)]; rfl
  · rw [exec_smProcess, smProcess_eq, smootherNext_exponential hmode]; rfl
  · rw [exec_smProcess, smProcess_eq, smootherNext_linear hmode, smootherNextLin]
    simp only [rampEnds_eq, apply_ite (storeAndReturn v u s)]
    rfl

/-! ## The end of a ramp (R190 (a)) -/

/-- The state of a linear smoother after a call: the target, with the ramp over, or one call fewer to go. -/
theorem smootherNext_linear_cases {S : Smoother} (hmode : S.mode = .linear) :
    smootherNext S = { S with value := S.target, remain := 0 }
    ∨ S.remain ≠ 0 ∧ S.remain ≠ 1 ∧ rampEnds S (Fp.add S.value S.step) = false
      ∧ smootherNext S = { S with value := Fp.add S.value S.step, remain := S.remain - 1 } := by
  rw [smootherNext_linear hmode, smootherNextLin]
  by_cases h0 : S.remain = 0
  · rw [if_pos h0, ← h0]; exact .inl rfl
  rw [if_neg h0]
  by_cases hends : rampEnds S (Fp.add S.value S.step) = true
  · exact .inl (if_pos hends)
  · rw [Bool.not_eq_true] at hends
    have h1 : S.remain ≠ 1 := fun h1 => by
      rw [rampEnds_eq, h1] at hends
      simp at hends
    exact .inr ⟨h0, h1, hends, if_neg (by simp [hends])⟩

/-- With at most `n + 1` calls to go, `n + 1` calls reach the target. -/
theorem value_iterate_of_remain_le {S : Smoother} (hmode : S.mode = .linear) {n : Nat} (hn : S.remain.toNat ≤ n + 1) :
    (smootherNext^[n + 1] S).value = S.target := by
  induction n generalizing S with
  | zero =>
    rcases smootherNext_linear_cases hmode with h | ⟨h0, h1, -, -⟩
    · exact congrArg Smoother.value h
    · bv_omega
  | succ n ih =>
    rw [Function.iterate_succ_apply]
    rcases smootherNext_linear_cases hmode with h | ⟨h0, h1, -, h⟩ <;> rw [h]
    · exact ih hmode (Nat.zero_le _)
    · exact ih hmode (by bv_omega)

theorem ceilSat32_pos {d : F32} (hd : Fp.gt d Fp.posZero = true) : 0 < Fp.ceilSat32 d := by
  obtain ⟨-, -, hmag⟩ := Fp.bits_of_gt_posZero hd
  have hone : 0 < Fp.oneOrd := Nat.two_pow_pos 149
  exact Nat.lt_min.mpr ⟨Nat.div_pos (by omega) hone, by decide⟩

theorem toNat_ofNat_ceilSat32 (d : F32) : (BitVec.ofNat 32 (Fp.ceilSat32 d)).toNat = Fp.ceilSat32 d := by
  have hmax : Fp.ceilSat32 d ≤ 2 ^ 32 - 1 := Nat.min_le_right _ _
  rw [BitVec.toNat_ofNat]
  omega

/-- A Set with D above 0 and finite starts a ramp (R184). -/
theorem smootherSet_ramp {S : Smoother} (hmode : S.mode = .linear) (hd : Fp.gt (Fp.mul S.tc S.fs) Fp.posZero = true)
    (hfinite : Fp.isFinite (Fp.mul S.tc S.fs) = true) (x : F32) :
    smootherSet S x false =
      { S with target := x, step := Fp.div (Fp.sub x S.value) (Fp.mul S.tc S.fs),
               remain := BitVec.ofNat 32 (Fp.ceilSat32 (Fp.mul S.tc S.fs)) } := by
  rw [smootherSet_linear hmode, if_pos (by rw [hd, hfinite]; rfl)]

/-- Settles O31: the ramp has int_ceil_sat32(D) calls to go, and D above 0 makes that at least one. -/
theorem linearRampReachesTarget : Obligations.LinearRampReachesTarget := by
  intro S x n hmode hd hfinite hn
  have hpos := ceilSat32_pos hd
  obtain ⟨m, rfl⟩ : ∃ m, n = m + 1 := ⟨n - 1, by omega⟩
  rw [smootherSet_ramp hmode hd hfinite]
  refine value_iterate_of_remain_le ?_ ?_
  · exact hmode
  · rw [toNat_ofNat_ceilSat32]; exact hn

/-! ## A ramp in one direction (R190 (b), (c)) -/

/-- A linear smoother on its way to the finite target `x`, from below (`σ = 1`) or from above (`σ = -1`): its value has not
passed `x`, and its step, if not a zero, leads to it. -/
structure RampTowards (σ : Int) (x : F32) (S : Smoother) : Prop where
  mode : S.mode = .linear
  target : S.target = x
  finite : Fp.isFinite S.value = true
  reached : σ * Fp.ord S.value ≤ σ * Fp.ord x
  number : Fp.isNaN S.step = false
  direction : 0 ≤ σ * Fp.ord S.step

section ramp

variable {σ : Int} {x : F32} {S : Smoother}

/-- The comparisons of R186 end the ramp when the stepped value `y` is at the target or past it. -/
theorem rampEnds_of_reached (hσ : σ = 1 ∨ σ = -1) {y : F32} (hstep : Fp.isNaN S.step = false) (hy : Fp.isNaN y = false)
    (htarget : Fp.isNaN S.target = false) (hdir : 0 < σ * Fp.ord S.step) (hpast : σ * Fp.ord S.target ≤ σ * Fp.ord y) :
    rampEnds S y = true := by
  rw [rampEnds_eq]
  rcases hσ with rfl | rfl
  · have hup : Fp.gt S.step Fp.posZero = true := Fp.lt_iff.mpr ⟨rfl, hstep, by rw [Fp.ord_posZero]; omega⟩
    have hge : Fp.ge y S.target = true := Fp.le_iff.mpr ⟨htarget, hy, by omega⟩
    rw [hup, hge]; rfl
  · have hdown : Fp.lt S.step Fp.posZero = true := Fp.lt_iff.mpr ⟨hstep, rfl, by rw [Fp.ord_posZero]; omega⟩
    have hle : Fp.le y S.target = true := Fp.le_iff.mpr ⟨hy, htarget, by omega⟩
    rw [hdown, hle]; simp

/-- A step that does not end the ramp does not pass the target: a zero step does not move, and another would have ended it. -/
theorem RampTowards.step_le (h : RampTowards σ x S) (hσ : σ = 1 ∨ σ = -1) (hx : Fp.isFinite x = true)
    (hends : rampEnds S (Fp.add S.value S.step) = false) :
    σ * Fp.ord (Fp.add S.value S.step) ≤ σ * Fp.ord x := by
  obtain ⟨hnan, -⟩ := Fp.mul_ord_le_mul_ord_add hσ h.finite h.number h.direction
  rcases h.direction.lt_or_eq with hmoves | hzero
  · by_contra hpast
    have htarget : Fp.isNaN S.target = false := by rw [h.target]; exact Fp.not_isNaN_of_isFinite hx
    rw [rampEnds_of_reached hσ h.number hnan htarget hmoves (by rw [h.target]; omega)] at hends
    cases hends
  · have hback := (Fp.mul_ord_le_mul_ord_add (σ := -σ) (by omega) h.finite h.number (by rw [Int.neg_mul]; omega)).2
    rw [Int.neg_mul, Int.neg_mul] at hback
    exact (show _ ≤ σ * Fp.ord S.value by omega).trans h.reached

/-- A call keeps the ramp on its way and moves the value only towards the target (R186). -/
theorem RampTowards.next (h : RampTowards σ x S) (hσ : σ = 1 ∨ σ = -1) (hx : Fp.isFinite x = true) :
    RampTowards σ x (smootherNext S) ∧ σ * Fp.ord S.value ≤ σ * Fp.ord (smootherNext S).value := by
  rcases smootherNext_linear_cases h.mode with hnext | ⟨-, -, hends, hnext⟩ <;> rw [hnext]
  · refine ⟨{ h with finite := ?_, reached := ?_ }, ?_⟩ <;> dsimp only <;> rw [h.target]
    exacts [hx, h.reached]
  · obtain ⟨-, hforward⟩ := Fp.mul_ord_le_mul_ord_add hσ h.finite h.number h.direction
    have hle := h.step_le hσ hx hends
    exact ⟨{ h with finite := Fp.isFinite_of_between hσ h.finite hx hforward hle, reached := hle }, hforward⟩

theorem RampTowards.iterate (h : RampTowards σ x S) (hσ : σ = 1 ∨ σ = -1) (hx : Fp.isFinite x = true) (n : Nat) :
    RampTowards σ x (smootherNext^[n] S) := by
  induction n with
  | zero => exact h
  | succ n ih =>
    rw [Function.iterate_succ_apply']
    exact (ih.next hσ hx).1

/-- A Set between finite numbers starts such a ramp: the step has the sign of the way to go (R184). -/
theorem rampTowards_smootherSet (hσ : σ = 1 ∨ σ = -1) (hmode : S.mode = .linear)
    (hd : Fp.gt (Fp.mul S.tc S.fs) Fp.posZero = true) (hdfinite : Fp.isFinite (Fp.mul S.tc S.fs) = true)
    (hvalue : Fp.isFinite S.value = true) (hx : Fp.isFinite x = true) (hle : σ * Fp.ord S.value ≤ σ * Fp.ord x) :
    RampTowards σ x (smootherSet S x false) := by
  obtain ⟨hsubNaN, hsub⟩ := Fp.mul_ord_sub_nonneg hσ hx hvalue hle
  obtain ⟨hnumber, hdirection⟩ := Fp.mul_ord_div_nonneg hσ hsubNaN hsub hdfinite hd
  rw [smootherSet_ramp hmode hd hdfinite]
  exact ⟨hmode, rfl, hvalue, hle, hnumber, hdirection⟩

end ramp

/-- Settles O32: the ramp up is the case `σ = 1`, the ramp down the case `σ = -1`. -/
theorem linearRampMonotone : Obligations.LinearRampMonotone := by
  intro S x n hmode hd hdfinite hvalue hx y
  have hramp : ∀ σ : Int, σ = 1 ∨ σ = -1 → σ * Fp.ord S.value ≤ σ * Fp.ord x →
      Fp.isNaN (y n) = false ∧ Fp.isNaN (y (n + 1)) = false
        ∧ σ * Fp.ord (y n) ≤ σ * Fp.ord (y (n + 1)) ∧ σ * Fp.ord (y n) ≤ σ * Fp.ord x := by
    intro σ hσ hle
    have h := (rampTowards_smootherSet hσ hmode hd hdfinite hvalue hx hle).iterate hσ hx n
    obtain ⟨hnext, hforward⟩ := h.next hσ hx
    rw [← Function.iterate_succ_apply' smootherNext] at hnext hforward
    exact ⟨Fp.not_isNaN_of_isFinite h.finite, Fp.not_isNaN_of_isFinite hnext.finite, hforward, h.reached⟩
  have hxnan := Fp.not_isNaN_of_isFinite hx
  refine ⟨fun hup => ?_, fun hdown => ?_⟩
  · obtain ⟨-, -, hle⟩ := Fp.le_iff.mp hup
    obtain ⟨hn, hn', hforward, hreached⟩ := hramp 1 (.inl rfl) (by omega)
    exact ⟨Fp.le_iff.mpr ⟨hn, hn', by omega⟩, Fp.le_iff.mpr ⟨hn, hxnan, by omega⟩⟩
  · obtain ⟨-, -, hle⟩ := Fp.le_iff.mp hdown
    obtain ⟨hn, hn', hforward, hreached⟩ := hramp (-1) (.inr rfl) (by omega)
    exact ⟨Fp.le_iff.mpr ⟨hn', hn, by omega⟩, Fp.le_iff.mpr ⟨hxnan, hn, by omega⟩⟩

end Sys2Proof.Machine
end

section
/-! PROOFS. What every step keeps of the units (spec/10_state.md R63, R64, R69; spec/41_smoother.md R181 to R192;
spec/46_engine.md R300 to R312): which parts of a step leave them alone, and that the others keep rates positive and smoothers
sound. -/

namespace Sys2Proof.Fp

/-- A finite number above 0 times a finite number of at least 1 is above 0; it may overflow to infinity. -/
theorem gt_mul_posZero {x y : F32} (hx : isFinite x = true) (hpos : gt x posZero = true) (hy : isFinite y = true)
    (hone : le one y = true) : gt (mul x y) posZero = true := by
  obtain ⟨-, hsignx, hmagx⟩ := bits_of_gt_posZero hpos
  obtain ⟨hnan, -, hy1⟩ := le_iff.mp hone
  have hypos : gt y posZero = true := lt_iff.mpr ⟨rfl, not_isNaN_of_isFinite hy, by
    rw [ord_one] at hy1; rw [ord_posZero]; omega⟩
  obtain ⟨-, hsigny, -⟩ := bits_of_gt_posZero hypos
  have hmagy : oneOrd ≤ mag y := by
    rw [← natAbs_ord, oneOrd]
    rw [ord_one] at hy1
    omega
  have hround : 1 ≤ roundMag (mag x * mag y) oneOrd :=
    le_roundMag (Nat.two_pow_pos 149)
      (Nat.mul_le_mul (show encMag 1 ≤ mag x from Nat.pos_of_ne_zero hmagx) hmagy) (by decide)
  have hmax := roundMag_le_infMag (mag x * mag y) oneOrd
  have hinf := infMag_lt
  have hmag := encMag_le_iff.mpr hround
  rw [mul_finite hx hy, hsignx, hsigny, gt, lt_iff, ord_ofMag _ (by omega), isNaN_ofMag _ hmax]
  refine ⟨rfl, rfl, ?_⟩
  have hencOne : encMag 1 = 1 := rfl
  simp only [bne_self_eq_false, Bool.false_eq_true, if_false, ord_posZero]
  omega

end Sys2Proof.Fp

namespace Sys2Proof.Machine

open Sys2Proof.Config (Params)

/-! ## What leaves the units alone -/

/-- The phasors and the smoothers of each voice: a voice less its ring. -/
def unitsOf (s : State) (v : VoiceIdx) : Vector Phasor 3 × Vector Smoother 3 := ((getVoice s v).ph, (getVoice s v).sm)

theorem unitsOf_congr {s t : State} (h : t.voices = s.voices) : unitsOf t = unitsOf s :=
  funext fun v => by rw [unitsOf, getVoice_congr h, unitsOf]

theorem unitsOf_setPmq (s : State) (v : VoiceIdx) (q : Ring F32) : unitsOf (setPmq s v q) = unitsOf s :=
  funext fun w => by
    rw [unitsOf, setPmq, getVoice_setVoice]
    split
    · next h => rw [h, unitsOf]
    · rfl

theorem unitsOf_clearBuffers (p : Params) (s : State) : unitsOf (clearBuffers p s) = unitsOf s :=
  funext fun v => by rw [unitsOf, getVoice_clearBuffers, unitsOf]

theorem unitsOf_pushPm (p : Params) (v : VoiceIdx) (x : F32) (s : State) : unitsOf (pushPm p v x s) = unitsOf s := by
  rcases pushPm_cases p v x s with ⟨-, h⟩ | ⟨-, h⟩ <;> rw [h]
  · rfl
  · exact unitsOf_setPmq ..

theorem unitsOf_popPmState (p : Params) (v : VoiceIdx) (s : State) : unitsOf (popPmState p v s) = unitsOf s := by
  rcases popPm_cases p v s with ⟨-, -, h⟩ | ⟨-, -, h⟩ <;> rw [h]
  · rfl
  · exact unitsOf_setPmq ..

theorem unitsOf_pushPmTimes (p : Params) (v : VoiceIdx) (x : F32) (k : Nat) (s : State) :
    unitsOf (pushPmTimes p v x k s) = unitsOf s := by
  induction k generalizing s with
  | zero => rfl
  | succ k ih => rw [pushPmTimes, ih, unitsOf_pushPm]

theorem unitsOf_pushExt (p : Params) (n : Nat) (s : State) : unitsOf (pushExt p n s) = unitsOf s := by
  unfold pushExt
  induction activeVoices n generalizing s with
  | nil => rfl
  | cons v vs ih => rw [List.foldl_cons, ih, pushExtVoice, unitsOf_pushPmTimes]

theorem unitsOf_popBlockPm (p : Params) (v : VoiceIdx) (k : Nat) (s : State) :
    unitsOf (popBlockPm p v k s).2 = unitsOf s := by
  induction k generalizing s with
  | zero => rfl
  | succ k ih => rw [popBlockPm_succ, ih, unitsOf_popPmState]

theorem pushOutAll_voices (p : Params) (Fs : List Frame) (s : State) : (pushOutAll p Fs s).voices = s.voices := by
  induction Fs generalizing s with
  | nil => rfl
  | cons F Fs ih =>
    rw [pushOutAll, ih]
    rcases pushOut_cases p F s with ⟨-, h⟩ | ⟨-, h⟩ <;> rw [h]

theorem convert_voices (p : Params) (X : List Frame) (s : State) : (convert p X s).voices = s.voices := by
  obtain ⟨Y, h | h⟩ := convert_eq_pushOutAll p X s <;> rw [h, pushOutAll_voices]
  obtain ⟨hist, hfilter⟩ := filterBlock_frame p X s
  rw [hfilter]

theorem output_voices (p : Params) (n : Word) (s : State) : (output p n s).voices = s.voices := by
  rcases output_cases p n s with ⟨-, h⟩ | ⟨-, h⟩ <;> rw [h]
  rfl

/-! ## Sound voices -/

/-- The part of `UnitsWf` that speaks of one voice. -/
structure VoiceWf (vo : Voice) : Prop where
  phasors : ∀ u : UnitIdx, Fp.gt vo.ph[u].fs Fp.posZero = true
  smoothers : ∀ u : UnitIdx, SmootherWf vo.sm[u]

theorem unitsWf_iff {s : State} : UnitsWf s ↔ ∀ v, VoiceWf (getVoice s v) :=
  ⟨fun h v => ⟨h.phasors v, h.smoothers v⟩, fun h => ⟨fun v => (h v).phasors, fun v => (h v).smoothers⟩⟩

section states

variable {s : State} {p : Params}

theorem unitsWf_of_unitsOf_eq {t : State} (h : unitsOf t = unitsOf s) (hs : UnitsWf s) : UnitsWf t := by
  refine unitsWf_iff.mpr fun v => ?_
  obtain ⟨hph, hsm⟩ := Prod.mk.inj (congrFun h v)
  exact ⟨fun u => by rw [hph]; exact hs.phasors v u, fun u => by rw [hsm]; exact hs.smoothers v u⟩

theorem unitsWf_setVoice (v : VoiceIdx) {x : Voice} (hx : VoiceWf x) (hs : UnitsWf s) : UnitsWf (setVoice s v x) :=
  unitsWf_iff.mpr fun w => by
    rw [getVoice_setVoice]
    split
    exacts [hx, unitsWf_iff.mp hs w]

theorem unitsWf_mapVoices {f : Voice → Voice} (hf : ∀ vo, VoiceWf vo → VoiceWf (f vo)) (hs : UnitsWf s) :
    UnitsWf (mapVoices f s) :=
  unitsWf_iff.mpr fun v => by
    rw [getVoice_mapVoices]
    exact hf _ (unitsWf_iff.mp hs v)

theorem unitsWf_setPhasor (v : VoiceIdx) (u : UnitIdx) {x : Phasor} (hx : Fp.gt x.fs Fp.posZero = true) (hs : UnitsWf s) :
    UnitsWf (setPhasor s v u x) where
  phasors w t := by
    rw [getPhasor_setPhasor]
    split
    exacts [hx, hs.phasors w t]
  smoothers w t := by rw [getSmoother_setPhasor]; exact hs.smoothers w t

theorem unitsWf_setSmoother (v : VoiceIdx) (u : UnitIdx) {x : Smoother} (hx : SmootherWf x) (hs : UnitsWf s) :
    UnitsWf (setSmoother s v u x) where
  phasors w t := by rw [getPhasor_setSmoother]; exact hs.phasors w t
  smoothers w t := by
    rw [getSmoother_setSmoother]
    split
    exacts [hx, hs.smoothers w t]

end states

/-! ## Smoothers (41_smoother.md R181 to R186, R192) -/

section smoothers

variable {p : Params} {S : Smoother} {fs tc : F32}

theorem smootherInit_wf (S : Smoother) (mode : SmoothMode) (htc : tcLegal tc = true) (hfs : Fp.gt fs Fp.posZero = true) :
    SmootherWf (smootherInit p S fs tc mode) where
  tc := htc
  fs := hfs
  coef := Units.coefOf_inUnit p tc fs
  noRamp _ := ⟨rfl, rfl⟩

theorem smootherSetSampleRate_wf (hfs : Fp.gt fs Fp.posZero = true) (hS : SmootherWf S) :
    SmootherWf (smootherSetSampleRate p S fs) where
  tc := hS.tc
  fs := hfs
  coef := Units.coefOf_inUnit p S.tc fs
  noRamp := hS.noRamp

theorem smootherReset_wf (hfs : Fp.gt fs Fp.posZero = true) (hS : SmootherWf S) : SmootherWf (smootherReset p fs S) :=
  smootherInit_wf _ S.mode hS.tc hfs

/-- A Set starts a ramp in linear mode only. -/
theorem smootherSet_wf (x : F32) (imm : Bool) (hS : SmootherWf S) : SmootherWf (smootherSet S x imm) := by
  cases imm with
  | true => rw [smootherSet_imm]; exact { hS with noRamp := fun _ => ⟨rfl, rfl⟩ }
  | false =>
    cases hmode : S.mode with
    | exponential => rw [smootherSet_exponential hmode]; exact { hS with }
    | linear =>
      have hlinear : S.mode ≠ .exponential := by rw [hmode]; nofun
      rw [smootherSet_linear hmode]
      split <;> exact { hS with noRamp := fun h => absurd h hlinear }

theorem smootherNext_wf (hS : SmootherWf S) : SmootherWf (smootherNext S) := by
  cases hmode : S.mode with
  | exponential => rw [smootherNext_exponential hmode]; exact { hS with }
  | linear =>
    have hlinear : S.mode ≠ .exponential := by rw [hmode]; nofun
    rcases smootherNext_linear_cases hmode with h | ⟨-, -, -, h⟩ <;> rw [h] <;>
      exact { hS with noRamp := fun h => absurd h hlinear }

end smoothers

/-! ## A voice through its block, its rate change and its reset (43_pdo_block.md R239 to R243; 46_engine.md R301, R309) -/

theorem forall_unit {α : Type} {I : α → Prop} {a b c : α} (ha : I a) (hb : I b) (hc : I c) (u : UnitIdx) :
    I (#v[a, b, c])[u] := by
  match u with
  | 0 => exact ha
  | 1 => exact hb
  | 2 => exact hc

section voices

variable {p : Params} {vo : Voice}

theorem startFrequencies_wf (P : Patch) (f : F32) (h : VoiceWf vo) : VoiceWf (startFrequencies P f vo) where
  phasors := forall_unit (I := fun Q : Phasor => Fp.gt Q.fs Fp.posZero = true) (h.phasors 0) (h.phasors 1) (h.phasors 2)
  smoothers := h.smoothers

theorem startTargets_wf (P : Patch) (h : VoiceWf vo) : VoiceWf (startTargets P vo) where
  phasors := h.phasors
  smoothers := forall_unit (smootherSet_wf _ _ (h.smoothers 0)) (smootherSet_wf _ _ (h.smoothers 1))
    (smootherSet_wf _ _ (h.smoothers 2))

theorem smootherFour_wf {S : Smoother} (hS : SmootherWf S) : SmootherWf (smootherFour S).2 :=
  smootherNext_wf (smootherNext_wf (smootherNext_wf (smootherNext_wf hS)))

theorem groupStep_wf (P : Patch) (ext : List F32) (h : VoiceWf vo) : VoiceWf (groupStep p P ext vo).2 where
  phasors := forall_unit (I := fun Q : Phasor => Fp.gt Q.fs Fp.posZero = true) (h.phasors 0) (h.phasors 1) (h.phasors 2)
  smoothers := forall_unit (smootherFour_wf (h.smoothers 0)) (smootherFour_wf (h.smoothers 1))
    (smootherFour_wf (h.smoothers 2))

theorem groupSteps_wf (P : Patch) (k : Nat) (ext : List F32) (h : VoiceWf vo) : VoiceWf (groupSteps p P k ext vo).2 := by
  induction k generalizing ext vo with
  | zero => exact h
  | succ k ih => exact ih (ext.drop 4) (groupStep_wf P ext h)

theorem pdoBlock_wf (P : Patch) (f : F32) (ext : List F32) (n : Nat) (h : VoiceWf vo) :
    VoiceWf (pdoBlock p P f ext n vo).2 :=
  groupSteps_wf P (n / 4) ext (startTargets_wf P (startFrequencies_wf P f h))

theorem voiceSetSampleRate_wf {fo : F32} (hfo : Fp.gt fo Fp.posZero = true) (h : VoiceWf vo) :
    VoiceWf (voiceSetSampleRate p fo vo) where
  phasors u := by rw [voiceSetSampleRate, mapVec_get]; exact hfo
  smoothers u := by rw [voiceSetSampleRate, mapVec_get]; exact smootherSetSampleRate_wf hfo (h.smoothers u)

theorem voiceReset_wf {fo : F32} (hfo : Fp.gt fo Fp.posZero = true) (h : VoiceWf vo) : VoiceWf (voiceReset p fo vo) where
  phasors u := by rw [voiceReset, mapVec_get]; exact hfo
  smoothers u := by rw [voiceReset, mapVec_get]; exact smootherReset_wf hfo (h.smoothers u)

end voices

/-! ## Commands other than TICK -/

/-- A legal rate times an oversampling factor is above 0 (10_state.md R69; infinite at an overflow, 70_reset_and_hazards.md
R388). -/
theorem gt_mul_osF32 {x : F32} (hx : rateLegal x = true) (m : OsFactor) :
    Fp.gt (Fp.mul x (osF32 m)) Fp.posZero = true := by
  obtain ⟨hfinite, hpos⟩ := Bool.and_eq_true_iff.mp hx
  exact Fp.gt_mul_posZero hfinite hpos (by cases m <;> decide) (by cases m <;> decide)

section commands

variable {p : Params} {s : State}

theorem unitsWf_phSetsr (v : VoiceIdx) (u : UnitIdx) (hs : UnitsWf s) : UnitsWf (phSetsr v u s) := by
  unfold phSetsr
  split
  · next hrate => exact unitsWf_setPhasor v u (Bool.and_eq_true_iff.mp hrate).2 hs
  · exact { hs with }

/-- SM_INIT stores a rate and a time constant it has found legal (41_smoother.md R187). -/
theorem unitsWf_smInit (v : VoiceIdx) (u : UnitIdx) (mode : SmoothMode) (hs : UnitsWf s) :
    UnitsWf (smInit p v u mode s) := by
  rw [smInit_eq]
  split
  · next hlegal =>
    obtain ⟨hrate, htc⟩ := Bool.and_eq_true_iff.mp hlegal
    exact unitsWf_setSmoother v u (smootherInit_wf _ mode htc (Bool.and_eq_true_iff.mp hrate).2) hs
  · exact { hs with }

theorem unitsWf_clearBuffers (hs : UnitsWf s) : UnitsWf (clearBuffers p s) :=
  unitsWf_of_unitsOf_eq (unitsOf_clearBuffers p s) hs

theorem unitsWf_softReset (hregs : RegsLegal s) (hs : UnitsWf s) : UnitsWf (softReset p s) :=
  unitsWf_clearBuffers (unitsWf_mapVoices (fun _ => voiceReset_wf (gt_mul_osF32 hregs.fsActive s.osActive)) hs)

/-! ## TICK (46_engine.md R300) -/

theorem unitsWf_osLatch (hregs : RegsLegal s) (hs : UnitsWf s) : UnitsWf (osLatch p s) := by
  rcases osLatch_cases p s with ⟨-, h⟩ | ⟨-, h⟩ <;> rw [h]
  · exact hs
  · exact unitsWf_mapVoices (fun _ => voiceSetSampleRate_wf (gt_mul_osF32 hregs.fsActive s.osFactor))
      (unitsWf_clearBuffers { hs with })

theorem unitsWf_srLatch (hregs : RegsLegal s) (hs : UnitsWf s) : UnitsWf (srLatch p s) := by
  rcases srLatch_cases p s with ⟨-, h⟩ | ⟨-, h⟩ <;> rw [h]
  · exact hs
  · exact unitsWf_mapVoices (fun _ => voiceReset_wf (gt_mul_osF32 hregs.sampleRate s.osActive))
      (unitsWf_clearBuffers { hs with })

theorem unitsWf_renderVoices (P : Patch) (n : Nat) (vs : List VoiceIdx) (hs : UnitsWf s) :
    UnitsWf (renderVoices p P n vs s).2 := by
  induction vs generalizing s with
  | nil => exact hs
  | cons v vs ih =>
    have hpopped : UnitsWf (popBlockPm p v n s).2 := unitsWf_of_unitsOf_eq (unitsOf_popBlockPm p v n s) hs
    exact ih (unitsWf_setVoice v (pdoBlock_wf _ _ _ _ (unitsWf_iff.mp hpopped v)) hpopped)

theorem unitsWf_render (n : Nat) (hs : UnitsWf s) : UnitsWf (render p n s) :=
  unitsWf_of_unitsOf_eq (unitsOf_congr (convert_voices p _ _)) (unitsWf_renderVoices _ _ _ hs)

theorem unitsWf_tickAudio (n : Word) (hs : UnitsWf s) : UnitsWf (tickAudio p n s) := by
  have hpush : UnitsWf (pushExt p n.toNat s) := unitsWf_of_unitsOf_eq (unitsOf_pushExt p n.toNat s) hs
  unfold tickAudio
  refine unitsWf_of_unitsOf_eq (unitsOf_congr (output_voices p n _)) ?_
  split
  exacts [unitsWf_render _ hpush, hpush]

theorem unitsWf_tick (hregs : RegsLegal s) (hs : UnitsWf s) : UnitsWf (tick p s) :=
  unitsWf_tickAudio _ (unitsWf_srLatch ((regsLegal_keptByStep p).osLatch hregs) (unitsWf_osLatch hregs hs))

/-! ## A step -/

/-- A command sets a rate only to a positive one and changes smoothers only by their own functions. -/
theorem unitsWf_runCommand (i : Instr) (hregs : RegsLegal s) (hs : UnitsWf s) : UnitsWf (runCommand p i s) := by
  cases i with
  | nop => exact hs
  | tick => exact unitsWf_tick hregs hs
  | reset => exact unitsWf_softReset hregs hs
  | clear => exact unitsWf_clearBuffers hs
  | phSetfreq v u => exact unitsWf_setPhasor v u (hs.phasors v u) hs
  | phProcess v u => exact { unitsWf_setPhasor v u (x := phasorNext (getPhasor s v u)) (hs.phasors v u) hs with }
  | phSetsr v u => exact unitsWf_phSetsr v u hs
  | smInit v u mode => exact unitsWf_smInit v u mode hs
  | smSet v u imm => exact unitsWf_setSmoother v u (smootherSet_wf _ imm (hs.smoothers v u)) hs
  | smProcess v u => exact { unitsWf_setSmoother v u (smootherNext_wf (hs.smoothers v u)) hs with }
  | rbPush v => exact unitsWf_of_unitsOf_eq (unitsOf_pushPm p v _ s) hs
  | rbPop v => exact { unitsWf_of_unitsOf_eq (unitsOf_popPmState p v s) hs with }
  | _ => exact { hs with }

theorem unitsWf_busWrite (a : BitVec 12) (w : Word) (hregs : RegsLegal s) (hs : UnitsWf s) :
    UnitsWf (busWrite p a w s) := by
  rcases busWrite_cases p a w s with ⟨-, hwrite⟩ | ⟨r, -, -, hwrite⟩ <;> rw [hwrite]
  · exact { hs with }
  by_cases hcmd : r = .cmd
  · subst hcmd
    change UnitsWf (writeCommand p w s)
    rcases writeCommand_cases p w s with ⟨i, -, hrun⟩ | ⟨-, hrun⟩ <;> rw [hrun]
    · exact unitsWf_runCommand i hregs hs
    · exact { hs with }
  · obtain ⟨hvoices, -⟩ := writeReg_buffers p w s hcmd
    exact unitsWf_of_unitsOf_eq (unitsOf_congr hvoices) hs

theorem unitsWf_busRead (a : BitVec 12) (hs : UnitsWf s) : UnitsWf (busRead a s) := by
  rcases busRead_cases a s with ⟨-, hread⟩ | ⟨r, -, hread⟩ <;> rw [hread] <;> exact { hs with }

theorem unitsWf_exec {t : State} {i : Instr} (hregs : RegsLegal s) (hs : UnitsWf s) (hexec : exec i s = .next t) :
    UnitsWf t := by
  rcases exec_cases i s with ⟨a, w, -, hi⟩ | ⟨a, -, hi⟩ | hi <;> rw [hi] at hexec <;> cases hexec
  · exact unitsWf_busWrite a w hregs hs
  · exact unitsWf_busRead a hs
  · exact unitsWf_runCommand i hregs hs

end commands

/-- Settles O58: an idle step changes nothing, a hardware reset gives the reset units, and a request is an instruction. -/
theorem unitsKept : Obligations.UnitsKept := fun s t hregs hs hstep => by
  rcases step_cases hstep with ⟨-, rfl⟩ | ⟨rest, -, rfl⟩ | ⟨r, rest, -, hexec⟩
  · exact hs
  · exact { unitsWf_resetWith Config.build with }
  · exact unitsWf_exec (s := { s with inbox := rest }) { hregs with } { hs with } hexec

end Sys2Proof.Machine
end

section
/-! PROOFS. The waveshaper (spec/42_waveshaper.md R200 to R217) and the commands of the units: which sums, products and
quotients stay finite, what the floor and the wrap do to a finite number, each law at amount 0 and its range, and from these the
statements of the family. -/

namespace Sys2Proof.Fp

/-! ## Finite results -/

/-- The encoding of the largest finite number. -/
def maxEnc : Nat := 0x7F7FFFFF

theorem isFinite_iff_mag_le {x : F32} : isFinite x = true ↔ mag x ≤ encMag maxEnc := by
  rw [isFinite_eq, decide_eq_true_eq, mag_eq_encMag, encMag_le_iff, infMag, maxEnc]
  omega

theorem mag_neg (x : F32) : mag (neg x) = mag x := by
  rw [mag_eq_encMag, toNat_neg_mod, ← mag_eq_encMag]

theorem mag_roundSum (b : Bool) (n : Int) : mag (roundSum b n) = encMag (roundMag n.natAbs 1) := by
  have hord := ord_roundSum b n
  rw [← natAbs_ord, hord]
  split
  · rw [Int.natAbs_neg, Int.natAbs_natCast]
  · rw [Int.natAbs_natCast]

/-- The midpoint past the largest finite number is more than 1 away from it. -/
theorem isFinite_roundSum (b : Bool) {n : Int} (h : n.natAbs ≤ encMag maxEnc + 2 ^ 149) :
    isFinite (roundSum b n) = true := by
  have hroom : 2 * 2 ^ 149 + encMag maxEnc < encMag (maxEnc + 1) := by decide
  rw [isFinite_iff_mag_le, mag_roundSum, encMag_le_iff]
  exact roundMag_le_of_mid Nat.one_pos (by omega) (by omega)

theorem isFinite_add {x y : F32} (hx : isFinite x = true) (hy : isFinite y = true)
    (h : mag x ≤ 2 ^ 149 ∨ mag y ≤ 2 ^ 149) : isFinite (add x y) = true := by
  have hmagx := isFinite_iff_mag_le.mp hx
  have hmagy := isFinite_iff_mag_le.mp hy
  have hx' := natAbs_ord x
  have hy' := natAbs_ord y
  rw [add_finite hx hy]
  exact isFinite_roundSum _ (by omega)

theorem isFinite_sub {x y : F32} (hx : isFinite x = true) (hy : isFinite y = true)
    (h : mag x ≤ 2 ^ 149 ∨ mag y ≤ 2 ^ 149) : isFinite (sub x y) = true :=
  isFinite_add hx (by rwa [isFinite_neg]) (by rwa [mag_neg])

/-- The difference of two finite numbers on one side of 0 is finite. -/
theorem isFinite_sub_of_same_side {σ : Int} (hσ : σ = 1 ∨ σ = -1) {x y : F32} (hx : isFinite x = true)
    (hy : isFinite y = true) (hxdir : 0 ≤ σ * ord x) (hydir : 0 ≤ σ * ord y) : isFinite (sub x y) = true := by
  have hmagx := isFinite_iff_mag_le.mp hx
  have hmagy := isFinite_iff_mag_le.mp hy
  rw [← natAbs_ord] at hmagx hmagy
  rw [sub_finite hx hy]
  refine isFinite_roundSum _ ?_
  rcases hσ with rfl | rfl <;> omega

theorem sub_of_mag_eq_zero {x z : F32} (hx : isFinite x = true) (hsign : signBit x = false) (hz : mag z = 0) :
    sub x z = x :=
  add_of_mag_eq_zero hx hsign (by rwa [mag_neg])

/-! ## Products and quotients -/

theorem mag_mul {x y : F32} (hx : isFinite x = true) (hy : isFinite y = true) :
    mag (mul x y) = encMag (roundMag (mag x * mag y) oneOrd) := by
  have hround := roundMag_le_infMag (mag x * mag y) oneOrd
  have hinf := infMag_lt
  rw [mul_finite hx hy, mag_ofMag _ (by omega)]

/-- A product is bounded by a representable bound of the exact product. -/
theorem mag_mul_le {x y : F32} (hx : isFinite x = true) (hy : isFinite y = true) {m : Nat}
    (h : mag x * mag y ≤ encMag m * oneOrd) : mag (mul x y) ≤ encMag m := by
  rw [mag_mul hx hy, encMag_le_iff]
  exact roundMag_le SampleUnits.oneOrd_pos h

/-- A factor of [-1, 1] does not enlarge a number. -/
theorem mag_mul_le_right {x y : F32} (hx : mag x ≤ 2 ^ 149) (hy : isFinite y = true) : mag (mul x y) ≤ mag y := by
  have hfinite : isFinite x = true := isFinite_of_natAbs_ord_le (by rw [natAbs_ord]; omega)
  rw [mag_eq_encMag y]
  refine mag_mul_le hfinite hy ?_
  rw [← mag_eq_encMag, Nat.mul_comm]
  exact Nat.mul_le_mul_left _ hx

theorem isFinite_mul {x y : F32} (hx : mag x ≤ 2 ^ 149) (hy : isFinite y = true) : isFinite (mul x y) = true :=
  isFinite_iff_mag_le.mpr ((mag_mul_le_right hx hy).trans (isFinite_iff_mag_le.mp hy))

theorem signBit_of_ord_nonneg {x : F32} (h0 : 0 ≤ ord x) (hne : mag x ≠ 0) : signBit x = false := by
  by_contra hsign
  exact hne (mag_eq_zero_of_signBit (by simpa using hsign) h0)

/-- A number not below 0 times a number on one side of 0 is on that side, or a zero. -/
theorem mul_ord_mul_nonneg {σ : Int} (hσ : σ = 1 ∨ σ = -1) {x y : F32} (hx : isFinite x = true) (hy : isFinite y = true)
    (hx0 : 0 ≤ ord x) (hdir : 0 ≤ σ * ord y) : 0 ≤ σ * ord (mul x y) := by
  by_cases hzero : mag x * mag y = 0
  · rw [ord_eq_zero_iff.mpr (mag_mul_eq_zero hx hy hzero), Int.mul_zero]
  · have hmagx : mag x ≠ 0 := fun h => hzero (by rw [h, Nat.zero_mul])
    have hmagy : mag y ≠ 0 := fun h => hzero (by rw [h, Nat.mul_zero])
    have hround := roundMag_le_infMag (mag x * mag y) oneOrd
    have hinf := infMag_lt
    rw [mul_finite hx hy, signBit_of_ord_nonneg hx0 hmagx, Bool.false_bne, ord_ofMag _ (by omega)]
    rw [ord] at hdir
    split at hdir
    · next hs => rw [if_pos hs]; rcases hσ with rfl | rfl <;> omega
    · next hs => rw [if_neg hs]; rcases hσ with rfl | rfl <;> omega

/-- One is neutral, bit for bit. -/
theorem mul_one_right {x : F32} (hx : isFinite x = true) : mul x one = x := by
  have hlt : x.toNat % 2 ^ 31 < infMag := by rwa [isFinite_eq, decide_eq_true_eq] at hx
  rw [mul_finite hx (by decide), show mag one = oneOrd by decide, mag_eq_encMag,
    roundMag_exact SampleUnits.oneOrd_pos hlt.le, show signBit one = false from rfl, Bool.bne_false, ofMag_signBit]

theorem mag_div {x y : F32} (hx : isFinite x = true) (hy : isFinite y = true) (h : mag y ≠ 0) :
    mag (div x y) = encMag (roundMag (mag x * oneOrd) (mag y)) := by
  have hround := roundMag_le_infMag (mag x * oneOrd) (mag y)
  have hinf := infMag_lt
  rw [div_finite hx hy h, mag_ofMag _ (by omega)]

/-- A quotient is bounded by a representable bound of the exact quotient. -/
theorem mag_div_le {x y : F32} (hx : isFinite x = true) (hy : isFinite y = true) (h : mag y ≠ 0) {m : Nat}
    (hle : mag x * oneOrd ≤ encMag m * mag y) : mag (div x y) ≤ encMag m := by
  rw [mag_div hx hy h, encMag_le_iff]
  exact roundMag_le (Nat.pos_of_ne_zero h) hle

theorem mag_div_two_le {x : F32} (hx : isFinite x = true) {m : Nat} (h : mag x ≤ 2 * encMag m) :
    mag (div x two) ≤ encMag m := by
  have htwo : mag two = 2 * oneOrd := by decide
  refine mag_div_le hx (by decide) (by decide) ?_
  rw [htwo, ← Nat.mul_assoc, Nat.mul_comm _ 2]
  exact Nat.mul_le_mul_right _ h

theorem signBit_div_two {x : F32} (hx : isFinite x = true) : signBit (div x two) = signBit x := by
  have hround := roundMag_le_infMag (mag x * oneOrd) (mag two)
  have hinf := infMag_lt
  rw [div_finite hx (by decide) (by decide), signBit_ofMag _ (by omega), show signBit two = false from rfl, Bool.bne_false]

/-! ## The floor and the wrap (R17 to R19) -/

/-- The magnitude of the floor of a nonzero finite number, as a whole number: rounded away from 0 below it. -/
def floorUnits (x : F32) : Nat := if signBit x then (mag x + (oneOrd - 1)) / oneOrd else mag x / oneOrd

theorem floor_of_mag_ne_zero {x : F32} (hx : isFinite x = true) (h : mag x ≠ 0) :
    floor x = ofMag (signBit x) (roundMag (floorUnits x * oneOrd) 1) := by
  simp [floor, floorUnits, not_isNaN_of_isFinite hx, not_isInf_of_isFinite hx, h]

theorem floor_of_mag_eq_zero {x : F32} (h : mag x = 0) : floor x = x := by
  simp [floor, h, not_isNaN_of_isFinite (isFinite_of_mag_eq_zero h)]

/-- A whole number that bounds the magnitude of a finite number bounds that of its floor. -/
theorem mag_floor_le {x : F32} (hx : isFinite x = true) {m N : Nat} (hm : encMag m = N * oneOrd) (h : mag x ≤ encMag m) :
    mag (floor x) ≤ encMag m := by
  by_cases hzero : mag x = 0
  · rwa [floor_of_mag_eq_zero hzero]
  · have hunits : floorUnits x ≤ N := by
      rw [hm, oneOrd] at h
      rw [floorUnits, oneOrd]
      split <;> omega
    have hround := roundMag_le_infMag (floorUnits x * oneOrd) 1
    have hinf := infMag_lt
    rw [floor_of_mag_ne_zero hx hzero, mag_ofMag _ (by omega), encMag_le_iff]
    refine roundMag_le Nat.one_pos ?_
    rw [Nat.mul_one, hm]
    exact Nat.mul_le_mul_right _ hunits

theorem isFinite_floor {x : F32} (hx : isFinite x = true) : isFinite (floor x) = true :=
  isFinite_iff_mag_le.mpr (mag_floor_le (N := 2 ^ 128 - 2 ^ 104) hx (by decide) (isFinite_iff_mag_le.mp hx))

theorem ord_floor_le {x : F32} (hx : isFinite x = true) : ord (floor x) ≤ ord x := by
  by_cases hzero : mag x = 0
  · rw [floor_of_mag_eq_zero hzero]
  · have hfinite : x.toNat % 2 ^ 31 < infMag := by rwa [isFinite_eq, decide_eq_true_eq] at hx
    have hround := roundMag_le_infMag (floorUnits x * oneOrd) 1
    have hinf := infMag_lt
    rw [floor_of_mag_ne_zero hx hzero, ord_ofMag _ (by omega), ord, mag_eq_encMag x]
    by_cases hsign : signBit x = true
    · rw [if_pos hsign, if_pos hsign, neg_le_neg_iff, Int.ofNat_le, encMag_le_iff]
      refine le_roundMag Nat.one_pos ?_ hfinite.le
      rw [floorUnits, if_pos hsign, ← mag_eq_encMag, oneOrd]
      omega
    · rw [if_neg hsign, if_neg hsign, Int.ofNat_le, encMag_le_iff]
      refine roundMag_le Nat.one_pos ?_
      rw [floorUnits, if_neg hsign, ← mag_eq_encMag, Nat.mul_one]
      exact Nat.div_mul_le_self _ _

theorem ord_floor_nonneg {x : F32} (hx : isFinite x = true) (h0 : 0 ≤ ord x) : 0 ≤ ord (floor x) := by
  by_cases hzero : mag x = 0
  · rwa [floor_of_mag_eq_zero hzero]
  · have hround := roundMag_le_infMag (floorUnits x * oneOrd) 1
    have hinf := infMag_lt
    rw [floor_of_mag_ne_zero hx hzero, signBit_of_ord_nonneg h0 hzero, ord_ofMag _ (by omega), if_neg Bool.false_ne_true]
    exact Int.natCast_nonneg _

/-- The floor of a number of [0, 1) without a sign bit is +0.0. -/
theorem floor_of_lt_one {x : F32} (hx : isFinite x = true) (hsign : signBit x = false) (h1 : ord x < 2 ^ 149) :
    floor x = posZero := by
  rw [ord, hsign, if_neg Bool.false_ne_true] at h1
  by_cases hzero : mag x = 0
  · have hbits : x.toNat % 2 ^ 31 = 0 :=
      encMag_strictMono.injective (by rw [encMag_zero, ← mag_eq_encMag, hzero])
    rw [floor_of_mag_eq_zero hzero, ← ofMag_signBit x, hsign, hbits]
    rfl
  · have hunits : floorUnits x = 0 := by
      rw [floorUnits, hsign, if_neg Bool.false_ne_true]
      exact Nat.div_eq_of_lt (by rw [oneOrd]; omega)
    rw [floor_of_mag_ne_zero hx hzero, hunits, hsign, Nat.zero_mul, roundMag_zero 1 Nat.one_pos]
    rfl

/-- A phase by its bits: no sign bit, and below 1. -/
theorem range_of_toNat_lt {x : F32} (hx : x.toNat < 0x3F800000) :
    isFinite x = true ∧ signBit x = false ∧ 0 ≤ ord x ∧ ord x < 2 ^ 149 := by
  have hone : encMag 0x3F800000 = 2 ^ 149 := by decide
  have hmod : x.toNat % 2 ^ 31 = x.toNat := Nat.mod_eq_of_lt (by omega)
  have hmag := encMag_lt_iff.mpr hx
  have hord : ord x = (encMag x.toNat : Int) := by rw [ord_eq_encMag, if_neg (by omega), hmod]
  refine ⟨?_, ?_, by omega, by omega⟩
  · rw [isFinite_eq, hmod, decide_eq_true_eq, infMag]; omega
  · rw [signBit_eq, decide_eq_false_iff_not]; omega

/-- A phase is its own wrap, bit for bit. -/
theorem wrap_of_toNat_lt {x : F32} (hx : x.toNat < 0x3F800000) : wrap x = x := by
  obtain ⟨hfinite, hsign, h0, h1⟩ := range_of_toNat_lt hx
  have hfrac : frac x = x := by
    rw [frac, floor_of_lt_one hfinite hsign h1, sub_of_mag_eq_zero hfinite hsign rfl]
  have hge : ¬ ge x one = true := by rw [ge, le_iff, ord_one]; omega
  rw [wrap, hfrac]
  exact if_neg hge

theorem clamp01_of_toNat_lt {x : F32} (hx : x.toNat < 0x3F800000) : clamp01 x = x := by
  obtain ⟨-, -, h0, h1⟩ := range_of_toNat_lt hx
  rw [clamp01, if_neg (by rw [lt_iff, ord_posZero]; omega), if_neg (by rw [gt, lt_iff, ord_one]; omega)]

theorem isFinite_clamp01 {x : F32} (hx : isFinite x = true) : isFinite (clamp01 x) = true := by
  unfold clamp01
  split
  · decide
  · split
    · decide
    · exact hx

/-- Every finite number wraps into [0, 1): what is left above the floor is not below 0, and a rounding up to 1 is corrected. -/
theorem wrap_inPhase {x : F32} (hx : isFinite x = true) : Machine.inPhase (wrap x) = true := by
  have hfloor := ord_floor_le hx
  have hnan : isNaN (frac x) = false := by rw [frac, sub_finite hx (isFinite_floor hx)]; exact isNaN_roundSum _ _
  have hnonneg : 0 ≤ ord (frac x) := by
    rw [frac, sub_finite hx (isFinite_floor hx), ← ord_posZero]
    exact le_ord_roundSum rfl (by rw [ord_posZero]; omega)
  rw [wrap]
  by_cases hge : ge (frac x) one = true
  · rw [if_pos hge]; decide
  · rw [if_neg hge, Machine.inPhase, Bool.and_eq_true, le_iff, lt_iff]
    rw [ge, le_iff] at hge
    exact ⟨⟨rfl, hnan, by rwa [ord_posZero]⟩, hnan, rfl, not_le.mp fun h => hge ⟨rfl, hnan, h⟩⟩

end Sys2Proof.Fp

namespace Sys2Proof.Machine

open Sys2Proof.Config (Params)

/-! ## The commands, lane by lane -/

section commands

variable (s : State)

theorem exec_pdBend : exec .pdBend s = .next (setRes s (lanes2 (bend Config.build) s)) := rfl

theorem exec_pdSync : exec .pdSync s = .next (setRes s (lanes2 (sync Config.build) s)) := rfl

theorem exec_pdFormant : exec .pdFormant s = .next (setRes s (lanes2 (formant Config.build) s)) := rfl

theorem exec_pdFold : exec .pdFold s = .next (setRes s (lanes2 (fold Config.build) s)) := rfl

theorem exec_fnSin2pi : exec .fnSin2pi s = .next (setRes s (lanes1 (Units.sin2pi Config.build) s)) := rfl

theorem exec_fnCos2pi : exec .fnCos2pi s = .next (setRes s (lanes1 (Units.cos2pi Config.build) s)) := rfl

theorem exec_fnExp : exec .fnExp s = .next (setRes s (lanes1 (Units.exp Config.build) s)) := rfl

theorem exec_fnExp2 : exec .fnExp2 s = .next (setRes s (lanes1 (Units.exp2 Config.build) s)) := rfl

theorem exec_pmInject : exec .pmInject s =
    .next (setRes s (lanes4 (fun x pp d e => pmFn Config.build x pp d (Lit.ratio s.ratioIdx) e) s)) := rfl

theorem exec_winEval (w : WindowMode) : exec (.winEval w) s = .next (setRes s (lanes1 (windowFn w) s)) := rfl

theorem exec_winEval_flat : exec (.winEval .flat) s = .next (setRes s #v[Fp.one, Fp.one, Fp.one, Fp.one]) := by
  rw [exec_winEval, ← ofFn_lane fun _ => Fp.one]; rfl

@[simp] theorem lanes2_get (f : F32 → F32 → F32) (i : LaneIdx) : (lanes2 f s)[i] = f s.opA[i] s.opB[i] := by
  simp [lanes2]

/-- A law of two operands that gives `g` of the first on every lane gives the four values of `g`. -/
theorem lanes2_congr {f : F32 → F32 → F32} {g : F32 → F32} (h : ∀ i : LaneIdx, f s.opA[i] s.opB[i] = g s.opA[i]) :
    lanes2 f s = lanes1 g s := congrArg Vector.ofFn (funext h)

/-- The identity on every lane copies OPA. -/
theorem lanes1_id : lanes1 (fun x => x) s = s.opA := by
  ext i hi
  simp [lanes1]

end commands

/-- Settles O34: the commands apply their law to each lane, and each law is its pseudocode. -/
theorem waveshaperCommands : Obligations.WaveshaperCommands := fun s =>
  ⟨exec_pdBend s, exec_pdSync s, exec_pdFormant s, exec_pdFold s⟩

/-- Settles O35: the commands apply their function to each lane; the flat window has one value. -/
theorem unitCommands : Obligations.UnitCommands := fun s =>
  ⟨exec_fnSin2pi s, exec_fnCos2pi s, exec_fnExp s, exec_fnExp2 s, exec_pmInject s, exec_winEval_flat s,
    exec_winEval s .triangle, exec_winEval s .sawtooth⟩

/-! ## Amount 0 (R215) -/

section amountZero

variable (p : Params) {x : F32}

theorem amountFold_zero : amountFold p 0 = Fp.one := Units.exp2_of_point (by decide) (by decide)

theorem amountSync_zero : amountSync p 0 = Fp.posZero := by
  rw [amountSync, ← amountFold, amountFold_zero]
  decide

theorem bend_zero (x : F32) : bend p x 0 = x := if_pos (by decide)

theorem sync_zero (hx : x.toNat < 0x3F800000) : sync p x 0 = x := by
  obtain ⟨hfinite, -, -, -⟩ := Fp.range_of_toNat_lt hx
  rw [sync, amountSync_zero, show Fp.add Fp.one Fp.posZero = Fp.one by decide, Fp.mul_one_right hfinite,
    Fp.wrap_of_toNat_lt hx]

theorem formant_zero (hx : x.toNat < 0x3F800000) : formant p x 0 = x := by
  obtain ⟨hfinite, hsign, h0, h1⟩ := Fp.range_of_toNat_lt hx
  have hmag := Fp.natAbs_ord x
  have hsub : Fp.isFinite (Fp.sub x Fp.half) = true := Fp.isFinite_sub hfinite (by decide) (.inl (by omega))
  have hpull : Fp.mag (Fp.mul (Fp.sub x Fp.half) Fp.posZero) = 0 :=
    Fp.mag_mul_eq_zero hsub (by decide) (Nat.mul_zero _)
  rw [formant, amountSync_zero, Fp.add_of_mag_eq_zero hfinite hsign hpull, Fp.clamp01_of_toNat_lt hx,
    Fp.wrap_of_toNat_lt hx]

/-- Below 1 - 2^-24 the sum of R206 stays below 2. -/
theorem add_one_of_toNat_lt (hx : x.toNat < 0x3F7FFFFF) :
    Fp.signBit (Fp.add x Fp.one) = false ∧ Fp.mag (Fp.add x Fp.one) ≤ 2 * Fp.encMag 0x3F7FFFFF := by
  have hmax : Fp.encMag 0x3F7FFFFE = 2 ^ 149 - 2 ^ 126 := by decide
  have hsum : Fp.ord (0x3FFFFFFF : F32) = 2 ^ 150 - 2 ^ 126 := by decide
  have hhalf : 2 * Fp.encMag 0x3F7FFFFF = 2 ^ 150 - 2 ^ 126 := by decide
  obtain ⟨hfinite, hsign, h0, -⟩ := Fp.range_of_toNat_lt (x := x) (by omega)
  have hmag : Fp.mag x ≤ 2 ^ 149 - 2 ^ 126 := by
    rw [← hmax, Fp.mag_eq_encMag, Fp.encMag_le_iff]; omega
  have hord := Fp.natAbs_ord x
  have hround : Fp.add x Fp.one = Fp.roundSum false (Fp.ord x + 2 ^ 149) := by
    rw [Fp.add_finite hfinite (by decide), hsign, Bool.false_and, Fp.ord_one]
  have hsign' : Fp.signBit (Fp.add x Fp.one) = false := by
    rw [hround]; exact Fp.signBit_roundSum_of_nonneg (by omega)
  have hle : Fp.ord (Fp.add x Fp.one) ≤ 2 ^ 150 - 2 ^ 126 := by
    rw [hround, ← hsum]; exact Fp.ord_roundSum_le (by decide) (by omega)
  rw [Fp.ord, hsign', if_neg Bool.false_ne_true] at hle
  exact ⟨hsign', by omega⟩

/-- Below 1 - 2^-24 the fold index is 0. -/
theorem foldIndex_of_toNat_lt (hx : x.toNat < 0x3F7FFFFF) : foldIndex x = Fp.posZero := by
  have hhalf : Fp.encMag 0x3F7FFFFF < 2 ^ 149 := by decide
  obtain ⟨hsign, hmag⟩ := add_one_of_toNat_lt hx
  have hfinite : Fp.isFinite (Fp.add x Fp.one) = true := Fp.isFinite_of_natAbs_ord_le (by rw [Fp.natAbs_ord]; omega)
  have hquot := Fp.mag_div_two_le hfinite hmag
  have hord := Fp.natAbs_ord (Fp.div (Fp.add x Fp.one) Fp.two)
  exact Fp.floor_of_lt_one (Fp.isFinite_of_natAbs_ord_le (by omega)) (by rw [Fp.signBit_div_two hfinite, hsign]) (by omega)

theorem fold_zero (hx : x.toNat < 0x3F800000) : fold p x 0 = if x = 0x3F7FFFFF then 0 else x := by
  obtain ⟨hfinite, hsign, -, -⟩ := Fp.range_of_toNat_lt hx
  have hfold : fold p x 0 = Fp.wrap (if Fp.isOdd (foldIndex x) then Fp.neg (Fp.sub x (Fp.mul Fp.two (foldIndex x)))
      else Fp.sub x (Fp.mul Fp.two (foldIndex x))) := by
    simp only [fold, amountFold_zero, Fp.mul_one_right hfinite]
  rw [hfold]
  by_cases hlast : x = 0x3F7FFFFF
  · rw [if_pos hlast, hlast]; decide
  · have hne : x.toNat ≠ 0x3F7FFFFF := fun h => hlast (BitVec.eq_of_toNat_eq h)
    rw [if_neg hlast, foldIndex_of_toNat_lt (by omega), show Fp.mul Fp.two Fp.posZero = Fp.posZero by decide,
      Fp.sub_of_mag_eq_zero hfinite hsign rfl]
    exact Fp.wrap_of_toNat_lt hx

end amountZero

/-- Settles O36: each law at amount 0, on each lane. -/
theorem identityAtZeroAmount : Obligations.IdentityAtZeroAmount := fun s hzero => by
  have hcopy {f : F32 → F32 → F32} (h : ∀ i : LaneIdx, f s.opA[i] 0 = s.opA[i]) : lanes2 f s = s.opA :=
    (lanes2_congr s fun i => by rw [hzero]; exact h i).trans (lanes1_id s)
  refine ⟨?_, fun hphase => ⟨?_, ?_, ?_⟩⟩
  · rw [exec_pdBend, hcopy fun i => bend_zero _ _]; rfl
  · rw [exec_pdSync, hcopy fun i => sync_zero _ (hphase i)]; rfl
  · rw [exec_pdFormant, hcopy fun i => formant_zero _ (hphase i)]; rfl
  · rw [exec_pdFold, lanes2_congr s (g := fun x => if x = 0x3F7FFFFF then 0 else x) fun i => by
      rw [hzero]; exact fold_zero _ (hphase i)]
    rfl

/-! ## Range (R216) -/

section range

variable {p : Params} {x y a : F32}

theorem sync_inPhase (h : Fp.isFinite (Fp.mul x (Fp.add Fp.one (amountSync p a))) = true) : inPhase (sync p x a) = true :=
  Fp.wrap_inPhase h

theorem formant_inPhase (h : Fp.isFinite (Fp.add x (Fp.mul (Fp.sub x Fp.half) (amountSync p a))) = true) :
    inPhase (formant p x a) = true :=
  Fp.wrap_inPhase (Fp.isFinite_clamp01 h)

theorem isFinite_add_one (hy : Fp.isFinite y = true) : Fp.isFinite (Fp.add y Fp.one) = true :=
  Fp.isFinite_add hy (by decide) (.inr (by decide))

/-- The quotient whose floor is the fold index: at most half the largest finite number. -/
theorem mag_foldQuotient_le (hy : Fp.isFinite y = true) :
    Fp.mag (Fp.div (Fp.add y Fp.one) Fp.two) ≤ Fp.encMag 0x7EFFFFFF := by
  have hhalf : 2 * Fp.encMag 0x7EFFFFFF = Fp.encMag Fp.maxEnc := by decide
  have hsum := isFinite_add_one hy
  exact Fp.mag_div_two_le hsum (by rw [hhalf]; exact Fp.isFinite_iff_mag_le.mp hsum)

theorem isFinite_foldQuotient (hy : Fp.isFinite y = true) : Fp.isFinite (Fp.div (Fp.add y Fp.one) Fp.two) = true :=
  Fp.isFinite_iff_mag_le.mpr ((mag_foldQuotient_le hy).trans (by decide))

theorem isFinite_foldIndex (hy : Fp.isFinite y = true) : Fp.isFinite (foldIndex y) = true :=
  Fp.isFinite_floor (isFinite_foldQuotient hy)

/-- Half the largest finite number is a whole number, which the floor does not pass. -/
theorem mag_foldIndex_le (hy : Fp.isFinite y = true) : Fp.mag (foldIndex y) ≤ Fp.encMag 0x7EFFFFFF :=
  Fp.mag_floor_le (N := 2 ^ 127 - 2 ^ 103) (isFinite_foldQuotient hy) (by decide) (mag_foldQuotient_le hy)

theorem ord_foldIndex_nonneg (hy : Fp.isFinite y = true) (h0 : 0 ≤ Fp.ord y) : 0 ≤ Fp.ord (foldIndex y) := by
  have hsum : 0 ≤ Fp.ord (Fp.add y Fp.one) := by
    rw [Fp.add_finite hy (by decide), ← Fp.ord_posZero]
    exact Fp.le_ord_roundSum rfl (by rw [Fp.ord_posZero, Fp.ord_one]; omega)
  have hquot := (Fp.mul_ord_div_nonneg (σ := 1) (.inl rfl) (Fp.not_isNaN_of_isFinite (isFinite_add_one hy)) (by omega)
    (by decide) (by decide : Fp.gt Fp.two Fp.posZero = true)).2
  exact Fp.ord_floor_nonneg (isFinite_foldQuotient hy) (by omega)

/-- An operand not above 0 gives a quotient of at most 1/2. -/
theorem ord_foldIndex_nonpos (hy : Fp.isFinite y = true) (h0 : Fp.ord y ≤ 0) : Fp.ord (foldIndex y) ≤ 0 := by
  have hone : 2 * Fp.encMag 0x3F000000 = 2 ^ 149 := by decide
  have hsum : Fp.ord (Fp.add y Fp.one) ≤ 2 ^ 149 := by
    rw [Fp.add_finite hy (by decide), ← Fp.ord_one]
    exact Fp.ord_roundSum_le rfl (by omega)
  have hquot := isFinite_foldQuotient hy
  have hsame := Fp.signBit_div_two (isFinite_add_one hy)
  by_cases hsign : Fp.signBit (Fp.add y Fp.one) = true
  · have hfloor := Fp.ord_floor_le hquot
    rw [hsign] at hsame
    rw [Fp.ord.eq_def (Fp.div (Fp.add y Fp.one) Fp.two), if_pos hsame] at hfloor
    rw [foldIndex]
    omega
  · rw [Fp.ord, if_neg hsign] at hsum
    rw [Bool.not_eq_true] at hsign
    have hmag : Fp.mag (Fp.div (Fp.add y Fp.one) Fp.two) ≤ Fp.encMag 0x3F000000 :=
      Fp.mag_div_two_le (isFinite_add_one hy) (by omega)
    have hord := Fp.natAbs_ord (Fp.div (Fp.add y Fp.one) Fp.two)
    rw [foldIndex, Fp.floor_of_lt_one hquot (hsame.trans hsign) (by omega)]
    exact Fp.ord_posZero.le

/-- Twice the fold index lies on the side of 0 of the operand, so their difference is finite. -/
theorem isFinite_foldRest (hy : Fp.isFinite y = true) :
    Fp.isFinite (Fp.sub y (Fp.mul Fp.two (foldIndex y))) = true := by
  have hk := isFinite_foldIndex hy
  have htwo : Fp.isFinite (Fp.mul Fp.two (foldIndex y)) = true := by
    refine Fp.isFinite_iff_mag_le.mpr (Fp.mag_mul_le (by decide) hk ?_)
    calc Fp.mag Fp.two * Fp.mag (foldIndex y)
        ≤ Fp.mag Fp.two * Fp.encMag 0x7EFFFFFF := Nat.mul_le_mul_left _ (mag_foldIndex_le hy)
      _ = Fp.encMag Fp.maxEnc * Fp.oneOrd := by decide
  have hside (σ : Int) (hσ : σ = 1 ∨ σ = -1) (hy0 : 0 ≤ σ * Fp.ord y) (hk0 : 0 ≤ σ * Fp.ord (foldIndex y)) :
      Fp.isFinite (Fp.sub y (Fp.mul Fp.two (foldIndex y))) = true :=
    Fp.isFinite_sub_of_same_side hσ hy htwo hy0 (Fp.mul_ord_mul_nonneg hσ (by decide) hk (by decide) hk0)
  rcases Int.le_total 0 (Fp.ord y) with h0 | h0
  · have := ord_foldIndex_nonneg hy h0
    exact hside 1 (.inl rfl) (by omega) (by omega)
  · have := ord_foldIndex_nonpos hy h0
    exact hside (-1) (.inr rfl) (by omega) (by omega)

theorem fold_inPhase (h : Fp.isFinite (Fp.mul x (amountFold p a)) = true) : inPhase (fold p x a) = true := by
  have hrest := isFinite_foldRest h
  refine Fp.wrap_inPhase ?_
  split
  · rwa [Fp.isFinite_neg]
  · exact hrest

/-! ## Phases and amounts of the block (R216) -/

theorem inUnit_iff : inUnit x = true ↔ Fp.isNaN x = false ∧ 0 ≤ Fp.ord x ∧ Fp.ord x ≤ 2 ^ 149 := by
  rw [inUnit, Bool.and_eq_true, Fp.le_iff, Fp.le_iff, Fp.ord_posZero, Fp.ord_one]
  exact ⟨fun ⟨⟨_, hnan, h0⟩, _, _, h1⟩ => ⟨hnan, h0, h1⟩, fun ⟨hnan, h0, h1⟩ => ⟨⟨rfl, hnan, h0⟩, hnan, rfl, h1⟩⟩

theorem mag_le_of_inUnit (hx : inUnit x = true) : Fp.mag x ≤ 2 ^ 149 := by
  obtain ⟨-, h0, h1⟩ := inUnit_iff.mp hx
  have := Fp.natAbs_ord x
  omega

theorem inUnit_of_inPhase (hx : inPhase x = true) : inUnit x = true := by
  obtain ⟨hfinite, h0, h1⟩ := inPhase_iff.mp hx
  exact inUnit_iff.mpr ⟨Fp.not_isNaN_of_isFinite hfinite, h0, h1.le⟩

/-- The exponent 5a lies in [0, 5], where EXP2 is finite. -/
theorem isFinite_amountFold (p : Params) (ha : inUnit a = true) : Fp.isFinite (amountFold p a) = true := by
  have hfinite := Units.isFinite_of_inUnit ha
  have hmag := Fp.mag_mul_le_right (mag_le_of_inUnit ha) (by decide : Fp.isFinite Lit.amountExponent = true)
  have hexp := Fp.isFinite_mul (mag_le_of_inUnit ha) (by decide : Fp.isFinite Lit.amountExponent = true)
  obtain ⟨-, h0, -⟩ := inUnit_iff.mp ha
  have hord := Fp.mul_ord_mul_nonneg (σ := 1) (.inl rfl) hfinite (by decide : Fp.isFinite Lit.amountExponent = true) h0
    (by decide)
  have habs := Fp.natAbs_ord (Fp.mul a Lit.amountExponent)
  have hfive : Fp.ord Lit.amountExponent = (Fp.mag Lit.amountExponent : Int) := by decide
  have hnan := Fp.not_isNaN_of_isFinite hexp
  exact Units.exp2_isFinite (Fp.le_iff.mpr ⟨rfl, hnan, by rw [Fp.ord_posZero]; omega⟩)
    (Fp.le_iff.mpr ⟨hnan, rfl, by omega⟩)

theorem isFinite_amountSync (p : Params) (ha : inUnit a = true) : Fp.isFinite (amountSync p a) = true :=
  Fp.isFinite_sub (isFinite_amountFold p ha) (by decide) (.inr (by decide))

theorem sync_inPhase_of_range (p : Params) (hx : inPhase x = true) (ha : inUnit a = true) : inPhase (sync p x a) = true :=
  sync_inPhase (Fp.isFinite_mul (mag_le_of_inUnit (inUnit_of_inPhase hx))
    (Fp.isFinite_add (by decide) (isFinite_amountSync p ha) (.inl (by decide))))

theorem fold_inPhase_of_range (p : Params) (hx : inPhase x = true) (ha : inUnit a = true) : inPhase (fold p x a) = true :=
  fold_inPhase (Fp.isFinite_mul (mag_le_of_inUnit (inUnit_of_inPhase hx)) (isFinite_amountFold p ha))

/-- The difference of two numbers of [0, 1] lies in [-1, 1]. -/
theorem mag_sub_le_of_inUnit (hx : inUnit x = true) (hy : inUnit y = true) : Fp.mag (Fp.sub x y) ≤ 2 ^ 149 := by
  have hnegOne : Fp.ord Fp.negOne = -2 ^ 149 := by decide
  have hround := Fp.sub_finite (Units.isFinite_of_inUnit hx) (Units.isFinite_of_inUnit hy)
  obtain ⟨-, hx0, hx1⟩ := inUnit_iff.mp hx
  obtain ⟨-, hy0, hy1⟩ := inUnit_iff.mp hy
  have hhi : Fp.ord (Fp.sub x y) ≤ Fp.ord Fp.one := by
    rw [hround]; exact Fp.ord_roundSum_le rfl (by rw [Fp.ord_one]; omega)
  have hlo : Fp.ord Fp.negOne ≤ Fp.ord (Fp.sub x y) := by
    rw [hround]; exact Fp.le_ord_roundSum rfl (by omega)
  rw [Fp.ord_one] at hhi
  have := Fp.natAbs_ord (Fp.sub x y)
  omega

theorem formant_inPhase_of_range (p : Params) (hx : inPhase x = true) (ha : inUnit a = true) :
    inPhase (formant p x a) = true := by
  have hunit := inUnit_of_inPhase hx
  have hpull := Fp.isFinite_mul (mag_sub_le_of_inUnit hunit (by decide : inUnit Fp.half = true)) (isFinite_amountSync p ha)
  exact formant_inPhase (Fp.isFinite_add (Units.isFinite_of_inUnit hunit) hpull (.inl (mag_le_of_inUnit hunit)))

/-! ## The denominator of Bend (R217) -/

/-- The exponent of Bend for an amount above the threshold lies between -10.0 and the binary32 value nearest -1e-4. -/
theorem bendScale_range (hlo : Fp.gt a Lit.bendThreshold = true) (hhi : Fp.le a Fp.one = true) :
    Fp.le 0xC1200000 (Fp.mul Lit.bendScale a) = true ∧ Fp.le (Fp.mul Lit.bendScale a) 0xB8D1B717 = true := by
  have hthr : Fp.ord Lit.bendThreshold = (Fp.mag Lit.bendThreshold : Int) := by decide
  have hminus10 : Fp.ord (0xC1200000 : F32) = -(Fp.encMag 0x41200000 : Int) := by decide
  have hminus : Fp.ord (0xB8D1B717 : F32) = -(Fp.encMag 0x38D1B717 : Int) := by decide
  have hsmall : Fp.encMag 0x38D1B717 * Fp.oneOrd ≤ Fp.mag Lit.bendScale * Fp.mag Lit.bendThreshold := by decide
  have hlarge : Fp.mag Lit.bendScale * 2 ^ 149 = Fp.encMag 0x41200000 * Fp.oneOrd := by decide
  obtain ⟨-, hnan, hgt⟩ := Fp.lt_iff.mp hlo
  obtain ⟨-, -, hle⟩ := Fp.le_iff.mp hhi
  rw [Fp.ord_one] at hle
  have hmag := Fp.natAbs_ord a
  have hsign : Fp.signBit a = false := Fp.signBit_of_ord_nonneg (by omega) (by omega)
  have hround := Fp.roundMag_le_infMag (Fp.mag Lit.bendScale * Fp.mag a) Fp.oneOrd
  have hinf := Fp.infMag_lt
  have hlo' : 0x38D1B717 ≤ Fp.roundMag (Fp.mag Lit.bendScale * Fp.mag a) Fp.oneOrd :=
    Fp.le_roundMag SampleUnits.oneOrd_pos (hsmall.trans (Nat.mul_le_mul_left _ (by omega))) (by decide)
  have hhi' : Fp.roundMag (Fp.mag Lit.bendScale * Fp.mag a) Fp.oneOrd ≤ 0x41200000 :=
    Fp.roundMag_le SampleUnits.oneOrd_pos (hlarge ▸ Nat.mul_le_mul_left _ (by omega))
  have hscale : Fp.mul Lit.bendScale a = Fp.ofMag true (Fp.roundMag (Fp.mag Lit.bendScale * Fp.mag a) Fp.oneOrd) := by
    rw [Fp.mul_finite (by decide) (Fp.isFinite_of_natAbs_ord_le (by omega)), hsign]; rfl
  rw [← Fp.encMag_le_iff] at hlo' hhi'
  rw [hscale, Fp.le_iff, Fp.le_iff, Fp.ord_ofMag _ (by omega), Fp.isNaN_ofMag _ hround, if_pos rfl]
  exact ⟨⟨by decide, rfl, by omega⟩, rfl, by decide, by omega⟩

theorem exponent_nonpos (hlo : Fp.le 0xC1200000 x = true) (hhi : Fp.le x 0xB8D1B717 = true) :
    Fp.isFinite x = true ∧ Fp.ord x ≤ 0 := by
  have hneg : Fp.ord (0xB8D1B717 : F32) ≤ 0 := by decide
  obtain ⟨-, -, hlo'⟩ := Fp.le_iff.mp hlo
  obtain ⟨-, -, hhi'⟩ := Fp.le_iff.mp hhi
  exact ⟨Fp.isFinite_of_between (σ := 1) (x := 0xC1200000) (z := 0xB8D1B717) (.inl rfl) (by decide) (by decide) (by omega)
    (by omega), hhi'.trans hneg⟩

theorem exp_inUnit_of_nonpos (p : Params) (hx : Fp.isFinite x = true) (h0 : Fp.ord x ≤ 0) : inUnit (Units.exp p x) = true :=
  Units.exp_inUnit (Fp.le_iff.mpr ⟨Fp.not_isNaN_of_isFinite hx, rfl, by rwa [Fp.ord_posZero]⟩)

/-- e^x is at most 1 / (1 - x), and the bound of x is about -1e-4. -/
theorem exp_valueOf_le (hx : Fp.le x 0xB8D1B717 = true) : Real.exp (valueOf x) ≤ 1 - 99 / 1000000 := by
  have hbound : valueOf (0xB8D1B717 : F32) ≤ -(99990 / 1000000000) := by
    rw [valueOf, show Fp.ord (0xB8D1B717 : F32) = -13743895 * 2 ^ 112 by decide]
    norm_num
  have hvalue : (valueOf x : ℝ) ≤ -(99990 / 1000000000) := by
    have hle := (SampleUnits.valueOf_bounds hx (b := 0xB8D1B717) (by decide)).1.trans hbound
    have := (Rat.cast_le (K := ℝ)).mpr hle
    push_cast at this
    exact this
  have hpos := Real.exp_pos (valueOf x)
  have hone := Real.add_one_le_exp (-(valueOf x : ℝ))
  have hprod : Real.exp (valueOf x) * (1 + 99990 / 1000000000) ≤ 1 := by
    calc Real.exp (valueOf x) * (1 + 99990 / 1000000000)
        ≤ Real.exp (valueOf x) * Real.exp (-(valueOf x : ℝ)) := by gcongr; linarith
      _ = 1 := by rw [← Real.exp_add, add_neg_cancel, Real.exp_zero]
  linarith

/-- EXP of the exponent of Bend is below 1, by the accuracy bound of the build. -/
theorem exp_lt_one (hlo : Fp.le 0xC1200000 x = true) (hhi : Fp.le x 0xB8D1B717 = true) :
    Fp.ord (Units.exp Config.build x) < 2 ^ 149 := by
  obtain ⟨haccurate, heps⟩ := build_accurate
  obtain ⟨hfinite, h0⟩ := exponent_nonpos hlo hhi
  have hbound := haccurate.exp x hfinite hlo
    (Fp.le_iff.mpr ⟨Fp.not_isNaN_of_isFinite hfinite, rfl, by rwa [Fp.ord_posZero]⟩)
  have hreal := exp_valueOf_le hhi
  have heps' : (Config.fnEps : ℝ) < 99 / 1000000 := by
    have := (Rat.cast_lt (K := ℝ)).mpr heps
    push_cast at this
    exact this
  have hvalue : (valueOf (Units.exp Config.build x) : ℝ) < 1 := by
    have := (abs_le.mp hbound).2
    linarith
  have hvalue' : valueOf (Units.exp Config.build x) < 1 := by exact_mod_cast hvalue
  rw [valueOf, div_lt_one (by positivity)] at hvalue'
  exact_mod_cast hvalue'

/-- The largest number below 1 is 2^-24 below it. -/
theorem sub_one_of_lt_one (hx : inUnit x = true) (h1 : Fp.ord x < 2 ^ 149) : Fp.ord (Fp.sub x Fp.one) ≤ -2 ^ 125 := by
  have hstep : Fp.ord (0xB3800000 : F32) = -2 ^ 125 := by decide
  rw [Fp.ord_lt_one_iff] at h1
  rw [Fp.sub_finite (Units.isFinite_of_inUnit hx) (by decide), ← hstep]
  exact Fp.ord_roundSum_le (by decide) (by rw [Fp.ord_one]; omega)

/-- A number of [-1, 1] by one of at least 2^-24 in size is finite: at most 2^24 in size. -/
theorem isFinite_div_of_large {d : F32} (hx : Fp.mag x ≤ 2 ^ 149) (hd : Fp.isFinite d = true)
    (hdmag : 2 ^ 125 ≤ Fp.mag d) : Fp.isFinite (Fp.div x d) = true := by
  have hquot : Fp.encMag 0x4B800000 = 2 ^ 173 := by decide
  have hfinite : Fp.isFinite x = true := Fp.isFinite_of_natAbs_ord_le (by rw [Fp.natAbs_ord]; omega)
  have hle : Fp.mag x * Fp.oneOrd ≤ Fp.encMag 0x4B800000 * Fp.mag d := by
    rw [hquot, Fp.oneOrd]; omega
  exact Fp.isFinite_iff_mag_le.mpr ((Fp.mag_div_le hfinite hd (by omega) hle).trans (by decide))

/-- The denominator of Bend is below 0 by at least 2^-24. -/
theorem bend_denominator (hlo : Fp.gt a Lit.bendThreshold = true) (hhi : Fp.le a Fp.one = true) :
    let d := Fp.sub (Units.exp Config.build (Fp.mul Lit.bendScale a)) Fp.one
    Fp.isFinite d = true ∧ Fp.ord d ≤ -2 ^ 125 := by
  obtain ⟨hslo, hshi⟩ := bendScale_range hlo hhi
  obtain ⟨hfinite, h0⟩ := exponent_nonpos hslo hshi
  have hexp := exp_inUnit_of_nonpos Config.build hfinite h0
  exact ⟨Fp.isFinite_sub (Units.isFinite_of_inUnit hexp) (by decide) (.inr (by decide)),
    sub_one_of_lt_one hexp (exp_lt_one hslo hshi)⟩

/-- The numerator of Bend lies in [-1, 0], because the exponent is at most 0. -/
theorem bend_numerator (hx : inUnit x = true) (hlo : Fp.gt a Lit.bendThreshold = true) (hhi : Fp.le a Fp.one = true) :
    Fp.mag (Fp.sub (Units.exp Config.build (Fp.mul x (Fp.mul Lit.bendScale a))) Fp.one) ≤ 2 ^ 149 := by
  obtain ⟨hslo, hshi⟩ := bendScale_range hlo hhi
  obtain ⟨hfinite, h0⟩ := exponent_nonpos hslo hshi
  obtain ⟨-, hx0, -⟩ := inUnit_iff.mp hx
  have hprod := Fp.isFinite_mul (mag_le_of_inUnit hx) hfinite
  have hdir := Fp.mul_ord_mul_nonneg (σ := -1) (.inr rfl) (Units.isFinite_of_inUnit hx) hfinite hx0 (by omega)
  exact mag_sub_le_of_inUnit (exp_inUnit_of_nonpos Config.build hprod (by omega)) (by decide)

theorem bend_isFinite (hx : inUnit x = true) (hlo : Fp.gt a Lit.bendThreshold = true) (hhi : Fp.le a Fp.one = true) :
    Fp.isFinite (bend Config.build x a) = true := by
  have habove : ¬ Fp.le a Lit.bendThreshold = true := by
    rw [Fp.gt, Fp.lt_iff] at hlo
    rw [Fp.le_iff]
    omega
  obtain ⟨hd, hdneg⟩ := bend_denominator hlo hhi
  have hmag := Fp.natAbs_ord (Fp.sub (Units.exp Config.build (Fp.mul Lit.bendScale a)) Fp.one)
  rw [bend, if_neg habove]
  exact isFinite_div_of_large (bend_numerator hx hlo hhi) hd (by omega)

end range

/-- A law that gives phases on every lane completes with phases in RES. -/
theorem exists_res_inPhase {i : Instr} {s : State} {f : F32 → F32 → F32} (hexec : exec i s = .next (setRes s (lanes2 f s)))
    (h : ∀ k : LaneIdx, inPhase (f s.opA[k] s.opB[k]) = true) :
    ∃ r : Vector F32 4, exec i s = .next { s with res := r } ∧ ∀ k : LaneIdx, inPhase r[k] = true :=
  ⟨lanes2 f s, hexec, fun k => by rw [lanes2_get]; exact h k⟩

/-- Settles O37: the laws by range, the commands lane by lane, and Bend by its numerator and its denominator. -/
theorem shapeRange : Obligations.ShapeRange := by
  refine ⟨fun p x a => ⟨sync_inPhase, formant_inPhase, fold_inPhase⟩, fun s hs i hi => ?_,
    fun a hlo hhi => ⟨?_, fun x hx => bend_isFinite hx hlo hhi⟩⟩
  · simp only [List.mem_cons, List.not_mem_nil, or_false] at hi
    rcases hi with rfl | rfl | rfl
    · exact exists_res_inPhase (exec_pdSync s) fun k => (hs k).elim (sync_inPhase_of_range _)
    · exact exists_res_inPhase (exec_pdFormant s) fun k => (hs k).elim (formant_inPhase_of_range _)
    · exact exists_res_inPhase (exec_pdFold s) fun k => (hs k).elim (fold_inPhase_of_range _)
  · obtain ⟨hfinite, hneg⟩ := bend_denominator hlo hhi
    exact Fp.lt_iff.mpr ⟨Fp.not_isNaN_of_isFinite hfinite, rfl, hneg.trans_lt (by decide)⟩

end Sys2Proof.Machine
end

section
/-! PROOFS. The block of a voice (spec/43_pdo_block.md R230 to R247): the sums, differences and products of numbers in [0, 1] that
the smoother and the windows form, phase modulation that adds nothing, the lane pipeline at amount 0, what a group of four samples
is in the terms of single samples, and from these the statements of the family. -/

namespace Sys2Proof.Fp

/-! ## Exact results -/

/-- A number of at least 2^23 times a power of two is a multiple of it. -/
theorem pow_dvd_mag {x : F32} {e : Nat} (h : 2 ^ 23 * 2 ^ e ≤ mag x) : 2 ^ e ∣ mag x := by
  have hpack : encMag (e * 2 ^ 23 + 2 ^ 23) = 2 ^ 23 * 2 ^ e := encMag_pack (by decide) (.inr le_rfl)
  rw [mag_eq_encMag, ← hpack, encMag_le_iff] at h
  rw [mag_eq_encMag, encMag, if_neg (by omega)]
  exact (Nat.pow_dvd_pow 2 (by omega)).mul_left _

/-- On [1/2, 1] the difference from 1 is exact (R237). -/
theorem ord_one_sub {x : F32} (hhalf : 2 ^ 148 ≤ ord x) (hone : ord x ≤ 2 ^ 149) : ord (sub one x) = 2 ^ 149 - ord x := by
  have hmag := natAbs_ord x
  have hinf : 2 ^ 149 ≤ encMag infMag := by decide
  have hdvd : 2 ^ 125 ∣ (2 ^ 149 - ord x).natAbs := by
    have := pow_dvd_mag (x := x) (e := 125) (by omega)
    omega
  rw [sub_finite (by decide) (isFinite_of_natAbs_ord_le (by omega)), ord_roundSum, ord_one, if_neg (by omega),
    encMag_roundMag_of_dvd hdvd (by omega) (by omega)]
  omega

/-- Twice a magnitude is a magnitude: one more in the exponent, or a subnormal significand doubled. -/
theorem exists_encMag_eq_two_mul (m : Nat) : ∃ n, encMag n = 2 * encMag m := by
  rcases Nat.lt_or_ge m (2 ^ 23) with hlt | hge
  · have hm := encMag_pack (k := 0) (q := m) (by omega) (.inl rfl)
    have hn := encMag_pack (k := 0) (q := 2 * m) (by omega) (.inl rfl)
    rw [Nat.zero_mul, Nat.zero_add] at hm hn
    exact ⟨2 * m, by rw [hm, hn]; ring⟩
  · obtain ⟨k, q, hlo, hhi, rfl⟩ : ∃ k q, 2 ^ 23 ≤ q ∧ q ≤ 2 ^ 24 ∧ m = k * 2 ^ 23 + q :=
      ⟨m / 2 ^ 23 - 1, 2 ^ 23 + m % 2 ^ 23, by omega, by omega, by omega⟩
    exact ⟨(k + 1) * 2 ^ 23 + q, by rw [encMag_pack hhi (.inr hlo), encMag_pack hhi (.inr hlo)]; ring⟩

/-- Doubling is exact, short of an overflow. -/
theorem ord_two_mul {x : F32} (hx : isFinite x = true) (h : 2 * mag x ≤ encMag infMag) : ord (mul two x) = 2 * ord x := by
  have htwo : mag two = 2 * oneOrd := by decide
  obtain ⟨n, hn⟩ := exists_encMag_eq_two_mul (x.toNat % 2 ^ 31)
  rw [← mag_eq_encMag] at hn
  have hmax : n ≤ infMag := encMag_le_iff.mp (hn ▸ h)
  have hprod : mag two * mag x = encMag n * oneOrd := by rw [htwo, hn]; ring
  have hround : mul two x = ofMag (signBit x) n := by
    rw [mul_finite (by decide) hx, hprod, roundMag_exact SampleUnits.oneOrd_pos hmax, show signBit two = false from rfl,
      Bool.false_bne]
  rw [hround, ord_ofMag _ (by have := infMag_lt; omega), hn, ord]
  split <;> omega

/-! ## The rounding error on [0, 1] -/

/-- A magnitude of at most 1 is rounded up by at most 2^-24. -/
theorem encMag_roundMag_le_add {n : Nat} (h : n ≤ 2 ^ 149) : encMag (roundMag n 1) ≤ n + 2 ^ 125 := by
  obtain ⟨k, q, m, hq, hk, hround, hlo, -, hm⟩ := roundMag_shape n 1 Nat.one_pos
  have hbound : encMag (roundMag n 1) ≤ m * 2 ^ k := by
    rw [hround, ← encMag_pack (k := k) (q := m) (by omega) (by omega), encMag_le_iff]
    exact Nat.min_le_left _ _
  have hplaces : 2 ^ k ≤ 2 ^ 126 := by
    rcases hk with rfl | hk
    · decide
    · have := Nat.mul_le_mul_right (2 ^ k) hk
      omega
  rcases hm with ⟨rfl, -, -⟩ | ⟨rfl, hup, -⟩
  · omega
  · rw [Nat.mul_one, Nat.add_mul, Nat.mul_assoc] at hup
    rw [Nat.add_mul] at hbound
    omega

/-- A sum of two numbers not below 0 rounds to at most 1 when it is at most 1 + 2^-24, half way to the next number. -/
theorem ord_roundSum_le_one {b : Bool} {n : Int} (h0 : 0 ≤ n) (h : n ≤ 2 ^ 149 + 2 ^ 125) : ord (roundSum b n) ≤ 2 ^ 149 := by
  have hone : encMag 0x3F800000 = 2 ^ 149 := by decide
  have hmid : encMag 0x3F800000 + encMag (0x3F800000 + 1) = 2 ^ 150 + 2 ^ 126 := by decide
  have hround : roundMag n.natAbs 1 ≤ 0x3F800000 := roundMag_le_of_mid Nat.one_pos (by omega) (fun _ => by decide)
  have := encMag_le_iff.mpr hround
  rw [ord_roundSum, if_neg (by omega)]
  omega

/-- Up to a target of at most 1: a step of at most the rounded distance does not pass 1 (R246). -/
theorem ord_add_le_one {x y d : F32} (hx : isFinite x = true) (hy : isFinite y = true) (hd : isFinite d = true)
    (hx0 : 0 ≤ ord x) (hxy : ord x ≤ ord y) (hy1 : ord y ≤ 2 ^ 149) (hd0 : 0 ≤ ord d) (hstep : mag d ≤ mag (sub y x)) :
    ord (add x d) ≤ 2 ^ 149 := by
  have hdist : mag (sub y x) ≤ (ord y - ord x).natAbs + 2 ^ 125 := by
    rw [sub_finite hy hx, mag_roundSum]
    exact encMag_roundMag_le_add (by omega)
  have hmag := natAbs_ord d
  rw [add_finite hx hd]
  exact ord_roundSum_le_one (by omega) (by omega)

/-- Down to a target not below 0: a step of at most the rounded distance does not pass 0 (R246). -/
theorem ord_add_nonneg {x y d : F32} (hx : isFinite x = true) (hy : isFinite y = true) (hd : isFinite d = true)
    (hy0 : 0 ≤ ord y) (hyx : ord y ≤ ord x) (hd0 : ord d ≤ 0) (hstep : mag d ≤ mag (sub y x)) :
    0 ≤ ord (add x d) := by
  have hdist : - ord x ≤ ord (sub y x) := by
    rw [sub_finite hy hx, ← ord_neg]
    refine le_ord_roundSum (not_isNaN_of_isFinite (by rwa [isFinite_neg])) ?_
    rw [ord_neg]; omega
  have hdir := mul_ord_sub_nonneg (σ := -1) (.inr rfl) hy hx (by omega)
  have hmag := natAbs_ord d
  have hmag' := natAbs_ord (sub y x)
  rw [add_finite hx hd, ← ord_posZero]
  exact le_ord_roundSum rfl (by rw [ord_posZero]; omega)

/-! ## Finite results -/

theorem isFinite_of_abs_le_one {x : F32} (hlo : le negOne x = true) (hhi : le x one = true) : isFinite x = true := by
  obtain ⟨-, -, hlo⟩ := le_iff.mp hlo
  obtain ⟨-, -, hhi⟩ := le_iff.mp hhi
  have hnegOne : ord negOne = -2 ^ 149 := by decide
  rw [ord_one] at hhi
  exact isFinite_of_natAbs_ord_le (by omega)

end Sys2Proof.Fp

namespace Sys2Proof.Machine

open Sys2Proof.Config (Params)

/-! ## The exponential smoother (R246 (b)) -/

/-- A part of the distance from one number of [0, 1] to another, added to the first, stays in [0, 1]. -/
theorem approach_inUnit {x y c : F32} (hx : inUnit x = true) (hy : inUnit y = true) (hc : inUnit c = true) :
    inUnit (Fp.add x (Fp.mul c (Fp.sub y x))) = true := by
  have hxfin := Units.isFinite_of_inUnit hx
  have hyfin := Units.isFinite_of_inUnit hy
  have hcfin := Units.isFinite_of_inUnit hc
  have hcmag := mag_le_of_inUnit hc
  have hsub : Fp.isFinite (Fp.sub y x) = true := Fp.isFinite_sub hyfin hxfin (.inl (mag_le_of_inUnit hy))
  have hstep := Fp.mag_mul_le_right hcmag hsub
  have hstepfin := Fp.isFinite_mul hcmag hsub
  obtain ⟨-, hx0, hx1⟩ := inUnit_iff.mp hx
  obtain ⟨-, hy0, hy1⟩ := inUnit_iff.mp hy
  obtain ⟨-, hc0, -⟩ := inUnit_iff.mp hc
  have hmove {σ : Int} (hσ : σ = 1 ∨ σ = -1) (hdir : σ * Fp.ord x ≤ σ * Fp.ord y) :
      0 ≤ σ * Fp.ord (Fp.mul c (Fp.sub y x)) :=
    Fp.mul_ord_mul_nonneg hσ hcfin hsub hc0 (Fp.mul_ord_sub_nonneg hσ hyfin hxfin hdir).2
  rcases le_total (Fp.ord x) (Fp.ord y) with hup | hdown
  · have hpos := hmove (.inl rfl) (by omega)
    obtain ⟨hnan, hle⟩ := Fp.mul_ord_le_mul_ord_add (σ := 1) (.inl rfl) hxfin (Fp.not_isNaN_of_isFinite hstepfin) hpos
    exact inUnit_iff.mpr ⟨hnan, by omega, Fp.ord_add_le_one hxfin hyfin hstepfin hx0 hup hy1 (by omega) hstep⟩
  · have hneg := hmove (.inr rfl) (by omega)
    obtain ⟨hnan, hle⟩ := Fp.mul_ord_le_mul_ord_add (σ := -1) (.inr rfl) hxfin (Fp.not_isNaN_of_isFinite hstepfin) hneg
    exact inUnit_iff.mpr ⟨hnan, Fp.ord_add_nonneg hxfin hyfin hstepfin hy0 hdown (by omega) hstep, by omega⟩

@[simp] theorem storeAndReturn_res (v : VoiceIdx) (u : UnitIdx) (s : State) (S : Smoother) :
    (storeAndReturn v u s S).res[0] = S.value := by
  simp [storeAndReturn]

@[simp] theorem getSmoother_storeAndReturn (v : VoiceIdx) (u : UnitIdx) (s : State) (S : Smoother) :
    getSmoother (storeAndReturn v u s S) v u = S := by
  rw [storeAndReturn, getSmoother_setRes0, getSmoother_setSmoother_same]

/-- Settles O33: the call returns and holds the value moved by a part of its distance to the target. -/
theorem exponentialStaysInUnit : Obligations.ExponentialStaysInUnit := fun v u s hmode hvalue htarget hcoef => by
  have hreturn : (storeAndReturn v u s (smootherNext (getSmoother s v u))).res[0] = (smootherNext (getSmoother s v u)).value :=
    storeAndReturn_res v u s _
  refine ⟨_, exec_smProcess v u s, ?_, ?_⟩
  · rw [smProcess_eq, hreturn, smootherNext_exponential hmode]
    exact approach_inUnit hvalue htarget hcoef
  · rw [smProcess_eq, getSmoother_storeAndReturn, hreturn]

/-! ## Phase modulation that adds nothing (R236) -/

section identity

variable (p : Params) {x pp : F32}

/-- No depth scales to +0.0 at every ratio. -/
theorem depth_zero : ∀ i : Fin 16, Fp.div (Fp.mul 0 Lit.pmDepthScale) (Lit.ratio i) = Fp.posZero := by decide

theorem sin2pi_isFinite (hx : Fp.isFinite x = true) : Fp.isFinite (Units.sin2pi p x) = true :=
  (Units.sin2pi_range hx).elim Fp.isFinite_of_abs_le_one

theorem cos2pi_isFinite (hx : Fp.isFinite x = true) : Fp.isFinite (Units.cos2pi p x) = true :=
  (Units.cos2pi_range hx).elim Fp.isFinite_of_abs_le_one

/-- The modulation is a zero of either sign, and a zero leaves the phase as it is. -/
theorem pmFn_zero (i : Fin 16) (hx : x.toNat < 0x3F800000) (hpp : Fp.isFinite pp = true) :
    pmFn p x pp 0 (Lit.ratio i) 0 = x := by
  obtain ⟨hfinite, hsign, -, -⟩ := Fp.range_of_toNat_lt hx
  have hprod : Fp.mag (Fp.mul (Units.sin2pi p pp) Fp.posZero) = 0 :=
    Fp.mag_mul_eq_zero (sin2pi_isFinite p hpp) (by decide) (Nat.mul_zero _)
  have hsum : Fp.mag (Fp.add (Fp.mul (Units.sin2pi p pp) Fp.posZero) 0) = 0 := by
    rw [Fp.add_finite (Fp.isFinite_of_mag_eq_zero hprod) (by decide), Fp.ord_eq_zero_iff.mpr hprod, Fp.mag_roundSum]
    decide
  rw [pmFn, depth_zero, Fp.add_of_mag_eq_zero hfinite hsign hsum, Fp.wrap_of_toNat_lt hx]

/-- Each law at amount 0 keeps a phase; Fold keeps all but the last (log 12). -/
theorem shape_zero (alg : Algorithm) (hx : x.toNat < 0x3F800000) (hfold : alg = .fold → x ≠ 0x3F7FFFFF) :
    shape p alg x 0 = x := by
  cases alg with
  | bend => exact bend_zero p x
  | sync => exact sync_zero p hx
  | formant => exact formant_zero p hx
  | fold => exact (fold_zero p hx).trans (if_neg (hfold rfl))

end identity

/-- Settles O39: on each lane the modulation is a zero. -/
theorem pmIdentity : Obligations.PmIdentity := fun s hs => by
  have hcopy : lanes4 (fun x pp d e => pmFn Config.build x pp d (Lit.ratio s.ratioIdx) e) s = lanes1 (fun x => x) s :=
    congrArg Vector.ofFn <| funext fun i => by
      obtain ⟨hdepth, hext, hpm, hphase⟩ := hs i
      rw [hdepth, hext]
      exact pmFn_zero _ _ hphase hpm
  rw [exec_pmInject, hcopy, lanes1_id]
  rfl

/-- Settles O41: either modulation and both stages keep the carrier phase, and the window multiplies by 1. -/
theorem pureSineLane : Obligations.PureSineLane := fun p P i pc ps pp hwindow haux hratio hpc hpp hlast => by
  obtain ⟨hfinite, -, -, -⟩ := Fp.range_of_toNat_lt hpc
  have hmodulated : pmFn p pc pp 0 P.r 0 = pc := by rw [hratio]; exact pmFn_zero p i hpc hpp
  have hstage1 : shape p P.alg1 pc 0 = pc := shape_zero p P.alg1 hpc fun h => hlast (.inl h)
  have hstage2 : shape p P.alg2 pc 0 = pc := shape_zero p P.alg2 hpc fun h => hlast (.inr h)
  simp only [lanePipeline, hmodulated, ite_self, hstage1, hstage2, hwindow, haux, windowFn, auxFn,
    Fp.mul_one_right (sin2pi_isFinite p hfinite), Fp.mul_one_right (cos2pi_isFinite p hfinite)]

/-! ## The windows (R237) -/

section windows

variable {x : F32}

/-- The sawtooth is at least 2^-24, because the phase is at most 1 - 2^-24. -/
theorem sawtooth_range (hx : inPhase x = true) :
    Fp.gt (windowFn .sawtooth x) Fp.posZero = true ∧ Fp.le (windowFn .sawtooth x) Fp.one = true := by
  have hstep : Fp.ord (0x33800000 : F32) = 2 ^ 125 := by decide
  have hunit := Units.one_sub_inUnit (inUnit_of_inPhase hx)
  obtain ⟨hfinite, h0, h1⟩ := inPhase_iff.mp hx
  obtain ⟨hnan, -, hle⟩ := inUnit_iff.mp hunit
  have hlow : 2 ^ 125 ≤ Fp.ord (Fp.sub Fp.one x) := by
    rw [Fp.ord_lt_one_iff] at h1
    rw [Fp.sub_finite (by decide) hfinite, ← hstep]
    exact Fp.le_ord_roundSum (by decide) (by rw [hstep, Fp.ord_one]; omega)
  exact ⟨Fp.lt_iff.mpr ⟨rfl, hnan, by rw [Fp.ord_posZero]; exact lt_of_lt_of_le (by decide) hlow⟩,
    Fp.le_iff.mpr ⟨hnan, rfl, by rwa [Fp.ord_one]⟩⟩

/-- Both arms of the triangle are exact. -/
theorem ord_triangle (hx : inPhase x = true) : Fp.ord (windowFn .triangle x)
    = if Fp.ord x < 2 ^ 148 then 2 * Fp.ord x else 2 * (2 ^ 149 - Fp.ord x) := by
  have hhalf : Fp.ord Fp.half = 2 ^ 148 := by decide
  have hroom : 2 ^ 150 ≤ Fp.encMag Fp.infMag := by decide
  obtain ⟨hfinite, h0, h1⟩ := inPhase_iff.mp hx
  have hlt : Fp.lt x Fp.half = true ↔ Fp.ord x < 2 ^ 148 := by
    rw [Fp.lt_iff, hhalf]
    exact ⟨fun ⟨_, _, h⟩ => h, fun h => ⟨Fp.not_isNaN_of_isFinite hfinite, rfl, h⟩⟩
  rw [windowFn]
  by_cases hlow : Fp.ord x < 2 ^ 148
  · have hmag := Fp.natAbs_ord x
    rw [if_pos (hlt.mpr hlow), if_pos hlow, Fp.ord_two_mul hfinite (by omega)]
  · have hsub := Fp.ord_one_sub (not_lt.mp hlow) h1.le
    have hmag := Fp.natAbs_ord (Fp.sub Fp.one x)
    have hsubfin : Fp.isFinite (Fp.sub Fp.one x) = true := Fp.isFinite_of_natAbs_ord_le (by omega)
    rw [if_neg (hlt.not.mpr hlow), if_neg hlow, Fp.ord_two_mul hsubfin (by omega), hsub]

theorem triangle_inUnit (hx : inPhase x = true) : inUnit (windowFn .triangle x) = true := by
  have hord := ord_triangle hx
  obtain ⟨-, h0, h1⟩ := inPhase_iff.mp hx
  have hrange : 0 ≤ Fp.ord (windowFn .triangle x) ∧ Fp.ord (windowFn .triangle x) ≤ 2 ^ 149 := by
    split at hord <;> omega
  have hfinite : Fp.isFinite (windowFn .triangle x) = true := Fp.isFinite_of_natAbs_ord_le (by omega)
  exact inUnit_iff.mpr ⟨Fp.not_isNaN_of_isFinite hfinite, hrange⟩

@[simp] theorem lanes1_get (f : F32 → F32) (s : State) (i : LaneIdx) : (lanes1 f s)[i] = f s.opA[i] := by
  simp [lanes1]

end windows

/-- Settles O40: each window, lane by lane. -/
theorem windowValues : Obligations.WindowValues := fun s hs => by
  refine ⟨⟨_, exec_winEval s .flat, fun i => ?_⟩, ⟨_, exec_winEval s .sawtooth, fun i => ?_⟩,
    ⟨_, exec_winEval s .triangle, fun i => ?_⟩⟩
  · rw [lanes1_get]; rfl
  · rw [lanes1_get]; exact sawtooth_range (hs i)
  · rw [lanes1_get]; exact ⟨triangle_inUnit (hs i), ord_triangle (hs i)⟩

/-! ## The samples of a block (R239, R243) -/

/-- Phase `n` of a phasor, four a call. -/
def phaseSample (Q : Phasor) (n : Nat) : F32 :=
  (phasorOut (phasorNext^[n / 4] Q))[(⟨n % 4, Nat.mod_lt n (by decide)⟩ : LaneIdx)]

/-- Value `n` of a smoother, one a call. -/
def smoothSample (S : Smoother) (n : Nat) : F32 := (smootherNext^[n + 1] S).value

/-- Sample `n` of a voice. -/
def voiceSample (p : Params) (P : Patch) (ext : List F32) (vo : Voice) (n : Nat) : F32 × F32 :=
  lanePipeline p P (phaseSample vo.ph[0] n) (phaseSample vo.ph[1] n) (phaseSample vo.ph[2] n)
    (smoothSample vo.sm[0] n) (smoothSample vo.sm[1] n) (smoothSample vo.sm[2] n) (ext.getD n Fp.posZero)

/-- A voice after `k` groups of four samples. -/
def voiceAfter (k : Nat) (vo : Voice) : Voice :=
  { vo with
    ph := #v[phasorNext^[k] vo.ph[0], phasorNext^[k] vo.ph[1], phasorNext^[k] vo.ph[2]]
    sm := #v[smootherNext^[4 * k] vo.sm[0], smootherNext^[4 * k] vo.sm[1], smootherNext^[4 * k] vo.sm[2]] }

/-- A later call's phase is an earlier phase of the phasor one call on. -/
theorem phaseSample_phasorNext (Q : Phasor) (n : Nat) : phaseSample (phasorNext Q) n = phaseSample Q (n + 4) := by
  have hcall : (n + 4) / 4 = n / 4 + 1 := by omega
  have hlane : (n + 4) % 4 = n % 4 := by omega
  simp only [phaseSample, hcall, hlane, Function.iterate_succ_apply]

theorem smoothSample_iterate (S : Smoother) (n : Nat) : smoothSample (smootherNext^[4] S) n = smoothSample S (n + 4) := by
  rw [smoothSample, smoothSample, ← Function.iterate_add_apply, Nat.add_right_comm]

theorem voiceSample_voiceAfter_one (p : Params) (P : Patch) (ext : List F32) (vo : Voice) (n : Nat) :
    voiceSample p P (ext.drop 4) (voiceAfter 1 vo) n = voiceSample p P ext vo (n + 4) := by
  have hext : (ext.drop 4).getD n Fp.posZero = ext.getD (n + 4) Fp.posZero := by
    simp [List.getD_eq_getElem?_getD, Nat.add_comm]
  simp only [voiceSample, hext, ← phaseSample_phasorNext, ← smoothSample_iterate]
  rfl

theorem voiceAfter_zero (vo : Voice) : voiceAfter 0 vo = vo := by
  have hvec {α : Type} (v : Vector α 3) : #v[v[0], v[1], v[2]] = v := by
    ext i hi
    interval_cases i <;> rfl
  simp only [voiceAfter, Nat.mul_zero, Function.iterate_zero, id_eq, hvec]

theorem voiceAfter_voiceAfter_one (k : Nat) (vo : Voice) : voiceAfter k (voiceAfter 1 vo) = voiceAfter (k + 1) vo := by
  have hphasor (Q : Phasor) : phasorNext^[k + 1] Q = phasorNext^[k] (phasorNext^[1] Q) :=
    Function.iterate_add_apply _ k 1 Q
  have hsmoother (S : Smoother) : smootherNext^[4 * (k + 1)] S = smootherNext^[4 * k] (smootherNext^[4 * 1] S) :=
    Function.iterate_add_apply _ (4 * k) (4 * 1) S
  rw [voiceAfter.eq_def (k + 1)]
  simp only [hphasor, hsmoother]
  rfl

/-- A group is its four samples. -/
theorem groupStep_eq (p : Params) (P : Patch) (ext : List F32) (vo : Voice) :
    groupStep p P ext vo = ((List.range 4).map (voiceSample p P ext vo), voiceAfter 1 vo) := rfl

/-- Groups in order are their samples in order. -/
theorem groupSteps_eq (p : Params) (P : Patch) (k : Nat) (ext : List F32) (vo : Voice) :
    groupSteps p P k ext vo = ((List.range (4 * k)).map (voiceSample p P ext vo), voiceAfter k vo) := by
  induction k generalizing ext vo with
  | zero => rw [voiceAfter_zero]; rfl
  | succ k ih =>
    have hrange : (List.range (4 * (k + 1))).map (voiceSample p P ext vo)
        = (List.range 4).map (voiceSample p P ext vo)
          ++ (List.range (4 * k)).map (voiceSample p P (ext.drop 4) (voiceAfter 1 vo)) := by
      rw [Nat.mul_succ, Nat.add_comm, List.range_add, List.map_append, List.map_map]
      congr 1
      refine List.map_congr_left fun n _ => ?_
      rw [voiceSample_voiceAfter_one, Function.comp_apply, Nat.add_comm]
    rw [groupSteps, groupStep_eq, ih, hrange, voiceAfter_voiceAfter_one]

/-- Settles O60: the block is k groups from the voice with its frequencies and targets set. -/
theorem pdoBlockSamples : Obligations.PdoBlockSamples := fun p P f ext k vo => by
  have hgroups : 4 * k / 4 = k := Nat.mul_div_cancel_left k (by decide)
  have hblock : pdoBlock p P f ext (4 * k) vo
      = ((List.range (4 * k)).map (voiceSample p P ext (startTargets P (startFrequencies P f vo))),
        voiceAfter k (startTargets P (startFrequencies P f vo))) := by
    rw [pdoBlock, hgroups, groupSteps_eq]
  intro ph0 ph1 ph2 sm0 sm1 sm2 phase smooth stage sample
  have hstage : stage = shape p := funext fun alg => by cases alg <;> rfl
  -- The cascade is stage one before stage two; only the windows are listed in another order.
  have hsample (n : Nat) : voiceSample p P ext (startTargets P (startFrequencies P f vo)) n = sample n := by
    simp only [sample, hstage, voiceSample, lanePipeline]
    cases P.window <;> rfl
  exact hblock.trans (Prod.ext (List.map_congr_left fun n _ => hsample n) rfl)

end Sys2Proof.Machine
end

section
/-! PROOFS. The ring buffer (spec/44_ring_buffer.md R260 to R268): what a push and a pop do to a ring read as a FIFO, oldest entry
first, for any contents and capacity, and from these the statements of the family. -/

namespace Sys2Proof.Machine

/-! ## The ring as a FIFO -/

section fifo

variable {α : Type} [DecidableEq α] {d : α} {cap : Nat} {q : Ring α}

/-- In a ring with room, no live entry sits in the slot the next push writes. -/
theorem ringSlot_ne {rd n k : Nat} (hk : k < n) (hn : n < cap) : (rd + k) % cap ≠ (rd + n) % cap := fun h =>
  hk.ne ((Nat.ModEq.add_left_cancel' rd h).eq_of_lt_of_lt (hk.trans hn) hn)

/-- A push appends at the young end (R261). -/
theorem ringContents_push (h : RingWf d cap q) (hn : q.n < cap) (x : α) :
    ringContents d cap (ringPush d cap q x) = ringContents d cap q ++ [x] := by
  have hread (k : Nat) := slotRead_slotWrite h.slots ((q.rd + q.n) % cap) k x
  simp only [ringContents, ringPush_n, ringPush_rd, ringPush_buf, hread, List.range_succ, List.map_append, List.map_cons,
    List.map_nil, if_true]
  have hold : ∀ k ∈ List.range q.n, (q.rd + k) % cap ≠ (q.rd + q.n) % cap := fun k hk =>
    ringSlot_ne (List.mem_range.mp hk) hn
  exact congrArg (· ++ [x]) (List.map_congr_left fun k hk => if_neg (hold k hk))

/-- What a ring that is not empty holds: the entry a pop answers, then what the drop leaves (R262). -/
theorem ringContents_eq_front_cons_drop (h : RingWf d cap q) (hn : q.n ≠ 0) :
    ringContents d cap q = ringFront d q :: ringContents d cap (ringDrop cap q) := by
  obtain ⟨m, hm⟩ := Nat.exists_eq_succ_of_ne_zero hn
  have hslot (k : Nat) : (q.rd + (k + 1)) % cap = ((q.rd + 1) % cap + k) % cap := by
    rw [Nat.mod_add_mod, Nat.add_right_comm, Nat.add_assoc]
  simp only [ringContents, ringFront, ringDrop_n, ringDrop_rd, ringDrop_buf, hm, Nat.succ_sub_one, List.range_succ_eq_map,
    List.map_cons, List.map_map, Nat.add_zero, Nat.mod_eq_of_lt h.rd]
  exact congrArg (List.cons _) (List.map_congr_left fun k _ => congrArg (slotRead d q.buf) (hslot k))

end fifo

/-! ## The commands -/

theorem exec_rbPush (v : VoiceIdx) (s : State) : exec (.rbPush v) s = .next (pushPm Config.build v s.opA[0] s) := rfl

theorem exec_rbPop (v : VoiceIdx) (s : State) :
    exec (.rbPop v) s = .next (setRes0 (popPmState Config.build v s) (popPmValue v s)) := rfl

/-- Settles O42: a full ring and a ring with room are the two cases of a push. -/
theorem rbPushResult : Obligations.RbPushResult := fun v s => by
  intro cap
  rw [exec_rbPush]
  rcases pushPm_cases Config.build v s.opA[0] s with ⟨hfull, hpush⟩ | ⟨hroom, hpush⟩ <;> rw [hpush]
  · exact ⟨fun _ => rfl, fun _ hn => absurd hfull hn.ne⟩
  · exact ⟨fun hfull => absurd hfull hroom,
      fun hwf hn => ⟨_, rfl, ringWf_push hwf hn _, rfl, ringContents_push hwf hn _⟩⟩

/-- Settles O43: an empty ring and a ring that holds something are the two cases of a pop. -/
theorem rbPopResult : Obligations.RbPopResult := fun v s => by
  intro cap
  rw [exec_rbPop]
  rcases popPm_cases Config.build v s with ⟨hempty, hvalue, hstate⟩ | ⟨hsome, hvalue, hstate⟩ <;> rw [hvalue, hstate]
  · exact ⟨fun _ => rfl, fun _ hsome => absurd hempty hsome⟩
  · exact ⟨fun hempty => absurd hempty hsome,
      fun hwf _ => ⟨_, _, _, ringContents_eq_front_cons_drop hwf hsome, rfl, ringWf_drop hwf,
        Nat.sub_one_add_one hsome, rfl⟩⟩

end Sys2Proof.Machine
end

section
/-! PROOFS. The sample-rate converter (spec/45_decimation_src.md R280 to R289): the sum of the filter and the samples it reads, the
copy of a block when the factor is 1, and what two states that differ only in their buffers still share after a latch. -/

namespace Sys2Proof.Machine

open Sys2Proof.Config (Params)

/-! ## The filter (R285) -/

/-- One step of the sum: the product of tap `j` and the sample `j` before sample `i`. -/
def addTap (h e : List F32) (i : Nat) (acc : F32) (j : Nat) : F32 := Fp.add acc (Fp.mul (h.getD j 0) (e.getD (i - j) 0))

theorem addTap_cons_succ (t : F32) (ts e : List F32) (i : Nat) (acc : F32) (j : Nat) :
    addTap (t :: ts) e i acc (j + 1) = addTap ts e (i - 1) acc j := by
  have hindex : i - (j + 1) = i - 1 - j := by omega
  rw [addTap, hindex, List.getD_cons_succ, addTap]

theorem firSum_eq_foldl (e h : List F32) (i : Nat) (acc : F32) :
    firSum e h i acc = (List.range h.length).foldl (addTap h e i) acc := by
  induction h generalizing i acc with
  | nil => rfl
  | cons t ts ih =>
    rw [firSum, ih, List.length_cons, List.range_succ_eq_map, List.foldl_cons, List.foldl_map]
    simp only [Nat.succ_eq_add_one, addTap_cons_succ]
    rfl

/-- The sum depends only on the samples it reads. -/
theorem firSum_congr {h e e' : List F32} {i i' : Nat} (hread : ∀ j < h.length, e'.getD (i' - j) 0 = e.getD (i - j) 0)
    (acc : F32) : firSum e' h i' acc = firSum e h i acc := by
  rw [firSum_eq_foldl, firSum_eq_foldl]
  exact List.foldl_ext _ _ _ fun a j hj => by rw [addTap, hread j (List.mem_range.mp hj), addTap]

/-- An output reads nothing after its own group. -/
theorem firOutput_append {h e : List F32} {m q : Nat} (y : List F32) (hm : 0 < m)
    (hgroup : h.length - 1 + (q + 1) * m ≤ e.length) : firOutput h (e ++ y) m q = firOutput h e m q := by
  rw [Nat.succ_mul] at hgroup
  exact firSum_congr (fun j _ => List.getD_append _ _ _ _ (by omega)) _

/-- An output reads nothing before the `L - 1` samples that precede its group. -/
theorem firOutput_drop {h : List F32} (e : List F32) (m b q : Nat) :
    firOutput h (e.drop (b * m)) m q = firOutput h e m (b + q) := by
  refine firSum_congr (fun j hj => ?_) _
  have hindex : b * m + (h.length - 1 + q * m + (m - 1) - j) = h.length - 1 + (b + q) * m + (m - 1) - j := by
    rw [Nat.add_mul]
    omega
  rw [List.getD_eq_getElem?_getD, List.getElem?_drop, hindex, List.getD_eq_getElem?_getD]

section blocks

variable {h hist x : List F32} {m b : Nat}

/-- The history after `b` groups is the history and the input without the first `b` groups. -/
theorem decimateHist_eq_drop (hhist : hist.length = h.length - 1) (hx : x.length = b * m) :
    decimateHist h hist x = (hist ++ x).drop (b * m) := by
  rw [decimateHist, List.length_append]
  congr 1
  omega

/-- Two blocks in one give the outputs of the first, then those of the second from the history between. -/
theorem decimateOut_append (hm : 0 < m) (hhist : hist.length = h.length - 1) (hx : x.length = b * m) (c : Nat)
    (y : List F32) :
    decimateOut h m (b + c) hist (x ++ y) = decimateOut h m b hist x ++ decimateOut h m c (decimateHist h hist x) y := by
  have hlen : (hist ++ x).length = h.length - 1 + b * m := by rw [List.length_append, hhist, hx]
  have hcarried : decimateHist h hist x ++ y = (hist ++ x ++ y).drop (b * m) := by
    rw [decimateHist_eq_drop hhist hx, List.drop_append_of_le_length (l₁ := hist ++ x) (by omega)]
  simp only [decimateOut, List.range_add, List.map_append, List.map_map, hcarried, firOutput_drop, ← List.append_assoc]
  congr 1
  refine List.map_congr_left fun q hq => firOutput_append y hm ?_
  rw [hlen]
  exact Nat.add_le_add_left (Nat.mul_le_mul_right m (List.mem_range.mp hq)) _

theorem decimateHist_append {c : Nat} {y : List F32} (hhist : hist.length = h.length - 1) (hx : x.length = b * m)
    (hy : y.length = c * m) : decimateHist h hist (x ++ y) = decimateHist h (decimateHist h hist x) y := by
  have hxy : (x ++ y).length = (b + c) * m := by rw [List.length_append, hx, hy, Nat.add_mul]
  have hle : b * m ≤ (hist ++ x).length := by rw [List.length_append, hx]; exact Nat.le_add_left ..
  rw [decimateHist_eq_drop hhist hxy, decimateHist_eq_drop (length_decimateHist x hhist) hy, decimateHist_eq_drop hhist hx,
    ← List.drop_append_of_le_length hle, List.drop_drop, List.append_assoc, Nat.add_mul]

end blocks

/-- Settles O54: the sum is a fold over the taps, and an output reads only its group and the `L - 1` samples before it. -/
theorem decimatorStreams : Obligations.DecimatorStreams :=
  ⟨fun h e _ _ => firSum_eq_foldl e h _ _, fun _ _ _ _ _ => ⟨rfl, rfl⟩,
    fun _ _ x y _ _ c _ hm hhist hx hy =>
      ⟨decimateOut_append hm hhist hx c y, decimateHist_append hhist hx hy, length_decimateHist x hhist⟩⟩

/-! ## The copy of a block (R281, R286, R288) -/

theorem convert_of_x1 (p : Params) (X : List Frame) {s : State} (hos : s.osActive = .x1) :
    convert p X s = pushOutAll p X s := by
  rcases convert_cases p X s with ⟨-, h⟩ | ⟨hne, -⟩
  · exact h
  · exact absurd hos hne

/-- Frames pushed into a ring with room for all of them join its young end in order, and nothing else changes. -/
theorem pushOutAll_contents (p : Params) {X : List Frame} {s : State} (hwf : RingWf zeroFrame (Units.capOut p) s.outq)
    (hroom : s.outq.n + X.length ≤ Units.capOut p) :
    ∃ q : Machine.Ring Frame, pushOutAll p X s = { s with outq := q } ∧ RingWf zeroFrame (Units.capOut p) q
      ∧ ringContents zeroFrame (Units.capOut p) q = ringContents zeroFrame (Units.capOut p) s.outq ++ X := by
  induction X generalizing s with
  | nil => exact ⟨s.outq, rfl, hwf, (List.append_nil _).symm⟩
  | cons F Fs ih =>
    rw [List.length_cons] at hroom
    have hlt : s.outq.n < Units.capOut p := by omega
    rcases pushOut_cases p F s with ⟨hfull, -⟩ | ⟨-, hpush⟩
    · exact absurd hfull hlt.ne
    · obtain ⟨q, hall, hq, hcontents⟩ := ih (s := { s with outq := ringPush zeroFrame (Units.capOut p) s.outq F })
        (ringWf_push hwf hlt F) (by rw [ringPush_n]; omega)
      exact ⟨q, by rw [pushOutAll, hpush, hall], hq, by
        rw [hcontents, ringContents_push hwf hlt, List.append_assoc, List.singleton_append]⟩

theorem ringContents_of_empty {α : Type} (d : α) (cap : Nat) {q : Machine.Ring α} (h : q.n = 0) :
    ringContents d cap q = [] := by
  rw [ringContents, h]
  rfl

/-- Settles O55: at factor 1 the conversion is the push of the block, here into an empty ring with room for it. -/
theorem passThrough : Obligations.PassThrough := fun p X s hos hempty hwf hfits => by
  obtain ⟨q, hall, hq, hcontents⟩ := pushOutAll_contents p hwf (X := X) (by omega)
  rw [ringContents_of_empty _ _ hempty] at hcontents
  exact ⟨q, (convert_of_x1 p X hos).trans hall, hq, hcontents⟩

/-! ## Rings that hold the same (R289; 44_ring_buffer.md R260 to R266) -/

/-- Two rings of one capacity with the same contents; their slots and read indices may differ. -/
structure SameRing {α : Type} [DecidableEq α] (d : α) (cap : Nat) (q q' : Machine.Ring α) : Prop where
  wf : RingWf d cap q
  wf' : RingWf d cap q'
  contents : ringContents d cap q' = ringContents d cap q

namespace SameRing

variable {α : Type} [DecidableEq α] {d : α} {cap : Nat} {q q' : Machine.Ring α}

theorem n_eq (h : SameRing d cap q q') : q'.n = q.n := by
  simpa [ringContents] using congrArg List.length h.contents

theorem push (h : SameRing d cap q q') (hn : q.n < cap) (x : α) :
    SameRing d cap (ringPush d cap q x) (ringPush d cap q' x) := by
  have hn' : q'.n < cap := h.n_eq.trans_lt hn
  exact ⟨ringWf_push h.wf hn x, ringWf_push h.wf' hn' x, by
    rw [ringContents_push h.wf hn, ringContents_push h.wf' hn', h.contents]⟩

/-- The oldest entries are equal, and so is what is left without them. -/
theorem front_and_drop (h : SameRing d cap q q') (hn : q.n ≠ 0) :
    ringFront d q' = ringFront d q ∧ ringContents d cap (ringDrop cap q') = ringContents d cap (ringDrop cap q) := by
  have hcontents := h.contents
  rw [ringContents_eq_front_cons_drop h.wf hn, ringContents_eq_front_cons_drop h.wf' (h.n_eq ▸ hn)] at hcontents
  exact List.cons.inj hcontents

theorem front (h : SameRing d cap q q') (hn : q.n ≠ 0) : ringFront d q' = ringFront d q := (h.front_and_drop hn).1

theorem drop (h : SameRing d cap q q') (hn : q.n ≠ 0) : SameRing d cap (ringDrop cap q) (ringDrop cap q') :=
  ⟨ringWf_drop h.wf, ringWf_drop h.wf', (h.front_and_drop hn).2⟩

/-- Any two rings hold the same once cleared. -/
theorem clear (h : RingWf d cap q) (h' : RingWf d cap q') : SameRing d cap (ringClear q) (ringClear q') :=
  ⟨ringWf_clear h, ringWf_clear h', rfl⟩

end SameRing

/-! ## States that differ only in the slots of their rings -/

/-- `vo'` is `vo` with a ring that holds the same. -/
def SameVoice (p : Params) (vo vo' : Voice) : Prop :=
  ∃ q, vo' = { vo with pmq := q } ∧ SameRing Fp.posZero (Units.capPm p) vo.pmq q

/-- `s'` is `s` with rings that hold the same. -/
def SameHeld (p : Params) (s s' : State) : Prop :=
  ∃ q voices, s' = { s with outq := q, voices := voices } ∧ SameRing zeroFrame (Units.capOut p) s.outq q
    ∧ ∀ v : VoiceIdx, SameVoice p (getVoice s v) voices[v]

theorem SameVoice.units {p : Params} {vo vo' : Voice} (h : SameVoice p vo vo') : vo'.ph = vo.ph ∧ vo'.sm = vo.sm := by
  obtain ⟨q, rfl, -⟩ := h
  exact ⟨rfl, rfl⟩

section held

variable {p : Params} {s s' : State}

theorem SameHeld.outputs_and_status (h : SameHeld p s s') :
    s'.outPri = s.outPri ∧ s'.outAux = s.outAux ∧ s'.flags = s.flags ∧ s'.lastCode = s.lastCode ∧ s'.hist = s.hist := by
  obtain ⟨q, voices, rfl, -⟩ := h
  exact ⟨rfl, rfl, rfl, rfl, rfl⟩

theorem SameHeld.outq (h : SameHeld p s s') : SameRing zeroFrame (Units.capOut p) s.outq s'.outq := by
  obtain ⟨q, voices, rfl, hq, -⟩ := h
  exact hq

theorem SameHeld.voice (h : SameHeld p s s') (v : VoiceIdx) : SameVoice p (getVoice s v) (getVoice s' v) := by
  obtain ⟨q, voices, rfl, -, hvoices⟩ := h
  exact hvoices v

theorem SameHeld.pmq (h : SameHeld p s s') (v : VoiceIdx) :
    SameRing Fp.posZero (Units.capPm p) (getPmq s v) (getPmq s' v) := by
  obtain ⟨q, hvo, hq⟩ := h.voice v
  rw [getPmq, getPmq, hvo]
  exact hq

theorem sameHeld_raise (e : Event) (h : SameHeld p s s') : SameHeld p (raise e s) (raise e s') := by
  obtain ⟨q, voices, rfl, hq, hvoices⟩ := h
  exact ⟨q, voices, rfl, hq, hvoices⟩

theorem sameHeld_setVoice (v : VoiceIdx) {x x' : Voice} (hx : SameVoice p x x') (h : SameHeld p s s') :
    SameHeld p (setVoice s v x) (setVoice s' v x') := by
  obtain ⟨q, voices, rfl, hq, hvoices⟩ := h
  refine ⟨q, voices.set v x', rfl, hq, fun w => ?_⟩
  rw [getVoice_setVoice, vec_get_set]
  split
  exacts [hx, hvoices w]

theorem sameHeld_setPmq (v : VoiceIdx) {q q' : Machine.Ring F32} (hq : SameRing Fp.posZero (Units.capPm p) q q')
    (h : SameHeld p s s') : SameHeld p (setPmq s v q) (setPmq s' v q') := by
  obtain ⟨r, hvo, -⟩ := h.voice v
  exact sameHeld_setVoice v ⟨q', by rw [hvo], hq⟩ h

theorem sameHeld_mapVoices {f : Voice → Voice} (hf : ∀ vo vo', SameVoice p vo vo' → SameVoice p (f vo) (f vo'))
    (h : SameHeld p s s') : SameHeld p (mapVoices f s) (mapVoices f s') := by
  obtain ⟨q, voices, rfl, hq, hvoices⟩ := h
  rw [mapVoices, mapVoices]
  refine ⟨q, mapVec f voices, rfl, hq, fun v => ?_⟩
  rw [getVoice, mapVec_get, mapVec_get]
  exact hf _ _ (hvoices v)

/-! ## The audio part of a TICK (46_engine.md R303 to R307) -/

theorem sameHeld_pushPm (v : VoiceIdx) (x : F32) (h : SameHeld p s s') : SameHeld p (pushPm p v x s) (pushPm p v x s') := by
  simp only [pushPm, (h.pmq v).n_eq]
  split
  · exact sameHeld_raise _ h
  · next hroom => exact sameHeld_setPmq v ((h.pmq v).push (Nat.lt_of_le_of_ne (h.pmq v).wf.n hroom) x) h

theorem sameHeld_pushPmTimes (v : VoiceIdx) (x : F32) (k : Nat) (h : SameHeld p s s') :
    SameHeld p (pushPmTimes p v x k s) (pushPmTimes p v x k s') := by
  induction k generalizing s s' with
  | zero => exact h
  | succ k ih => exact ih (sameHeld_pushPm v x h)

theorem sameHeld_pushExtVoice (v : VoiceIdx) (h : SameHeld p s s') :
    SameHeld p (pushExtVoice p s v) (pushExtVoice p s' v) := by
  have hregs : pushExtVoice p s' v = pushPmTimes p v s.extPm[v] (Lit.osNat s.osActive) s' := by
    obtain ⟨q, voices, rfl, -⟩ := h
    rfl
  rw [hregs]
  exact sameHeld_pushPmTimes v _ _ h

theorem sameHeld_pushExt (n : Nat) (h : SameHeld p s s') : SameHeld p (pushExt p n s) (pushExt p n s') := by
  unfold pushExt
  induction activeVoices n generalizing s s' with
  | nil => exact h
  | cons v vs ih => exact ih (sameHeld_pushExtVoice v h)

theorem popPmValue_of_sameHeld (v : VoiceIdx) (h : SameHeld p s s') : popPmValue v s' = popPmValue v s := by
  simp only [popPmValue, (h.pmq v).n_eq]
  split
  · rfl
  · next hsome => exact (h.pmq v).front hsome

theorem sameHeld_popPmState (v : VoiceIdx) (h : SameHeld p s s') : SameHeld p (popPmState p v s) (popPmState p v s') := by
  simp only [popPmState, (h.pmq v).n_eq]
  split
  · exact sameHeld_raise _ h
  · next hsome => exact sameHeld_setPmq v ((h.pmq v).drop hsome) h

theorem sameHeld_popBlockPm (v : VoiceIdx) (k : Nat) (h : SameHeld p s s') :
    (popBlockPm p v k s').1 = (popBlockPm p v k s).1 ∧ SameHeld p (popBlockPm p v k s).2 (popBlockPm p v k s').2 := by
  induction k generalizing s s' with
  | zero => exact ⟨rfl, h⟩
  | succ k ih =>
    obtain ⟨hvalues, hstates⟩ := ih (sameHeld_popPmState v h)
    simp only [popBlockPm_succ, popPmValue_of_sameHeld v h, hvalues]
    exact ⟨trivial, hstates⟩

/-- The block of a voice reads and changes its units only (43_pdo_block.md R239). -/
theorem pdoBlock_of_sameVoice (P : Patch) (f : F32) (ext : List F32) (n : Nat) {vo vo' : Voice} (h : SameVoice p vo vo') :
    (pdoBlock p P f ext n vo').1 = (pdoBlock p P f ext n vo).1
    ∧ SameVoice p (pdoBlock p P f ext n vo).2 (pdoBlock p P f ext n vo').2 := by
  obtain ⟨q, rfl, hq⟩ := h
  simp only [pdoBlock, groupSteps_eq]
  exact ⟨rfl, q, rfl, hq⟩

theorem sameHeld_renderVoice (P : Patch) (n : Nat) (v : VoiceIdx) (h : SameHeld p s s') :
    (renderVoice p P n v s').1 = (renderVoice p P n v s).1
    ∧ SameHeld p (renderVoice p P n v s).2 (renderVoice p P n v s').2 := by
  obtain ⟨hext, hpopped⟩ := sameHeld_popBlockPm v n h
  have hfreq : s'.freq = s.freq := by
    obtain ⟨q, voices, rfl, -⟩ := h
    rfl
  obtain ⟨hout, hvoice⟩ :=
    pdoBlock_of_sameVoice P s.freq[v] (popBlockPm p v n s).1 n (hpopped.voice v)
  simp only [renderVoice, hfreq, hext]
  exact ⟨hout, sameHeld_setVoice v hvoice hpopped⟩

theorem sameHeld_renderVoices (P : Patch) (n : Nat) (vs : List VoiceIdx) (h : SameHeld p s s') :
    (renderVoices p P n vs s').1 = (renderVoices p P n vs s).1
    ∧ SameHeld p (renderVoices p P n vs s).2 (renderVoices p P n vs s').2 := by
  induction vs generalizing s s' with
  | nil => exact ⟨rfl, h⟩
  | cons v vs ih =>
    obtain ⟨hblock, hstate⟩ := sameHeld_renderVoice P n v h
    obtain ⟨hblocks, hstates⟩ := ih hstate
    simp only [renderVoices, hblock, hblocks]
    exact ⟨trivial, hstates⟩

theorem sameHeld_pushOut (F : Frame) (h : SameHeld p s s') : SameHeld p (pushOut p F s) (pushOut p F s') := by
  simp only [pushOut, h.outq.n_eq]
  split
  · exact h
  · next hroom =>
    obtain ⟨q, voices, rfl, hq, hvoices⟩ := h
    exact ⟨_, voices, rfl, hq.push (Nat.lt_of_le_of_ne hq.wf.n hroom) F, hvoices⟩

theorem sameHeld_pushOutAll (Fs : List Frame) (h : SameHeld p s s') :
    SameHeld p (pushOutAll p Fs s) (pushOutAll p Fs s') := by
  induction Fs generalizing s s' with
  | nil => exact h
  | cons F Fs ih => exact ih (sameHeld_pushOut F h)

/-- The frames a conversion at a factor above 1 pushes (R285, R286). -/
def filteredFrames (p : Params) (X : List Frame) (s : State) : List Frame :=
  framesOf (Vector.ofFn fun c : Fin 32 => decimateOut (Units.taps p s.osActive) (Lit.osNat s.osActive)
    (Units.blockSize p) s.hist[c] (channelOf X c)) (Units.blockSize p)

theorem convert_of_ne_x1 (p : Params) (X : List Frame) {s : State} (hos : s.osActive ≠ .x1) :
    convert p X s = pushOutAll p (filteredFrames p X s) (filterBlock p X s) := by
  rcases convert_cases p X s with ⟨hx1, -⟩ | ⟨-, h⟩
  · exact absurd hx1 hos
  · exact h

theorem filteredFrames_of_sameHeld (X : List Frame) (h : SameHeld p s s') : filteredFrames p X s' = filteredFrames p X s := by
  obtain ⟨q, voices, rfl, -⟩ := h
  simp only [filteredFrames]

theorem sameHeld_filterBlock (X : List Frame) (h : SameHeld p s s') :
    SameHeld p (filterBlock p X s) (filterBlock p X s') := by
  obtain ⟨q, voices, rfl, hq, hvoices⟩ := h
  have hfilter : filterBlock p X { s with outq := q, voices := voices }
      = { filterBlock p X s with outq := q, voices := voices } := by simp only [filterBlock]
  obtain ⟨hist, hframe⟩ := filterBlock_frame p X s
  rw [hfilter, hframe]
  exact ⟨q, voices, rfl, hq, hvoices⟩

theorem sameHeld_convert (X : List Frame) (h : SameHeld p s s') : SameHeld p (convert p X s) (convert p X s') := by
  have hfactor : s'.osActive = s.osActive := by
    obtain ⟨q, voices, rfl, -⟩ := h
    rfl
  by_cases hos : s.osActive = .x1
  · rw [convert_of_x1 p X hos, convert_of_x1 p X (hfactor.trans hos)]
    exact sameHeld_pushOutAll X h
  · rw [convert_of_ne_x1 p X hos, convert_of_ne_x1 p X (hfactor ▸ hos), filteredFrames_of_sameHeld X h]
    exact sameHeld_pushOutAll _ (sameHeld_filterBlock X h)

theorem sameHeld_render (n : Nat) (h : SameHeld p s s') : SameHeld p (render p n s) (render p n s') := by
  have hregs : patchOf s' = patchOf s ∧ blockLen p s' = blockLen p s := by
    obtain ⟨q, voices, rfl, -⟩ := h
    exact ⟨rfl, rfl⟩
  obtain ⟨hpatch, hlen⟩ := hregs
  obtain ⟨hblocks, hstates⟩ := sameHeld_renderVoices (patchOf s) (blockLen p s) (activeVoices n) h
  simp only [render, hpatch, hlen, hblocks]
  exact sameHeld_convert _ hstates

theorem sameHeld_popOut (pri aux : Vector F32 16) (n : Word) (hsome : s.outq.n ≠ 0) (h : SameHeld p s s') :
    SameHeld p { s with outq := ringDrop (Units.capOut p) s.outq, outPri := pri, outAux := aux, outChannels := n }
      { s' with outq := ringDrop (Units.capOut p) s'.outq, outPri := pri, outAux := aux, outChannels := n } := by
  obtain ⟨q, voices, rfl, hq, hvoices⟩ := h
  exact ⟨ringDrop (Units.capOut p) q, voices, rfl, hq.drop hsome, hvoices⟩

theorem sameHeld_output (n : Word) (h : SameHeld p s s') : SameHeld p (output p n s) (output p n s') := by
  rcases output_cases p n s with ⟨hempty, hout⟩ | ⟨hsome, hout⟩
  · rcases output_cases p n s' with ⟨-, hout'⟩ | ⟨hsome', -⟩
    · rw [hout, hout']
      exact sameHeld_raise _ h
    · exact absurd (h.outq.n_eq.trans hempty) hsome'
  · rcases output_cases p n s' with ⟨hempty', -⟩ | ⟨-, hout'⟩
    · exact absurd (h.outq.n_eq.symm.trans hempty') hsome
    · rw [hout, hout', h.outq.front hsome]
      exact sameHeld_popOut _ _ n hsome h

theorem sameHeld_tickAudio (n : Word) (h : SameHeld p s s') : SameHeld p (tickAudio p n s) (tickAudio p n s') := by
  have hpush := sameHeld_pushExt n.toNat h
  simp only [tickAudio, hpush.outq.n_eq]
  refine sameHeld_output n ?_
  split
  exacts [sameHeld_render _ hpush, hpush]

end held

/-! ## The latches (R287; 46_engine.md R301, R302, R311) -/

/-- `s'` is `s` but for what is buffered: the rings, of which nothing but their form is known, and the filter history. -/
def SameButBuffers (p : Params) (s s' : State) : Prop :=
  ∃ outq hist voices, s' = { s with outq := outq, hist := hist, voices := voices } ∧ unitsOf s' = unitsOf s
    ∧ RingsWf p s ∧ RingsWf p s'

section latches

variable {p : Params} {s s' : State}

theorem sameVoice_of_units {vo vo' : Voice} (hph : vo'.ph = vo.ph) (hsm : vo'.sm = vo.sm)
    (hq : SameRing Fp.posZero (Units.capPm p) vo.pmq vo'.pmq) : SameVoice p vo vo' :=
  ⟨vo'.pmq, by rw [← hph, ← hsm], hq⟩

theorem SameHeld.sameButBuffers (h : SameHeld p s s') : SameButBuffers p s s' := by
  have hunits : unitsOf s' = unitsOf s := funext fun v =>
    Prod.ext (h.voice v).units.1 (h.voice v).units.2
  have hwf : RingsWf p s := ⟨fun v => (h.pmq v).wf, h.outq.wf⟩
  have hwf' : RingsWf p s' := ⟨fun v => (h.pmq v).wf', h.outq.wf'⟩
  obtain ⟨q, voices, rfl, -⟩ := h
  exact ⟨q, s.hist, voices, rfl, hunits, hwf, hwf'⟩

/-- A clear leaves nothing of what was buffered. -/
theorem sameHeld_clearBuffers (h : SameButBuffers p s s') : SameHeld p (clearBuffers p s) (clearBuffers p s') := by
  have hvoice (v : VoiceIdx) : SameVoice p (getVoice (clearBuffers p s) v) (getVoice (clearBuffers p s') v) := by
    obtain ⟨-, -, -, -, hunits, hwf, hwf'⟩ := h
    obtain ⟨hph, hsm⟩ := Prod.mk.inj (congrFun hunits v)
    rw [getVoice_clearBuffers, getVoice_clearBuffers]
    exact sameVoice_of_units hph hsm (.clear (hwf.pmq v) (hwf'.pmq v))
  obtain ⟨q, hist, voices, rfl, -, hwf, hwf'⟩ := h
  rw [clearBuffers, clearBuffers]
  exact ⟨ringClear q, _, rfl, .clear hwf.outq hwf'.outq, hvoice⟩

theorem sameVoice_voiceSetSampleRate (fo : F32) (vo vo' : Voice) (h : SameVoice p vo vo') :
    SameVoice p (voiceSetSampleRate p fo vo) (voiceSetSampleRate p fo vo') := by
  obtain ⟨q, rfl, hq⟩ := h
  exact ⟨q, rfl, hq⟩

theorem sameVoice_voiceReset (fo : F32) (vo vo' : Voice) (h : SameVoice p vo vo') :
    SameVoice p (voiceReset p fo vo) (voiceReset p fo vo') := by
  obtain ⟨q, rfl, hq⟩ := h
  exact ⟨q, rfl, hq⟩

theorem osLatch_of_eq (h : s.osFactor = s.osActive) : osLatch p s = s := if_pos h

theorem osLatch_of_ne (h : s.osFactor ≠ s.osActive) :
    osLatch p s = mapVoices (voiceSetSampleRate p (Fp.mul s.fsActive (osF32 s.osFactor)))
      (clearBuffers p { s with osActive := s.osFactor }) := by
  rcases osLatch_cases p s with ⟨heq, -⟩ | ⟨-, hlatch⟩
  · exact absurd heq h
  · exact hlatch

theorem srLatch_of_unchanged (h : s.srChanged = false) : srLatch p s = s := by
  rw [srLatch, h]
  rfl

theorem srLatch_of_changed (h : s.srChanged = true) :
    srLatch p s = mapVoices (voiceReset p (Fp.mul s.sampleRate (osF32 s.osActive)))
      (clearBuffers p { s with srChanged := false, fsActive := s.sampleRate }) := by
  rcases srLatch_cases p s with ⟨hkept, -⟩ | ⟨-, hlatch⟩
  · rw [hkept] at h
    cases h
  · exact hlatch

theorem sameHeld_osLatch_of_ne (hne : s.osFactor ≠ s.osActive) (h : SameButBuffers p s s') :
    SameHeld p (osLatch p s) (osLatch p s') := by
  obtain ⟨outq, hist, voices, rfl, hunits, hwf, hwf'⟩ := h
  rw [osLatch_of_ne hne, osLatch_of_ne (s := { s with outq := outq, hist := hist, voices := voices }) hne]
  exact sameHeld_mapVoices (sameVoice_voiceSetSampleRate _)
    (sameHeld_clearBuffers ⟨outq, hist, voices, rfl, hunits, { hwf with }, { hwf' with }⟩)

theorem sameHeld_srLatch_of_changed (hchanged : s.srChanged = true) (h : SameButBuffers p s s') :
    SameHeld p (srLatch p s) (srLatch p s') := by
  obtain ⟨outq, hist, voices, rfl, hunits, hwf, hwf'⟩ := h
  rw [srLatch_of_changed hchanged, srLatch_of_changed (s := { s with outq := outq, hist := hist, voices := voices }) hchanged]
  exact sameHeld_mapVoices (sameVoice_voiceReset _)
    (sameHeld_clearBuffers ⟨outq, hist, voices, rfl, hunits, { hwf with }, { hwf' with }⟩)

theorem sameHeld_srLatch (h : SameHeld p s s') : SameHeld p (srLatch p s) (srLatch p s') := by
  by_cases hchanged : s.srChanged = true
  · exact sameHeld_srLatch_of_changed hchanged h.sameButBuffers
  · have hkept : s.srChanged = false := Bool.eq_false_iff.mpr hchanged
    have hkept' : s'.srChanged = false := by
      obtain ⟨q, voices, rfl, -⟩ := h
      exact hkept
    rw [srLatch_of_unchanged hkept, srLatch_of_unchanged hkept']
    exact h

/-- If a factor or a rate is pending, one latch at least clears, and the other keeps what the states share. -/
theorem sameHeld_latches (hpending : s.osFactor ≠ s.osActive ∨ s.srChanged = true) (h : SameButBuffers p s s') :
    SameHeld p (srLatch p (osLatch p s)) (srLatch p (osLatch p s')) := by
  by_cases hos : s.osFactor = s.osActive
  · have hos' : s'.osFactor = s'.osActive := by
      obtain ⟨outq, hist, voices, rfl, -⟩ := h
      exact hos
    rw [osLatch_of_eq hos, osLatch_of_eq hos']
    exact sameHeld_srLatch_of_changed (hpending.resolve_left (absurd hos)) h
  · exact sameHeld_srLatch (sameHeld_osLatch_of_ne hos h)

theorem sameHeld_tick (hpending : s.osFactor ≠ s.osActive ∨ s.srChanged = true) (h : SameButBuffers p s s') :
    SameHeld p (tick p s) (tick p s') := by
  have hlatched := sameHeld_latches hpending h
  have hchannels : (srLatch p (osLatch p s')).channels = (srLatch p (osLatch p s)).channels := by
    obtain ⟨q, voices, heq, -⟩ := hlatched
    rw [heq]
  rw [tick, tick, hchannels]
  exact sameHeld_tickAudio _ hlatched

end latches

theorem exec_tick (s : State) : exec .tick s = .next (tick Config.build s) := rfl

/-- Settles O53: the latch leaves the two states with rings that hold the same, and the rest of the TICK keeps them so. -/
theorem freshAfterLatch : Obligations.FreshAfterLatch := fun s s' t t' hbuffers hunits hwf hwf' hpending ht ht' => by
  rw [exec_tick] at ht ht'
  cases ht
  cases ht'
  have hsame : SameHeld Config.build (tick Config.build s) (tick Config.build s') :=
    sameHeld_tick hpending ⟨s'.outq, s'.hist, s'.voices, hbuffers,
      funext fun v => Prod.ext (hunits v).1 (hunits v).2, hwf, hwf'⟩
  obtain ⟨hpri, haux, hflags, hcode, hhist⟩ := hsame.outputs_and_status
  have hvoice (v : VoiceIdx) := (hsame.voice v).units
  exact ⟨hpri, haux, hflags, hcode, hhist, fun v => ⟨(hvoice v).1, (hvoice v).2, (hsame.pmq v).contents⟩,
    hsame.outq.contents⟩

end Sys2Proof.Machine
end

section
/-! PROOFS. The engine (spec/46_engine.md R300 to R313): what NOP, RESET and CLEAR leave, and which registers an instruction other
than REG_WR keeps. -/

namespace Sys2Proof.Fp

/-- A zero increment leaves a lane at +0.0 where it starts, by its lane fraction (40_phasor.md R161). -/
theorem add_mul_posZero_laneFraction (i : LaneIdx) : add posZero (mul posZero (Lit.laneFraction i)) = posZero := by
  revert i
  decide

end Sys2Proof.Fp

namespace Sys2Proof.Machine

open Sys2Proof.Config (Params)

/-! ## NOP (R313) -/

/-- The only command of opcode 0x00 is NOP, and its word is 0 (30_encoding.md R135, R136). -/
theorem eq_zero_of_decodeCommand {w : Word} {i : Instr} (hopc : opcField w = 0) (h : decodeCommand w = .ok i) : w = 0 := by
  obtain ⟨-, -, hselect⟩ := decodeCommand_eq_ok h
  have hnop : i = .nop := by
    rw [selectCommand, hopc] at hselect
    exact eq_of_ok hselect
  have hword : carryCommand 0 = carryCommand w := by
    rw [← (encode_of_decodeCommand h).1, hnop]
    rfl
  exact (congrArg BusRequest.data hword).symm

/-- Settles O44: a word of opcode 0x00 that decodes is 0, so any other is CMD_ILL. -/
theorem nopResult : Obligations.NopResult := fun s => by
  refine ⟨rfl, rfl, rfl, fun w hopc hw => ?_⟩
  have hcmd : exec (.regWr 0x004 w) s = .next (writeCommand Config.build w s) := exec_regWr_cmd w s
  rcases writeCommand_cases Config.build w s with ⟨i, hi, -⟩ | ⟨-, hill⟩
  · exact absurd (eq_zero_of_decodeCommand hopc hi) hw
  · rw [hcmd, hill]
    rfl

/-! ## Registers that only the host writes (10_state.md R47 to R58, R73) -/

theorem hostRegs_of_keptByRender {s t : State} (h : keptByRender t = keptByRender s) : hostRegs t = hostRegs s :=
  congrArg Prod.fst h

/-- All that a TICK does not change, whatever it does: the host's registers, RES, and the model's own two fields. -/
def keptByTick (s : State) := (hostRegs s, s.res, s.inbox, s.readData)

theorem keptByTick_of_keptByRender {s t : State} (h : keptByRender t = keptByRender s) : keptByTick t = keptByTick s := by
  simp only [keptByRender, Prod.mk.injEq] at h
  obtain ⟨hregs, hres, hinbox, hread, -⟩ := h
  rw [keptByTick, hregs, hres, hinbox, hread, keptByTick]

theorem keptByTick_of_keptByLatch {s t : State} (h : keptByLatch t = keptByLatch s) : keptByTick t = keptByTick s := by
  simp only [keptByLatch, Prod.mk.injEq] at h
  obtain ⟨hregs, hres, hinbox, hread, -⟩ := h
  rw [keptByTick, hregs, hres, hinbox, hread, keptByTick]

theorem output_kept (p : Params) (n : Word) (s : State) : keptByTick (output p n s) = keptByTick s := by
  rcases output_cases p n s with ⟨-, h⟩ | ⟨-, h⟩ <;> rw [h] <;> rfl

theorem tickAudio_kept (p : Params) (n : Word) (s : State) : keptByTick (tickAudio p n s) = keptByTick s := by
  rw [tickAudio, output_kept]
  apply keptByTick_of_keptByRender
  split
  · rw [render_kept, pushExt_kept]
  · rw [pushExt_kept]

theorem tick_kept (p : Params) (s : State) : keptByTick (tick p s) = keptByTick s := by
  rw [tick, tickAudio_kept]
  exact keptByTick_of_keptByLatch ((srLatch_kept p _).trans (osLatch_kept p s))

theorem hostRegs_clearBuffers (p : Params) (s : State) : hostRegs (clearBuffers p s) = hostRegs s := by
  obtain ⟨voices, outq, hist, h⟩ := clearBuffers_frame p s
  rw [h]
  rfl

theorem hostRegs_mapVoices (f : Voice → Voice) (s : State) : hostRegs (mapVoices f s) = hostRegs s := by
  obtain ⟨voices, h⟩ := mapVoices_frame f s
  rw [h]
  rfl

theorem hostRegs_runCommand (p : Params) (i : Instr) (s : State) : hostRegs (runCommand p i s) = hostRegs s := by
  cases i with
  | tick => exact congrArg Prod.fst (tick_kept p s)
  | reset => exact (hostRegs_clearBuffers p _).trans (hostRegs_mapVoices _ s)
  | clear => exact hostRegs_clearBuffers p s
  | phSetsr v u => rw [runCommand, phSetsr]; split <;> rfl
  | smInit v u mode => rw [runCommand, smInit_eq]; split <;> rfl
  | rbPush v => exact hostRegs_of_keptByRender (pushPm_kept p v _ s)
  | rbPop v =>
    change hostRegs (popPmState p v s) = hostRegs s
    exact hostRegs_of_keptByRender (popPmState_kept p v s)
  | _ => rfl

theorem hostRegs_busRead (a : BitVec 12) (s : State) : hostRegs (busRead a s) = hostRegs s := by
  rcases busRead_cases a s with ⟨-, h⟩ | ⟨r, -, h⟩ <;> rw [h] <;> rfl

/-- Settles O23: an instruction other than REG_WR is a read or a command, and neither writes these registers. -/
theorem commandsKeepHostRegisters : Obligations.CommandsKeepHostRegisters := fun i s t hi hexec => by
  rcases exec_cases i s with ⟨a, w, hwr, -⟩ | ⟨a, -, hrun⟩ | hrun
  · exact absurd hwr (hi a w)
  · rw [hrun] at hexec
    cases hexec
    exact hostRegs_busRead a s
  · rw [hrun] at hexec
    cases hexec
    exact hostRegs_runCommand _ i s

/-! ## RESET and CLEAR (R309 to R312) -/

theorem mapVec_eq_map {α β : Type} {n : Nat} (f : α → β) (v : Vector α n) : mapVec f v = v.map f := by
  ext i hi
  simp [mapVec]

/-- At a rate above 0 a phasor reset leaves zeros and that rate, whatever the phasor was (R309). -/
theorem phasorReset_eq {fo : F32} (hfo : Fp.gt fo Fp.posZero = true) (P : Phasor) :
    phasorReset fo P = { lane := #v[0, 0, 0, 0], freq := 0, inc := 0, fs := fo } := by
  have hinc : Fp.div (Fp.mul Lit.freqDefault Fp.four) fo = 0 := by
    rw [show Fp.mul Lit.freqDefault Fp.four = Fp.posZero by decide]
    exact Fp.div_posZero hfo
  have hbase : basePhase (Vector.replicate 4 Fp.posZero)[0] = Fp.posZero := by decide
  have hlane (i : LaneIdx) : Fp.add Fp.posZero (Fp.mul 0 (Lit.laneFraction i)) = 0 := Fp.add_mul_posZero_laneFraction i
  simp only [phasorReset, phasorSetSampleRate, setFrequency, hinc, hbase, hlane, ofFn_lane]
  rfl

theorem exec_reset (s : State) : exec .reset s = .next (softReset Config.build s) := rfl

theorem getVoice_softReset (p : Params) (s : State) (v : VoiceIdx) :
    getVoice (softReset p s) v
      = { voiceReset p (unitRate s) (getVoice s v) with pmq := ringClear (getPmq s v) } := by
  rw [softReset, getVoice_clearBuffers, getVoice_mapVoices]
  rfl

theorem getPhasor_softReset (p : Params) (s : State) (v : VoiceIdx) (u : UnitIdx) :
    getPhasor (softReset p s) v u = phasorReset (unitRate s) (getPhasor s v u) := by
  rw [getPhasor, getVoice_softReset]
  exact mapVec_get _ _ u

theorem getSmoother_softReset (p : Params) (s : State) (v : VoiceIdx) (u : UnitIdx) :
    getSmoother (softReset p s) v u = smootherReset p (unitRate s) (getSmoother s v u) := by
  rw [getSmoother, getVoice_softReset]
  exact mapVec_get _ _ u

theorem getPmq_softReset (p : Params) (s : State) (v : VoiceIdx) :
    getPmq (softReset p s) v = ringClear (getPmq s v) := by
  rw [getPmq, getVoice_softReset]

/-- Settles O45: RESET resets every voice and clears, CLEAR clears. -/
theorem resetAndClearResult : Obligations.ResetAndClearResult := fun s => by
  intro fo zeros
  refine ⟨fun hfo => ⟨softReset Config.build s, exec_reset s, rfl, fun v u => ⟨?_, ?_⟩, fun v => ?_, rfl, rfl⟩, ?_⟩
  · rw [getPhasor_softReset]
    exact phasorReset_eq hfo _
  · rw [getSmoother_softReset]
    rfl
  · rw [getPmq_softReset]
    exact ⟨rfl, rfl⟩
  · show Host.Outcome.next (clearBuffers Config.build s) = _
    rw [clearBuffers, mapVec_eq_map]
    rfl

end Sys2Proof.Machine
end

section
/-! PROOFS. The parts of a TICK, one element at a time (spec/46_engine.md R304 to R306; spec/44_ring_buffer.md R261 to R263): the
rings, the events, the units and the frames after the pushes, after the render and after the conversion, each as a function of
what the part found. -/

namespace Sys2Proof.Machine

open Sys2Proof.Config (Params)

/-! ## One external-PM ring (44_ring_buffer.md R261 to R263) -/

/-- The ring after a push: a full ring drops the sample. -/
def pushRing (p : Params) (x : F32) (q : Machine.Ring F32) : Machine.Ring F32 :=
  if q.n = Units.capPm p then q else ringPush Fp.posZero (Units.capPm p) q x

/-- The ring after a pop: an empty ring stays. -/
def popRing (p : Params) (q : Machine.Ring F32) : Machine.Ring F32 := if q.n = 0 then q else ringDrop (Units.capPm p) q

/-- The sample a pop answers. -/
def poppedSample (q : Machine.Ring F32) : F32 := if q.n = 0 then Fp.posZero else ringFront Fp.posZero q

/-- The samples that `k` pops answer. -/
def poppedSamples (p : Params) : Nat → Machine.Ring F32 → List F32
  | 0, _ => []
  | k + 1, q => poppedSample q :: poppedSamples p k (popRing p q)

section ring

variable {p : Params} {x : F32} {q : Machine.Ring F32}

theorem pushRing_of_full (h : q.n = Units.capPm p) : pushRing p x q = q := if_pos h

theorem pushRing_of_room (h : q.n ≠ Units.capPm p) : pushRing p x q = ringPush Fp.posZero (Units.capPm p) q x := if_neg h

theorem popRing_of_empty (h : q.n = 0) : popRing p q = q := if_pos h

theorem popRing_of_ne (h : q.n ≠ 0) : popRing p q = ringDrop (Units.capPm p) q := if_neg h

theorem n_pushRing_iterate (hn : q.n ≤ Units.capPm p) (k : Nat) :
    ((pushRing p x)^[k] q).n = min (q.n + k) (Units.capPm p) := by
  induction k generalizing q with
  | zero => exact (Nat.min_eq_left hn).symm
  | succ k ih =>
    rw [Function.iterate_succ_apply]
    by_cases hfull : q.n = Units.capPm p
    · rw [pushRing_of_full hfull, ih hn]
      omega
    · rw [pushRing_of_room hfull, ih (by rw [ringPush_n]; omega), ringPush_n]
      omega

theorem n_popRing_iterate (p : Params) (q : Machine.Ring F32) (k : Nat) : ((popRing p)^[k] q).n = q.n - k := by
  induction k generalizing q with
  | zero => rfl
  | succ k ih =>
    rw [Function.iterate_succ_apply, ih]
    by_cases hempty : q.n = 0
    · rw [popRing_of_empty hempty]
      omega
    · rw [popRing_of_ne hempty, ringDrop_n]
      omega

theorem length_ringContents {α : Type} (d : α) (cap : Nat) (q : Machine.Ring α) : (ringContents d cap q).length = q.n := by
  simp [ringContents]

theorem take_take_append {α : Type} (l m : List α) (n : Nat) : (l.take n ++ m).take n = (l ++ m).take n := by
  rcases Nat.le_total l.length n with h | h
  · rw [List.take_of_length_le h]
  · rw [List.take_append_of_le_length (by rw [List.length_take]; omega), List.take_take, Nat.min_self,
      List.take_append_of_le_length h]

/-- A push joins the young end, and what does not fit is dropped. -/
theorem pushRing_contents (h : RingWf Fp.posZero (Units.capPm p) q) (x : F32) :
    RingWf Fp.posZero (Units.capPm p) (pushRing p x q)
    ∧ ringContents Fp.posZero (Units.capPm p) (pushRing p x q)
      = (ringContents Fp.posZero (Units.capPm p) q ++ [x]).take (Units.capPm p) := by
  have hlen := length_ringContents Fp.posZero (Units.capPm p) q
  by_cases hfull : q.n = Units.capPm p
  · rw [pushRing_of_full hfull]
    exact ⟨h, (List.take_left' (hlen.trans hfull)).symm⟩
  · have hroom : q.n < Units.capPm p := Nat.lt_of_le_of_ne h.n hfull
    rw [pushRing_of_room hfull, ringContents_push h hroom, List.take_of_length_le (by simpa [hlen] using hroom)]
    exact ⟨ringWf_push h hroom x, rfl⟩

theorem pushRing_iterate_contents (h : RingWf Fp.posZero (Units.capPm p) q) (x : F32) (k : Nat) :
    RingWf Fp.posZero (Units.capPm p) ((pushRing p x)^[k] q)
    ∧ ringContents Fp.posZero (Units.capPm p) ((pushRing p x)^[k] q)
      = (ringContents Fp.posZero (Units.capPm p) q ++ List.replicate k x).take (Units.capPm p) := by
  induction k generalizing q with
  | zero =>
    have hlen := length_ringContents Fp.posZero (Units.capPm p) q
    rw [List.replicate_zero, List.append_nil, List.take_of_length_le (hlen.trans_le h.n)]
    exact ⟨h, rfl⟩
  | succ k ih =>
    obtain ⟨hwf, hcontents⟩ := pushRing_contents h x
    obtain ⟨hwf', hcontents'⟩ := ih hwf
    rw [hcontents, take_take_append, List.append_assoc] at hcontents'
    exact ⟨hwf', hcontents'⟩

/-- A pop takes the oldest sample. -/
theorem popRing_contents (h : RingWf Fp.posZero (Units.capPm p) q) :
    RingWf Fp.posZero (Units.capPm p) (popRing p q)
    ∧ ringContents Fp.posZero (Units.capPm p) (popRing p q) = (ringContents Fp.posZero (Units.capPm p) q).drop 1
    ∧ poppedSample q = (ringContents Fp.posZero (Units.capPm p) q).headD Fp.posZero := by
  by_cases hempty : q.n = 0
  · rw [popRing_of_empty hempty, ringContents_of_empty _ _ hempty, poppedSample, if_pos hempty]
    exact ⟨h, rfl, rfl⟩
  · rw [popRing_of_ne hempty, ringContents_eq_front_cons_drop h hempty, poppedSample, if_neg hempty]
    exact ⟨ringWf_drop h, rfl, rfl⟩

/-- Pops take the oldest samples in order; from the empty ring they answer +0.0. -/
theorem popRing_iterate_contents (h : RingWf Fp.posZero (Units.capPm p) q) (k : Nat) :
    ringContents Fp.posZero (Units.capPm p) ((popRing p)^[k] q) = (ringContents Fp.posZero (Units.capPm p) q).drop k
    ∧ poppedSamples p k q = (ringContents Fp.posZero (Units.capPm p) q).take k
        ++ List.replicate (k - (ringContents Fp.posZero (Units.capPm p) q).length) Fp.posZero := by
  induction k generalizing q with
  | zero => simp [poppedSamples]
  | succ k ih =>
    obtain ⟨hwf, hcontents, hsample⟩ := popRing_contents h
    obtain ⟨hleft, hsamples⟩ := ih hwf
    rw [hcontents] at hleft hsamples
    rw [Function.iterate_succ_apply, hleft, poppedSamples, hsamples, hsample]
    cases ringContents Fp.posZero (Units.capPm p) q <;> simp [List.replicate_succ]

end ring

/-! ## The events of STATUS (60_exceptions.md R341) -/

/-- The sticky bits and LAST_CODE. -/
def statusBits (s : State) : BitVec 8 × BitVec 4 := (s.flags, s.lastCode)

/-- STATUS after event `e`, where it occurs. -/
def recorded (e : Event) (occurs : Bool) (x : BitVec 8 × BitVec 4) : BitVec 8 × BitVec 4 :=
  if occurs then (x.1 ||| eventBit e, eventCode e) else x

theorem statusBits_raise (e : Event) (s : State) : statusBits (raise e s) = recorded e true (statusBits s) := rfl

@[simp] theorem recorded_false (e : Event) (x : BitVec 8 × BitVec 4) : recorded e false x = x := rfl

/-- An event recorded twice is recorded once. -/
theorem recorded_recorded (e : Event) (b c : Bool) (x : BitVec 8 × BitVec 4) :
    recorded e b (recorded e c x) = recorded e (c || b) x := by
  cases b <;> cases c <;> simp [recorded, BitVec.or_assoc]

/-! ## Several pushes to and pops from the ring of one voice -/

section oneVoice

variable (p : Params) (v : VoiceIdx) (x : F32)

theorem getPmq_pushPm (s : State) (w : VoiceIdx) :
    getPmq (pushPm p v x s) w = if w = v then pushRing p x (getPmq s v) else getPmq s w := by
  rcases pushPm_cases p v x s with ⟨hfull, h⟩ | ⟨hroom, h⟩ <;> rw [h]
  · rw [pushRing_of_full hfull, getPmq_raise]
    split
    · next hw => rw [hw]
    · rfl
  · rw [pushRing_of_room hroom, getPmq_setPmq]

theorem getPmq_pushPmTimes (k : Nat) (s : State) (w : VoiceIdx) :
    getPmq (pushPmTimes p v x k s) w = if w = v then (pushRing p x)^[k] (getPmq s v) else getPmq s w := by
  induction k generalizing s with
  | zero =>
    rw [pushPmTimes]
    split
    · next hw => rw [hw]; rfl
    · rfl
  | succ k ih =>
    rw [pushPmTimes, ih, getPmq_pushPm, getPmq_pushPm, if_pos rfl, Function.iterate_succ_apply]
    split <;> rfl

theorem getPmq_popPmState (s : State) (w : VoiceIdx) :
    getPmq (popPmState p v s) w = if w = v then popRing p (getPmq s v) else getPmq s w := by
  rcases popPm_cases p v s with ⟨hempty, -, h⟩ | ⟨hsome, -, h⟩ <;> rw [h]
  · rw [popRing_of_empty hempty, getPmq_raise]
    split
    · next hw => rw [hw]
    · rfl
  · rw [popRing_of_ne hsome, getPmq_setPmq]

theorem getPmq_popBlockPm (k : Nat) (s : State) (w : VoiceIdx) :
    getPmq (popBlockPm p v k s).2 w = if w = v then (popRing p)^[k] (getPmq s v) else getPmq s w := by
  induction k generalizing s with
  | zero =>
    rw [popBlockPm_zero]
    split
    · next hw => rw [hw]; rfl
    · rfl
  | succ k ih =>
    rw [popBlockPm_succ, ih, getPmq_popPmState, getPmq_popPmState, if_pos rfl, Function.iterate_succ_apply]
    split <;> rfl

/-- The samples a voice pops depend on its ring only. -/
theorem popBlockPm_samples (k : Nat) (s : State) : (popBlockPm p v k s).1 = poppedSamples p k (getPmq s v) := by
  induction k generalizing s with
  | zero => rfl
  | succ k ih =>
    rw [popBlockPm_succ, ih, getPmq_popPmState, if_pos rfl]
    rfl

/-- Pushing `k` samples overflows a ring that is not overfull and has no room for them. -/
def overflows (k : Nat) (q : Machine.Ring F32) : Bool := decide (q.n ≤ Units.capPm p ∧ Units.capPm p < q.n + k)

theorem statusBits_pushPmTimes (k : Nat) (s : State) :
    statusBits (pushPmTimes p v x k s) = recorded .pmOvf (overflows p k (getPmq s v)) (statusBits s) := by
  induction k generalizing s with
  | zero =>
    have hno : overflows p 0 (getPmq s v) = false := by
      rw [overflows, decide_eq_false_iff_not]
      omega
    rw [hno, recorded_false, pushPmTimes]
  | succ k ih =>
    rw [pushPmTimes, ih]
    rcases pushPm_cases p v x s with ⟨hfull, h⟩ | ⟨hroom, h⟩ <;> rw [h]
    · have hover : overflows p (k + 1) (getPmq s v) = true := by
        rw [overflows, decide_eq_true_eq]
        omega
      rw [statusBits_raise, recorded_recorded, Bool.true_or, hover]
    · have hover : overflows p k (ringPush Fp.posZero (Units.capPm p) (getPmq s v) x) = overflows p (k + 1) (getPmq s v) := by
        rw [overflows, overflows, decide_eq_decide, ringPush_n]
        omega
      rw [getPmq_setPmq_same, hover]
      rfl

theorem statusBits_popBlockPm (k : Nat) (s : State) :
    statusBits (popBlockPm p v k s).2 = recorded .pmUnf (decide ((getPmq s v).n < k)) (statusBits s) := by
  induction k generalizing s with
  | zero => rw [decide_eq_false (Nat.not_lt_zero _), recorded_false, popBlockPm_zero]
  | succ k ih =>
    rw [popBlockPm_succ, ih]
    rcases popPm_cases p v s with ⟨hempty, -, h⟩ | ⟨hsome, -, h⟩ <;> rw [h]
    · rw [statusBits_raise, recorded_recorded, Bool.true_or, decide_eq_true (by omega)]
    · have hunder : decide ((ringDrop (Units.capPm p) (getPmq s v)).n < k) = decide ((getPmq s v).n < k + 1) := by
        rw [decide_eq_decide, ringDrop_n]
        omega
      rw [getPmq_setPmq_same, hunder]
      rfl

end oneVoice

/-! ## The active voices (R304) -/

theorem activeVoices_eq_take (n : Nat) : activeVoices n = (List.finRange 16).take n := by
  rcases Nat.lt_or_ge n 16 with h | h
  · interval_cases n <;> rfl
  · rw [List.take_of_length_le (by rw [List.length_finRange]; exact h), activeVoices, List.filter_eq_self]
    exact fun v _ => decide_eq_true (v.isLt.trans_le h)

theorem mem_activeVoices {n : Nat} {v : VoiceIdx} : v ∈ activeVoices n ↔ v.val < n := by
  simp [activeVoices]

theorem activeVoices_nodup (n : Nat) : (activeVoices n).Nodup := (List.nodup_finRange 16).filter _

/-- Voice `k` is the `k`-th active voice, where it is active. -/
theorem getElem?_activeVoices (n : Nat) (v : VoiceIdx) :
    (activeVoices n)[v.val]? = if v.val < n then some v else none := by
  rw [activeVoices_eq_take, List.getElem?_take]
  simp

theorem any_congr_of_mem {α : Type} {l : List α} {f g : α → Bool} (h : ∀ a ∈ l, f a = g a) : l.any f = l.any g := by
  rw [Bool.eq_iff_iff, List.any_eq_true, List.any_eq_true]
  exact exists_congr fun a => and_congr_right fun ha => by rw [h a ha]

theorem any_activeVoices (n : Nat) (f : VoiceIdx → Bool) :
    (activeVoices n).any f = decide (∃ v : VoiceIdx, v.val < n ∧ f v = true) := by
  rw [Bool.eq_iff_iff, List.any_eq_true, decide_eq_true_eq]
  simp only [mem_activeVoices]

/-! ## The pushes of all active voices (R305) -/

/-- What no push and no pop changes of the buffers: the output ring and the filter history. -/
def keptByRings (s : State) := (s.outq, s.hist)

theorem keptByRings_pushPm (p : Params) (v : VoiceIdx) (x : F32) (s : State) :
    keptByRings (pushPm p v x s) = keptByRings s := by
  rcases pushPm_cases p v x s with ⟨-, h⟩ | ⟨-, h⟩ <;> rw [h] <;> rfl

theorem keptByRings_pushPmTimes (p : Params) (v : VoiceIdx) (x : F32) (k : Nat) (s : State) :
    keptByRings (pushPmTimes p v x k s) = keptByRings s := by
  induction k generalizing s with
  | zero => rfl
  | succ k ih => rw [pushPmTimes, ih, keptByRings_pushPm]

theorem keptByRings_pushExt (p : Params) (n : Nat) (s : State) : keptByRings (pushExt p n s) = keptByRings s := by
  unfold pushExt
  induction activeVoices n generalizing s with
  | nil => rfl
  | cons v vs ih => rw [List.foldl_cons, ih, pushExtVoice, keptByRings_pushPmTimes]

theorem keptByRings_popBlockPm (p : Params) (v : VoiceIdx) (k : Nat) (s : State) :
    keptByRings (popBlockPm p v k s).2 = keptByRings s := by
  induction k generalizing s with
  | zero => rfl
  | succ k ih =>
    rw [popBlockPm_succ, ih]
    rcases popPm_cases p v s with ⟨-, -, h⟩ | ⟨-, -, h⟩ <;> rw [h] <;> rfl

/-- The registers that a TICK reads are the host's. -/
theorem regs_of_hostRegs {s t : State} (h : hostRegs t = hostRegs s) :
    patchOf t = patchOf s ∧ t.freq = s.freq ∧ t.extPm = s.extPm ∧ t.channels = s.channels := by
  simp only [hostRegs, Prod.mk.injEq] at h
  obtain ⟨-, -, hchannels, halg1, halg2, hrouting, hwindow, haux, hratio, hamt1, hamt2, hdepth, hfreq, hext, -⟩ := h
  exact ⟨by simp only [patchOf, halg1, halg2, hrouting, hwindow, haux, hratio, hamt1, hamt2, hdepth], hfreq, hext, hchannels⟩

/-- What the pushes and the render read is no part of what they change. -/
theorem regs_of_keptByRender {s t : State} (h : keptByRender t = keptByRender s) :
    patchOf t = patchOf s ∧ t.freq = s.freq ∧ t.extPm = s.extPm ∧ t.osActive = s.osActive := by
  obtain ⟨hpatch, hfreq, hext, -⟩ := regs_of_hostRegs (hostRegs_of_keptByRender h)
  simp only [keptByRender, Prod.mk.injEq] at h
  obtain ⟨-, -, -, -, -, hos, -⟩ := h
  exact ⟨hpatch, hfreq, hext, hos⟩

/-- The ring of voice `v` after the pushes of a TICK. -/
def ringAfterPush (p : Params) (s : State) (v : VoiceIdx) : Machine.Ring F32 :=
  (pushRing p s.extPm[v])^[Lit.osNat s.osActive] (getPmq s v)

theorem ringAfterPush_congr {p : Params} {s t : State} {v : VoiceIdx} (hkept : keptByRender t = keptByRender s)
    (hring : getPmq t v = getPmq s v) : ringAfterPush p t v = ringAfterPush p s v := by
  obtain ⟨-, -, hext, hos⟩ := regs_of_keptByRender hkept
  rw [ringAfterPush, hext, hos, hring, ringAfterPush]

theorem pushExtVoice_kept (p : Params) (s : State) (v : VoiceIdx) : keptByRender (pushExtVoice p s v) = keptByRender s :=
  pushPmTimes_kept ..

theorem getPmq_pushExtVoice (p : Params) (s : State) (v w : VoiceIdx) :
    getPmq (pushExtVoice p s v) w = if w = v then ringAfterPush p s v else getPmq s w :=
  getPmq_pushPmTimes p v _ _ s w

theorem getPmq_foldl_pushExtVoice (p : Params) {vs : List VoiceIdx} (hvs : vs.Nodup) (s : State) (w : VoiceIdx) :
    getPmq (vs.foldl (pushExtVoice p) s) w = if w ∈ vs then ringAfterPush p s w else getPmq s w := by
  induction vs generalizing s with
  | nil => simp
  | cons v vs ih =>
    obtain ⟨hv, hvs⟩ := List.nodup_cons.mp hvs
    rw [List.foldl_cons, ih hvs]
    by_cases hwv : w = v
    · subst hwv
      rw [if_neg hv, if_pos List.mem_cons_self, getPmq_pushExtVoice, if_pos rfl]
    · have hring : getPmq (pushExtVoice p s v) w = getPmq s w := by rw [getPmq_pushExtVoice, if_neg hwv]
      rw [ringAfterPush_congr (pushExtVoice_kept p s v) hring, hring]
      simp only [List.mem_cons, hwv, false_or]

theorem getPmq_pushExt (p : Params) (n : Nat) (s : State) (v : VoiceIdx) :
    getPmq (pushExt p n s) v = if v.val < n then ringAfterPush p s v else getPmq s v := by
  rw [pushExt, getPmq_foldl_pushExtVoice p (activeVoices_nodup n)]
  simp only [mem_activeVoices]

theorem statusBits_pushExtVoice (p : Params) (s : State) (v : VoiceIdx) :
    statusBits (pushExtVoice p s v) = recorded .pmOvf (overflows p (Lit.osNat s.osActive) (getPmq s v)) (statusBits s) :=
  statusBits_pushPmTimes p v _ _ s

theorem statusBits_foldl_pushExtVoice (p : Params) {vs : List VoiceIdx} (hvs : vs.Nodup) (s : State) :
    statusBits (vs.foldl (pushExtVoice p) s)
      = recorded .pmOvf (vs.any fun v => overflows p (Lit.osNat s.osActive) (getPmq s v)) (statusBits s) := by
  induction vs generalizing s with
  | nil => rfl
  | cons v vs ih =>
    obtain ⟨hv, hvs⟩ := List.nodup_cons.mp hvs
    obtain ⟨-, -, -, hos⟩ := regs_of_keptByRender (pushExtVoice_kept p s v)
    have hrest : (vs.any fun w => overflows p (Lit.osNat s.osActive) (getPmq (pushExtVoice p s v) w))
        = vs.any fun w => overflows p (Lit.osNat s.osActive) (getPmq s w) :=
      any_congr_of_mem fun w hw => by rw [getPmq_pushExtVoice, if_neg (ne_of_mem_of_not_mem hw hv)]
    rw [List.foldl_cons, ih hvs, hos, hrest, statusBits_pushExtVoice, recorded_recorded, List.any_cons]

theorem statusBits_pushExt (p : Params) (n : Nat) (s : State) :
    statusBits (pushExt p n s) = recorded .pmOvf
      (decide (∃ v : VoiceIdx, v.val < n ∧ overflows p (Lit.osNat s.osActive) (getPmq s v) = true)) (statusBits s) := by
  rw [pushExt, statusBits_foldl_pushExtVoice p (activeVoices_nodup n), any_activeVoices]

end Sys2Proof.Machine
end

section
/-! PROOFS. The render of a TICK (spec/46_engine.md R306, R307; spec/45_decimation_src.md R281 to R286): the block of each active
voice, the frames it becomes after the conversion, and what the output makes of them. -/

namespace Sys2Proof.Machine

open Sys2Proof.Config (Params)

/-! ## The block of one voice (43_pdo_block.md R239) -/

/-- The samples of the block of a voice, and its phasors and smoothers after it, when its external input is what pops from
ring `q` answer. -/
def voiceBlock (p : Params) (P : Patch) (f : F32) (n : Nat) (q : Machine.Ring F32) (vo : Voice) :
    List (F32 × F32) × Vector Phasor 3 × Vector Smoother 3 :=
  let b := pdoBlock p P f (poppedSamples p n q) n vo
  (b.1, b.2.ph, b.2.sm)

/-- A block depends on the units of the voice, not on its ring. -/
theorem pdoBlock_congr (p : Params) (P : Patch) (f : F32) (ext : List F32) (n : Nat) {vo vo' : Voice}
    (h : (vo'.ph, vo'.sm) = (vo.ph, vo.sm)) :
    (pdoBlock p P f ext n vo').1 = (pdoBlock p P f ext n vo).1
    ∧ (pdoBlock p P f ext n vo').2.ph = (pdoBlock p P f ext n vo).2.ph
    ∧ (pdoBlock p P f ext n vo').2.sm = (pdoBlock p P f ext n vo).2.sm := by
  obtain ⟨hph, hsm⟩ := Prod.mk.inj h
  have hvo : vo' = { vo with pmq := vo'.pmq } := by rw [← hph, ← hsm]
  rw [hvo]
  simp only [pdoBlock, groupSteps_eq]
  exact ⟨rfl, rfl, rfl⟩

theorem voiceBlock_congr (p : Params) (P : Patch) (f : F32) (n : Nat) (q : Machine.Ring F32) {s t : State} {v : VoiceIdx}
    (h : unitsOf t v = unitsOf s v) :
    voiceBlock p P f n q (getVoice t v) = voiceBlock p P f n q (getVoice s v) := by
  obtain ⟨hout, hph, hsm⟩ := pdoBlock_congr p P f (poppedSamples p n q) n h
  simp only [voiceBlock, hout, hph, hsm]

theorem length_pdoBlock (p : Params) (P : Patch) (f : F32) (ext : List F32) {n : Nat} (hn : 4 ∣ n) (vo : Voice) :
    (pdoBlock p P f ext n vo).1.length = n := by
  rw [pdoBlock, groupSteps_eq, List.length_map, List.length_range]
  exact Nat.mul_div_cancel' hn

theorem four_dvd_blockLen (p : Params) (s : State) : 4 ∣ blockLen p s :=
  Dvd.dvd.mul_right (Nat.dvd_mul_right 4 _) _

/-! ## The render of the active voices (R306) -/

section voices

variable (p : Params) (P : Patch) (n : Nat)

/-- The block of voice `v` from its own ring. -/
def ownBlock (s : State) (v : VoiceIdx) : List (F32 × F32) × Vector Phasor 3 × Vector Smoother 3 :=
  voiceBlock p P s.freq[v] n (getPmq s v) (getVoice s v)

theorem ownBlock_congr {s t : State} {v : VoiceIdx} (hkept : keptByRender t = keptByRender s)
    (hring : getPmq t v = getPmq s v) (hunits : unitsOf t v = unitsOf s v) : ownBlock p P n t v = ownBlock p P n s v := by
  obtain ⟨-, hfreq, -⟩ := regs_of_keptByRender hkept
  rw [ownBlock, hring, hfreq, voiceBlock_congr p P _ n _ hunits, ownBlock]

/-- The render of a voice is its block, the rest of its ring, and its block's units. -/
theorem renderVoice_eq (v : VoiceIdx) (s : State) :
    (renderVoice p P n v s).1 = (ownBlock p P n s v).1
    ∧ (∀ w, unitsOf (renderVoice p P n v s).2 w = if w = v then (ownBlock p P n s v).2 else unitsOf s w)
    ∧ ∀ w, getPmq (renderVoice p P n v s).2 w = if w = v then (popRing p)^[n] (getPmq s v) else getPmq s w := by
  have hunits := congrFun (unitsOf_popBlockPm p v n s) v
  obtain ⟨hout, hph, hsm⟩ := pdoBlock_congr p P s.freq[v] (poppedSamples p n (getPmq s v)) n hunits
  simp only [renderVoice, popBlockPm_samples]
  refine ⟨hout, fun w => ?_, fun w => ?_⟩
  · rw [unitsOf, getVoice_setVoice]
    split
    · rw [hph, hsm]
      rfl
    · exact congrFun (unitsOf_popBlockPm p v n s) w
  · rw [getPmq, getVoice_setVoice]
    split
    · rw [pdoBlock_pmq]
      exact (getPmq_popBlockPm p v n s v).trans (if_pos rfl)
    · next hw => exact (getPmq_popBlockPm p v n s w).trans (if_neg hw)

theorem statusBits_renderVoice (v : VoiceIdx) (s : State) :
    statusBits (renderVoice p P n v s).2 = recorded .pmUnf (decide ((getPmq s v).n < n)) (statusBits s) :=
  statusBits_popBlockPm p v n s

theorem keptByRings_renderVoice (v : VoiceIdx) (s : State) : keptByRings (renderVoice p P n v s).2 = keptByRings s :=
  keptByRings_popBlockPm p v n s

/-- A voice does not see the render of another. -/
theorem renderVoice_other {v w : VoiceIdx} (h : w ≠ v) (s : State) :
    unitsOf (renderVoice p P n v s).2 w = unitsOf s w ∧ getPmq (renderVoice p P n v s).2 w = getPmq s w
    ∧ ownBlock p P n (renderVoice p P n v s).2 w = ownBlock p P n s w := by
  obtain ⟨-, hunits, hring⟩ := renderVoice_eq p P n v s
  have hunits' := (hunits w).trans (if_neg h)
  have hring' := (hring w).trans (if_neg h)
  exact ⟨hunits', hring', ownBlock_congr p P n (renderVoice_kept p P n v s) hring' hunits'⟩

/-- The render of several voices is the block of each from its own state. -/
theorem renderVoices_eq {vs : List VoiceIdx} (hvs : vs.Nodup) (s : State) :
    (renderVoices p P n vs s).1 = vs.map (fun v => (ownBlock p P n s v).1)
    ∧ (∀ w, unitsOf (renderVoices p P n vs s).2 w = if w ∈ vs then (ownBlock p P n s w).2 else unitsOf s w)
    ∧ ∀ w, getPmq (renderVoices p P n vs s).2 w = if w ∈ vs then (popRing p)^[n] (getPmq s w) else getPmq s w := by
  induction vs generalizing s with
  | nil => simp [renderVoices]
  | cons v vs ih =>
    obtain ⟨hv, hvs⟩ := List.nodup_cons.mp hvs
    obtain ⟨hfirst, hunits, hring⟩ := renderVoice_eq p P n v s
    obtain ⟨hrest, hunitsRest, hringRest⟩ := ih hvs (renderVoice p P n v s).2
    refine ⟨?_, fun w => ?_, fun w => ?_⟩
    · rw [renderVoices, List.map_cons, hfirst, hrest]
      refine congrArg (List.cons _) (List.map_congr_left fun w hw => ?_)
      rw [(renderVoice_other p P n (ne_of_mem_of_not_mem hw hv) s).2.2]
    · refine (hunitsRest w).trans ?_
      by_cases hwv : w = v
      · subst hwv
        rw [if_neg hv, if_pos List.mem_cons_self, hunits, if_pos rfl]
      · obtain ⟨hsame, -, hblock⟩ := renderVoice_other p P n hwv s
        simp only [hsame, hblock, List.mem_cons, hwv, false_or]
    · refine (hringRest w).trans ?_
      by_cases hwv : w = v
      · subst hwv
        rw [if_neg hv, if_pos List.mem_cons_self, hring, if_pos rfl]
      · obtain ⟨-, hsame, -⟩ := renderVoice_other p P n hwv s
        simp only [hsame, List.mem_cons, hwv, false_or]

theorem statusBits_renderVoices {vs : List VoiceIdx} (hvs : vs.Nodup) (s : State) :
    statusBits (renderVoices p P n vs s).2
      = recorded .pmUnf (vs.any fun v => decide ((getPmq s v).n < n)) (statusBits s) := by
  induction vs generalizing s with
  | nil => rfl
  | cons v vs ih =>
    obtain ⟨hv, hvs⟩ := List.nodup_cons.mp hvs
    have hrest : (vs.any fun w => decide ((getPmq (renderVoice p P n v s).2 w).n < n))
        = vs.any fun w => decide ((getPmq s w).n < n) :=
      any_congr_of_mem fun w hw => by
        obtain ⟨-, hsame, -⟩ := renderVoice_other p P n (ne_of_mem_of_not_mem hw hv) s
        rw [hsame]
    calc statusBits (renderVoices p P n (v :: vs) s).2
        = statusBits (renderVoices p P n vs (renderVoice p P n v s).2).2 := rfl
      _ = _ := by rw [ih hvs, hrest, statusBits_renderVoice, recorded_recorded, List.any_cons]

theorem keptByRings_renderVoices (vs : List VoiceIdx) (s : State) :
    keptByRings (renderVoices p P n vs s).2 = keptByRings s := by
  induction vs generalizing s with
  | nil => rfl
  | cons v vs ih =>
    exact (ih (renderVoice p P n v s).2).trans (keptByRings_renderVoice p P n v s)

end voices

/-! ## The frames of a block (R306) -/

theorem map_getD_range {α : Type} {l : List α} {n : Nat} (h : l.length = n) (d : α) :
    (List.range n).map (fun k => l.getD k d) = l := by
  subst h
  exact List.ext_getElem (by simp) fun k _ hk => by simp [List.getElem?_eq_getElem hk]

/-- Channel `c` of the block of frames is one output of voice `c / 2`, where that voice was rendered. -/
theorem channelOf_blockFrames {blocks : List (List (F32 × F32))} {b : List (F32 × F32)} {n : Nat} {c : Fin 32}
    (hb : blocks[c.val / 2]? = some b) (hlen : b.length = n) :
    channelOf ((List.range n).map (blockFrame blocks)) c = b.map (if c.val % 2 = 0 then Prod.fst else Prod.snd) := by
  have hgetD : blocks.getD (c.val / 2) [] = b := by rw [List.getD_eq_getElem?_getD, hb]; rfl
  conv_rhs => rw [← map_getD_range hlen (Fp.posZero, Fp.posZero), List.map_map]
  rw [channelOf, List.map_map]
  refine List.map_congr_left fun k _ => ?_
  simp only [Function.comp_apply, blockFrame, Fin.getElem_fin, Vector.getElem_ofFn, hgetD]
  split <;> rfl

/-- The channels of a voice that was not rendered are +0.0. -/
theorem channelOf_blockFrames_of_none {blocks : List (List (F32 × F32))} {c : Fin 32} (n : Nat)
    (hb : blocks[c.val / 2]? = none) :
    channelOf ((List.range n).map (blockFrame blocks)) c = List.replicate n Fp.posZero := by
  rw [channelOf, List.map_map, List.eq_replicate_iff]
  refine ⟨by simp, fun x hx => ?_⟩
  obtain ⟨k, -, rfl⟩ := List.mem_map.mp hx
  simp [blockFrame, hb]

/-! ## The conversion of a block (45_decimation_src.md R281, R285) -/

section conversion

variable (p : Params) (m : OsFactor)

/-- Sample `q` of a channel after the conversion of block `x` after history `hist`. -/
def convertedSample (hist x : List F32) (q : Nat) : F32 :=
  if m = .x1 then x.getD q Fp.posZero else firOutput (Units.taps p m) (hist ++ x) (Lit.osNat m) q

/-- The history of a channel after the conversion of block `x` after history `hist`. -/
def convertedHist (hist x : List F32) : List F32 := if m = .x1 then hist else decimateHist (Units.taps p m) hist x

/-- `Y` is what the conversion makes of `X` after the histories `hist`. -/
structure IsConverted (hist : Vector (List F32) 32) (X Y : List Frame) : Prop where
  length : Y.length = Units.blockSize p
  channel : ∀ c : Fin 32, channelOf Y c
    = (List.range (Units.blockSize p)).map (convertedSample p m hist[c] (channelOf X c))

theorem length_framesOf (Y : Vector (List F32) 32) (b : Nat) : (framesOf Y b).length = b := by simp [framesOf]

theorem channelOf_framesOf (Y : Vector (List F32) 32) (b : Nat) (c : Fin 32) :
    channelOf (framesOf Y b) c = (List.range b).map fun q => Y[c].getD q Fp.posZero := by
  simp [channelOf, framesOf, Function.comp_def]

theorem length_channelOf (X : List Frame) (c : Fin 32) : (channelOf X c).length = X.length := List.length_map _

theorem length_decimateOut (h : List F32) (k b : Nat) (hist x : List F32) : (decimateOut h k b hist x).length = b := by
  simp [decimateOut]

theorem isConverted_x1 (hist : Vector (List F32) 32) {X : List Frame} (hX : X.length = Units.blockSize p) :
    IsConverted p .x1 hist X X where
  length := hX
  channel c := (map_getD_range ((length_channelOf X c).trans hX) Fp.posZero).symm

theorem isConverted_filteredFrames (X : List Frame) {s : State} (hos : s.osActive ≠ .x1) :
    IsConverted p s.osActive s.hist X (filteredFrames p X s) where
  length := length_framesOf _ _
  channel c := by
    have hget : (Vector.ofFn fun c : Fin 32 => decimateOut (Units.taps p s.osActive) (Lit.osNat s.osActive)
        (Units.blockSize p) s.hist[c] (channelOf X c))[c] = decimateOut (Units.taps p s.osActive) (Lit.osNat s.osActive)
        (Units.blockSize p) s.hist[c] (channelOf X c) := by simp
    rw [filteredFrames, channelOf_framesOf, hget, map_getD_range (length_decimateOut _ _ _ _ _), decimateOut]
    refine List.map_congr_left fun q _ => ?_
    rw [convertedSample, if_neg hos]

/-- A conversion pushes the converted frames and moves each history on; nothing else changes. -/
theorem convert_eq {X : List Frame} {s : State} (hX : X.length = blockLen p s) :
    ∃ Y hist, convert p X s = pushOutAll p Y { s with hist := hist } ∧ IsConverted p s.osActive s.hist X Y
      ∧ ∀ c : Fin 32, hist[c] = convertedHist p s.osActive s.hist[c] (channelOf X c) := by
  by_cases hos : s.osActive = .x1
  · have hlen : X.length = Units.blockSize p := by rw [hX, blockLen, hos]; exact Nat.mul_one _
    refine ⟨X, s.hist, convert_of_x1 p X hos, ?_, fun c => ?_⟩
    · rw [hos]; exact isConverted_x1 p s.hist hlen
    · rw [convertedHist, if_pos hos]
  · refine ⟨filteredFrames p X s, (filterBlock p X s).hist, convert_of_ne_x1 p X hos, isConverted_filteredFrames p X hos,
      fun c => ?_⟩
    rw [convertedHist, if_neg hos]
    simp [filterBlock]

end conversion

/-! ## The output ring (44_ring_buffer.md R264, R265) -/

theorem pushOutAll_frame (p : Params) (Y : List Frame) (s : State) : ∃ q, pushOutAll p Y s = { s with outq := q } := by
  induction Y generalizing s with
  | nil => exact ⟨s.outq, rfl⟩
  | cons F Fs ih =>
    rw [pushOutAll]
    obtain ⟨q, hq⟩ := ih (pushOut p F s)
    rcases pushOut_cases p F s with ⟨-, h⟩ | ⟨-, h⟩ <;> rw [hq, h] <;> exact ⟨q, rfl⟩

theorem pushOutAll_unchanged (p : Params) (Y : List Frame) (s : State) :
    statusBits (pushOutAll p Y s) = statusBits s ∧ (pushOutAll p Y s).hist = s.hist := by
  obtain ⟨q, h⟩ := pushOutAll_frame p Y s
  rw [h]
  exact ⟨rfl, rfl⟩

/-- The number of frames in the ring counts the frames pushed, where there is room for them. -/
theorem n_pushOutAll (p : Params) {Y : List Frame} {s : State} (hroom : s.outq.n + Y.length ≤ Units.capOut p) :
    (pushOutAll p Y s).outq.n = s.outq.n + Y.length := by
  induction Y generalizing s with
  | nil => rfl
  | cons F Fs ih =>
    rw [List.length_cons] at hroom ⊢
    rcases pushOut_cases p F s with ⟨hfull, -⟩ | ⟨-, hpush⟩
    · omega
    · rw [pushOutAll, hpush, ih (s := { s with outq := ringPush zeroFrame (Units.capOut p) s.outq F })
        (by rw [ringPush_n]; omega), ringPush_n]
      omega

end Sys2Proof.Machine
end

section
/-! PROOFS. TICK (spec/46_engine.md R300 to R307): what the part after the latches does to the voices, STATUS, the output ring, the
filter history and the outputs, what the latches leave, and from these the statements of the family. -/

namespace Sys2Proof.Machine

open Sys2Proof.Config (Params)

/-! ## The push and the render (R305, R306) -/

section audio

variable (p : Params)

/-- The block that a TICK renders of voice `v`: its ring after the push gives the input. -/
def tickBlock (s : State) (v : VoiceIdx) : List (F32 × F32) × Vector Phasor 3 × Vector Smoother 3 :=
  voiceBlock p (patchOf s) s.freq[v] (blockLen p s) (ringAfterPush p s v) (getVoice s v)

/-- The block that a TICK of `n` voices renders for channel `c`: zeros where voice `c / 2` is not active. -/
def tickChannel (n : Nat) (s : State) (c : Fin 32) : List F32 :=
  if c.val / 2 < n then (tickBlock p s ⟨c.val / 2, by omega⟩).1.map (if c.val % 2 = 0 then Prod.fst else Prod.snd)
  else List.replicate (blockLen p s) Fp.posZero

theorem tickChannel_pri {n : Nat} {s : State} {v : VoiceIdx} (hv : v.val < n) :
    tickChannel p n s ⟨2 * v.val, by omega⟩ = (tickBlock p s v).1.map Prod.fst := by
  have hhalf : 2 * v.val / 2 = v.val := by omega
  simp only [tickChannel, hhalf, hv, if_true, Nat.mul_mod_right]

theorem tickChannel_aux {n : Nat} {s : State} {v : VoiceIdx} (hv : v.val < n) :
    tickChannel p n s ⟨2 * v.val + 1, by omega⟩ = (tickBlock p s v).1.map Prod.snd := by
  have hhalf : (2 * v.val + 1) / 2 = v.val := by omega
  have hodd : ¬ (2 * v.val + 1) % 2 = 0 := by omega
  simp only [tickChannel, hhalf, hv, if_true, hodd, if_false]

theorem tickChannel_inactive {n : Nat} {s : State} {c : Fin 32} (hc : n ≤ c.val / 2) :
    tickChannel p n s c = List.replicate (blockLen p s) Fp.posZero := if_neg (Nat.not_lt.mpr hc)

theorem blockLen_of_kept {s t : State} (h : keptByRender t = keptByRender s) : blockLen p t = blockLen p s := by
  obtain ⟨-, -, -, hos⟩ := regs_of_keptByRender h
  rw [blockLen, hos, blockLen]

theorem ownBlock_pushExt {n : Nat} {s : State} {v : VoiceIdx} (hv : v.val < n) :
    ownBlock p (patchOf s) (blockLen p s) (pushExt p n s) v = tickBlock p s v := by
  obtain ⟨-, hfreq, -⟩ := regs_of_keptByRender (pushExt_kept p n s)
  rw [ownBlock, getPmq_pushExt, if_pos hv, hfreq, voiceBlock_congr p _ _ _ _ (congrFun (unitsOf_pushExt p n s) v), tickBlock]

/-- The frames of a render, channel by channel. -/
theorem channelOf_rendered (n : Nat) (s : State) (c : Fin 32) :
    channelOf ((List.range (blockLen p s)).map (blockFrame
      (renderVoices p (patchOf s) (blockLen p s) (activeVoices n) (pushExt p n s)).1)) c = tickChannel p n s c := by
  obtain ⟨hblocks, -⟩ := renderVoices_eq p (patchOf s) (blockLen p s) (activeVoices_nodup n) (pushExt p n s)
  have hget := getElem?_activeVoices n ⟨c.val / 2, by omega⟩
  rw [hblocks]
  by_cases hc : c.val / 2 < n
  · have hblock : ((activeVoices n).map fun v => (ownBlock p (patchOf s) (blockLen p s) (pushExt p n s) v).1)[c.val / 2]?
        = some (tickBlock p s ⟨c.val / 2, by omega⟩).1 := by
      rw [List.getElem?_map, hget, if_pos hc, Option.map_some, ownBlock_pushExt p hc]
    rw [channelOf_blockFrames hblock (length_pdoBlock _ _ _ _ (four_dvd_blockLen p s) _), tickChannel, if_pos hc]
  · have hnone : ((activeVoices n).map fun v => (ownBlock p (patchOf s) (blockLen p s) (pushExt p n s) v).1)[c.val / 2]?
        = none := by
      rw [List.getElem?_map, hget, if_neg hc, Option.map_none]
    rw [channelOf_blockFrames_of_none _ hnone, tickChannel_inactive p (Nat.not_lt.mp hc)]

/-- What the push and the render of `n` voices make of `s`: the frames `Y` to be pushed, and the state `u` before that. -/
structure Rendered (n : Nat) (s : State) (Y : List Frame) (u : State) : Prop where
  kept : keptByRender u = keptByRender s
  outq : u.outq = s.outq
  status : statusBits u = recorded .pmUnf
    (decide (∃ v : VoiceIdx, v.val < n ∧ (ringAfterPush p s v).n < blockLen p s)) (statusBits (pushExt p n s))
  units : ∀ v : VoiceIdx, unitsOf u v = if v.val < n then (tickBlock p s v).2 else unitsOf s v
  ring : ∀ v : VoiceIdx, getPmq u v
    = if v.val < n then (popRing p)^[blockLen p s] (ringAfterPush p s v) else getPmq s v
  hist : ∀ c : Fin 32, u.hist[c] = convertedHist p s.osActive s.hist[c] (tickChannel p n s c)
  length : Y.length = Units.blockSize p
  channel : ∀ c : Fin 32, channelOf Y c
    = (List.range (Units.blockSize p)).map (convertedSample p s.osActive s.hist[c] (tickChannel p n s c))

theorem statusBits_renderVoices_pushExt (P : Patch) (k n : Nat) (s : State) :
    statusBits (renderVoices p P k (activeVoices n) (pushExt p n s)).2 = recorded .pmUnf
      (decide (∃ v : VoiceIdx, v.val < n ∧ (ringAfterPush p s v).n < k)) (statusBits (pushExt p n s)) := by
  have hring : (activeVoices n).any (fun v => decide ((getPmq (pushExt p n s) v).n < k))
      = (activeVoices n).any fun v => decide ((ringAfterPush p s v).n < k) :=
    any_congr_of_mem fun v hv => by rw [getPmq_pushExt, if_pos (mem_activeVoices.mp hv)]
  rw [statusBits_renderVoices p P k (activeVoices_nodup n), hring, any_activeVoices]
  simp only [decide_eq_true_eq]

theorem exists_rendered (n : Nat) (s : State) :
    ∃ Y u, render p n (pushExt p n s) = pushOutAll p Y u ∧ Rendered p n s Y u := by
  have hkept := pushExt_kept p n s
  obtain ⟨hpatch, -⟩ := regs_of_keptByRender hkept
  obtain ⟨-, hunits, hring⟩ := renderVoices_eq p (patchOf s) (blockLen p s) (activeVoices_nodup n) (pushExt p n s)
  have hvoices := renderVoices_kept p (patchOf s) (blockLen p s) (activeVoices n) (pushExt p n s)
  have hbuffers : keptByRings (renderVoices p (patchOf s) (blockLen p s) (activeVoices n) (pushExt p n s)).2
      = keptByRings s := (keptByRings_renderVoices ..).trans (keptByRings_pushExt p n s)
  obtain ⟨houtq, hhist⟩ := Prod.mk.inj hbuffers
  obtain ⟨-, -, -, hos⟩ := regs_of_keptByRender (hvoices.trans hkept)
  obtain ⟨Y, hist, hconvert, hY, hhist'⟩ := convert_eq p (s := (renderVoices p (patchOf s) (blockLen p s) (activeVoices n)
      (pushExt p n s)).2) (X := (List.range (blockLen p s)).map (blockFrame
      (renderVoices p (patchOf s) (blockLen p s) (activeVoices n) (pushExt p n s)).1))
    (by rw [List.length_map, List.length_range, blockLen_of_kept p (hvoices.trans hkept)])
  rw [hos, hhist] at hY
  rw [hos, hhist] at hhist'
  simp only [channelOf_rendered] at hhist'
  refine ⟨Y, _, by rw [render, hpatch, blockLen_of_kept p hkept]; exact hconvert, ?_⟩
  refine ⟨(setHist_kept _ _).trans (hvoices.trans hkept), houtq, statusBits_renderVoices_pushExt p _ _ n s, fun v => ?_,
    fun v => ?_, hhist', hY.length, fun c => ?_⟩
  · refine (hunits v).trans ?_
    simp only [mem_activeVoices]
    split
    · next hv => rw [ownBlock_pushExt p hv]
    · exact congrFun (unitsOf_pushExt p n s) v
  · refine (hring v).trans ?_
    simp only [mem_activeVoices, getPmq_pushExt]
    split <;> rfl
  · rw [hY.channel, channelOf_rendered]

end audio

/-! ## The output (R307) -/

theorem output_of_ne (p : Params) (n : Word) {s : State} (h : s.outq.n ≠ 0) :
    output p n s = { s with
      outq := ringDrop (Units.capOut p) s.outq
      outPri := Vector.ofFn fun v : VoiceIdx =>
        if v.val < n.toNat then Fp.mul ((ringFront zeroFrame s.outq)[2 * v.val]'(by omega)) Lit.outScale else Fp.posZero
      outAux := Vector.ofFn fun v : VoiceIdx =>
        if v.val < n.toNat then Fp.mul ((ringFront zeroFrame s.outq)[2 * v.val + 1]'(by omega)) Lit.outScale
        else Fp.posZero
      outChannels := n } := by
  rcases output_cases p n s with ⟨hempty, -⟩ | ⟨-, hout⟩
  · exact absurd hempty h
  · exact hout

theorem statusBits_output_of_ne (p : Params) (n : Word) {s : State} (h : s.outq.n ≠ 0) :
    statusBits (output p n s) = statusBits s := by
  rw [output_of_ne p n h, statusBits, statusBits]

/-! ## The part of TICK after the latches (R303 to R307) -/

section tickAudio

variable (p : Params) (n : Word) {s : State}

theorem pushExt_outq (k : Nat) (s : State) : (pushExt p k s).outq = s.outq := congrArg Prod.fst (keptByRings_pushExt p k s)

theorem pushExt_hist (k : Nat) (s : State) : (pushExt p k s).hist = s.hist := congrArg Prod.snd (keptByRings_pushExt p k s)

/-- With a frame to output, the pushes and the output are all. -/
theorem tickAudio_of_frame (h : s.outq.n ≠ 0) : tickAudio p n s = output p n (pushExt p n.toNat s) := by
  simp only [tickAudio, pushExt_outq, if_neg h]

/-- Without one, the frames of a render are pushed before the output. -/
theorem tickAudio_of_empty (h : s.outq.n = 0) :
    ∃ Y u, tickAudio p n s = output p n (pushOutAll p Y u) ∧ Rendered p n.toNat s Y u := by
  obtain ⟨Y, u, hrender, hu⟩ := exists_rendered p n.toNat s
  exact ⟨Y, u, by simp only [tickAudio, pushExt_outq, if_pos h, hrender], hu⟩

/-- A render fills the output ring. -/
theorem Rendered.n_pushOutAll {k : Nat} {Y : List Frame} {u : State} (hu : Rendered p k s Y u) (h : s.outq.n = 0) :
    (pushOutAll p Y u).outq.n = Units.blockSize p := by
  have hcap : Units.capOut p = Units.blockSize p := rfl
  rw [Machine.n_pushOutAll p (by rw [hu.outq, hu.length]; omega), hu.outq, hu.length, h, Nat.zero_add]

/-- What a TICK of `n` channels has made of `s` when it comes to its output. -/
structure ReadyToOutput (s w : State) : Prop where
  frame : w.outq.n ≠ 0
  kept : keptByRender w = keptByRender s
  level : w.outq.n = if s.outq.n = 0 then Units.blockSize p else s.outq.n
  status : statusBits w = recorded .pmUnf
    (s.outq.n == 0 && decide (∃ v : VoiceIdx, v.val < n.toNat ∧ (ringAfterPush p s v).n < blockLen p s))
    (statusBits (pushExt p n.toNat s))
  units : ∀ v : VoiceIdx, unitsOf w v = if s.outq.n = 0 ∧ v.val < n.toNat then (tickBlock p s v).2 else unitsOf s v
  ring : ∀ v : VoiceIdx, getPmq w v = if v.val < n.toNat then
      (if s.outq.n = 0 then (popRing p)^[blockLen p s] (ringAfterPush p s v) else ringAfterPush p s v)
    else getPmq s v

theorem Rendered.readyToOutput {Y : List Frame} {u : State} (hu : Rendered p n.toNat s Y u) (h : s.outq.n = 0) :
    ReadyToOutput p n s (pushOutAll p Y u) where
  frame := by
    have hpos := blockSize_pos p
    rw [hu.n_pushOutAll p h]
    omega
  kept := (pushOutAll_kept p Y u).trans hu.kept
  level := by rw [hu.n_pushOutAll p h, if_pos h]
  status := by
    rw [(pushOutAll_unchanged p Y u).1, hu.status]
    simp only [h, BEq.rfl, Bool.true_and]
  units v := by
    rw [unitsOf_congr (pushOutAll_voices p Y u), hu.units]
    simp only [h, true_and]
  ring v := by
    rw [getPmq_congr (pushOutAll_voices p Y u), hu.ring]
    simp only [h, if_true]

theorem pushExt_readyToOutput (h : s.outq.n ≠ 0) : ReadyToOutput p n s (pushExt p n.toNat s) where
  frame := by rwa [pushExt_outq]
  kept := pushExt_kept p n.toNat s
  level := by rw [pushExt_outq, if_neg h]
  status := by rw [beq_eq_false_iff_ne.mpr h, Bool.false_and, recorded_false]
  units v := by rw [if_neg fun hv => h hv.1, unitsOf_pushExt]
  ring v := by rw [if_neg h, getPmq_pushExt]

/-- There is always a frame to output: it was in the ring, or has just been rendered. -/
theorem tickAudio_eq_output (s : State) : ∃ w, tickAudio p n s = output p n w ∧ ReadyToOutput p n s w := by
  by_cases h : s.outq.n = 0
  · obtain ⟨Y, u, htick, hu⟩ := tickAudio_of_empty p n h
    exact ⟨_, htick, hu.readyToOutput p n h⟩
  · exact ⟨_, tickAudio_of_frame p n h, pushExt_readyToOutput p n h⟩

theorem unitsOf_tickAudio (s : State) (v : VoiceIdx) :
    unitsOf (tickAudio p n s) v = if s.outq.n = 0 ∧ v.val < n.toNat then (tickBlock p s v).2 else unitsOf s v := by
  obtain ⟨w, htick, hw⟩ := tickAudio_eq_output p n s
  rw [htick, unitsOf_congr (output_voices p n w), hw.units]

theorem getPmq_tickAudio (s : State) (v : VoiceIdx) :
    getPmq (tickAudio p n s) v = if v.val < n.toNat then
        (if s.outq.n = 0 then (popRing p)^[blockLen p s] (ringAfterPush p s v) else ringAfterPush p s v)
      else getPmq s v := by
  obtain ⟨w, htick, hw⟩ := tickAudio_eq_output p n s
  rw [htick, getPmq_congr (output_voices p n w), hw.ring]

theorem n_outq_tickAudio (s : State) :
    (tickAudio p n s).outq.n = (if s.outq.n = 0 then Units.blockSize p else s.outq.n) - 1 := by
  obtain ⟨w, htick, hw⟩ := tickAudio_eq_output p n s
  rw [htick, output_of_ne p n hw.frame, ringDrop_n, hw.level]

theorem statusBits_tickAudio (s : State) :
    statusBits (tickAudio p n s) = recorded .pmUnf
      (s.outq.n == 0 && decide (∃ v : VoiceIdx, v.val < n.toNat ∧ (ringAfterPush p s v).n < blockLen p s))
      (recorded .pmOvf (decide (∃ v : VoiceIdx, v.val < n.toNat ∧ overflows p (Lit.osNat s.osActive) (getPmq s v) = true))
        (statusBits s)) := by
  obtain ⟨w, htick, hw⟩ := tickAudio_eq_output p n s
  rw [htick, statusBits_output_of_ne p n hw.frame, hw.status, statusBits_pushExt]

/-- The channels of the voices that are not active are output as +0.0. -/
theorem outputs_tickAudio_inactive (s : State) {v : VoiceIdx} (hv : n.toNat ≤ v.val) :
    (tickAudio p n s).outPri[v] = Fp.posZero ∧ (tickAudio p n s).outAux[v] = Fp.posZero := by
  obtain ⟨w, htick, hw⟩ := tickAudio_eq_output p n s
  rw [htick, output_of_ne p n hw.frame]
  simp [Nat.not_lt.mpr hv]

theorem tickAudio_srChanged (s : State) : (tickAudio p n s).srChanged = s.srChanged := by
  obtain ⟨w, htick, hw⟩ := tickAudio_eq_output p n s
  have hkept := hw.kept
  simp only [keptByRender, Prod.mk.injEq] at hkept
  obtain ⟨-, -, -, -, -, -, hchanged, -⟩ := hkept
  rw [htick, output_of_ne p n hw.frame]
  exact hchanged

theorem tickAudio_outChannels (s : State) : (tickAudio p n s).outChannels = n := by
  obtain ⟨w, htick, hw⟩ := tickAudio_eq_output p n s
  rw [htick, output_of_ne p n hw.frame]

/-- A TICK that finds a frame outputs the oldest, takes it from the ring, and leaves the history. -/
theorem tickAudio_output_of_frame (h : s.outq.n ≠ 0) :
    let F := ringFront zeroFrame s.outq
    (tickAudio p n s).outq = ringDrop (Units.capOut p) s.outq ∧ (tickAudio p n s).hist = s.hist
    ∧ ∀ v : VoiceIdx, v.val < n.toNat →
      (tickAudio p n s).outPri[v] = Fp.mul (F[2 * v.val]'(by omega)) Lit.outScale
      ∧ (tickAudio p n s).outAux[v] = Fp.mul (F[2 * v.val + 1]'(by omega)) Lit.outScale := by
  rw [tickAudio_of_frame p n h, output_of_ne p n (by rwa [pushExt_outq])]
  refine ⟨by simp only [pushExt_outq], pushExt_hist p n.toNat s, fun v hv => ?_⟩
  simp [pushExt_outq, hv]

theorem hist_tickAudio_of_empty (h : s.outq.n = 0) (c : Fin 32) :
    (tickAudio p n s).hist[c] = convertedHist p s.osActive s.hist[c] (tickChannel p n.toNat s c) := by
  obtain ⟨Y, u, htick, hu⟩ := tickAudio_of_empty p n h
  rw [htick, output_of_ne p n (hu.readyToOutput p n h).frame, (pushOutAll_unchanged p Y u).2]
  exact hu.hist c

/-- The first frame pushed into an empty ring is the first out, and the others stay in order. -/
theorem pushOutAll_front_drop {Y : List Frame} {u : State} (hempty : u.outq.n = 0)
    (hwf : RingWf zeroFrame (Units.capOut p) u.outq) (hY : Y ≠ []) (hfits : Y.length ≤ Units.capOut p) :
    ringFront zeroFrame (pushOutAll p Y u).outq
        :: ringContents zeroFrame (Units.capOut p) (ringDrop (Units.capOut p) (pushOutAll p Y u).outq) = Y := by
  obtain ⟨q, hall, hq, hcontents⟩ := pushOutAll_contents p hwf (X := Y) (by omega)
  rw [ringContents_of_empty _ _ hempty, List.nil_append] at hcontents
  have hn : q.n = Y.length := by rw [← hcontents, length_ringContents]
  rw [hall, ← ringContents_eq_front_cons_drop hq (by rw [hn]; exact (List.length_pos_of_ne_nil hY).ne'), hcontents]

/-- Sample `q` of channel `c` of the block that a TICK of `k` voices renders, after the conversion. -/
def tickSample (k : Nat) (s : State) (c : Fin 32) : Nat → F32 :=
  convertedSample p s.osActive s.hist[c] (tickChannel p k s c)

/-- A TICK that renders outputs sample 0 of each channel and queues the others. -/
theorem tickAudio_output_of_empty (h : s.outq.n = 0) (hwf : RingWf zeroFrame (Units.capOut p) s.outq) :
    (∀ v : VoiceIdx, v.val < n.toNat →
      (tickAudio p n s).outPri[v] = Fp.mul (tickSample p n.toNat s ⟨2 * v.val, by omega⟩ 0) Lit.outScale
      ∧ (tickAudio p n s).outAux[v] = Fp.mul (tickSample p n.toNat s ⟨2 * v.val + 1, by omega⟩ 0) Lit.outScale)
    ∧ ∀ c : Fin 32, channelOf (ringContents zeroFrame (Units.capOut p) (tickAudio p n s).outq) c
      = (List.range (Units.blockSize p - 1)).map fun q => tickSample p n.toNat s c (q + 1) := by
  obtain ⟨Y, u, htick, hu⟩ := tickAudio_of_empty p n h
  have hpos := blockSize_pos p
  have hlen := hu.length
  have hne : Y ≠ [] := List.ne_nil_of_length_pos (by omega)
  have hY := pushOutAll_front_drop p (hu.outq ▸ h) (hu.outq ▸ hwf) hne (hlen.trans_le (Nat.le_refl _))
  have hchannel (c : Fin 32) : (ringFront zeroFrame (pushOutAll p Y u).outq)[c] = tickSample p n.toNat s c 0
      ∧ channelOf (ringContents zeroFrame (Units.capOut p) (ringDrop (Units.capOut p) (pushOutAll p Y u).outq)) c
        = (List.range (Units.blockSize p - 1)).map fun q => tickSample p n.toNat s c (q + 1) := by
    have hc := hu.channel c
    rw [← hY, channelOf, List.map_cons, show Units.blockSize p = (Units.blockSize p - 1) + 1 by omega,
      List.range_succ_eq_map, List.map_cons, List.map_map] at hc
    exact List.cons.inj hc
  rw [htick, output_of_ne p n (hu.readyToOutput p n h).frame]
  refine ⟨fun v hv => ?_, fun c => (hchannel c).2⟩
  simp only [Fin.getElem_fin, Vector.getElem_ofFn, hv, if_true]
  exact ⟨congrArg (Fp.mul · Lit.outScale) (hchannel ⟨2 * v.val, by omega⟩).1,
    congrArg (Fp.mul · Lit.outScale) (hchannel ⟨2 * v.val + 1, by omega⟩).1⟩

section rendered

variable (h : s.outq.n = 0)

include h

/-- The channels of an active voice after a TICK that renders, from the voice's block. -/
theorem tickAudio_active_of_empty {v : VoiceIdx} (hv : v.val < n.toNat) :
    let t := tickAudio p n s
    let frames := ringContents zeroFrame (Units.capOut p) t.outq
    let pri := (tickBlock p s v).1.map Prod.fst
    let aux := (tickBlock p s v).1.map Prod.snd
    let sampleOf (c : Fin 32) := convertedSample p s.osActive s.hist[c]
    let queueOf (c : Fin 32) (x : List F32) := (List.range (Units.blockSize p - 1)).map fun q => sampleOf c x (q + 1)
    let c1 : Fin 32 := ⟨2 * v.val, by omega⟩
    let c2 : Fin 32 := ⟨2 * v.val + 1, by omega⟩
    t.hist[c1] = convertedHist p s.osActive s.hist[c1] pri ∧ t.hist[c2] = convertedHist p s.osActive s.hist[c2] aux
    ∧ (RingWf zeroFrame (Units.capOut p) s.outq →
      t.outPri[v] = Fp.mul (sampleOf c1 pri 0) Lit.outScale ∧ t.outAux[v] = Fp.mul (sampleOf c2 aux 0) Lit.outScale
      ∧ channelOf frames c1 = queueOf c1 pri ∧ channelOf frames c2 = queueOf c2 aux) := by
  rw [← tickChannel_pri p hv, ← tickChannel_aux p hv]
  refine ⟨hist_tickAudio_of_empty p n h _, hist_tickAudio_of_empty p n h _, fun hwf => ?_⟩
  obtain ⟨hout, hqueue⟩ := tickAudio_output_of_empty p n h hwf
  exact ⟨(hout v hv).1, (hout v hv).2, hqueue _, hqueue _⟩

/-- The channels of a voice that is not active after a TICK that renders: the block is zeros. -/
theorem tickAudio_inactive_of_empty {c : Fin 32} (hc : n.toNat ≤ c.val / 2) :
    let t := tickAudio p n s
    let zeros := List.replicate (blockLen p s) Fp.posZero
    t.hist[c] = convertedHist p s.osActive s.hist[c] zeros
    ∧ (RingWf zeroFrame (Units.capOut p) s.outq → channelOf (ringContents zeroFrame (Units.capOut p) t.outq) c
      = (List.range (Units.blockSize p - 1)).map fun q => convertedSample p s.osActive s.hist[c] zeros (q + 1)) := by
  rw [← tickChannel_inactive p hc]
  exact ⟨hist_tickAudio_of_empty p n h c, fun hwf => (tickAudio_output_of_empty p n h hwf).2 c⟩

end rendered

end tickAudio

end Sys2Proof.Machine
end

section
/-! PROOFS. The latches of a TICK (spec/46_engine.md R301, R302, R309, R311): the rates, the empty buffers and the units they
leave. -/

namespace Sys2Proof.Machine

open Sys2Proof.Config (Params)

/-! ## The latches (R301, R302) -/

/-- The state after the latches of a TICK. -/
def latched (p : Params) (s : State) : State := srLatch p (osLatch p s)

/-- The rate the units run at after the latches. -/
def latchedRate (s : State) : F32 := Fp.mul (if s.srChanged then s.sampleRate else s.fsActive) (osF32 s.osFactor)

section latches

variable (p : Params) {s : State}

theorem latched_kept (s : State) : keptByLatch (latched p s) = keptByLatch s := (srLatch_kept p _).trans (osLatch_kept p s)

/-- The registers a TICK reads, and STATUS, are no part of what the latches change. -/
theorem latched_regs (s : State) :
    patchOf (latched p s) = patchOf s ∧ (latched p s).freq = s.freq ∧ (latched p s).extPm = s.extPm
    ∧ (latched p s).channels = s.channels ∧ statusBits (latched p s) = statusBits s := by
  have h := latched_kept p s
  obtain ⟨hpatch, hfreq, hext, hchannels⟩ := regs_of_hostRegs (congrArg Prod.fst h)
  simp only [keptByLatch, Prod.mk.injEq] at h
  obtain ⟨-, -, -, -, hflags, hcode, -⟩ := h
  exact ⟨hpatch, hfreq, hext, hchannels, by rw [statusBits, hflags, hcode, statusBits]⟩

theorem tick_eq (s : State) : tick p s = tickAudio p s.channels (latched p s) := by
  obtain ⟨-, -, -, hchannels, -⟩ := latched_regs p s
  rw [← hchannels]
  rfl

theorem latched_of_idle (hos : s.osFactor = s.osActive) (hsr : s.srChanged = false) : latched p s = s := by
  rw [latched, osLatch_of_eq hos, srLatch_of_unchanged hsr]

theorem latched_of_not_pending (h : ¬ (s.osFactor ≠ s.osActive ∨ s.srChanged = true)) : latched p s = s := by
  obtain ⟨hos, hsr⟩ := not_or.mp h
  exact latched_of_idle p (not_not.mp hos) (Bool.eq_false_iff.mpr hsr)

/-- The factor latch alone: what the rate latch reads of it. -/
theorem osLatch_regs (s : State) :
    (osLatch p s).osActive = s.osFactor ∧ (osLatch p s).fsActive = s.fsActive ∧ (osLatch p s).srChanged = s.srChanged
    ∧ (osLatch p s).sampleRate = s.sampleRate := by
  rcases osLatch_cases p s with ⟨heq, h⟩ | ⟨-, h⟩ <;> rw [h]
  · exact ⟨heq.symm, rfl, rfl, rfl⟩
  · exact ⟨rfl, rfl, rfl, rfl⟩

theorem latched_rates (s : State) :
    (latched p s).osActive = s.osFactor ∧ (latched p s).fsActive = (if s.srChanged then s.sampleRate else s.fsActive)
    ∧ (latched p s).srChanged = false := by
  obtain ⟨hos, hfs, hsr, hrate⟩ := osLatch_regs p s
  rw [latched, ← hsr]
  rcases srLatch_cases p (osLatch p s) with ⟨hkept, h⟩ | ⟨hchanged, h⟩ <;> rw [h]
  · rw [hkept]
    exact ⟨hos, hfs, rfl⟩
  · rw [hchanged]
    exact ⟨hos, hrate, rfl⟩

theorem voiceSetSampleRate_pmq (fo : F32) (vo : Voice) : (voiceSetSampleRate p fo vo).pmq = vo.pmq := rfl

theorem voiceReset_pmq (fo : F32) (vo : Voice) : (voiceReset p fo vo).pmq = vo.pmq := rfl

theorem ringClear_ringClear {α : Type} (q : Machine.Ring α) : ringClear (ringClear q) = ringClear q := rfl

/-- A clear after the factor latch clears what a clear without it does. -/
theorem osLatch_rings (s : State) :
    (∀ v : VoiceIdx, ringClear (getPmq (osLatch p s) v) = ringClear (getPmq s v))
    ∧ ringClear (osLatch p s).outq = ringClear s.outq := by
  rcases osLatch_cases p s with ⟨-, h⟩ | ⟨-, h⟩ <;> rw [h]
  · exact ⟨fun _ => rfl, rfl⟩
  · refine ⟨fun v => ?_, ?_⟩
    · rw [getPmq_mapVoices, voiceSetSampleRate_pmq, getVoice_clearBuffers]
      rfl
    · rw [mapVoices_outq, clearBuffers_outq, ringClear_ringClear]

/-- Whichever latch acts, it clears every buffer for the new factor (R311). -/
theorem latched_buffers (hpending : s.osFactor ≠ s.osActive ∨ s.srChanged = true) :
    (∀ v : VoiceIdx, getPmq (latched p s) v = ringClear (getPmq s v)) ∧ (latched p s).outq = ringClear s.outq
    ∧ (latched p s).hist = Vector.replicate 32 (List.replicate (Units.histLen p s.osFactor) Fp.posZero) := by
  obtain ⟨hos, -, hsr, -⟩ := osLatch_regs p s
  by_cases hchanged : s.srChanged = true
  · obtain ⟨hpmq, houtq⟩ := osLatch_rings p s
    rw [latched, srLatch_of_changed (hsr.trans hchanged)]
    refine ⟨fun v => ?_, ?_, ?_⟩
    · rw [← hpmq, getPmq_mapVoices, voiceReset_pmq, getVoice_clearBuffers]
      rfl
    · rw [mapVoices_outq, clearBuffers_outq, ← houtq]
    · rw [mapVoices_hist, clearBuffers_hist, ← hos]
  · rw [latched, srLatch_of_unchanged (hsr.trans (by simpa using hchanged)),
      osLatch_of_ne (hpending.resolve_right hchanged)]
    refine ⟨fun v => ?_, by rw [mapVoices_outq, clearBuffers_outq], by rw [mapVoices_hist, clearBuffers_hist]⟩
    rw [getPmq_mapVoices, voiceSetSampleRate_pmq, getVoice_clearBuffers]
    rfl

/-! ## The units after the latches (R301, R302, R309) -/

/-- A smoother reset keeps the time constant and the mode, and nothing else. -/
theorem smootherReset_eq (fo : F32) (S : Smoother) : smootherReset p fo S =
    { value := 0, target := 0, coef := Units.coefOf p S.tc fo, step := 0, remain := 0, tc := S.tc, mode := S.mode, fs := fo } :=
  rfl

/-- The factor latch keeps the time constant and the mode of a smoother. -/
theorem getSmoother_osLatch (s : State) (v : VoiceIdx) (u : UnitIdx) :
    (getSmoother (osLatch p s) v u).tc = (getSmoother s v u).tc
    ∧ (getSmoother (osLatch p s) v u).mode = (getSmoother s v u).mode := by
  rcases osLatch_cases p s with ⟨-, h⟩ | ⟨-, h⟩ <;> rw [h]
  · exact ⟨rfl, rfl⟩
  · rw [getSmoother_mapVoices, voiceSetSampleRate, mapVec_get, getVoice_clearBuffers]
    exact ⟨rfl, rfl⟩

/-- A rate change resets every phasor; a factor change alone sets its rate. -/
theorem getPhasor_latched (hpending : s.osFactor ≠ s.osActive ∨ s.srChanged = true) (v : VoiceIdx) (u : UnitIdx) :
    getPhasor (latched p s) v u = if s.srChanged then phasorReset (latchedRate s) (getPhasor (osLatch p s) v u)
      else phasorSetSampleRate (getPhasor s v u) (latchedRate s) := by
  obtain ⟨hos, -, hsr, hrate⟩ := osLatch_regs p s
  by_cases hchanged : s.srChanged = true
  · rw [latched, srLatch_of_changed (hsr.trans hchanged), getPhasor_mapVoices, voiceReset, mapVec_get, getVoice_clearBuffers,
      hos, hrate, latchedRate, if_pos hchanged, if_pos hchanged]
    rfl
  · rw [latched, srLatch_of_unchanged (hsr.trans (by simpa using hchanged)), osLatch_of_ne (hpending.resolve_right hchanged),
      getPhasor_mapVoices, voiceSetSampleRate, mapVec_get, getVoice_clearBuffers, latchedRate, if_neg hchanged,
      if_neg hchanged]
    rfl

/-- A rate change resets every smoother; a factor change alone sets its rate and coefficient. -/
theorem getSmoother_latched (hpending : s.osFactor ≠ s.osActive ∨ s.srChanged = true) (v : VoiceIdx) (u : UnitIdx) :
    getSmoother (latched p s) v u = if s.srChanged then smootherReset p (latchedRate s) (getSmoother s v u)
      else smootherSetSampleRate p (getSmoother s v u) (latchedRate s) := by
  obtain ⟨hos, -, hsr, hrate⟩ := osLatch_regs p s
  obtain ⟨htc, hmode⟩ := getSmoother_osLatch p s v u
  by_cases hchanged : s.srChanged = true
  · have hkept : smootherReset p (latchedRate s) (getSmoother (osLatch p s) v u)
        = smootherReset p (latchedRate s) (getSmoother s v u) := by
      rw [smootherReset_eq, htc, hmode, smootherReset_eq]
    rw [if_pos hchanged, ← hkept, latched, srLatch_of_changed (hsr.trans hchanged), getSmoother_mapVoices, voiceReset,
      mapVec_get, getVoice_clearBuffers, hos, hrate, latchedRate, if_pos hchanged]
    rfl
  · rw [latched, srLatch_of_unchanged (hsr.trans (by simpa using hchanged)), osLatch_of_ne (hpending.resolve_right hchanged),
      getSmoother_mapVoices, voiceSetSampleRate, mapVec_get, getVoice_clearBuffers, latchedRate, if_neg hchanged,
      if_neg hchanged]
    rfl

theorem vec_ext {α : Type} {n : Nat} {x y : Vector α n} (h : ∀ i : Fin n, x[i] = y[i]) : x = y :=
  Vector.ext fun i hi => h ⟨i, hi⟩

theorem vec3_get {α β : Type} (f : α → β) (x : Vector α 3) (u : UnitIdx) : (#v[f x[0], f x[1], f x[2]])[u] = f x[u] := by
  match u with
  | 0 | 1 | 2 => rfl

theorem latchedVoice_ph (changed : Bool) (fo : F32) (vo : Voice) (u : UnitIdx) :
    (latchedVoice p changed fo vo).ph[u]
      = if changed then { lane := #v[0, 0, 0, 0], freq := 0, inc := 0, fs := fo } else phasorSetSampleRate vo.ph[u] fo := by
  rw [phasorSetSampleRate, setFrequency, ofFn_lane]
  match u with
  | 0 | 1 | 2 => rfl

theorem latchedVoice_sm (changed : Bool) (fo : F32) (vo : Voice) (u : UnitIdx) :
    (latchedVoice p changed fo vo).sm[u]
      = if changed then smootherReset p fo vo.sm[u] else smootherSetSampleRate p vo.sm[u] fo := by
  match u with
  | 0 | 1 | 2 => rfl

/-- At a rate above 0 the latches leave of a voice what `latchedVoice` writes out. -/
theorem unitsOf_latched (hpending : s.osFactor ≠ s.osActive ∨ s.srChanged = true)
    (hfo : Fp.gt (latchedRate s) Fp.posZero = true) (v : VoiceIdx) :
    unitsOf (latched p s) v = ((latchedVoice p s.srChanged (latchedRate s) (getVoice s v)).ph,
      (latchedVoice p s.srChanged (latchedRate s) (getVoice s v)).sm) := by
  refine Prod.ext (vec_ext fun u => ?_) (vec_ext fun u => ?_)
  · refine (getPhasor_latched p hpending v u).trans ?_
    rw [latchedVoice_ph, phasorReset_eq hfo]
    rfl
  · refine (getSmoother_latched p hpending v u).trans ?_
    rw [latchedVoice_sm]
    rfl

end latches

/-! ## What a block keeps of the units (R241 to R243) -/

/-- What no Set and no Process of a smoother changes. -/
def smootherConfig (S : Smoother) := (S.fs, S.tc, S.mode, S.coef)

theorem smootherSet_config (S : Smoother) (x : F32) (imm : Bool) : smootherConfig (smootherSet S x imm) = smootherConfig S := by
  cases imm with
  | true => rw [smootherSet_imm]; rfl
  | false =>
    cases hmode : S.mode with
    | exponential => rw [smootherSet_exponential hmode]; rfl
    | linear => rw [smootherSet_linear hmode]; split <;> rfl

theorem smootherNext_config (S : Smoother) : smootherConfig (smootherNext S) = smootherConfig S := by
  cases hmode : S.mode with
  | exponential => rw [smootherNext_exponential hmode]; rfl
  | linear => rcases smootherNext_linear_cases hmode with h | ⟨-, -, -, h⟩ <;> rw [h] <;> rfl

@[simp] theorem phasorNext_fs (Q : Phasor) : (phasorNext Q).fs = Q.fs := rfl

theorem iterate_kept {α β : Type} {f : α → α} {g : α → β} (h : ∀ x, g (f x) = g x) (k : Nat) (x : α) :
    g (f^[k] x) = g x := by
  induction k generalizing x with
  | zero => rfl
  | succ k ih => rw [Function.iterate_succ_apply, ih, h]

theorem voiceAfter_config (k : Nat) (vo : Voice) (u : UnitIdx) :
    (voiceAfter k vo).ph[u].fs = vo.ph[u].fs ∧ smootherConfig (voiceAfter k vo).sm[u] = smootherConfig vo.sm[u] := by
  simp only [voiceAfter, vec3_get]
  exact ⟨iterate_kept (g := Phasor.fs) phasorNext_fs k _, iterate_kept smootherNext_config _ _⟩

/-- A block keeps the rate of each phasor, and the rate, time constant, mode and coefficient of each smoother. -/
theorem pdoBlock_config (p : Params) (P : Patch) (f : F32) (ext : List F32) (n : Nat) (vo : Voice) (u : UnitIdx) :
    (pdoBlock p P f ext n vo).2.ph[u].fs = vo.ph[u].fs
    ∧ smootherConfig (pdoBlock p P f ext n vo).2.sm[u] = smootherConfig vo.sm[u] := by
  obtain ⟨hph, hsm⟩ := voiceAfter_config (n / 4) (startTargets P (startFrequencies P f vo)) u
  rw [pdoBlock, groupSteps_eq, hph, hsm]
  match u with
  | 0 | 1 | 2 => exact ⟨rfl, smootherSet_config _ _ _⟩

end Sys2Proof.Machine
end

section
/-! PROOFS. The statements on TICK (spec/46_engine.md R300 to R307), from what the latches leave and what the part after them
does. -/

namespace Sys2Proof.Machine

open Sys2Proof.Config (Params)

/-! ## Levels after the latches (R301, R302, R311) -/

section counts

variable (p : Params) {s : State}

theorem osNat_le (m : OsFactor) : 1 ≤ Lit.osNat m ∧ Lit.osNat m ≤ 16 := by cases m <;> decide

theorem osNat_le_capPm (m : OsFactor) : Lit.osNat m ≤ Units.capPm p := by
  have hm := (osNat_le m).2
  have hB := blockSize_pos p
  unfold Units.capPm
  omega

/-- The latches leave a ring empty; without them it is as it was. -/
theorem n_getPmq_latched (s : State) (v : VoiceIdx) : (getPmq (latched p s) v).n
    = if s.osFactor ≠ s.osActive ∨ s.srChanged = true then 0 else (getPmq s v).n := by
  split
  · next hpending => rw [(latched_buffers p hpending).1, ringClear_n]
  · next hidle => rw [latched_of_not_pending p hidle]

theorem n_outq_latched (s : State) :
    (latched p s).outq.n = 0 ↔ s.osFactor ≠ s.osActive ∨ s.srChanged = true ∨ s.outq.n = 0 := by
  by_cases hpending : s.osFactor ≠ s.osActive ∨ s.srChanged = true
  · obtain ⟨-, houtq, -⟩ := latched_buffers p hpending
    rw [houtq, ringClear_n, ← or_assoc]
    simp only [hpending, true_or]
  · rw [latched_of_not_pending p hpending, ← or_assoc, or_iff_right hpending]

theorem n_ringAfterPush {s : State} {v : VoiceIdx} (hn : (getPmq s v).n ≤ Units.capPm p) :
    (ringAfterPush p s v).n = min ((getPmq s v).n + Lit.osNat s.osActive) (Units.capPm p) := n_pushRing_iterate hn _

end counts

/-! ## The level of the output ring, and the voices without a latch (R303, R305, R306) -/

theorem eq_of_units_and_ring {s t : State} {v : VoiceIdx} (hunits : unitsOf t v = unitsOf s v)
    (hring : getPmq t v = getPmq s v) : getVoice t v = getVoice s v := by
  obtain ⟨hph, hsm⟩ := Prod.mk.inj hunits
  exact Voice.mk.injEq .. |>.mpr ⟨hph, hsm, hring⟩

/-- Settles O48: a render fills the ring of BLOCK_SIZE frames, and the output takes one. -/
theorem tickLevel : Obligations.TickLevel := fun s t ht => by
  rw [exec_tick] at ht
  cases ht
  rw [tick_eq, n_outq_tickAudio]
  simp only [n_outq_latched]
  split
  · rfl
  · next hidle =>
    rw [← or_assoc] at hidle
    rw [latched_of_not_pending _ (not_or.mp hidle).1]

/-- Settles O51: without a latch the pushes and the render touch the active voices only, and without a render no unit. -/
theorem inactiveVoicesKept : Obligations.InactiveVoicesKept := fun s t v ht hos hsr => by
  rw [exec_tick] at ht
  cases ht
  rw [tick_eq, latched_of_idle _ hos hsr]
  have hunits := unitsOf_tickAudio Config.build s.channels s v
  refine ⟨fun hv => ?_, fun hsome => ?_⟩
  · have hring := getPmq_tickAudio Config.build s.channels s v
    rw [if_neg (Nat.not_lt.mpr hv)] at hring
    rw [if_neg fun h => absurd h.2 (Nat.not_lt.mpr hv)] at hunits
    exact eq_of_units_and_ring hunits hring
  · rw [if_neg fun h => hsome h.1] at hunits
    obtain ⟨hph, hsm⟩ := Prod.mk.inj hunits
    obtain ⟨-, hhist, -⟩ := tickAudio_output_of_frame Config.build s.channels hsome
    exact ⟨hph, hsm, hhist⟩

/-! ## The rings after a latch (R305, R306, R311) -/

section rings

variable (p : Params) {s : State}

theorem osNat_le_blockLen (s : State) : Lit.osNat s.osActive ≤ blockLen p s :=
  Nat.le_mul_of_pos_left _ (Nat.lt_of_lt_of_le (by decide) (blockSize_pos p))

theorem blockLen_latched (s : State) : blockLen p (latched p s) = Units.blockSize p * Lit.osNat s.osFactor := by
  rw [blockLen, (latched_rates p s).1]

/-- After a latch the ring of an active voice holds the samples of one push. -/
theorem n_ringAfterPush_latched (hpending : s.osFactor ≠ s.osActive ∨ s.srChanged = true) (v : VoiceIdx) :
    (ringAfterPush p (latched p s) v).n = Lit.osNat (latched p s).osActive := by
  have hn : (getPmq (latched p s) v).n = 0 := by rw [n_getPmq_latched, if_pos hpending]
  have hfits := osNat_le_capPm p (latched p s).osActive
  rw [n_ringAfterPush p (by rw [hn]; exact Nat.zero_le _), hn]
  omega

theorem n_getPmq_tick_of_pending (hpending : s.osFactor ≠ s.osActive ∨ s.srChanged = true) (v : VoiceIdx) :
    (getPmq (tick p s) v).n = 0 := by
  have hempty : (latched p s).outq.n = 0 := (n_outq_latched p s).mpr (by tauto)
  rw [tick_eq, getPmq_tickAudio, if_pos hempty]
  split
  · rw [n_popRing_iterate, n_ringAfterPush_latched p hpending]
    exact Nat.sub_eq_zero_of_le (osNat_le_blockLen p _)
  · rw [n_getPmq_latched, if_pos hpending]

end rings

/-- Settles O52: after a latch a render takes all that was pushed; without one the pushes join and a render takes the oldest. -/
theorem tickExternalRing : Obligations.TickExternalRing := fun s t v ht => by
  rw [exec_tick] at ht
  cases ht
  intro cap
  refine ⟨fun hpending => ?_, fun hos hsr hv hwf => ?_⟩
  · have hn := n_getPmq_tick_of_pending Config.build hpending v
    exact ⟨hn, ringContents_of_empty _ _ hn⟩
  · intro m pushed
    obtain ⟨hwf', hpushed⟩ := pushRing_iterate_contents hwf s.extPm[v] m
    rw [tick_eq, latched_of_idle _ hos hsr, getPmq_tickAudio, if_pos hv]
    split
    · refine (popRing_iterate_contents hwf' _).1.trans ?_
      rw [hpushed]
      rfl
    · exact hpushed

/-! ## STATUS after a TICK (60_exceptions.md R341, R343) -/

theorem recorded_pmOvf_pmUnf (ovf unf : Bool) (x : BitVec 8 × BitVec 4) :
    recorded .pmUnf unf (recorded .pmOvf ovf x)
      = (x.1 ||| (if ovf then 0x10#8 else 0) ||| (if unf then 0x20#8 else 0),
          if unf then 6#4 else if ovf then 5#4 else x.2) := by
  cases ovf <;> cases unf <;> simp [recorded, eventBit, eventCode]

/-- PM_OVF and PM_UNF add to the sticky bits within their own two. -/
theorem flags_or_events (ovf unf : Bool) (f : BitVec 8) :
    (f ||| (if ovf then 0x10#8 else 0) ||| (if unf then 0x20#8 else 0)) ||| 0x30#8 = f ||| 0x30#8
    ∧ f &&& (f ||| (if ovf then 0x10#8 else 0) ||| (if unf then 0x20#8 else 0)) = f := by
  constructor
  · rw [BitVec.or_assoc, BitVec.or_assoc]
    cases ovf <;> cases unf <;> rfl
  · rw [BitVec.or_assoc]
    ext i hi
    simp only [BitVec.getElem_and, BitVec.getElem_or]
    cases f[i] <;> simp

/-- Which of the two events a TICK records: PM_OVF from the pushes, then PM_UNF from the render (R305, R306). -/
theorem statusBits_tick (p : Params) (s : State) : ∃ ovf unf,
    statusBits (tick p s) = recorded .pmUnf unf (recorded .pmOvf ovf (statusBits s))
    ∧ ((∀ v : VoiceIdx, (getPmq s v).n ≤ Units.capPm p) →
      let latches : Bool := decide (s.osFactor ≠ s.osActive) || s.srChanged
      let held (v : VoiceIdx) : Nat := if latches then 0 else (getPmq s v).n
      ovf = decide (∃ v : VoiceIdx, v.val < s.channels.toNat ∧ Units.capPm p < held v + Lit.osNat s.osFactor)
      ∧ unf = ((latches || s.outq.n == 0) && decide (∃ v : VoiceIdx, v.val < s.channels.toNat
          ∧ min (held v + Lit.osNat s.osFactor) (Units.capPm p) < Units.blockSize p * Lit.osNat s.osFactor))) := by
  obtain ⟨-, -, -, -, hstatus⟩ := latched_regs p s
  refine ⟨_, _, by rw [tick_eq, statusBits_tickAudio, hstatus], fun hcap => ?_⟩
  intro latches held
  have hlatches : latches = true ↔ s.osFactor ≠ s.osActive ∨ s.srChanged = true := by
    simp only [latches, Bool.or_eq_true, decide_eq_true_eq]
  have hheld (v : VoiceIdx) : (getPmq (latched p s) v).n = held v := by
    simp only [n_getPmq_latched, held, hlatches]
  have hfits (v : VoiceIdx) : held v ≤ Units.capPm p := by
    simp only [held]
    split
    · exact Nat.zero_le _
    · exact hcap v
  have hempty : ((latched p s).outq.n == 0) = (latches || s.outq.n == 0) := by
    rw [Bool.eq_iff_iff, beq_iff_eq, n_outq_latched, Bool.or_eq_true, hlatches, beq_iff_eq, or_assoc]
  have hos := (latched_rates p s).1
  have hpush (v : VoiceIdx) : (ringAfterPush p (latched p s) v).n = min (held v + Lit.osNat s.osFactor) (Units.capPm p) := by
    rw [n_ringAfterPush p (by rw [hheld]; exact hfits v), hheld, hos]
  simp only [hempty, hpush, blockLen_latched, overflows, hheld, hos, hfits, true_and, decide_eq_true_eq, and_self]

/-- A state is another but for what a TICK may change, where the rest agrees. -/
theorem eq_of_keptByTick {s t : State} (h : keptByTick t = keptByTick s) :
    t = { s with flags := t.flags, lastCode := t.lastCode, fsActive := t.fsActive, osActive := t.osActive
                 srChanged := t.srChanged, voices := t.voices, outq := t.outq, hist := t.hist, outPri := t.outPri
                 outAux := t.outAux, outChannels := t.outChannels } := by
  cases s
  cases t
  simp only [keptByTick, hostRegs, Prod.mk.injEq] at h
  simp only [h]

theorem tick_rates (p : Params) (s : State) :
    (tick p s).osActive = s.osFactor ∧ (tick p s).fsActive = (if s.srChanged then s.sampleRate else s.fsActive)
    ∧ (tick p s).srChanged = false ∧ (tick p s).outChannels = s.channels := by
  obtain ⟨hos, hfs, hsr⟩ := latched_rates p s
  obtain ⟨hfs', hos'⟩ := tickAudio_rates p s.channels (latched p s)
  rw [tick_eq]
  exact ⟨hos'.trans hos, hfs'.trans hfs, (tickAudio_srChanged p s.channels _).trans hsr, tickAudio_outChannels p s.channels _⟩

/-- Settles O46: the latches keep STATUS, the pushes raise PM_OVF at most, the render PM_UNF at most, and a frame is there. -/
theorem tickResult : Obligations.TickResult := fun s => by
  obtain ⟨hos, hfs, hsr, hchannels⟩ := tick_rates Config.build s
  obtain ⟨ovf, unf, hstatus, hexact⟩ := statusBits_tick Config.build s
  rw [recorded_pmOvf_pmUnf] at hstatus
  obtain ⟨hflags, hcode⟩ := Prod.mk.inj hstatus
  obtain ⟨hwithin, hkept⟩ := flags_or_events ovf unf s.flags
  refine ⟨tick Config.build s, exec_tick s, ?_, ?_, ?_, ?_, fun hcap => ?_⟩
  · have hframe := eq_of_keptByTick (tick_kept Config.build s)
    rw [hos, hfs, hsr, hchannels] at hframe
    exact hframe
  · rw [hflags]
    exact hwithin
  · rw [hflags]
    exact hkept
  · rw [hcode]
    cases unf
    · cases ovf
      · exact .inl rfl
      · exact .inr (.inl rfl)
    · exact .inr (.inr rfl)
  · obtain ⟨rfl, rfl⟩ := hexact hcap
    exact ⟨hflags, hcode⟩

/-! ## The blocks of a TICK that latches (R301, R302, R305, R306) -/

section latchedBlocks

variable (p : Params) {s : State}

/-- After a latch a voice's block runs on the samples of one push, then +0.0. -/
theorem poppedSamples_latched (hpending : s.osFactor ≠ s.osActive ∨ s.srChanged = true) {v : VoiceIdx}
    (hwf : RingWf Fp.posZero (Units.capPm p) (getPmq s v)) :
    let m := Lit.osNat s.osFactor
    let n := Units.blockSize p * m
    poppedSamples p (blockLen p (latched p s)) (ringAfterPush p (latched p s) v)
      = List.replicate m s.extPm[v] ++ List.replicate (n - m) Fp.posZero := by
  intro m n
  obtain ⟨-, -, hext, -⟩ := latched_regs p s
  have hle : m ≤ n := Nat.le_mul_of_pos_left _ (Nat.lt_of_lt_of_le (by decide) (blockSize_pos p))
  have hring : ringAfterPush p (latched p s) v = (pushRing p s.extPm[v])^[m] (ringClear (getPmq s v)) := by
    rw [ringAfterPush, hext, (latched_rates p s).1, (latched_buffers p hpending).1]
  obtain ⟨hwf', hpushed⟩ := pushRing_iterate_contents (ringWf_clear hwf) s.extPm[v] m
  rw [ringContents_of_empty _ _ (ringClear_n _), List.nil_append,
    List.take_of_length_le (by rw [List.length_replicate]; exact osNat_le_capPm p s.osFactor)] at hpushed
  have hpopped := (popRing_iterate_contents hwf' n).2
  rw [hpushed, List.length_replicate, List.take_of_length_le (by rwa [List.length_replicate])] at hpopped
  rw [hring, blockLen_latched]
  exact hpopped

/-- The block of an active voice after a latch, from the latched voice. -/
theorem tickBlock_latched (hpending : s.osFactor ≠ s.osActive ∨ s.srChanged = true)
    (hfo : Fp.gt (latchedRate s) Fp.posZero = true) {v : VoiceIdx} (hwf : RingWf Fp.posZero (Units.capPm p) (getPmq s v)) :
    let m := Lit.osNat s.osFactor
    let n := Units.blockSize p * m
    let blk := pdoBlock p (patchOf s) s.freq[v] (List.replicate m s.extPm[v] ++ List.replicate (n - m) Fp.posZero) n
      (latchedVoice p s.srChanged (latchedRate s) (getVoice s v))
    tickBlock p (latched p s) v = (blk.1, blk.2.ph, blk.2.sm) := by
  obtain ⟨hpatch, hfreq, -⟩ := latched_regs p s
  obtain ⟨hout, hph, hsm⟩ := pdoBlock_congr p (patchOf s) s.freq[v]
    (poppedSamples p (blockLen p (latched p s)) (ringAfterPush p (latched p s) v)) (blockLen p (latched p s))
    (unitsOf_latched p hpending hfo v)
  simp only [tickBlock, voiceBlock, hpatch, hfreq, hout, hph, hsm]
  rw [poppedSamples_latched p hpending hwf, blockLen_latched]

/-- The part of TICK after the latches keeps the rate and the coefficient of every unit. -/
theorem config_tickAudio (n : Word) (s : State) (v : VoiceIdx) (u : UnitIdx) :
    (getPhasor (tickAudio p n s) v u).fs = (getPhasor s v u).fs
    ∧ smootherConfig (getSmoother (tickAudio p n s) v u) = smootherConfig (getSmoother s v u) := by
  have hunits := unitsOf_tickAudio p n s v
  split at hunits
  · obtain ⟨hph, hsm⟩ := Prod.mk.inj hunits
    rw [getPhasor, getSmoother, hph, hsm]
    exact pdoBlock_config ..
  · obtain ⟨hph, hsm⟩ := Prod.mk.inj hunits
    rw [getPhasor, getSmoother, hph, hsm]
    exact ⟨rfl, rfl⟩

theorem config_latched (hpending : s.osFactor ≠ s.osActive ∨ s.srChanged = true) (v : VoiceIdx) (u : UnitIdx) :
    let S := getSmoother s v u
    (getPhasor (latched p s) v u).fs = latchedRate s
    ∧ smootherConfig (getSmoother (latched p s) v u)
      = (latchedRate s, S.tc, S.mode, Units.coefOf p S.tc (latchedRate s)) := by
  rw [getPhasor_latched p hpending, getSmoother_latched p hpending]
  split <;> exact ⟨rfl, rfl⟩

end latchedBlocks

/-- Settles O47: the latches set every unit, and the audio part runs the active voices' blocks from there. -/
theorem tickLatchSetsUnitRates : Obligations.TickLatchSetsUnitRates := fun s t ht hpending => by
  rw [exec_tick] at ht
  cases ht
  obtain ⟨hos, hfs, -⟩ := tick_rates Config.build s
  rw [hos, hfs]
  intro fo
  have htick := tick_eq Config.build s
  have hempty : (latched Config.build s).outq.n = 0 := (n_outq_latched Config.build s).mpr (by tauto)
  refine ⟨fun v u => ?_, fun hfo v => ⟨fun hv => ?_, fun hv hwf => ?_⟩⟩
  · obtain ⟨hrate, hconfig⟩ := config_latched Config.build hpending v u
    obtain ⟨hrate', hconfig'⟩ := config_tickAudio Config.build s.channels (latched Config.build s) v u
    rw [← htick] at hrate' hconfig'
    have hconfig := hconfig'.trans hconfig
    simp only [smootherConfig, Prod.mk.injEq] at hconfig
    obtain ⟨hfs, htc, hmode, hcoef⟩ := hconfig
    exact ⟨hrate'.trans hrate, hfs, htc, hmode, hcoef⟩
  · have hunits := unitsOf_tickAudio Config.build s.channels (latched Config.build s) v
    rw [if_neg fun h => absurd h.2 (Nat.not_lt.mpr hv), ← htick, unitsOf_latched _ hpending hfo] at hunits
    exact Prod.mk.inj hunits
  · have hunits := unitsOf_tickAudio Config.build s.channels (latched Config.build s) v
    rw [if_pos ⟨hempty, hv⟩, ← htick, tickBlock_latched _ hpending hfo hwf] at hunits
    exact Prod.mk.inj hunits

/-- Settles O50: the block of each channel, converted, is output and queued in order. -/
theorem renderTick : Obligations.RenderTick := fun s t v ht hos hsr hempty hv => by
  rw [exec_tick] at ht
  cases ht
  rw [tick_eq, latched_of_idle _ hos hsr]
  intro p m n cap ext blk pri aux h sample queued kept frames hist1 hist2
  have hext : ext = poppedSamples p n (ringAfterPush p s v) := by
    simp only [ext, popBlockPm_samples, getPmq_pushPmTimes, if_true]
    rfl
  have hblk : tickBlock p s v = (blk.1, blk.2.ph, blk.2.sm) := by
    simp only [blk, hext]
    rfl
  have hunits := unitsOf_tickAudio p s.channels s v
  have hactive := tickAudio_active_of_empty p s.channels hempty hv
  rw [hblk] at hactive
  rw [if_pos ⟨hempty, hv⟩, hblk] at hunits
  obtain ⟨hph, hsm⟩ := Prod.mk.inj hunits
  obtain ⟨hhist1, hhist2, hout⟩ := hactive
  have hinactive (c : Fin 32) (hc : s.channels.toNat ≤ c.val / 2) := tickAudio_inactive_of_empty p s.channels hempty hc
  refine ⟨hph, hsm, fun hwf => ?_, fun hwf => ?_, hhist1, hhist2, fun c hc => (hinactive c hc).1⟩
  · obtain ⟨hwf', hpushed⟩ := pushRing_iterate_contents hwf s.extPm[v] m
    rw [hext]
    refine (popRing_iterate_contents hwf' n).2.trans ?_
    rw [hpushed]
    rfl
  · obtain ⟨hpri, haux, hqueue1, hqueue2⟩ := hout hwf
    exact ⟨hpri, haux, hqueue1, hqueue2, fun c hc => (hinactive c hc).2 hwf⟩

/-- After a clear a conversion at factor 1 leaves no history, as it keeps none. -/
theorem convertedHist_zeros (p : Params) (m : OsFactor) (x : List F32) :
    convertedHist p m (List.replicate (Units.histLen p m) Fp.posZero) x
      = if m = .x1 then [] else decimateHist (Units.taps p m) (List.replicate (Units.histLen p m) Fp.posZero) x := by
  by_cases hm : m = .x1
  · rw [convertedHist, if_pos hm, if_pos hm, hm]
    rfl
  · rw [convertedHist, if_neg hm, if_neg hm]

/-- Settles O49: the frame found is output, or after a latch the first frame of the block rendered from the latched voices. -/
theorem tickOutput : Obligations.TickOutput := fun s t ht v => by
  rw [exec_tick] at ht
  cases ht
  have htick := tick_eq Config.build s
  refine ⟨fun hv => ?_, fun hos hsr hsome => ?_, fun hpending => ?_⟩
  · rw [htick]
    exact outputs_tickAudio_inactive Config.build s.channels _ hv
  · rw [htick, latched_of_idle _ hos hsr]
    obtain ⟨houtq, -, hout⟩ := tickAudio_output_of_frame Config.build s.channels hsome
    exact ⟨houtq, hout v⟩
  · obtain ⟨hos, hfs, -⟩ := tick_rates Config.build s
    rw [hos, hfs, htick]
    intro p fo hfo hv hwf hwfOut m n ext blk pri aux h zeros sample queued kept frames
    obtain ⟨-, houtq, hhist⟩ := latched_buffers p hpending
    have hfactor := (latched_rates p s).1
    have hempty : (latched p s).outq.n = 0 := by rw [houtq, ringClear_n]
    have hwfClear : RingWf zeroFrame (Units.capOut p) (latched p s).outq := houtq ▸ ringWf_clear hwfOut
    have hzeros (c : Fin 32) : (latched p s).hist[c] = zeros := by
      rw [hhist]
      exact Vector.getElem_replicate c.isLt
    have hactive := tickAudio_active_of_empty p s.channels hempty hv
    have hinactive (c : Fin 32) (hc : s.channels.toNat ≤ c.val / 2) := tickAudio_inactive_of_empty p s.channels hempty hc
    rw [tickBlock_latched p hpending hfo hwf] at hactive
    simp only [hzeros, hfactor, blockLen_latched] at hactive hinactive
    have hkept (x : List F32) : convertedHist p s.osFactor zeros x = kept x := convertedHist_zeros p s.osFactor x
    simp only [hkept] at hactive hinactive
    obtain ⟨hhist1, hhist2, hout⟩ := hactive
    obtain ⟨hpri, haux, hqueue1, hqueue2⟩ := hout hwfClear
    exact ⟨hpri, haux, hqueue1, hqueue2, hhist1, hhist2,
      fun c hc => ⟨(hinactive c hc).2 hwfClear, (hinactive c hc).1⟩⟩

end Sys2Proof.Machine
end

section
/-! PROOFS. Events and control (spec/60_exceptions.md R340 to R362): what an instruction keeps of the record in STATUS and of the
requests issued, the pure DIAG commands, and a step that performs no request. -/

namespace Sys2Proof.Machine

open Sys2Proof.Config (Params)

/-! ## What is on record: the requests issued and the sticky bits (R340, R345) -/

/-- All that `s` has on record is on record in `t`: the requests issued, and every sticky bit that is set. -/
structure KeepsRecord (s t : State) : Prop where
  inbox : t.inbox = s.inbox
  flags : s.flags &&& t.flags = s.flags

namespace KeepsRecord

theorem of_eq {s t : State} (hinbox : t.inbox = s.inbox) (hflags : t.flags = s.flags) : KeepsRecord s t :=
  ⟨hinbox, by rw [hflags, BitVec.and_self]⟩

theorem refl (s : State) : KeepsRecord s s := of_eq rfl rfl

/-- An event only adds to the record (R341). It may come after a store: `t` is then `s` with a register written. -/
theorem raise (e : Event) {s t : State} (hinbox : t.inbox = s.inbox) (hflags : t.flags = s.flags) :
    KeepsRecord s (raise e t) where
  inbox := hinbox
  flags := by
    rw [raise_flags, hflags]
    ext i hi
    simp only [BitVec.getElem_and, BitVec.getElem_or]
    cases s.flags[i] <;> simp

theorem bit {s t : State} (h : KeepsRecord s t) {k : Fin 8} (hk : s.flags[k] = true) : t.flags[k] = true := by
  have hand : (s.flags &&& t.flags)[k] = true := by rw [h.flags, hk]
  rw [Fin.getElem_fin, BitVec.getElem_and, Bool.and_eq_true] at hand
  exact hand.2

theorem flags_ne_zero {s t : State} (h : KeepsRecord s t) (hs : s.flags ≠ 0) : t.flags ≠ 0 := fun ht =>
  hs (by rw [← h.flags, ht]; exact BitVec.and_zero)

end KeepsRecord

theorem keepsRecord_tick (p : Params) (s : State) : KeepsRecord s (tick p s) where
  inbox := by
    have hkept := tick_kept p s
    simp only [keptByTick, Prod.mk.injEq] at hkept
    obtain ⟨-, -, hinbox, -⟩ := hkept
    exact hinbox
  flags := by
    obtain ⟨ovf, unf, hstatus, -⟩ := statusBits_tick p s
    rw [recorded_pmOvf_pmUnf] at hstatus
    obtain ⟨hflags, -⟩ := Prod.mk.inj hstatus
    rw [hflags]
    exact (flags_or_events ovf unf s.flags).2

/-- RESET leaves STATUS[7:0], LAST_CODE and the requests issued as they were. -/
theorem softReset_record (p : Params) (s : State) :
    (softReset p s).flags = s.flags ∧ (softReset p s).lastCode = s.lastCode ∧ (softReset p s).inbox = s.inbox := by
  simp only [softReset, clearBuffers_flags, clearBuffers_lastCode, clearBuffers_inbox, mapVoices_flags, mapVoices_lastCode,
    mapVoices_inbox, and_self]

theorem keepsRecord_runCommand (p : Params) (i : Instr) (s : State) : KeepsRecord s (runCommand p i s) := by
  cases i with
  | tick => exact keepsRecord_tick p s
  | reset =>
    obtain ⟨hflags, -, hinbox⟩ := softReset_record p s
    exact .of_eq hinbox hflags
  | clear => exact .of_eq (clearBuffers_inbox p s) (clearBuffers_flags p s)
  | phSetsr v u =>
    rw [runCommand, phSetsr]
    split
    exacts [.of_eq rfl rfl, .raise _ rfl rfl]
  | smInit v u mode =>
    rw [runCommand, smInit_eq]
    split
    exacts [.of_eq rfl rfl, .raise _ rfl rfl]
  | rbPush v =>
    rw [runCommand, rbPush]
    rcases pushPm_cases p v s.opA[0] s with ⟨-, h⟩ | ⟨-, h⟩ <;> rw [h]
    exacts [.raise _ rfl rfl, .of_eq rfl rfl]
  | rbPop v =>
    have hpop : KeepsRecord s (popPmState p v s) := by
      rcases popPm_cases p v s with ⟨-, -, h⟩ | ⟨-, -, h⟩ <;> rw [h]
      exacts [.raise _ rfl rfl, .of_eq rfl rfl]
    exact { hpop with }
  | regWr a w => exact .raise _ rfl rfl
  | regRd a => exact .raise _ rfl rfl
  | _ => exact .of_eq rfl rfl

/-- A register write that is neither a command nor a write to STATUS stores a value, raises an event, or does both. -/
theorem keepsRecord_writeReg (p : Params) {r : Reg} (w : Word) (s : State) (hcmd : r ≠ .cmd) (hstatus : r ≠ .status) :
    KeepsRecord s (writeReg p r w s) := by
  have hrefused : KeepsRecord s (raise .cfgIgn s) := .raise _ rfl rfl
  cases r with
  | cmd => exact absurd rfl hcmd
  | status => exact absurd rfl hstatus
  | sampleRate =>
    rw [writeReg, writeSampleRate]
    split
    exacts [.of_eq rfl rfl, hrefused]
  | channels =>
    rw [writeReg, writeChannels]
    split_ifs
    exacts [.of_eq rfl rfl, .of_eq rfl rfl, hrefused]
  | alg1 =>
    rw [writeReg, writeAlg1_eq]
    exact storeNamed_induct hrefused fun _ => by split; exacts [.refl s, .raise _ rfl rfl]
  | alg2 =>
    rw [writeReg, writeAlg2_eq]
    exact storeNamed_induct hrefused fun _ => by split; exacts [.refl s, .raise _ rfl rfl]
  | osFactor => rw [writeReg, writeOsFactor_eq]; exact storeNamed_induct hrefused fun _ => .of_eq rfl rfl
  | routing => rw [writeReg, writeRouting_eq]; exact storeNamed_induct hrefused fun _ => .of_eq rfl rfl
  | window => rw [writeReg, writeWindow_eq]; exact storeNamed_induct hrefused fun _ => .of_eq rfl rfl
  | auxMode => rw [writeReg, writeAuxMode_eq]; exact storeNamed_induct hrefused fun _ => .of_eq rfl rfl
  | ratioIdx => rw [writeReg, writeRatioIdx_eq]; exact storeNamed_induct hrefused fun _ => .of_eq rfl rfl
  | amt1 | amt2 | depth | freq | extPm | opA | opB | opC | opD => exact .of_eq rfl rfl
  | id | outChannels | outqLevel | ratioValue | outPri | outAux | extqLevel | res => exact .raise _ rfl rfl

theorem keepsRecord_busRead (a : BitVec 12) (s : State) : KeepsRecord s (busRead a s) := by
  rcases busRead_cases a s with ⟨-, h⟩ | ⟨r, -, h⟩ <;> rw [h]
  · have hraise : KeepsRecord s (raise .busErr s) := .raise _ rfl rfl
    exact { hraise with }
  · exact .of_eq rfl rfl

theorem keepsRecord_writeCommand (p : Params) (w : Word) (s : State) : KeepsRecord s (writeCommand p w s) := by
  rcases writeCommand_cases p w s with ⟨i, -, h⟩ | ⟨-, h⟩ <;> rw [h]
  exacts [keepsRecord_runCommand p i s, .raise _ rfl rfl]

/-- A REG_WR clears sticky bits at the address of STATUS, and keeps all that is on record at every other (R345). -/
theorem busWrite_record (p : Params) (a : BitVec 12) (w : Word) (s : State) :
    (a = regAddr .status ∧ busWrite p a w s = clearStatus w s) ∨ KeepsRecord s (busWrite p a w s) := by
  rcases busWrite_cases p a w s with ⟨-, h⟩ | ⟨r, hr, -, h⟩ <;> rw [h]
  · exact .inr (.raise _ rfl rfl)
  by_cases hstatus : r = .status
  · subst hstatus
    exact .inl ⟨regAt_eq_some_iff.mp hr, rfl⟩
  by_cases hcmd : r = .cmd
  · subst hcmd
    exact .inr (keepsRecord_writeCommand p w s)
  · exact .inr (keepsRecord_writeReg p w s hcmd hstatus)

/-- An instruction completes, as the one write that clears sticky bits or with all that is on record kept. -/
theorem exec_record (i : Instr) (s : State) :
    (∃ w, i = .regWr (regAddr .status) w ∧ exec i s = .next (clearStatus w s))
    ∨ ∃ t, exec i s = .next t ∧ KeepsRecord s t := by
  rcases exec_cases i s with ⟨a, w, rfl, h⟩ | ⟨a, -, h⟩ | h
  · rcases busWrite_record Config.build a w s with ⟨rfl, hclear⟩ | hkeeps
    · exact .inl ⟨w, rfl, h.trans (congrArg _ hclear)⟩
    · exact .inr ⟨_, h, hkeeps⟩
  · exact .inr ⟨_, h, keepsRecord_busRead a s⟩
  · exact .inr ⟨_, h, keepsRecord_runCommand Config.build i s⟩

/-- Settles O25: the write that clears sticky bits leaves the requests issued, and so does every other instruction. -/
theorem nothingStops : Obligations.NothingStops := fun i s => by
  rcases exec_record i s with ⟨w, -, h⟩ | ⟨t, h, hkeeps⟩
  · exact ⟨_, h, clearStatus_inbox w s⟩
  · exact ⟨t, h, hkeeps.inbox⟩

/-! ## What clears a sticky bit (R345) -/

/-- A request that decodes to a REG_WR is that write on the bus (30_encoding.md R131). -/
theorem eq_of_decodeRequest_regWr {r : BusRequest} {a : BitVec 12} {w : Word} (h : decodeRequest r = .regWr a w) :
    r = ⟨1#1 ++ a, w⟩ := by
  have hwrite : r.header.msb = true ∧ r.header.extractLsb' 0 12 = a ∧ r.data = w := by
    unfold decodeRequest at h
    dsimp only at h
    split_ifs at h with hmsb haddr
    · split at h
      · next i hi => exact absurd h ((encode_of_decodeCommand hi).2 a w)
      · exact ⟨hmsb, Instr.regWr.inj h⟩
    · exact ⟨hmsb, Instr.regWr.inj h⟩
  obtain ⟨hmsb, rfl, rfl⟩ := hwrite
  have hheader : r.header = 1#1 ++ r.header.extractLsb' 0 12 := by
    rw [BitVec.msb_eq_getLsbD_last] at hmsb
    ext k hk
    rw [BitVec.getElem_append]
    split
    · rw [BitVec.getElem_extractLsb', Nat.zero_add, BitVec.getLsbD_eq_getElem hk]
    · obtain rfl : k = 12 := by omega
      simpa using hmsb
  exact congrArg (BusRequest.mk · r.data) hheader

/-- A step is a hardware reset or a REG_WR to STATUS, or keeps every sticky bit. -/
theorem step_record {s t : State} (h : step s = .next t) :
    (∃ rest, s.inbox = .hardReset :: rest ∧ t = hardwareReset Config.build { s with inbox := rest })
    ∨ (∃ rest d, s.inbox = .request ⟨0x1008, d⟩ :: rest ∧ t = clearStatus d { s with inbox := rest })
    ∨ ∃ rest, KeepsRecord { s with inbox := rest } t := by
  rcases step_cases h with ⟨-, rfl⟩ | hreset | ⟨r, rest, hin, hexec⟩
  · exact .inr (.inr ⟨t.inbox, .refl t⟩)
  · exact .inl hreset
  rcases exec_record (decodeRequest r) { s with inbox := rest } with ⟨d, hdec, hclear⟩ | ⟨t', hkept, hkeeps⟩
  · obtain rfl := eq_of_decodeRequest_regWr hdec
    rw [hclear] at hexec
    cases hexec
    exact .inr (.inl ⟨rest, d, hin, rfl⟩)
  · rw [hkept] at hexec
    cases hexec
    exact .inr (.inr ⟨rest, hkeeps⟩)

/-- A sticky bit that a write to STATUS clears is set in the word written (10_state.md R46). -/
theorem getLsbD_of_clearStatus {d : Word} {s : State} {k : Fin 8} (hset : s.flags[k] = true)
    (hclear : (clearStatus d s).flags[k] = false) : d.getLsbD k.val = true := by
  rw [clearStatus_flags, Fin.getElem_fin, BitVec.getElem_and, ← Fin.getElem_fin, hset] at hclear
  simpa using hclear

/-- A write to STATUS that leaves no sticky bit set makes LAST_CODE 0 (10_state.md R46). -/
theorem lastCode_clearStatus_of_flags {d : Word} {s : State} (h : (clearStatus d s).flags = 0) :
    (clearStatus d s).lastCode = 0 := by
  rw [clearStatus_lastCode]
  exact if_pos h

/-- Settles O21: the two steps that clear a sticky bit are the two named, and every other keeps those that are set. -/
theorem stickyBitsStay : Obligations.StickyBitsStay := by
  refine ⟨fun s t k hstep hset hclear => ?_, fun s t hstep hs ht => ?_, fun s t h => ?_⟩
  · rcases step_record hstep with ⟨rest, hin, -⟩ | ⟨rest, d, hin, rfl⟩ | ⟨rest, hkeeps⟩
    · exact ⟨rest, .inl hin⟩
    · exact ⟨rest, .inr ⟨d, hin, getLsbD_of_clearStatus hset hclear⟩⟩
    · exact absurd (hkeeps.bit hset) (by simp [hclear])
  · rcases step_record hstep with ⟨rest, -, rfl⟩ | ⟨rest, d, -, rfl⟩ | ⟨rest, hkeeps⟩
    · rfl
    · exact lastCode_clearStatus_of_flags ht
    · exact absurd ht (hkeeps.flags_ne_zero hs)
  · rw [exec_reset] at h
    cases h
    obtain ⟨hflags, hcode, -⟩ := softReset_record Config.build s
    exact ⟨hflags, hcode⟩

/-! ## The pure DIAG commands (R362) -/

section pure

variable {s t : State}

theorem lanes1_congr_operands (f : F32 → F32) (hA : s.opA = t.opA) : lanes1 f s = lanes1 f t := by
  rw [lanes1, lanes1, hA]

theorem lanes2_congr_operands (f : F32 → F32 → F32) (hA : s.opA = t.opA) (hB : s.opB = t.opB) :
    lanes2 f s = lanes2 f t := by
  rw [lanes2, lanes2, hA, hB]

theorem lanes4_congr_operands (f : F32 → F32 → F32 → F32 → F32) (hA : s.opA = t.opA) (hB : s.opB = t.opB)
    (hC : s.opC = t.opC) (hD : s.opD = t.opD) : lanes4 f s = lanes4 f t := by
  rw [lanes4, lanes4, hA, hB, hC, hD]

/-- A command that writes RES only, by a function with the same value in both states, writes the same RES in both. -/
theorem exists_res_of_congr {i : Instr} {r : State → Vector F32 4} (hexec : ∀ u, exec i u = .next (setRes u (r u)))
    (h : r s = r t) :
    ∃ r : Vector F32 4, exec i s = .next { s with res := r } ∧ exec i t = .next { t with res := r } :=
  ⟨r s, hexec s, by rw [hexec t, h]; rfl⟩

end pure

/-- Settles O24: each command applies a function of its operands, PM_INJECT of the ratio too, to each lane. -/
theorem pureCommandsWriteOnlyRes : Obligations.PureCommandsWriteOnlyRes := fun i hi s t hA hB hC hD hratio => by
  simp only [List.mem_cons, List.not_mem_nil, or_false] at hi
  obtain (rfl | rfl | rfl | rfl | rfl | rfl | rfl | rfl | rfl) | ⟨w, rfl⟩ := hi
  · exact exists_res_of_congr exec_pdBend (lanes2_congr_operands _ hA hB)
  · exact exists_res_of_congr exec_pdSync (lanes2_congr_operands _ hA hB)
  · exact exists_res_of_congr exec_pdFormant (lanes2_congr_operands _ hA hB)
  · exact exists_res_of_congr exec_pdFold (lanes2_congr_operands _ hA hB)
  · exact exists_res_of_congr exec_fnSin2pi (lanes1_congr_operands _ hA)
  · exact exists_res_of_congr exec_fnCos2pi (lanes1_congr_operands _ hA)
  · exact exists_res_of_congr exec_fnExp (lanes1_congr_operands _ hA)
  · exact exists_res_of_congr exec_fnExp2 (lanes1_congr_operands _ hA)
  · refine exists_res_of_congr exec_pmInject ?_
    rw [hratio]
    exact lanes4_congr_operands _ hA hB hC hD
  · exact exists_res_of_congr (exec_winEval · w) (lanes1_congr_operands _ hA)

/-! ## Steps that perform no request (R353; 70_reset_and_hazards.md R370) -/

/-- Settles O8: a step with an empty queue, and one whose oldest event is a hardware reset. -/
theorem stepWithoutRequest : Obligations.StepWithoutRequest := fun _ =>
  ⟨step_of_idle, fun _ => step_of_hardReset⟩

end Sys2Proof.Machine
end
